-- ==== Sys2Proof/Word.lean ====
section
/-!
DEFINITION. The word types of KZE (00_scope.md R8, R9): numbers the spec treats as bit patterns are bit vectors of the
stated width; counts, sizes and indexes are natural numbers.
-/

namespace Sys2Proof

/-- 8 bits (00_scope.md R9). -/
abbrev Byte := BitVec 8

/-- A `u64`: the coder's registers, a CSR as `CSRR` answers it, the value part of a response. -/
abbrev Word := BitVec 64

/-- A 128-bit command word `cmd[127:0]` (30_encoding.md R100). -/
abbrev CmdWord := BitVec 128

/-- An entry of a probability table: an unsigned 16-bit number (41_apm.md R171, 42_predictors.md R202). -/
abbrev Prob16 := BitVec 16

/-- A probability on the 12-bit scale, `[0..4095]` (42_predictors.md R200). -/
abbrev Prob12 := BitVec 12

end Sys2Proof
end

