-- ==== Sys2Proof/Syntax.lean ====
section
/-!
DEFINITION. The 38 commands of KZE (30_encoding.md R105), one constructor a row of spec/opcode_table.json, with the
operands in the order of rule R105. Each operand has the width of its field, so every term is the content of a command word.
-/

namespace Sys2Proof

/-- A command. -/
inductive Instr where
  /-- `NOP` (R370). -/
  | nop
  /-- `RESET` (R371). -/
  | reset
  /-- `CSRR idx` (R372). -/
  | csrr (idx : BitVec 8)
  /-- `CSRW idx, value` (R373). -/
  | csrw (idx : BitVec 8) (value : Word)
  /-- `BW_OPEN kind` (R132). -/
  | bwOpen (kind : BitVec 8)
  /-- `BW_BIT bit` (R134). -/
  | bwBit (bit : Bool)
  /-- `BW_BITS len, value` (R133). -/
  | bwBits (len : BitVec 8) (value : Word)
  /-- `BW_CLOSE` (R135). -/
  | bwClose
  /-- `BR_OPEN kind` (R141). -/
  | brOpen (kind : BitVec 8)
  /-- `BR_BIT` (R143). -/
  | brBit
  /-- `BR_BITS len` (R142). -/
  | brBits (len : BitVec 8)
  /-- `BR_MORE` (R144). -/
  | brMore
  /-- `BR_CLOSE` (R145). -/
  | brClose
  /-- `BR_READ` (R147). -/
  | brRead
  /-- `APM_INIT slot, variant, rate, n` (R176). -/
  | apmInit (slot : BitVec 4) (variant : BitVec 2) (rate : BitVec 4) (n : BitVec 32)
  /-- `APM_GET slot, bit, pr, ctx` (R177). -/
  | apmGet (slot : BitVec 4) (bit : Bool) (pr : Prob12) (ctx : BitVec 32)
  /-- `PR_INIT slot, kind, arg` (R204). -/
  | prInit (slot : BitVec 4) (kind : BitVec 8) (arg : BitVec 32)
  /-- `PR_GET slot` (R205). -/
  | prGet (slot : BitVec 4)
  /-- `PR_UPDATE slot, bit` (R206). -/
  | prUpdate (slot : BitVec 4) (bit : Bool)
  /-- `PR_SETCTX slot, byte` (R207). -/
  | prSetctx (slot : BitVec 4) (byte : Byte)
  /-- `BE_ENC_INIT pslot` (R237). -/
  | beEncInit (pslot : BitVec 4)
  /-- `BE_ENC_BIT bit` (R238). -/
  | beEncBit (bit : Bool)
  /-- `BE_ENC_BITS n, value` (R239). -/
  | beEncBits (n : BitVec 8) (value : Word)
  /-- `BE_ENC_DISPOSE` (R240). -/
  | beEncDispose
  /-- `BE_DEC_INIT pslot` (R241). -/
  | beDecInit (pslot : BitVec 4)
  /-- `BE_DEC_BIT` (R242). -/
  | beDecBit
  /-- `BE_DEC_BITS n` (R243). -/
  | beDecBits (n : BitVec 8)
  /-- `BE_DEC_DISPOSE` (R244). -/
  | beDecDispose
  /-- `BE_SETPRED pslot` (R245). -/
  | beSetpred (pslot : BitVec 4)
  /-- `ANS_ENC order, N, off` (R273). -/
  | ansEnc (order : BitVec 8) (n : BitVec 32) (off : BitVec 32)
  /-- `ANS_DEC order, N, off` (R274). -/
  | ansDec (order : BitVec 8) (n : BitVec 32) (off : BitVec 32)
  /-- `RZ_INIT backend, lpc` (R291). -/
  | rzInit (backend : BitVec 8) (lpc : BitVec 8)
  /-- `RZ_FWD` (R321). -/
  | rzFwd
  /-- `RZ_INV` (R331). -/
  | rzInv
  /-- `RZ_CHUNK newblock, start, size` (R299). -/
  | rzChunk (newblock : Bool) (start : BitVec 32) (size : BitVec 32)
  /-- `RZ_FIND p` (R300). -/
  | rzFind (p : BitVec 32)
  /-- `RZ_EMITLEN L, M` (R326). -/
  | rzEmitlen (l : BitVec 32) (m : BitVec 16)
  /-- `RZ_READLEN packed` (R336). -/
  | rzReadlen (packed : Word)
deriving DecidableEq, Repr

end Sys2Proof
end

