-- ==== Sys2Proof/Decode.lean ====
section
/-!
DEFINITION. The decoder, total on every 128-bit command word (30_encoding.md R100 to R107), and after it the encoder
(R101, R103, R111).
-/

namespace Sys2Proof

/-- Why a command word is no command. -/
inductive DecodeError where
  /-- The opcode is not one of the 38 (R106). -/
  | undefinedOpcode
  /-- A reserved bit of a defined command is 1 (R107). -/
  | reservedBits
deriving DecidableEq, Repr

/-- `cmd[127:120]`, the opcode (R101). -/
def fieldOpcode (w : CmdWord) : BitVec 8 := w.extractLsb' 120 8

/-- A row of the opcode map: the bits that must be zero (R102, R105) and the command read from a word. -/
structure OpcodeRow where
  reserved : CmdWord
  build : CmdWord → Instr

/-- The opcode map (R105), by opcode. -/
def opcodeRow : Nat → Option OpcodeRow
  | 0x00 => some { reserved := 0x00FFFFFFFFFFFFFFFFFFFFFFFFFFFFFF#128, build := fun _ => .nop }
  | 0x01 => some { reserved := 0x00FFFFFFFFFFFFFFFFFFFFFFFFFFFFFF#128, build := fun _ => .reset }
  | 0x02 => some { reserved := 0x0000FFFFFFFFFFFFFFFFFFFFFFFFFFFF#128, build := fun w => .csrr (w.extractLsb' 112 8) }
  | 0x03 => some { reserved := 0x0000FFFFFFFFFFFF0000000000000000#128, build := fun w => .csrw (w.extractLsb' 112 8) (w.extractLsb' 0 64) }
  | 0x10 => some { reserved := 0x0000FFFFFFFFFFFFFFFFFFFFFFFFFFFF#128, build := fun w => .bwOpen (w.extractLsb' 112 8) }
  | 0x11 => some { reserved := 0x00FEFFFFFFFFFFFFFFFFFFFFFFFFFFFF#128, build := fun w => .bwBit (w.getLsbD 112) }
  | 0x12 => some { reserved := 0x0000FFFFFFFFFFFF0000000000000000#128, build := fun w => .bwBits (w.extractLsb' 112 8) (w.extractLsb' 0 64) }
  | 0x13 => some { reserved := 0x00FFFFFFFFFFFFFFFFFFFFFFFFFFFFFF#128, build := fun _ => .bwClose }
  | 0x20 => some { reserved := 0x0000FFFFFFFFFFFFFFFFFFFFFFFFFFFF#128, build := fun w => .brOpen (w.extractLsb' 112 8) }
  | 0x21 => some { reserved := 0x00FFFFFFFFFFFFFFFFFFFFFFFFFFFFFF#128, build := fun _ => .brBit }
  | 0x22 => some { reserved := 0x0000FFFFFFFFFFFFFFFFFFFFFFFFFFFF#128, build := fun w => .brBits (w.extractLsb' 112 8) }
  | 0x23 => some { reserved := 0x00FFFFFFFFFFFFFFFFFFFFFFFFFFFFFF#128, build := fun _ => .brMore }
  | 0x24 => some { reserved := 0x00FFFFFFFFFFFFFFFFFFFFFFFFFFFFFF#128, build := fun _ => .brClose }
  | 0x25 => some { reserved := 0x00FFFFFFFFFFFFFFFFFFFFFFFFFFFFFF#128, build := fun _ => .brRead }
  | 0x30 => some { reserved := 0x00F0FCF000000000FFFFFFFFFFFFFFFF#128, build := fun w => .apmInit (w.extractLsb' 112 4) (w.extractLsb' 104 2) (w.extractLsb' 96 4) (w.extractLsb' 64 32) }
  | 0x31 => some { reserved := 0x0070F00000000000FFFFFFFFFFFFFFFF#128, build := fun w => .apmGet (w.extractLsb' 112 4) (w.getLsbD 119) (w.extractLsb' 96 12) (w.extractLsb' 64 32) }
  | 0x40 => some { reserved := 0x00F0FF0000000000FFFFFFFFFFFFFFFF#128, build := fun w => .prInit (w.extractLsb' 112 4) (w.extractLsb' 96 8) (w.extractLsb' 64 32) }
  | 0x41 => some { reserved := 0x00F0FFFFFFFFFFFFFFFFFFFFFFFFFFFF#128, build := fun w => .prGet (w.extractLsb' 112 4) }
  | 0x42 => some { reserved := 0x0070FFFFFFFFFFFFFFFFFFFFFFFFFFFF#128, build := fun w => .prUpdate (w.extractLsb' 112 4) (w.getLsbD 119) }
  | 0x43 => some { reserved := 0x00F0FF00FFFFFFFFFFFFFFFFFFFFFFFF#128, build := fun w => .prSetctx (w.extractLsb' 112 4) (w.extractLsb' 96 8) }
  | 0x50 => some { reserved := 0x00F0FFFFFFFFFFFFFFFFFFFFFFFFFFFF#128, build := fun w => .beEncInit (w.extractLsb' 112 4) }
  | 0x51 => some { reserved := 0x00FEFFFFFFFFFFFFFFFFFFFFFFFFFFFF#128, build := fun w => .beEncBit (w.getLsbD 112) }
  | 0x52 => some { reserved := 0x0000FFFFFFFFFFFF0000000000000000#128, build := fun w => .beEncBits (w.extractLsb' 112 8) (w.extractLsb' 0 64) }
  | 0x53 => some { reserved := 0x00FFFFFFFFFFFFFFFFFFFFFFFFFFFFFF#128, build := fun _ => .beEncDispose }
  | 0x54 => some { reserved := 0x00F0FFFFFFFFFFFFFFFFFFFFFFFFFFFF#128, build := fun w => .beDecInit (w.extractLsb' 112 4) }
  | 0x55 => some { reserved := 0x00FFFFFFFFFFFFFFFFFFFFFFFFFFFFFF#128, build := fun _ => .beDecBit }
  | 0x56 => some { reserved := 0x0000FFFFFFFFFFFFFFFFFFFFFFFFFFFF#128, build := fun w => .beDecBits (w.extractLsb' 112 8) }
  | 0x57 => some { reserved := 0x00FFFFFFFFFFFFFFFFFFFFFFFFFFFFFF#128, build := fun _ => .beDecDispose }
  | 0x58 => some { reserved := 0x00F0FFFFFFFFFFFFFFFFFFFFFFFFFFFF#128, build := fun w => .beSetpred (w.extractLsb' 112 4) }
  | 0x60 => some { reserved := 0x0000FFFF00000000FFFFFFFF00000000#128, build := fun w => .ansEnc (w.extractLsb' 112 8) (w.extractLsb' 64 32) (w.extractLsb' 0 32) }
  | 0x61 => some { reserved := 0x0000FFFF00000000FFFFFFFF00000000#128, build := fun w => .ansDec (w.extractLsb' 112 8) (w.extractLsb' 64 32) (w.extractLsb' 0 32) }
  | 0x70 => some { reserved := 0x0000FF00FFFFFFFFFFFFFFFFFFFFFFFF#128, build := fun w => .rzInit (w.extractLsb' 112 8) (w.extractLsb' 96 8) }
  | 0x71 => some { reserved := 0x00FFFFFFFFFFFFFFFFFFFFFFFFFFFFFF#128, build := fun _ => .rzFwd }
  | 0x72 => some { reserved := 0x00FFFFFFFFFFFFFFFFFFFFFFFFFFFFFF#128, build := fun _ => .rzInv }
  | 0x73 => some { reserved := 0x00FEFFFF00000000FFFFFFFF00000000#128, build := fun w => .rzChunk (w.getLsbD 112) (w.extractLsb' 64 32) (w.extractLsb' 0 32) }
  | 0x74 => some { reserved := 0x00FFFFFF00000000FFFFFFFFFFFFFFFF#128, build := fun w => .rzFind (w.extractLsb' 64 32) }
  | 0x75 => some { reserved := 0x00FF000000000000FFFFFFFFFFFFFFFF#128, build := fun w => .rzEmitlen (w.extractLsb' 64 32) (w.extractLsb' 96 16) }
  | 0x76 => some { reserved := 0x00FFFFFFFFFFFFFF0000000000000000#128, build := fun w => .rzReadlen (w.extractLsb' 0 64) }
  | _ => none

/-- The command a word stands for: the opcode is checked first, then the reserved bits (R107). -/
def decode (w : CmdWord) : Except DecodeError Instr :=
  match opcodeRow (fieldOpcode w).toNat with
  | none => .error .undefinedOpcode
  | some row => if w &&& row.reserved = 0#128 then .ok (row.build w) else .error .reservedBits

/-- The instruction decoded from a row of spec/opcode_table.json: a command is one word of 128 bits, taken as the number
the table writes. -/
def decodeTableWord (_nbits w : Nat) : Option Instr :=
  match decode (BitVec.ofNat 128 w) with
  | .ok i => some i
  | .error _ => none

/-! ### The encoder -/

/-- The command word of the five fields: `opcode << 120 | a << 112 | b << 96 | c << 64 | v` (R101, R111). -/
def commandWord (opcode a : BitVec 8) (b : BitVec 16) (c : BitVec 32) (v : Word) : CmdWord := opcode ++ a ++ b ++ c ++ v

/-- A slot number as field `a`: `a[3:0]`. -/
def slotField (slot : BitVec 4) : BitVec 8 := 0#4 ++ slot

/-- A slot number and a data bit as field `a`: `bit << 7 | slot` (R111). -/
def bitSlotField (bit : Bool) (slot : BitVec 4) : BitVec 8 := BitVec.ofBool bit ++ 0#3 ++ slot

/-- A data bit as field `a`: `a[0]`. -/
def bitField (bit : Bool) : BitVec 8 := 0#7 ++ BitVec.ofBool bit

/-- The opcode of a command (R105). -/
def Instr.opcode : Instr → BitVec 8
  | .nop .. => 0x00#8
  | .reset .. => 0x01#8
  | .csrr .. => 0x02#8
  | .csrw .. => 0x03#8
  | .bwOpen .. => 0x10#8
  | .bwBit .. => 0x11#8
  | .bwBits .. => 0x12#8
  | .bwClose .. => 0x13#8
  | .brOpen .. => 0x20#8
  | .brBit .. => 0x21#8
  | .brBits .. => 0x22#8
  | .brMore .. => 0x23#8
  | .brClose .. => 0x24#8
  | .brRead .. => 0x25#8
  | .apmInit .. => 0x30#8
  | .apmGet .. => 0x31#8
  | .prInit .. => 0x40#8
  | .prGet .. => 0x41#8
  | .prUpdate .. => 0x42#8
  | .prSetctx .. => 0x43#8
  | .beEncInit .. => 0x50#8
  | .beEncBit .. => 0x51#8
  | .beEncBits .. => 0x52#8
  | .beEncDispose .. => 0x53#8
  | .beDecInit .. => 0x54#8
  | .beDecBit .. => 0x55#8
  | .beDecBits .. => 0x56#8
  | .beDecDispose .. => 0x57#8
  | .beSetpred .. => 0x58#8
  | .ansEnc .. => 0x60#8
  | .ansDec .. => 0x61#8
  | .rzInit .. => 0x70#8
  | .rzFwd .. => 0x71#8
  | .rzInv .. => 0x72#8
  | .rzChunk .. => 0x73#8
  | .rzFind .. => 0x74#8
  | .rzEmitlen .. => 0x75#8
  | .rzReadlen .. => 0x76#8

/-- The word of a command (R105, R111). -/
def encode : Instr → CmdWord
  | .nop => commandWord 0x00#8 0 0 0 0
  | .reset => commandWord 0x01#8 0 0 0 0
  | .csrr idx => commandWord 0x02#8 idx 0 0 0
  | .csrw idx value => commandWord 0x03#8 idx 0 0 value
  | .bwOpen kind => commandWord 0x10#8 kind 0 0 0
  | .bwBit bit => commandWord 0x11#8 (bitField bit) 0 0 0
  | .bwBits len value => commandWord 0x12#8 len 0 0 value
  | .bwClose => commandWord 0x13#8 0 0 0 0
  | .brOpen kind => commandWord 0x20#8 kind 0 0 0
  | .brBit => commandWord 0x21#8 0 0 0 0
  | .brBits len => commandWord 0x22#8 len 0 0 0
  | .brMore => commandWord 0x23#8 0 0 0 0
  | .brClose => commandWord 0x24#8 0 0 0 0
  | .brRead => commandWord 0x25#8 0 0 0 0
  | .apmInit slot variant rate n => commandWord 0x30#8 (slotField slot) (0#6 ++ variant ++ 0#4 ++ rate) n 0
  | .apmGet slot bit pr ctx => commandWord 0x31#8 (bitSlotField bit slot) (0#4 ++ pr) ctx 0
  | .prInit slot kind arg => commandWord 0x40#8 (slotField slot) (0#8 ++ kind) arg 0
  | .prGet slot => commandWord 0x41#8 (slotField slot) 0 0 0
  | .prUpdate slot bit => commandWord 0x42#8 (bitSlotField bit slot) 0 0 0
  | .prSetctx slot byte => commandWord 0x43#8 (slotField slot) (0#8 ++ byte) 0 0
  | .beEncInit pslot => commandWord 0x50#8 (slotField pslot) 0 0 0
  | .beEncBit bit => commandWord 0x51#8 (bitField bit) 0 0 0
  | .beEncBits n value => commandWord 0x52#8 n 0 0 value
  | .beEncDispose => commandWord 0x53#8 0 0 0 0
  | .beDecInit pslot => commandWord 0x54#8 (slotField pslot) 0 0 0
  | .beDecBit => commandWord 0x55#8 0 0 0 0
  | .beDecBits n => commandWord 0x56#8 n 0 0 0
  | .beDecDispose => commandWord 0x57#8 0 0 0 0
  | .beSetpred pslot => commandWord 0x58#8 (slotField pslot) 0 0 0
  | .ansEnc order n off => commandWord 0x60#8 order 0 n (0#32 ++ off)
  | .ansDec order n off => commandWord 0x61#8 order 0 n (0#32 ++ off)
  | .rzInit backend lpc => commandWord 0x70#8 backend (0#8 ++ lpc) 0 0
  | .rzFwd => commandWord 0x71#8 0 0 0 0
  | .rzInv => commandWord 0x72#8 0 0 0 0
  | .rzChunk newblock start size => commandWord 0x73#8 (bitField newblock) 0 start (0#32 ++ size)
  | .rzFind p => commandWord 0x74#8 0 0 p 0
  | .rzEmitlen l m => commandWord 0x75#8 0 m l 0
  | .rzReadlen packed => commandWord 0x76#8 0 0 0 packed

end Sys2Proof
end

