-- ==== Sys2Proof/Machine/Units.lean ====
section
/-!
DEFINITION. The units of KZE as plain data (10_state.md R20, R51 to R60): one structure a unit, every field a field the
spec's tables of state name. Tables are held sparsely: a list of (index, entry) pairs that lists no entry equal to what
the table's initialisation put there (Machine/Store.lean).
-/

namespace Sys2Proof.Machine

/-- A sparse table: the entries that differ from the table's initial contents, by rising index. -/
abbrev Table (w : Nat) := List (Nat × BitVec w)

/-- What a bit stream is bound to (40_bitstream.md R132, R141): `kind` 0 is the byte port, `kind` 1 the window of MEM. -/
inductive StreamKind where
  | port
  | window
deriving DecidableEq, Repr, Inhabited

/-- The bit writer `bw` (10_state.md R51, R52). `pos` is `buf.length`. -/
structure BitWriter where
  /-- `bw.open`. -/
  isOpen : Bool
  /-- `bw.kind`. -/
  kind : StreamKind
  /-- `bw.base`: the window's base latched at `BW_OPEN`. -/
  base : BitVec 32
  /-- `bw.cap`: the window's length latched at `BW_OPEN`. -/
  cap : BitVec 32
  /-- `bw.bits`: every bit accepted since `BW_OPEN`, in order, with the padding after `BW_CLOSE`. -/
  bits : List Bool
  /-- `bw.count`: the length of `bits` (a number, read modulo 2^64: DESIGN CHOICE, unsafe: log entry 11). -/
  count : Nat
  /-- `bw.sent`: bytes already delivered to the sink. -/
  sent : Nat
  /-- `bw.cur`: up to 63 accepted bits not yet in `buf`, left-aligned. -/
  cur : Word
  /-- `bw.avail`: free bits of `cur`, 1..64. -/
  avail : Nat
  /-- The `bw.pos` valid bytes of `bw.buf`: complete bytes not yet delivered. -/
  buf : List Byte
deriving DecidableEq, Repr, Inhabited

/-- `bw.pos` (10_state.md R52). -/
def BitWriter.pos (w : BitWriter) : Nat := w.buf.length

/-- The bit reader `br` (10_state.md R53, R54). `max` is `buf.length`. -/
structure BitReader where
  /-- `br.open`. -/
  isOpen : Bool
  /-- `br.kind`. -/
  kind : StreamKind
  /-- `br.base`: the window's base latched at `BR_OPEN`. -/
  base : BitVec 32
  /-- `br.len`: the window's length latched at `BR_OPEN`. -/
  len : BitVec 32
  /-- `br.count`: bits consumed since `BR_OPEN`. -/
  count : Nat
  /-- `br.fetched`: bytes taken from the source so far. -/
  fetched : Nat
  /-- `br.cur`: bits fetched and not consumed, the low `avail` bits, the next one the highest of them. -/
  cur : Word
  /-- `br.avail`: valid bits of `cur`, 0..64. -/
  avail : Nat
  /-- `br.buf[0 .. max-1]`: the bytes of the last fill. -/
  buf : List Byte
  /-- `br.pos`: bytes of `buf` already moved to `cur`. -/
  pos : Nat
deriving DecidableEq, Repr, Inhabited

/-- `br.max` (10_state.md R54). -/
def BitReader.max (r : BitReader) : Nat := r.buf.length

/-- The three shapes of an adaptive probability map (10_state.md R55). -/
inductive ApmVariant where
  | logistic
  | fastLogistic
  | linear
deriving DecidableEq, Repr, Inhabited

/-- One APM slot `apm[s]` (10_state.md R55). -/
structure ApmSlot where
  valid : Bool
  variant : ApmVariant
  /-- `rate`, 0..15: the update shift. -/
  rate : BitVec 4
  /-- `n`: the number of contexts. -/
  n : Nat
  /-- `data[0 .. n*rows-1]`, where it differs from what `APM_INIT` wrote (41_apm.md R175). -/
  data : Table 16
deriving DecidableEq, Repr, Inhabited

/-- A local model: the fields `logSize`, `probs`, `c1`, `ctx` of 42_predictors.md R203. -/
structure LocalModel where
  /-- `logSize`, 1..9. -/
  logSize : Nat
  /-- `probs[0 .. 256*size-1]`, where it differs from `LOCAL_INIT`. -/
  probs : Table 16
  /-- `c1`, 1..size-1: the sliding bit context. -/
  c1 : Nat
  /-- `ctx`: `prev_byte << logSize`. -/
  ctx : Nat
deriving DecidableEq, Repr, Inhabited

/-- `size` = `2^logSize` (42_predictors.md R202); 0 before any `PR_INIT`, its reset value of 10_state.md R56. -/
def LocalModel.size (m : LocalModel) : Nat := if m.logSize = 0 then 0 else 2 ^ m.logSize

/-- Which predictor a slot is (10_state.md R56, 42_predictors.md R201). -/
inductive PredKind where
  | none
  | fixed
  | localModel
  | refined
  | external
deriving DecidableEq, Repr, Inhabited

/-- One host predictor slot `pr[s]` (10_state.md R56). -/
structure PredSlot where
  kind : PredKind
  /-- FIXED: the constant returned. -/
  value : Prob12
  /-- LOCAL, REFINED: `logSize`, `probs`, `c1`, `ctx`. -/
  model : LocalModel
  /-- REFINED: the APM slot used. -/
  apmslot : BitVec 4
  /-- REFINED: the refined probability `get` returns. -/
  latched : Prob12
deriving DecidableEq, Repr, Inhabited

/-- The interval `[low, high]` of the binary coder (10_state.md R22). -/
structure Interval where
  low : Word
  high : Word
deriving DecidableEq, Repr, Inhabited

/-- `be.mode` (10_state.md R57). -/
inductive CoderMode where
  | idle
  | enc
  | dec
deriving DecidableEq, Repr, Inhabited

/-- The binary coder `be` (10_state.md R22, R57). -/
structure Coder where
  mode : CoderMode
  /-- `be.pslot`: the predictor slot the coder is bound to. -/
  pslot : Fin 2
  /-- `be.low`, `be.high`. -/
  iv : Interval
  /-- `be.current`: the 64 code bits under the interval (decoder). -/
  current : Word
deriving DecidableEq, Repr, Inhabited

/-- The ROLZ unit `rz` (10_state.md R59). -/
structure Rolz where
  ready : Bool
  /-- `rz.backend`: 0 before `RZ_INIT`, then 1 (fast) or 2 (extra). -/
  backend : BitVec 2
  /-- `rz.lpc` = logPosChecks: 0 before `RZ_INIT`, then 2..8. -/
  lpc : BitVec 4
  /-- `rz.counters[0 .. 65535]`, the nonzero ones. -/
  counters : Table 32
  /-- `rz.matches[0 .. 65536*posChecks-1]`, the nonzero (non-empty) ones. -/
  matchRing : Table 32
  /-- `rz.cvalid`. -/
  cvalid : Bool
  /-- `rz.cbase`. -/
  cbase : BitVec 32
  /-- `rz.csize`. -/
  csize : BitVec 32
  /-- The MODEL's own: how many bytes the window the chunk lies in has from `rz.cbase` on, latched with it
  (10_state.md R45, 20_memory.md R71; DEDUCED, unsafe: log entry 21). -/
  clen : BitVec 32
deriving DecidableEq, Repr, Inhabited

/-- `rz.posChecks` = `2^rz.lpc`; 0 before `RZ_INIT`, its reset value (10_state.md R59). -/
def Rolz.posChecks (z : Rolz) : Nat := if z.lpc = 0 then 0 else 2 ^ z.lpc.toNat

/-- `rz.mask` = `rz.posChecks - 1`; 0 before `RZ_INIT` (10_state.md R59). -/
def Rolz.mask (z : Rolz) : Nat := z.posChecks - 1

end Sys2Proof.Machine
end

