-- ==== Sys2Proof/Config.lean ====
section
/-!
DEFINITION. The configuration of KZE: the constants the spec fixes (00_scope.md R6), the sizing parameters an instance
chooses (00_scope.md R7), the open tables the model takes without knowing their values, and the free values.
Every open or free value is an opaque constant: no proof can see what it is.
-/

namespace Sys2Proof.Config

open Sys2Proof.Machine

/-! ### Constants (00_scope.md R6) -/

/-- `TOP`: the initial `high` of the binary coder, 56 one bits. -/
def top : Word := 0x00FFFFFFFFFFFFFF#64
/-- `RENORM_MASK`: bits 55..24 (90_conflicts.md C1). -/
def renormMask : Word := 0x00FFFFFFFF000000#64
/-- `MAX_BLOCK` = 2^27 bytes. -/
def maxBlock : Nat := 2 ^ 27
/-- `CHUNK_SIZE` = 2^26 bytes. -/
def chunkSize : Nat := 2 ^ 26
/-- `HASH_MASK` = `~(CHUNK_SIZE-1)` as a 32-bit word. -/
def hashMask : BitVec 32 := 0xFC000000#32
/-- `HASH_MUL`. -/
def hashMul : Nat := 200002979
/-- `MIN_MATCH`. -/
def minMatch : Nat := 3
/-- `MAX_MATCH`. -/
def maxMatch : Nat := 258
/-- `TAIL`: trailing bytes of a block copied verbatim. -/
def tail : Nat := 4
/-- `LOCAL_INIT`: the initial entry of a local-model table. -/
def localInit : Prob16 := 0x8000#16
/-- `LOCAL_RATE`: the shift of the local-model update. -/
def localRate : Nat := 5
/-- `NPRED`: host predictor slots (00_scope.md R7, fixed). -/
def nPred : Nat := 2
/-- The largest `NAPM` the spec allows (00_scope.md R7). -/
def maxApmSlots : Nat := 16
/-- Bytes of MEM: `AW` = 32 address bits (00_scope.md R7, 20_memory.md R70). -/
def memSize : Nat := 2 ^ 32
/-- `L` = 2^23, the lower bound of the ANS state (44_ans.md R261). -/
def ansL : Nat := 2 ^ 23
/-- The CSR `ID` (10_state.md R40). -/
def idWord : Word := 0x4B4E5A4900000007#64

/-- `rows`: 65 for Linear, 33 for Logistic and FastLogistic (`APM_ROWS`). -/
def apmRows : ApmVariant → Nat
  | .logistic => 33
  | .fastLogistic => 33
  | .linear => 65

/-! ### Sizing parameters (00_scope.md R7): held in `State.par`, constant while the machine runs -/

/-- The parameters an instance of KZE fixes. -/
structure Params where
  /-- `BUFSZ`: the byte buffer of the bit-packer. -/
  bufsz : Nat
  /-- `NAPM`: the number of APM slots. -/
  napm : Nat
  /-- `APM_MAXN`: the largest number of contexts of an APM slot. -/
  apmMaxN : Nat
deriving DecidableEq, Repr, Inhabited

/-- The ranges 00_scope.md R7 gives the parameters. -/
def Params.ok (p : Params) : Bool :=
  decide (8192 ≤ p.bufsz) && decide (p.bufsz % 8 = 0) && decide (1 ≤ p.napm) && decide (p.napm ≤ maxApmSlots)
    && decide (1 ≤ p.apmMaxN)

/-- The defaults of 00_scope.md R7: `BUFSZ` 8192, `NAPM` 4, `APM_MAXN` 65536. -/
def Params.default : Params := { bufsz := 8192, napm := 4, apmMaxN := 65536 }

/-! ### Open tables (92_eei_decisions.md section 8): a proof may use their ranges only, which their types give -/

/-- `STRETCH[p] + 2047`, a number in [0..4094] (41_apm.md R172; open parameter: DESIGN CHOICE, safe: log entry 1). -/
opaque stretchIndex : Prob12 → Fin 4095

/-- `STRETCH[p]`, in [-2047..2047] (41_apm.md R172). -/
def stretch (p : Prob12) : Int := ((stretchIndex p).val : Int) - 2047

/-- `APM_LOGISTIC_INIT[j]` for `j` in 0..32, in [0..65535] (41_apm.md R175; open parameter: DESIGN CHOICE, safe:
log entry 2). -/
opaque apmLogisticInit : Fin 33 → Prob16

/-- The external predictor behind the EXT port as what it answers to `get` after `init` and a sequence of `update`s
(newest bit first): every state type, initial state, `get` and `update` of 42_predictors.md R212 gives such a function
and nothing else of it can be seen (open parameter: DESIGN CHOICE, safe: log entry 3). -/
opaque extPredictor : List Bool → Prob12

/-! ### Free values: what 60_exceptions.md R398 leaves unspecified after an error in the middle of a command.
The argument is the number of the draw (`State.draws`), so that no two errors share a value (DEDUCED, unsafe in
which errors are in the middle of a command: log entry 4). -/

/-- The state of the bit writer after a mid-command error. -/
opaque unspecWriter : Nat → BitWriter
/-- The state of the bit reader after a mid-command error. -/
opaque unspecReader : Nat → BitReader
/-- The state of the binary coder after a mid-command error. -/
opaque unspecCoder : Nat → Coder
/-- The local model of the coder's predictor slot after a mid-command error. -/
opaque unspecModel : Nat → LocalModel
/-- The latched probability of the coder's predictor slot after a mid-command error. -/
opaque unspecLatched : Nat → Prob12
/-- The table of the APM slot of the coder's predictor slot after a mid-command error. -/
opaque unspecTable : Nat → Table 16
/-- The ROLZ unit after a mid-command error. -/
opaque unspecRolz : Nat → Rolz
/-- The byte at an address of the DST window after a mid-command error. -/
opaque unspecByte : Nat → Nat → Byte

/-- A byte the spec leaves arbitrary, its argument the number of the read (`Env.drawn`), so that no two reads share a value:
a byte of MEM the host writes while KZE uses it (20_memory.md R90; log entry 14), and an index past the end of the chunk's
window in a comparison of `RZ_FIND` (DESIGN CHOICE, safe: log entry 15). -/
opaque freeByte : Nat → Byte

/-- What the coding step of a symbol that its frequency table does not have gives, in place of 44_ans.md R270: a state and the
bytes it pushes; its arguments are the number of the draw (`Env.drawn`) and how many symbols were coded before it. Only a
race between the two reads of the data makes such a symbol (R273; DESIGN CHOICE, safe: log entry 19). -/
opaque freeStep : Nat → Nat → BitVec 32 × List Byte

end Sys2Proof.Config
end

