-- ==== Sys2Proof/Machine/Store.lean ====
section
/-!
DEFINITION. Sparse stores in one canonical form: a list of (index, entry) pairs by strictly rising index that lists no
entry equal to what an unlisted index reads as. MEM (20_memory.md R70) and every table of a unit are such stores, each
with its own default.
-/

namespace Sys2Proof.Machine

/-- The entry at index `k`: the listed one, else the default `d k`. -/
def Store.get {α : Type} (d : Nat → α) : List (Nat × α) → Nat → α
  | [], k => d k
  | (j, v) :: r, k => if j = k then v else Store.get d r k

/-- The store without index `k`. -/
def Store.erase {α : Type} (k : Nat) : List (Nat × α) → List (Nat × α)
  | [] => []
  | (j, v) :: r => if j = k then Store.erase k r else (j, v) :: Store.erase k r

/-- The store with `(k, v)` put before the first larger index. -/
def Store.insert {α : Type} (k : Nat) (v : α) : List (Nat × α) → List (Nat × α)
  | [] => [(k, v)]
  | (j, u) :: r => if k < j then (k, v) :: (j, u) :: r else (j, u) :: Store.insert k v r

/-- Writing `v` at index `k`: writing the default removes the entry. -/
def Store.set {α : Type} [DecidableEq α] (d : Nat → α) (l : List (Nat × α)) (k : Nat) (v : α) : List (Nat × α) :=
  if v = d k then Store.erase k l else Store.insert k v (Store.erase k l)

/-- Every index of the store is at least `b` and they rise strictly. -/
def Store.rising {α : Type} : Nat → List (Nat × α) → Bool
  | _, [] => true
  | b, (j, _) :: r => decide (b ≤ j) && Store.rising (j + 1) r

/-- The canonical form: indexes strictly rising, all below `bound`, and no entry equal to the default. -/
def Store.wf {α : Type} [DecidableEq α] (d : Nat → α) (bound : Nat) (l : List (Nat × α)) : Bool :=
  Store.rising 0 l && l.all (fun e => decide (e.1 < bound) && decide (e.2 ≠ d e.1))

/-- What an unlisted address of MEM reads as: the spec gives MEM no contents, it is the host's
(DESIGN CHOICE, unsafe: log entry 5). -/
def Memory.blank : Nat → Byte := fun _ => 0#8

/-- The byte of MEM at an address (20_memory.md R72). -/
def Memory.read (m : List (Nat × Byte)) (a : Nat) : Byte := Store.get Memory.blank m a

/-- MEM with the byte at an address replaced (20_memory.md R75). -/
def Memory.write (m : List (Nat × Byte)) (a : Nat) (b : Byte) : List (Nat × Byte) := Store.set Memory.blank m a b

/-- The canonical form of MEM: addresses strictly rising, below 2^32, no entry equal to what an unlisted address
reads as. -/
def Memory.wf (m : List (Nat × Byte)) : Bool := Store.wf Memory.blank (2 ^ 32) m

end Sys2Proof.Machine
end

