-- ==== Sys2Proof/Machine/State.lean ====
section
/-!
DEFINITION. The state of KZE as plain data (10_state.md), the ports and the memory it reaches (20_memory.md R70), what
stops a step, and the state after reset (10_state.md R62).
-/

namespace Sys2Proof.Machine

/-- Why a step stops. Only an access to an address that does not exist stops the machine: every error of the spec is a
next state (60_exceptions.md R396). -/
inductive Fault where
  /-- Raised by the memory accesses of Machine/Ops.lean at an address of 2^32 or more, which MEM does not have
  (20_memory.md R70). Safe: the window checks of R84 keep every address below it (R85), so that only a state whose latched
  windows leave the address space, which no run reaches, meets it (log entry 15). -/
  | addressOutsideMem (addr : Nat)
deriving DecidableEq, Repr

/-- Why an instruction has no meaning. -/
inductive Refusal where
  /-- Raised by an arm of `exec` whose instruction has no meaning yet; no arm raises it. Safe. -/
  | notModelled (mnemonic : String)
deriving DecidableEq, Repr

/-- One answer of the SRC port to `SrcGet` (20_memory.md R78); `end` is the end of the list of answers. -/
inductive SrcAnswer where
  | byte (b : Byte)
  | failure
deriving DecidableEq, Repr

/-- How far a command has come when the `rst` pin abandons it (70_reset_and_hazards.md R420): the spec gives no moments
(R440), so any three numbers may come (DESIGN CHOICE, safe: log entry 13). -/
structure Progress where
  /-- At most so many answers of the SRC port it has taken, its `end` among them. -/
  gets : Nat
  /-- At most so many bytes it has handed to the SINK port. -/
  puts : Nat
  /-- Its stores to MEM, which go to ascending addresses, have come to this address. -/
  below : Nat
deriving DecidableEq, Repr

/-- What the host does next (10_state.md R20, R24; 20_memory.md R70; 70_reset_and_hazards.md R420). -/
inductive HostInput where
  /-- A command word on the command port. -/
  | command (w : CmdWord)
  /-- The `rst` pin, asserted between two commands. -/
  | rstPin
  /-- A command word, and the `rst` pin asserted during that command, when it has come so far. -/
  | rstDuring (w : CmdWord) (p : Progress)
  /-- The host stores a byte in MEM, its own, between two commands (20_memory.md R70); in a window an open stream holds, that is
  a race (R90). -/
  | memWrite (a : BitVec 32) (b : Byte)
  /-- What the ports answer from now on (a SRC port that has reported `end` has no bytes any more), which addresses MEM fails
  (20_memory.md R77 to R79), and which the host writes while KZE uses them (R90). -/
  | ports (src : List SrcAnswer) (sinkAns : List Bool) (busErr raced : List (Nat × Nat))
deriving DecidableEq, Repr

/-- The 72-bit response word (30_encoding.md R104): `code` is bits 71..64, `value` bits 63..0. -/
structure Response where
  code : Byte
  value : Word
deriving DecidableEq, Repr

/-- The error latch (10_state.md R61): `STATUS.ERR`, `ERRCODE`, `ERRINFO`. -/
structure Latch where
  /-- `STATUS.ERR`, the level of the `err` line (60_exceptions.md R401). -/
  err : Bool
  /-- CSR `ERRCODE`. -/
  code : Byte
  /-- CSR `ERRINFO`. -/
  info : Word
deriving DecidableEq, Repr, Inhabited

/-- The window CSRs (10_state.md R45). -/
structure Windows where
  srcBase : BitVec 32
  srcLen : BitVec 32
  dstBase : BitVec 32
  dstCap : BitVec 32
deriving DecidableEq, Repr, Inhabited

/-- What belongs to the host and KZE reaches through its ports: MEM and the two byte ports (20_memory.md R70). -/
structure Env where
  /-- MEM, in the canonical form of `Memory.wf`. -/
  mem : List Host.Cell
  /-- The address ranges (base, length) whose accesses the MEM port answers with failure (20_memory.md R79;
  DESIGN CHOICE, unsafe: log entry 10). -/
  busErr : List (Nat × Nat)
  /-- The address ranges (base, length) the host writes while KZE uses them: a race, in which every byte KZE reads is
  arbitrary (20_memory.md R90; DESIGN CHOICE, safe: log entry 14). -/
  raced : List (Nat × Nat)
  /-- The addresses the host has stored to while an open stream held the window they lie in: until that stream is closed every
  byte KZE reads of them is arbitrary too (20_memory.md R90; log entry 14). -/
  dirtied : List Nat
  /-- The bytes delivered to the SINK port, the last one first. -/
  sink : List Byte
  /-- The SINK port's coming answers, `false` for a failure; past the end of the list it accepts (20_memory.md R77). -/
  sinkAns : List Bool
  /-- The SRC port's coming answers, as long as it has not reported its end (20_memory.md R78). -/
  src : List SrcAnswer
  /-- The SRC port has reported `end`, which it does from then on, whatever `src` lists (20_memory.md R78). -/
  srcEnd : Bool
  /-- The MODEL's own: how many arbitrary bytes have been read (DESIGN CHOICE: log entry 14). -/
  drawn : Nat
deriving DecidableEq, Repr

/-- The state of the machine. -/
structure State where
  /-- The error latch. -/
  latch : Latch
  /-- CSR `CMDCNT` (10_state.md R44). -/
  cmdCnt : Word
  /-- CSRs `SRCBASE`, `SRCLEN`, `DSTBASE`, `DSTCAP`. -/
  win : Windows
  /-- CSR `LOGRANGE` (10_state.md R47). -/
  logRange : BitVec 5
  /-- The bit writer. -/
  bw : BitWriter
  /-- The bit reader. -/
  br : BitReader
  /-- The APM slots; slots at and above `NAPM` are never used. -/
  apm : Vector ApmSlot 16
  /-- The host predictor slots. -/
  pr : Vector PredSlot 2
  /-- The binary coder. -/
  be : Coder
  /-- The ROLZ unit. -/
  rz : Rolz
  /-- MEM and the byte ports (the host's). -/
  env : Env
  /-- The bits the external predictor was updated with since its last `init`, newest first (42_predictors.md R212). -/
  ext : List Bool
  /-- What the host presents, first come first (the host's; DESIGN CHOICE, safe: log entry 6). -/
  inbox : List HostInput
  /-- The response port: the response to the last command; none since power-on or the `rst` pin (DESIGN CHOICE, safe:
  log entry 17). -/
  resp : Option Response
  /-- The instance's sizing parameters: constant (DESIGN CHOICE, safe: log entry 9). -/
  par : Config.Params
  /-- The MODEL's own: how many errors have left units unspecified (DESIGN CHOICE: log entry 4). -/
  draws : Nat
deriving DecidableEq, Repr

/-- The bit writer after reset (10_state.md R51, R52). -/
def BitWriter.reset : BitWriter :=
  { isOpen := false, kind := .port, base := 0, cap := 0, bits := [], count := 0, sent := 0, cur := 0, avail := 64,
    buf := [] }

/-- The bit reader after reset (10_state.md R53, R54). -/
def BitReader.reset : BitReader :=
  { isOpen := false, kind := .port, base := 0, len := 0, count := 0, fetched := 0, cur := 0, avail := 0, buf := [],
    pos := 0 }

/-- An APM slot after reset (10_state.md R55). -/
def ApmSlot.reset : ApmSlot := { valid := false, variant := .logistic, rate := 0, n := 0, data := [] }

/-- The local model of a predictor slot after reset (10_state.md R56). -/
def LocalModel.reset : LocalModel := { logSize := 0, probs := [], c1 := 1, ctx := 0 }

/-- A predictor slot after reset (10_state.md R56). -/
def PredSlot.reset : PredSlot := { kind := .none, value := 0, model := LocalModel.reset, apmslot := 0, latched := 2048 }

/-- The interval `[0, TOP]` (10_state.md R22). -/
def Interval.initial : Interval := { low := 0, high := Config.top }

/-- The binary coder after reset (10_state.md R22, R57). -/
def Coder.reset : Coder := { mode := .idle, pslot := 0, iv := Interval.initial, current := 0 }

/-- The ROLZ unit after reset (10_state.md R59). -/
def Rolz.reset : Rolz :=
  { ready := false, backend := 0, lpc := 0, counters := [], matchRing := [], cvalid := false, cbase := 0, csize := 0,
    clen := 0 }

/-- The error latch after reset (10_state.md R42, R43). -/
def Latch.clear : Latch := { err := false, code := 0, info := 0 }

/-- The machine right after power-on reset (10_state.md R62), with nothing presented by the host and the parameters at their
defaults. MEM lists nothing (DESIGN CHOICE, unsafe: log entry 5). The SRC port is at its end, the SINK port accepts every
byte and has none, MEM never fails and the host races with nothing: the spec leaves all of these to the host (DESIGN
CHOICE, unsafe: log entry 18). The tables the spec leaves unspecified list nothing (DESIGN CHOICE, unsafe: log entry 16). -/
def State.reset : State :=
  { latch := Latch.clear
    cmdCnt := 0
    win := { srcBase := 0, srcLen := 0, dstBase := 0, dstCap := 0 }
    logRange := 12
    bw := BitWriter.reset
    br := BitReader.reset
    apm := Vector.replicate 16 ApmSlot.reset
    pr := Vector.replicate 2 PredSlot.reset
    be := Coder.reset
    rz := Rolz.reset
    env :=
      { mem := [], busErr := [], raced := [], dirtied := [], sink := [], sinkAns := [], src := [], srcEnd := false,
        drawn := 0 }
    ext := []
    inbox := []
    resp := none
    par := Config.Params.default
    draws := 0 }

end Sys2Proof.Machine
end

