-- ==== Sys2Proof/Machine/Ops.lean ====
section
/-!
DEFINITION. The operations every command is written over: raising an error (60_exceptions.md R386), the accesses to MEM
(20_memory.md R72 to R79), the response (30_encoding.md R104), taking an error and the way out of it
(60_exceptions.md R396, R397, R404), and what an error in the middle of a command leaves unspecified (R398).
-/

namespace Sys2Proof.Machine

/-! ### Arithmetic -/

/-- `x >> k` on an integer: `floor(x / 2^k)`, also for a negative `x` (00_scope.md R10). -/
def asr (x : Int) (k : Nat) : Int := x / 2 ^ k

/-- `ceil(m / 8)`: the bytes that `m` bits take. -/
def bytesFor (m : Nat) : Nat := (m + 7) / 8

/-- The low `len` bits of `value`, the highest of them first (00_scope.md R9, 40_bitstream.md R133). -/
def bitsOf (value : Word) : Nat → List Bool
  | 0 => []
  | k + 1 => value.getLsbD k :: bitsOf value k

/-- The 8 bytes of a word, most significant first. -/
def beBytes (w : Word) : List Byte :=
  [w.extractLsb' 56 8, w.extractLsb' 48 8, w.extractLsb' 40 8, w.extractLsb' 32 8, w.extractLsb' 24 8,
   w.extractLsb' 16 8, w.extractLsb' 8 8, w.extractLsb' 0 8]

/-- `Pack` with `c` bits, of value `acc`, already gathered for the next byte. -/
def packFrom (acc c : Nat) : List Bool → List Byte
  | [] => if c = 0 then [] else [BitVec.ofNat 8 (acc * 2 ^ (8 - c))]
  | b :: r =>
    if c = 7 then BitVec.ofNat 8 (acc * 2 + b.toNat) :: packFrom 0 0 r else packFrom (acc * 2 + b.toNat) (c + 1) r

/-- `Pack(s)`: the bytes of a bit sequence, the first bit the most significant of the first byte, the last byte padded
with zeros in the low bits (40_bitstream.md R131). -/
def pack (bits : List Bool) : List Byte := packFrom 0 0 bits

/-! ### Raising an error -/

/-- The error kinds (60_exceptions.md R387). -/
inductive ErrKind where
  | invalidParameter
  | bufferTooSmall
  | invalidData
  | crcMismatch
  | ioError
  | endOfStream
  | unsupported
deriving DecidableEq, Repr

/-- The code of a kind (60_exceptions.md R387). -/
def ErrKind.code : ErrKind → Byte
  | .invalidParameter => 1
  | .bufferTooSmall => 2
  | .invalidData => 3
  | .crcMismatch => 4
  | .ioError => 5
  | .endOfStream => 6
  | .unsupported => 7

/-- A raised error (60_exceptions.md R386). `mid` says that it is raised in the middle of the command, after a state
change (R398). -/
structure Err where
  kind : ErrKind
  sub : Byte
  detail : BitVec 48
  mid : Bool
deriving DecidableEq, Repr

/-- Why the execution of a command's rule ends early. -/
inductive Abort where
  | raise (e : Err)
  | fault (f : Fault)
deriving DecidableEq, Repr

/-- A piece of a command's rule over a part `σ` of the state: it ends with a value, or early with the state it
had reached. -/
abbrev Cmd (σ α : Type) := EStateM Abort σ α

/-- `raise Kind(sub, detail)` by a check that precedes every state change (60_exceptions.md R386, R398). -/
def raise {σ α : Type} (kind : ErrKind) (sub : Byte) (detail : Nat := 0) : Cmd σ α :=
  fun s => .error (.raise { kind := kind, sub := sub, detail := BitVec.ofNat 48 detail, mid := false }) s

/-- `raise Kind(sub, detail)` in the middle of a command (60_exceptions.md R386, R398). -/
def raiseMid {σ α : Type} (kind : ErrKind) (sub : Byte) (detail : Nat := 0) : Cmd σ α :=
  fun s => .error (.raise { kind := kind, sub := sub, detail := BitVec.ofNat 48 detail, mid := true }) s

/-- `if bad: raise Kind(sub, detail)`. -/
def check {σ : Type} (bad : Bool) (kind : ErrKind) (sub : Byte) (detail : Nat := 0) : Cmd σ Unit :=
  if bad then raise kind sub detail else pure ()

/-- `if bad: raise Kind(sub, detail)` in the middle of a command. -/
def checkMid {σ : Type} (bad : Bool) (kind : ErrKind) (sub : Byte) (detail : Nat := 0) : Cmd σ Unit :=
  if bad then raiseMid kind sub detail else pure ()

/-- An error as raised in the middle of a command. -/
def Abort.inMidst : Abort → Abort
  | .raise e => .raise { e with mid := true }
  | .fault f => .fault f

/-- The rest `x` of a command that has already changed state: what it raises is raised in the middle of the command. -/
def midway {σ α : Type} (x : Cmd σ α) : Cmd σ α := fun s =>
  match x s with
  | .ok a t => .ok a t
  | .error e t => .error e.inMidst t

/-- A piece of a rule whose checks leave no trace of it (60_exceptions.md R398): when one of them raises, the state is the
one before the piece, under `f`; an error in the middle of the command leaves the state it had reached. -/
def reverting {σ α : Type} (f : σ → σ) (x : Cmd σ α) : Cmd σ α := fun s =>
  match x s with
  | .error (.raise e) t => .error (.raise e) (if e.mid then t else f s)
  | r => r

/-- A piece of a rule over a part of the state, run on the whole: everything outside the part stays. -/
def zoom {σ τ α : Type} (part : σ → τ) (put : τ → σ → σ) (x : Cmd τ α) : Cmd σ α := fun s =>
  match x (part s) with
  | .ok a t => .ok a (put t s)
  | .error e t => .error e (put t s)

/-! ### Updates of the state -/

/-- The state with the host's side replaced. -/
def State.withEnv (s : State) (e : Env) : State := { s with env := e }
/-- The state with the bit writer replaced. -/
def State.withBw (s : State) (w : BitWriter) : State := { s with bw := w }
/-- The state with the bit reader replaced. -/
def State.withBr (s : State) (r : BitReader) : State := { s with br := r }
/-- The state with the APM slots replaced. -/
def State.withApm (s : State) (a : Vector ApmSlot 16) : State := { s with apm := a }
/-- The state with the predictor slots replaced. -/
def State.withPr (s : State) (p : Vector PredSlot 2) : State := { s with pr := p }
/-- The state with the binary coder replaced. -/
def State.withBe (s : State) (b : Coder) : State := { s with be := b }
/-- The state with the ROLZ unit replaced. -/
def State.withRz (s : State) (z : Rolz) : State := { s with rz := z }
/-- The state with the external predictor's history replaced. -/
def State.withExt (s : State) (h : List Bool) : State := { s with ext := h }
/-- The state with the window CSRs replaced. -/
def State.withWin (s : State) (w : Windows) : State := { s with win := w }
/-- The state with `LOGRANGE` replaced. -/
def State.withLogRange (s : State) (v : BitVec 5) : State := { s with logRange := v }
/-- The state with the error latch replaced. -/
def State.withLatch (s : State) (l : Latch) : State := { s with latch := l }
/-- The state with the command counter replaced. -/
def State.withCmdCnt (s : State) (c : Word) : State := { s with cmdCnt := c }
/-- The state with the response port replaced. -/
def State.withResp (s : State) (r : Option Response) : State := { s with resp := r }
/-- The state with what the host presents replaced. -/
def State.withInbox (s : State) (q : List HostInput) : State := { s with inbox := q }
/-- The state after one more free value has been drawn. -/
def State.drawn (s : State) : State := { s with draws := s.draws + 1 }

/-! ### MEM -/

/-- The MEM port answers an access to this address with failure (20_memory.md R79). -/
def Env.busFails (e : Env) (a : Nat) : Bool := e.busErr.any (fun r => decide (r.1 ≤ a) && decide (a < r.1 + r.2))

/-- The accesses to an address that end early: an address MEM does not have, or a failing MEM port. -/
def Env.access (e : Env) (a : Nat) : Except Abort Unit :=
  if Config.memSize ≤ a then .error (.fault (.addressOutsideMem a))
  else if e.busFails a then
    .error (.raise { kind := .ioError, sub := 3, detail := BitVec.ofNat 48 a, mid := true })
  else .ok ()

/-- The host writes this address while KZE uses it, or has written it while an open stream holds it (20_memory.md R90). -/
def Env.isRaced (e : Env) (a : Nat) : Bool :=
  e.raced.any (fun r => decide (r.1 ≤ a) && decide (a < r.1 + r.2)) || e.dirtied.contains a

/-- The host's side after one more arbitrary byte has been read. -/
def Env.draw (e : Env) : Env := { e with drawn := e.drawn + 1 }

/-- A byte the spec leaves arbitrary. -/
def freeByte {U : Type} : Cmd (U × Env) Byte := fun t => .ok (Config.freeByte t.2.drawn) (t.1, t.2.draw)

/-- `MemRead(a, 1)` (20_memory.md R72, R79): an arbitrary byte at an address the host races on (R90; log entry 14). -/
def memRead {U : Type} (a : Nat) : Cmd (U × Env) Byte := fun t =>
  match t.2.access a with
  | .ok _ => if t.2.isRaced a then freeByte t else .ok (Memory.read t.2.mem a) t
  | .error x => .error x t

/-- `MemWrite(a, 1, v)` (20_memory.md R75, R79). -/
def memWrite {U : Type} (a : Nat) (v : Byte) : Cmd (U × Env) Unit := fun t =>
  match t.2.access a with
  | .ok _ => .ok () (t.1, { t.2 with mem := Memory.write t.2.mem a v })
  | .error x => .error x t

/-- The `n` bytes from `a` on, by ascending address (20_memory.md R76). -/
def memReadBytes {U : Type} (a : Nat) : Nat → Cmd (U × Env) (List Byte)
  | 0 => pure []
  | n + 1 => do
    let b ← memRead a
    let r ← memReadBytes (a + 1) n
    pure (b :: r)

/-- The `n` bytes from `a` on, read from the last one down, in front of `after`. -/
def memReadDown {U : Type} (a : Nat) : Nat → List Byte → Cmd (U × Env) (List Byte)
  | 0, after => pure after
  | n + 1, after => do
    let b ← memRead (a + n)
    memReadDown a n (b :: after)

/-- The bytes stored from `a` on, by ascending address (20_memory.md R76). -/
def memWriteBytes {U : Type} (a : Nat) : List Byte → Cmd (U × Env) Unit
  | [] => pure ()
  | b :: r => do
    memWrite a b
    memWriteBytes (a + 1) r

/-- `MemReadBE(a, 4)` (20_memory.md R74). -/
def memReadBE4 {U : Type} (a : Nat) : Cmd (U × Env) Nat := do
  let b0 ← memRead a
  let b1 ← memRead (a + 1)
  let b2 ← memRead (a + 2)
  let b3 ← memRead (a + 3)
  pure (2 ^ 24 * b0.toNat + 2 ^ 16 * b1.toNat + 2 ^ 8 * b2.toNat + b3.toNat)

/-- The four bytes `MemWriteBE(a, 4, v)` stores (20_memory.md R76). -/
def beBytes4 (v : BitVec 32) : List Byte :=
  [v.extractLsb' 24 8, v.extractLsb' 16 8, v.extractLsb' 8 8, v.extractLsb' 0 8]

/-- A piece of a rule that uses MEM only. -/
def onMem {α : Type} (x : Cmd (Unit × Env) α) : Cmd State α := zoom (fun s => ((), s.env)) (fun t s => s.withEnv t.2) x

/-! ### The response, and taking an error -/

/-- `respond(value)`: the command completes with code 0 and is counted (30_encoding.md R104, 10_state.md R44). -/
def respond (value : Word) (s : State) : State :=
  (s.withCmdCnt (s.cmdCnt + 1)).withResp (some { code := 0, value := value })

/-- `ERRINFO` of an error: the detail, the sub-cause and the opcode (60_exceptions.md R396). -/
def errInfo (opcode : Byte) (e : Err) : Word := e.detail ++ e.sub ++ opcode

/-- Taking an error (60_exceptions.md R396): the latch is written and is the response; nothing else is saved and control
goes nowhere. -/
def takeError (opcode : Byte) (e : Err) (s : State) : State :=
  (s.withLatch { err := true, code := e.kind.code, info := errInfo opcode e }).withResp
    (some { code := e.kind.code, value := errInfo opcode e })

/-- The refusal of a command by a faulted KZE: no state changes, the response is code 0xFF (60_exceptions.md R397). -/
def refuse (s : State) : State := s.withResp (some { code := 0xFF, value := 0 })

/-- The state every reset gives (10_state.md R62, 70_reset_and_hazards.md R420): every unit and CSR at its reset value;
MEM, the ports, the external predictor and what the host presents stay, and no stream holds a window any more. The way out of
the faulted state (60_exceptions.md R404). -/
def State.resetUnits (s : State) : State :=
  { State.reset with env := { s.env with dirtied := [] }, ext := s.ext, inbox := s.inbox, par := s.par, draws := s.draws }

/-- The bytes of a window, from its end down, made unspecified (60_exceptions.md R398). -/
def unspecBytes (draw base : Nat) : Nat → List Host.Cell → List Host.Cell
  | 0, m => m
  | k + 1, m =>
    unspecBytes draw base k
      (if base + k < Config.memSize then Memory.write m (base + k) (Config.unspecByte draw (base + k)) else m)

/-- The content of a DST window left unspecified. -/
def State.spoilWindow (base len : BitVec 32) (s : State) : State :=
  s.withEnv { s.env with mem := unspecBytes s.draws base.toNat len.toNat s.env.mem }

/-- The bit writer, and the DST window it is bound to, left unspecified. -/
def State.spoilWriter (s : State) : State :=
  let t := match s.bw.kind with
    | .port => s
    | .window => s.spoilWindow s.bw.base s.bw.cap
  t.withBw (Config.unspecWriter s.draws)

/-- The bit reader left unspecified. -/
def State.spoilReader (s : State) : State := s.withBr (Config.unspecReader s.draws)

/-- The tables that updating predictor slot `i` writes left unspecified: its local model, and for a REFINED slot its latched
probability and the table of its APM slot. A slot of another kind has none. -/
def State.spoilPredictor (s : State) (i : Fin 2) : State :=
  let p := s.pr[i]
  let a := s.apm[p.apmslot.toFin]
  match p.kind with
  | .localModel => s.withPr (s.pr.set i { p with model := Config.unspecModel s.draws })
  | .refined =>
    (s.withPr (s.pr.set i { p with model := Config.unspecModel s.draws, latched := Config.unspecLatched s.draws })).withApm
      (s.apm.set p.apmslot.toFin { a with data := Config.unspecTable s.draws })
  | _ => s

/-- The binary coder, and the predictor and APM tables it updates, left unspecified. -/
def State.spoilCoder (s : State) : State := (s.spoilPredictor s.be.pslot).withBe (Config.unspecCoder s.draws)

/-- The ROLZ unit left unspecified. -/
def State.spoilRolz (s : State) : State := s.withRz (Config.unspecRolz s.draws)

/-- The DST window of the window CSRs left unspecified. -/
def State.spoilDst (s : State) : State := s.spoilWindow s.win.dstBase s.win.dstCap

/-- No unit is left unspecified: every error of the command is raised before it changes any state. -/
def State.spoilNothing (s : State) : State := s

/-- The execution of a command: a faulted KZE refuses it (60_exceptions.md R397); otherwise its rule runs, and it
responds or takes the error it raised. `spoil` leaves unspecified the units the command uses, for an error raised in the
middle of it (R398). -/
def command (opcode : Byte) (spoil : State → State) (body : Cmd State Word) (s : State) :
    Host.Outcome State Fault Refusal :=
  if s.latch.err then .next (refuse s)
  else
    match body s with
    | .ok value t => .next (respond value t)
    | .error (.raise e) t => .next (takeError opcode e (if e.mid then (spoil t).drawn else t))
    | .error (.fault f) _ => .fault f

end Sys2Proof.Machine
end

