-- ==== Sys2Proof/Machine/Operands.lean ====
section
/-!
DEFINITION. The operand forms of the commands: slot numbers, stream kinds, CSR indexes, windows of MEM
(30_encoding.md R103, R105, R108; 20_memory.md R84).
-/

namespace Sys2Proof.Machine

/-- A predictor slot operand: one of the `NPRED` = 2 slots. -/
def predSlot (slot : BitVec 4) : Option (Fin 2) :=
  if slot = 0#4 then some 0 else if slot = 1#4 then some 1 else none

/-- An APM variant operand `b[9:8]`: 0 Logistic, 1 FastLogistic, 2 Linear; 3 is none (41_apm.md R176). -/
def apmVariant (v : BitVec 2) : Option ApmVariant :=
  if v = 0#2 then some .logistic else if v = 1#2 then some .fastLogistic
  else if v = 2#2 then some .linear else none

/-- A stream kind operand: 0 the byte port, 1 the window (40_bitstream.md R132, R141). -/
def streamKind (kind : BitVec 8) : Option StreamKind :=
  if kind = 0#8 then some .port else if kind = 1#8 then some .window else none

/-- `base + length <= 2^32` (20_memory.md R84). -/
def windowFits (base len : BitVec 32) : Bool := decide (base.toNat + len.toNat ≤ Config.memSize)

/-- Two windows overlap: both lengths are nonzero and each begins before the other ends (20_memory.md R84). -/
def windowsOverlap (base1 len1 base2 len2 : BitVec 32) : Bool :=
  decide (len1 ≠ 0) && decide (len2 ≠ 0) && decide (base1.toNat < base2.toNat + len2.toNat)
    && decide (base2.toNat < base1.toNat + len1.toNat)

/-- The SRC and DST windows of the window CSRs overlap. -/
def Windows.overlap (w : Windows) : Bool := windowsOverlap w.srcBase w.srcLen w.dstBase w.dstCap

/-- An address lies in a window. -/
def windowHas (base len : BitVec 32) (a : Nat) : Bool := decide (base.toNat ≤ a) && decide (a < base.toNat + len.toNat)

/-- An open stream holds the window an address lies in (20_memory.md R90). -/
def State.holds (s : State) (a : Nat) : Bool :=
  s.bw.isOpen && decide (s.bw.kind = .window) && windowHas s.bw.base s.bw.cap a
    || s.br.isOpen && decide (s.br.kind = .window) && windowHas s.br.base s.br.len a

/-- The state after a stream was closed: what the host stored to its window is no race any more, but where the other stream
holds it (20_memory.md R90). -/
def State.release (s : State) : State := s.withEnv { s.env with dirtied := s.env.dirtied.filter s.holds }

end Sys2Proof.Machine
end

