-- ==== Sys2Proof/Machine/Flags.lean ====
section
/-!
DEFINITION. The flags: the bits of `STATUS` (10_state.md R25, R41), every one a view of the state it stands for.
-/

namespace Sys2Proof.Machine

/-- Bit 0, `ERR`: also the level of the `err` output line (60_exceptions.md R401). -/
def State.flagErr (s : State) : Bool := s.latch.err
/-- Bit 1, `BW_OPEN`. -/
def State.flagBwOpen (s : State) : Bool := s.bw.isOpen
/-- Bit 2, `BR_OPEN`. -/
def State.flagBrOpen (s : State) : Bool := s.br.isOpen
/-- Bit 3, `BE_ENC`. -/
def State.flagBeEnc (s : State) : Bool := decide (s.be.mode = .enc)
/-- Bit 4, `BE_DEC`. -/
def State.flagBeDec (s : State) : Bool := decide (s.be.mode = .dec)
/-- Bit 5, `RZ_READY`. -/
def State.flagRzReady (s : State) : Bool := s.rz.ready

/-- `STATUS`: bits 63..6 read zero (10_state.md R41). -/
def State.status (s : State) : Word :=
  0#58 ++ BitVec.ofBool s.flagRzReady ++ BitVec.ofBool s.flagBeDec ++ BitVec.ofBool s.flagBeEnc
    ++ BitVec.ofBool s.flagBrOpen ++ BitVec.ofBool s.flagBwOpen ++ BitVec.ofBool s.flagErr

end Sys2Proof.Machine
end

