-- ==== Sys2Proof/Machine/Reader.lean ====
section
/-!
DEFINITION. The bit reader: `BR_OPEN`, `BR_BIT`, `BR_BITS`, `BR_MORE`, `BR_CLOSE`, `BR_READ` (40_bitstream.md R140 to
R148) with the reference buffering of R146, and `SrcGet` (20_memory.md R78).
-/

namespace Sys2Proof.Machine

/-- A piece of a rule that uses the host's bit reader and the ports. -/
def onReader {α : Type} (x : Cmd (BitReader × Env) α) : Cmd State α :=
  zoom (fun s => (s.br, s.env)) (fun t s => (s.withBr t.1).withEnv t.2) x

/-- `SrcGet()` (20_memory.md R78): the next byte, or none at the end of the source; a port that has reported its end once
reports it ever after. -/
def srcGet : Cmd (BitReader × Env) (Option Byte) := do
  let (r, e) ← get
  match r.kind with
  | .port =>
    if e.srcEnd then pure none
    else
      match e.src with
      | [] => do
        set (r, { e with srcEnd := true })
        pure none
      | .byte b :: rest => do
        set ({ r with fetched := r.fetched + 1 }, { e with src := rest })
        pure (some b)
      | .failure :: rest => do
        set (r, { e with src := rest })
        raiseMid .ioError 2
  | .window =>
    if r.fetched < r.len.toNat then do
      let b ← memRead (r.base.toNat + r.fetched)
      modify fun t => ({ t.1 with fetched := t.1.fetched + 1 }, t.2)
      pure (some b)
    else pure none

/-- At most `k` bytes of the source, fewer at its end. -/
def fetch : Nat → Cmd (BitReader × Env) (List Byte)
  | 0 => pure []
  | k + 1 => do
    match ← srcGet with
    | none => pure []
    | some b => do
      let r ← fetch k
      pure (b :: r)

/-- Bits on hand: those of `br.cur` and those of the bytes of `br.buf` not yet moved. -/
def BitReader.onHand (r : BitReader) : Nat := r.avail + 8 * (r.max - r.pos)

/-- The byte buffer is filled with up to `BUFSZ` bytes by `SrcGet` until `end`, when fewer than `need` bits are on hand
(40_bitstream.md R146; following the reference is a DESIGN CHOICE, unsafe: log entry 7). What is left of the buffer,
nothing on a stream that has not ended, stays in front. -/
def fill (bufsz need : Nat) : Cmd (BitReader × Env) Unit := do
  let (r, _) ← get
  if r.onHand < need then do
    let bytes ← fetch bufsz
    modify fun t => ({ t.1 with buf := r.buf.drop r.pos ++ bytes, pos := 0 }, t.2)
  else pure ()

/-- The unsigned number of a byte sequence, the first byte the most significant. -/
def beNat (bytes : List Byte) : Nat := bytes.foldl (fun acc b => acc * 256 + b.toNat) 0

/-- The next `len` bits, when at least `len` are on hand: from `br.cur`, and when it is empty from the next 8 bytes of
`br.buf` (fewer at the end) moved to it (40_bitstream.md R142, R146). -/
def BitReader.take (r : BitReader) (len : Nat) : Word × BitReader :=
  if len ≤ r.avail then
    (BitVec.ofNat 64 (r.cur.toNat / 2 ^ (r.avail - len) % 2 ^ len),
      { r with avail := r.avail - len, count := r.count + len })
  else
    let need := len - r.avail
    let bytes := (r.buf.drop r.pos).take 8
    let have1 := 8 * bytes.length
    let next := beNat bytes
    (BitVec.ofNat 64 (r.cur.toNat % 2 ^ r.avail * 2 ^ need + next / 2 ^ (have1 - need) % 2 ^ need),
      { r with cur := BitVec.ofNat 64 next, avail := have1 - need, pos := r.pos + bytes.length, count := r.count + len })

/-- `ReadBits(len)` (40_bitstream.md R142), for `len` at most 64. A failing read consumes nothing, and a read of 0 bits
never raises `EndOfStream`, also on a reader that is not open (R148, 60_exceptions.md R394; DEDUCED, unsafe: log entry 8). -/
def readBits (bufsz : Nat) (len : Nat) : Cmd (BitReader × Env) Word := do
  let (r, _) ← get
  check (!r.isOpen && decide (1 ≤ len)) .endOfStream 1
  fill bufsz len
  let (r1, e1) ← get
  check (decide (r1.onHand < len)) .endOfStream 2
  let (v, r2) := r1.take len
  set (r2, e1)
  pure v

/-- A reader newly opened (40_bitstream.md R141). -/
def BitReader.opened (r : BitReader) (kind : StreamKind) : BitReader :=
  { r with isOpen := true, kind := kind, count := 0, fetched := 0, cur := 0, avail := 0, buf := [], pos := 0 }

/-- The rule of `BR_OPEN` (40_bitstream.md R141). -/
def brOpenBody (kind : BitVec 8) : Cmd State Word := do
  let s ← get
  match streamKind kind with
  | none => raise .invalidParameter 2
  | some .port => do
    check s.br.isOpen .invalidParameter 6
    set (s.withBr (s.br.opened .port))
    pure 0
  | some .window => do
    check s.br.isOpen .invalidParameter 6
    check (!windowFits s.win.srcBase s.win.srcLen) .invalidParameter 4
    set (s.withBr ({ s.br with base := s.win.srcBase, len := s.win.srcLen }.opened .window))
    pure 0

/-- `BR_OPEN kind` (40_bitstream.md R141). -/
def execBrOpen (kind : BitVec 8) (s : State) : Host.Outcome State Fault Refusal :=
  command 0x20#8 State.spoilNothing (brOpenBody kind) s

/-- The rule of `BR_BIT` (40_bitstream.md R143). -/
def brBitBody : Cmd State Word := do
  let s ← get
  onReader (readBits s.par.bufsz 1)

/-- `BR_BIT` (40_bitstream.md R143). -/
def execBrBit (s : State) : Host.Outcome State Fault Refusal := command 0x21#8 State.spoilReader brBitBody s

/-- The rule of `BR_BITS` (40_bitstream.md R142). -/
def brBitsBody (len : BitVec 8) : Cmd State Word := do
  check (decide (64 < len.toNat)) .invalidParameter 2
  let s ← get
  onReader (readBits s.par.bufsz len.toNat)

/-- `BR_BITS len` (40_bitstream.md R142). -/
def execBrBits (len : BitVec 8) (s : State) : Host.Outcome State Fault Refusal :=
  command 0x22#8 State.spoilReader (brBitsBody len) s

/-- `Remaining() >= 1`, learnt by fetching ahead if need be (40_bitstream.md R144). -/
def moreBits (bufsz : Nat) : Cmd (BitReader × Env) Word := do
  let (r, _) ← get
  if r.isOpen then do
    fill bufsz 1
    let (r1, _) ← get
    pure (if 1 ≤ r1.onHand then 1 else 0)
  else pure 0

/-- The rule of `BR_MORE` (40_bitstream.md R144). -/
def brMoreBody : Cmd State Word := do
  let s ← get
  onReader (moreBits s.par.bufsz)

/-- `BR_MORE` (40_bitstream.md R144). -/
def execBrMore (s : State) : Host.Outcome State Fault Refusal := command 0x23#8 State.spoilReader brMoreBody s

/-- An open reader closed: the bytes fetched ahead are dropped (40_bitstream.md R145). -/
def BitReader.closed (r : BitReader) : BitReader := { r with isOpen := false, avail := 0, pos := 0, buf := [] }

/-- The rule of `BR_CLOSE` (40_bitstream.md R145). Closing twice changes nothing. -/
def brCloseBody : Cmd State Word := do
  let s ← get
  set (if s.br.isOpen then (s.withBr s.br.closed).release else s)
  pure (BitVec.ofNat 64 s.br.count)

/-- `BR_CLOSE` (40_bitstream.md R145). -/
def execBrClose (s : State) : Host.Outcome State Fault Refusal := command 0x24#8 State.spoilNothing brCloseBody s

/-- The rule of `BR_READ` (40_bitstream.md R147). -/
def brReadBody : Cmd State Word := do
  let s ← get
  pure (BitVec.ofNat 64 s.br.count)

/-- `BR_READ` (40_bitstream.md R147). -/
def execBrRead (s : State) : Host.Outcome State Fault Refusal := command 0x25#8 State.spoilNothing brReadBody s

end Sys2Proof.Machine
end

