-- ==== Sys2Proof/Machine/Writer.lean ====
section
/-!
DEFINITION. The bit writer: `BW_OPEN`, `BW_BIT`, `BW_BITS`, `BW_CLOSE` (40_bitstream.md R130 to R139) with the reference
buffering of R136, and `SinkPut` (20_memory.md R77).
-/

namespace Sys2Proof.Machine

/-- A piece of a rule that uses the host's bit writer and the ports. -/
def onWriter {α : Type} (x : Cmd (BitWriter × Env) α) : Cmd State α :=
  zoom (fun s => (s.bw, s.env)) (fun t s => (s.withBw t.1).withEnv t.2) x

/-- `SinkPut(byte)` (20_memory.md R77): to the SINK port, or to the next byte of the window the writer is bound to. -/
def sinkPut (b : Byte) : Cmd (BitWriter × Env) Unit := do
  let (w, e) ← get
  match w.kind with
  | .port =>
    match e.sinkAns with
    | false :: rest => do
      set (w, { e with sinkAns := rest })
      raiseMid .ioError 2
    | _ => set ({ w with sent := w.sent + 1 }, { e with sink := b :: e.sink, sinkAns := e.sinkAns.tail })
  | .window => do
    checkMid (decide (w.cap.toNat ≤ w.sent)) .bufferTooSmall 1 (w.sent + 1)
    memWrite (w.base.toNat + w.sent) b
    modify fun t => ({ t.1 with sent := t.1.sent + 1 }, t.2)

/-- The bytes handed to the sink in order. -/
def deliver : List Byte → Cmd (BitWriter × Env) Unit
  | [] => pure ()
  | b :: r => do
    sinkPut b
    deliver r

/-- The writer after `len` bits of `value` are appended, before any byte leaves it: the moves between `bw.cur` and
`bw.buf` of 40_bitstream.md R136 (the reference of R137's bounds: DESIGN CHOICE, unsafe: log entry 7). -/
def BitWriter.push (w : BitWriter) (value : Word) (len : Nat) : BitWriter :=
  let v : Word := BitVec.ofNat 64 (value.toNat % 2 ^ len)
  let w1 := { w with bits := w.bits ++ bitsOf value len, count := w.count + len }
  if len < w.avail then
    { w1 with cur := w.cur ||| (v <<< (w.avail - len)), avail := w.avail - len }
  else
    let rem := len - w.avail
    { w1 with
      cur := if rem = 0 then 0 else v <<< (64 - rem)
      avail := 64 - rem
      buf := w.buf ++ beBytes (w.cur ||| (v >>> rem)) }

/-- Appending bits and spilling a full byte buffer to the sink: `Spill()` (40_bitstream.md R136). -/
def spill (bufsz : Nat) (value : Word) (len : Nat) : Cmd (BitWriter × Env) Unit := do
  modify fun t => (t.1.push value len, t.2)
  let (w, _) ← get
  if w.pos = bufsz then do
    deliver w.buf
    modify fun t => ({ t.1 with buf := [] }, t.2)
  else pure ()

/-- `WriteBits(value, len)` (40_bitstream.md R133) on a writer, for `len` at most 64. -/
def writeBits (bufsz : Nat) (value : Word) (len : Nat) : Cmd (BitWriter × Env) Unit := do
  let (w, _) ← get
  check (!w.isOpen) .ioError 1
  check (decide (w.kind = .window) && decide (w.cap.toNat < bytesFor (w.count + len))) .bufferTooSmall 1
    (bytesFor (w.count + len))
  spill bufsz value len

/-- A list of (value, length) fields written in order: a field without room appends nothing and leaves those before it
(40_bitstream.md R138; DEDUCED, unsafe: log entry 4). -/
def writeFields (bufsz : Nat) : List (Word × Nat) → Cmd (BitWriter × Env) Unit
  | [] => pure ()
  | f :: r => do
    writeBits bufsz f.1 f.2
    writeFields bufsz r

/-- The bytes of `Pack(bw.bits)` that are not yet delivered: `bw.buf`, then the bits of `bw.cur` padded to bytes. -/
def BitWriter.pending (w : BitWriter) : List Byte := w.buf ++ (beBytes w.cur).take (bytesFor (64 - w.avail))

/-- `BW_CLOSE` on an open writer (40_bitstream.md R135). It leaves `cur` and `buf` empty (DESIGN CHOICE, safe: log
entry 12). -/
def closeWriter : Cmd (BitWriter × Env) Word := do
  let (w, _) ← get
  check (!w.isOpen) .ioError 1
  let padLen := (8 - w.count % 8) % 8
  let padded := { w with bits := w.bits ++ List.replicate padLen false, count := w.count + padLen }
  modify fun t => (padded, t.2)
  deliver w.pending
  modify fun t => ({ t.1 with isOpen := false, cur := 0, avail := 64, buf := [] }, t.2)
  pure (BitVec.ofNat 64 padded.count)

/-- A writer newly opened on an empty stream (40_bitstream.md R132). -/
def BitWriter.opened (w : BitWriter) (kind : StreamKind) : BitWriter :=
  { w with isOpen := true, kind := kind, bits := [], count := 0, sent := 0, cur := 0, avail := 64, buf := [] }

/-- The rule of `BW_OPEN` (40_bitstream.md R132). -/
def bwOpenBody (kind : BitVec 8) : Cmd State Word := do
  let s ← get
  match streamKind kind with
  | none => raise .invalidParameter 2
  | some .port => do
    check s.bw.isOpen .invalidParameter 6
    set (s.withBw (s.bw.opened .port))
    pure 0
  | some .window => do
    check s.bw.isOpen .invalidParameter 6
    check (!windowFits s.win.dstBase s.win.dstCap) .invalidParameter 4
    set (s.withBw ({ s.bw with base := s.win.dstBase, cap := s.win.dstCap }.opened .window))
    pure 0

/-- `BW_OPEN kind` (40_bitstream.md R132). -/
def execBwOpen (kind : BitVec 8) (s : State) : Host.Outcome State Fault Refusal :=
  command 0x10#8 State.spoilNothing (bwOpenBody kind) s

/-- The rule of `BW_BIT` (40_bitstream.md R134). -/
def bwBitBody (bit : Bool) : Cmd State Word := do
  let s ← get
  onWriter (writeBits s.par.bufsz ((BitVec.ofBool bit).setWidth 64) 1)
  pure 0

/-- `BW_BIT bit` (40_bitstream.md R134). -/
def execBwBit (bit : Bool) (s : State) : Host.Outcome State Fault Refusal :=
  command 0x11#8 State.spoilWriter (bwBitBody bit) s

/-- The rule of `BW_BITS` (40_bitstream.md R133). -/
def bwBitsBody (len : BitVec 8) (value : Word) : Cmd State Word := do
  check (decide (64 < len.toNat)) .invalidParameter 2
  let s ← get
  onWriter (writeBits s.par.bufsz value len.toNat)
  pure 0

/-- `BW_BITS len, value` (40_bitstream.md R133). -/
def execBwBits (len : BitVec 8) (value : Word) (s : State) : Host.Outcome State Fault Refusal :=
  command 0x12#8 State.spoilWriter (bwBitsBody len value) s

/-- The rule of `BW_CLOSE` (40_bitstream.md R135). -/
def bwCloseBody : Cmd State Word := do
  let n ← onWriter closeWriter
  modify State.release
  pure n

/-- The bit writer left unspecified by a `BW_CLOSE` whose delivery failed: it is left open (40_bitstream.md R135). -/
def State.spoilClose (s : State) : State :=
  let t := s.spoilWriter
  t.withBw { t.bw with isOpen := true }

/-- `BW_CLOSE` (40_bitstream.md R135). -/
def execBwClose (s : State) : Host.Outcome State Fault Refusal := command 0x13#8 State.spoilClose bwCloseBody s

end Sys2Proof.Machine
end

