-- ==== Sys2Proof/Machine/Ans.lean ====
section
/-!
DEFINITION. The ANS coder: `ANS_ENC`, `ANS_DEC`, and the procedures `AnsEncode`, `AnsDecode` ROLZ backend 1 calls
(44_ans.md). Frequency tables are lists of 256 numbers.
-/

namespace Sys2Proof.Machine

/-! ### Tables -/

/-- The context of every byte of the data (44_ans.md R262): 0 for order 0; for order 1 the byte before it, 0 for the first. -/
def ansContexts (order1 : Bool) (d : List Byte) : List Nat :=
  if order1 then 0 :: d.dropLast.map BitVec.toNat else d.map (fun _ => 0)

/-- The bytes coded in a context, in order. -/
def symbolsIn (order1 : Bool) (d : List Byte) (c : Nat) : List Byte :=
  (((ansContexts order1 d).zip d).filter (fun e => e.1 == c)).map Prod.snd

/-- `count[c][0..255]` of the bytes coded in one context (44_ans.md R263). -/
def countTable (syms : List Byte) : List Nat := (List.range 256).map (fun s => syms.count (BitVec.ofNat 8 s))

/-- The lowest index of the greatest entry, scanning from index `i` with the best so far. -/
def argmaxFrom (i best bestVal : Nat) : List Nat → Nat
  | [] => best
  | v :: r => if bestVal < v then argmaxFrom (i + 1) i v r else argmaxFrom (i + 1) best bestVal r

/-- "the lowest s with f[s] = max(f)" (44_ans.md R264). -/
def argmax : List Nat → Nat
  | [] => 0
  | v :: r => argmaxFrom 1 0 v r

/-- The two loops of `AnsNormalize`: `k` times one unit off, or on, the lowest symbol of greatest frequency
(44_ans.md R264). -/
def lowerGreatest : Nat → List Nat → List Nat
  | 0, f => f
  | k + 1, f => lowerGreatest k (f.modify (argmax f) (· - 1))

/-- See `lowerGreatest`. -/
def raiseGreatest : Nat → List Nat → List Nat
  | 0, f => f
  | k + 1, f => raiseGreatest k (f.modify (argmax f) (· + 1))

/-- `AnsNormalize(count, LR)` for a used context (44_ans.md R264). -/
def ansNormalize (count : List Nat) (lr : Nat) : List Nat :=
  let total := count.sum
  let f := count.map (fun n => if n = 0 then 0 else max 1 (n * 2 ^ lr / total))
  let s := f.sum
  if 2 ^ lr < s then lowerGreatest (s - 2 ^ lr) f else raiseGreatest (2 ^ lr - s) f

/-- The frequency table of one context: none when the context is unused (44_ans.md R263, R264). -/
def ansTable (order1 : Bool) (lr : Nat) (d : List Byte) (c : Nat) : Option (List Nat) :=
  match symbolsIn order1 d c with
  | [] => none
  | syms => some (ansNormalize (countTable syms) lr)

/-- `nctx`: 1 for order 0, 256 for order 1 (44_ans.md R262). -/
def ansNctx (order1 : Bool) : Nat := if order1 then 256 else 1

/-- The tables of all contexts. -/
def ansTables (order1 : Bool) (lr : Nat) (d : List Byte) : List (Option (List Nat)) :=
  (List.range (ansNctx order1)).map (ansTable order1 lr d)

/-! ### Encoding: the fields written, in bitstream order, as (value, length) -/

/-- `AnsWriteTable(f)` (44_ans.md R265). -/
def tableFields (lr : Nat) : List Nat → List (Word × Nat)
  | [] => []
  | n :: r =>
    if n = 0 then (0, 1) :: tableFields lr r else (1, 1) :: (BitVec.ofNat 64 (n - 1), lr) :: tableFields lr r

/-- The tables as the stream holds them: for order 1 each after its used bit (44_ans.md R266, R270). -/
def allTableFields (order1 : Bool) (lr : Nat) : List (Option (List Nat)) → List (Word × Nat)
  | [] => []
  | none :: r => (if order1 then [(0, 1)] else []) ++ allTableFields order1 lr r
  | some f :: r => (if order1 then [(1, 1)] else []) ++ tableFields lr f ++ allTableFields order1 lr r

/-- `while x >= xmax: push (x & 0xFF) on stack ; x <- x >> 8` (44_ans.md R270), the bytes pushed last first. An `x` below
2^32 leaves the loop within 4 rounds, `xmax` being at least 1. -/
def ansPush (xmax : Nat) : Nat → Nat → List Byte → Nat × List Byte
  | 0, x, stack => (x, stack)
  | k + 1, x, stack => if xmax ≤ x then ansPush xmax k (x / 256) (BitVec.ofNat 8 x :: stack) else (x, stack)

/-- The coding step of one symbol of frequency `fs` and cumulative frequency `cum` (44_ans.md R270). -/
def ansStep (lr fs cum : Nat) (st : Nat × List Byte) : Nat × List Byte :=
  let (x, stack) := ansPush (2 ^ (31 - lr) * fs) 4 st.1 st.2
  ((x / fs) * 2 ^ lr + x % fs + cum, stack)

/-- The frequency of a symbol in a context's table. -/
def tableFreq (f : List Nat) (s : Nat) : Nat := f.getD s 0

/-- `C[c][s]` = `f[c][0] + ... + f[c][s-1]` (44_ans.md R269). -/
def tableCum (f : List Nat) (s : Nat) : Nat := (f.take s).sum

/-- The (frequency, cumulative frequency) of every byte of the data in its context. -/
def symbolSlots (order1 : Bool) (tables : List (Option (List Nat))) (d : List Byte) : List (Nat × Nat) :=
  ((ansContexts order1 d).zip d).map fun e =>
    let f := (tables.getD e.1 none).getD []
    (tableFreq f e.2.toNat, tableCum f e.2.toNat)

/-- The coding step of a symbol its table does not have: a free state, and free bytes pushed on the stack (DESIGN CHOICE, safe:
log entry 19). -/
def ansFreeStep (draw coded : Nat) (stack : List Byte) : Nat × List Byte :=
  ((Config.freeStep draw coded).1.toNat, (Config.freeStep draw coded).2 ++ stack)

/-- The symbols coded in reverse order from the state `x = L` with an empty stack (44_ans.md R270). -/
def ansRun (lr draw : Nat) : List (Nat × Nat) → Nat × List Byte
  | [] => (Config.ansL, [])
  | e :: r =>
    let st := ansRun lr draw r
    if e.1 = 0 then ansFreeStep draw r.length st.2 else ansStep lr e.1 e.2 st

/-- The table fields of `AnsEncode`: the tables of the data as it was counted (44_ans.md R266, R270). -/
def ansTableFields (order1 : Bool) (lr : Nat) (counted : List Byte) : List (Word × Nat) :=
  allTableFields order1 lr (ansTables order1 lr counted)

/-- The fields of `AnsEncode` after the tables: the final state and the renormalisation bytes (44_ans.md R266, R270). The symbols
coded are those of the data as it was coded, which are those it was counted with but in a race, of which `draw` is the number
(R273); 0 stands for no race. -/
def ansCodeFields (order1 : Bool) (lr draw : Nat) (counted d : List Byte) : List (Word × Nat) :=
  let (x, stack) := ansRun lr draw (symbolSlots order1 (ansTables order1 lr counted) d)
  (BitVec.ofNat 64 x, 32) :: stack.map (fun b => (b.setWidth 64, 8))

/-- The first field of a run: `LR - 8` in 4 bits (44_ans.md R266). -/
def ansHeaderField (lr : Nat) : Word × Nat := (BitVec.ofNat 64 (lr - 8), 4)

/-- All the fields of `AnsEncode(writer, d, order, LR)`: none for an empty `d` (44_ans.md R266, R270). -/
def ansFields (order1 : Bool) (lr : Nat) (d : List Byte) : List (Word × Nat) :=
  if d.isEmpty then [] else ansHeaderField lr :: (ansTableFields order1 lr d ++ ansCodeFields order1 lr 0 d d)

/-! ### Decoding, over any reader `rb` of bits -/

/-- The symbol of a slot with its frequency and cumulative frequency (44_ans.md R269), scanning from symbol `s` whose
cumulative frequency is `cum`; a slot below the table's sum has exactly one. -/
def symOf (slot : Nat) : Nat → Nat → List Nat → Nat × Nat × Nat
  | s, cum, [] => (s, 0, cum)
  | s, cum, n :: r => if slot < cum + n then (s, n, cum) else symOf slot (s + 1) (cum + n) r

/-- `k` entries of a table as `AnsReadTable(LR)` reads them (44_ans.md R265). -/
def readTableEntries {σ : Type} (rb : Nat → Cmd σ Word) (lr : Nat) : Nat → Cmd σ (List Nat)
  | 0 => pure []
  | k + 1 => do
    let present ← rb 1
    if present = 0 then do
      let r ← readTableEntries rb lr k
      pure (0 :: r)
    else do
      let v ← rb lr
      let r ← readTableEntries rb lr k
      pure ((v.toNat + 1) :: r)

/-- `AnsReadTable(LR)` (44_ans.md R265). -/
def readTable {σ : Type} (rb : Nat → Cmd σ Word) (lr : Nat) : Cmd σ (List Nat) := do
  let f ← readTableEntries rb lr 256
  checkMid (decide (f.sum ≠ 2 ^ lr)) .invalidData 2
  pure f

/-- The tables of `k` contexts, each after its used bit (44_ans.md R268). -/
def readTables {σ : Type} (rb : Nat → Cmd σ Word) (lr : Nat) : Nat → Cmd σ (List (Option (List Nat)))
  | 0 => pure []
  | k + 1 => do
    let used ← rb 1
    if used = 0 then do
      let r ← readTables rb lr k
      pure (none :: r)
    else do
      let f ← readTable rb lr
      let r ← readTables rb lr k
      pure (some f :: r)

/-- `while x < L: x <- (x << 8) | ReadBits(8)` (44_ans.md R268): at most 3 rounds for a nonzero `x`. -/
def ansRefill {σ : Type} (rb : Nat → Cmd σ Word) : Nat → Nat → Cmd σ Nat
  | 0, x => pure x
  | k + 1, x =>
    if x < Config.ansL then do
      let b ← rb 8
      ansRefill rb k (x * 256 + b.toNat)
    else pure x

/-- The symbols of `AnsDecode` from state `x` after the byte `prev`; the final state must be `L` (44_ans.md R268). -/
def ansSymbols {σ : Type} (rb : Nat → Cmd σ Word) (order1 : Bool) (lr : Nat) (tables : List (Option (List Nat))) :
    Nat → Nat → Nat → Cmd σ (List Byte)
  | 0, x, _ => do
    checkMid (decide (x ≠ Config.ansL)) .invalidData 5
    pure []
  | k + 1, x, prev =>
    match tables.getD (if order1 then prev else 0) none with
    | none => raiseMid .invalidData 4
    | some f => do
      let slot := x % 2 ^ lr
      let (s, fs, cum) := symOf slot 0 0 f
      let x1 ← ansRefill rb 4 (fs * (x / 2 ^ lr) + slot - cum)
      let r ← ansSymbols rb order1 lr tables k x1 s
      pure (BitVec.ofNat 8 s :: r)

/-- `AnsDecode(reader, n, order)` after its first field `t` (44_ans.md R268). -/
def ansDecodeRest {σ : Type} (rb : Nat → Cmd σ Word) (order1 : Bool) (n t : Nat) : Cmd σ (List Byte) := do
  checkMid (decide (8 < t)) .invalidData 1
  let lr := t + 8
  let tables ←
    if order1 then readTables rb lr 256
    else do
      let f ← readTable rb lr
      pure [some f]
  let x ← rb 32
  checkMid (decide (x.toNat < Config.ansL) || decide (256 * Config.ansL ≤ x.toNat)) .invalidData 3
  ansSymbols rb order1 lr tables n x.toNat 0

/-- `AnsDecode(reader, n, order)` (44_ans.md R268). -/
def ansDecode {σ : Type} (rb : Nat → Cmd σ Word) (order1 : Bool) (n : Nat) : Cmd σ (List Byte) :=
  if n = 0 then pure []
  else do
    let t ← rb 4
    midway (ansDecodeRest rb order1 n t.toNat)

/-! ### The commands -/

/-- The rule of `ANS_ENC` (44_ans.md R273): the data are read twice, each time in the order of R270's pseudocode
(20_memory.md R86): counted after the first field is written, and coded after the tables are, from the last byte down. -/
def ansEncBody (order : BitVec 8) (n off : BitVec 32) : Cmd State Word := do
  check (decide (1 < order.toNat)) .invalidParameter 2
  let s ← get
  check (!windowFits s.win.srcBase s.win.srcLen) .invalidParameter 4
  check (decide (s.win.srcLen.toNat < off.toNat + n.toNat)) .invalidParameter 2
  check (!s.bw.isOpen) .ioError 1
  check (decide (s.bw.kind = .window) && windowsOverlap s.bw.base s.bw.cap s.win.srcBase s.win.srcLen) .invalidParameter 5
  if n = 0 then pure 0
  else do
    let lr := s.logRange.toNat
    onWriter (writeBits s.par.bufsz (ansHeaderField lr).1 (ansHeaderField lr).2)
    let base := s.win.srcBase.toNat + off.toNat
    let order1 := decide (order = 1)
    let counted ← onMem (memReadBytes base n.toNat)
    onWriter (writeFields s.par.bufsz (ansTableFields order1 lr counted))
    let d ← onMem (memReadDown base n.toNat [])
    let u ← get
    let draw := if counted = d then 0 else u.env.drawn
    onWriter (writeFields s.par.bufsz (ansCodeFields order1 lr draw counted d))
    let t ← get
    pure (BitVec.ofNat 64 (t.bw.count - s.bw.count))

/-- `ANS_ENC order, N, off` (44_ans.md R273). -/
def execAnsEnc (order : BitVec 8) (n off : BitVec 32) (s : State) : Host.Outcome State Fault Refusal :=
  command 0x60#8 State.spoilWriter (ansEncBody order n off) s

/-- What an error in the middle of `ANS_DEC` leaves unspecified: the reader and the DST window. -/
def State.spoilAnsDec (s : State) : State := s.spoilDst.spoilReader

/-- The rule of `ANS_DEC` (44_ans.md R274), which stores when the whole run is decoded (DESIGN CHOICE, unsafe: log entry 20). -/
def ansDecBody (order : BitVec 8) (n off : BitVec 32) : Cmd State Word := do
  check (decide (1 < order.toNat)) .invalidParameter 2
  let s ← get
  check (!windowFits s.win.dstBase s.win.dstCap) .invalidParameter 4
  check (decide (s.win.dstCap.toNat < off.toNat + n.toNat)) .bufferTooSmall 2 (off.toNat + n.toNat)
  check (!s.br.isOpen) .endOfStream 1
  check (decide (s.br.kind = .window) && windowsOverlap s.br.base s.br.len s.win.dstBase s.win.dstCap) .invalidParameter 5
  let d ← onReader (ansDecode (readBits s.par.bufsz) (decide (order = 1)) n.toNat)
  midway (onMem (memWriteBytes (s.win.dstBase.toNat + off.toNat) d))
  let t ← get
  pure (BitVec.ofNat 64 (t.br.count - s.br.count))

/-- `ANS_DEC order, N, off` (44_ans.md R274). -/
def execAnsDec (order : BitVec 8) (n off : BitVec 32) (s : State) : Host.Outcome State Fault Refusal :=
  command 0x61#8 State.spoilAnsDec (ansDecBody order n off) s

end Sys2Proof.Machine
end

