-- ==== Sys2Proof/Machine/Apm.lean ====
section
/-!
DEFINITION. The adaptive probability maps: `APM_INIT`, `APM_GET` (41_apm.md).
-/

namespace Sys2Proof.Machine

/-- Row entry `j` of a fresh table (41_apm.md R175): the Linear rows are given, the Logistic rows are the open table. -/
def apmInitRow (variant : ApmVariant) (j : Nat) : Prob16 :=
  match variant with
  | .linear => BitVec.ofNat 16 (min (j * 1024) 65535)
  | .logistic => if h : j < 33 then Config.apmLogisticInit ⟨j, h⟩ else 0
  | .fastLogistic => if h : j < 33 then Config.apmLogisticInit ⟨j, h⟩ else 0

/-- What `APM_INIT` puts at index `i` of a table: every context's row is the same (41_apm.md R175, R176). -/
def apmInitEntry (variant : ApmVariant) (i : Nat) : Prob16 := apmInitRow variant (i % Config.apmRows variant)

/-- `data[i]` of a slot. -/
def ApmSlot.entry (a : ApmSlot) (i : Nat) : Prob16 := Store.get (apmInitEntry a.variant) a.data i

/-- The slot with `data[i]` replaced. -/
def ApmSlot.setEntry (a : ApmSlot) (i : Nat) (v : Prob16) : ApmSlot :=
  { a with data := Store.set (apmInitEntry a.variant) a.data i v }

/-- The new value of an entry `e` under a bit: `e + ((target - e) >> rate)` with
`target = (bit << 16) + (bit << rate) - (bit << 1)` (41_apm.md R173). -/
def apmUpdated (rate : BitVec 4) (bit : Bool) (e : Prob16) : Prob16 :=
  let b : Int := if bit then 1 else 0
  let target : Int := b * 65536 + b * 2 ^ rate.toNat - b * 2
  BitVec.ofInt 16 ((e.toNat : Int) + asr (target - (e.toNat : Int)) rate.toNat)

/-- `ApmUpdate(s, i, bit)` (41_apm.md R173). -/
def ApmSlot.update (a : ApmSlot) (i : Nat) (bit : Bool) : ApmSlot := a.setEntry i (apmUpdated a.rate bit (a.entry i))

/-- The interpolation `(data[i+1]*w + data[i]*(128 - w)) >> 11` (41_apm.md R178, R180). -/
def ApmSlot.interpolate (a : ApmSlot) (i w : Nat) : Prob12 :=
  BitVec.ofNat 12 (((a.entry (i + 1)).toNat * w + (a.entry i).toNat * (128 - w)) / 2048)

/-- The row and the weight that a probability selects (41_apm.md R178 to R180): the stretched probability plus 2048 over
128 for the Logistic shapes, the raw probability over 64 for Linear (whose weight is `pr & 127`). -/
def apmIndex (variant : ApmVariant) (pr : Prob12) : Nat × Nat :=
  match variant with
  | .linear => (pr.toNat / 64, pr.toNat % 128)
  | _ =>
    let s := (Config.stretch pr + 2048).toNat
    (s / 128, s % 128)

/-- `ApmGet(slot, bit, pr, ctx)` on the slot's content: index, update, then read the updated entries
(41_apm.md R177 to R180). -/
def ApmSlot.get (a : ApmSlot) (bit : Bool) (pr : Prob12) (ctx : Nat) : Prob12 × ApmSlot :=
  let (row, w) := apmIndex a.variant pr
  let i := row + Config.apmRows a.variant * ctx
  match a.variant with
  | .fastLogistic =>
    let a1 := a.update i bit
    (((a1.entry i) >>> 4).setWidth 12, a1)
  | _ =>
    let a1 := (a.update i bit).update (i + 1) bit
    (a1.interpolate i w, a1)

/-- A slot after `APM_INIT` (41_apm.md R176). -/
def ApmSlot.init (variant : ApmVariant) (rate : BitVec 4) (n : Nat) : ApmSlot :=
  { valid := true, variant := variant, rate := rate, n := n, data := [] }

/-- The slot a 4-bit slot number names; `NAPM` is at most 16 (00_scope.md R7). -/
def apmIdx (slot : BitVec 4) : Fin 16 := slot.toFin

/-- The rule of `APM_INIT` (41_apm.md R176). -/
def apmInitBody (slot : BitVec 4) (variant : BitVec 2) (rate : BitVec 4) (n : BitVec 32) : Cmd State Word := do
  let s ← get
  check (decide (s.par.napm ≤ slot.toNat)) .invalidParameter 2
  match apmVariant variant with
  | none => raise .invalidParameter 2
  | some v => do
    check (decide (n.toNat = 0) || decide (s.par.apmMaxN < n.toNat)) .invalidParameter 2
    set (s.withApm (s.apm.set (apmIdx slot) (ApmSlot.init v rate n.toNat)))
    pure 0

/-- `APM_INIT slot, variant, rate, n` (41_apm.md R176). -/
def execApmInit (slot : BitVec 4) (variant : BitVec 2) (rate : BitVec 4) (n : BitVec 32) (s : State) :
    Host.Outcome State Fault Refusal :=
  command 0x30#8 State.spoilNothing (apmInitBody slot variant rate n) s

/-- The rule of `APM_GET` (41_apm.md R177). -/
def apmGetBody (slot : BitVec 4) (bit : Bool) (pr : Prob12) (ctx : BitVec 32) : Cmd State Word := do
  let s ← get
  let a := s.apm[apmIdx slot]
  check (decide (s.par.napm ≤ slot.toNat)) .invalidParameter 2
  check (!a.valid) .invalidParameter 3
  check (decide (a.n ≤ ctx.toNat)) .invalidParameter 2
  let (p, a1) := a.get bit pr ctx.toNat
  set (s.withApm (s.apm.set (apmIdx slot) a1))
  pure (p.setWidth 64)

/-- `APM_GET slot, bit, pr, ctx` (41_apm.md R177). -/
def execApmGet (slot : BitVec 4) (bit : Bool) (pr : Prob12) (ctx : BitVec 32) (s : State) :
    Host.Outcome State Fault Refusal :=
  command 0x31#8 State.spoilNothing (apmGetBody slot bit pr ctx) s

end Sys2Proof.Machine
end

