-- ==== Sys2Proof/Machine/Predictor.lean ====
section
/-!
DEFINITION. The predictors: the local model, the REFINED and EXTERNAL kinds, `PR_INIT`, `PR_GET`, `PR_UPDATE`,
`PR_SETCTX` (42_predictors.md).
-/

namespace Sys2Proof.Machine

/-! ### The local model (42_predictors.md R203) -/

/-- What `LocalInit` puts at every index of `probs`. -/
def localInitEntry : Nat → Prob16 := fun _ => Config.localInit

/-- `LocalInit(m, logSize)`. -/
def LocalModel.init (logSize : Nat) : LocalModel := { logSize := logSize, probs := [], c1 := 1, ctx := 0 }

/-- `LocalSetCtx(m, byte)`. -/
def LocalModel.setCtx (m : LocalModel) (byte : Byte) : LocalModel := { m with ctx := byte.toNat * 2 ^ m.logSize }

/-- `probs[i]`. -/
def LocalModel.prob (m : LocalModel) (i : Nat) : Prob16 := Store.get localInitEntry m.probs i

/-- `LocalGet(m)`. -/
def LocalModel.get (m : LocalModel) : Prob12 := ((m.prob (m.ctx + m.c1)) >>> 4).setWidth 12

/-- The new value of an entry: `p - (((p - ((-b) & 0xFFFF)) >> 5) + b)` (42_predictors.md R203, R208). -/
def localUpdated (bit : Bool) (p : Prob16) : Prob16 :=
  let b : Int := if bit then 1 else 0
  BitVec.ofInt 16 ((p.toNat : Int) - (asr ((p.toNat : Int) - b * 65535) Config.localRate + b))

/-- `LocalUpdate(m, b)`. -/
def LocalModel.update (m : LocalModel) (bit : Bool) : LocalModel :=
  let i := m.ctx + m.c1
  let c := 2 * m.c1 + bit.toNat
  { m with
    probs := Store.set localInitEntry m.probs i (localUpdated bit (m.prob i))
    c1 := if m.size ≤ c then 1 else c }

/-! ### The slots -/

/-- What the predictor commands work on: the slots, the APM slots a REFINED slot refers to, and the external predictor. -/
structure Preds where
  pr : Vector PredSlot 2
  apm : Vector ApmSlot 16
  ext : List Bool

/-- A piece of a rule that uses the predictors. -/
def onPreds {α : Type} (x : Cmd Preds α) : Cmd State α :=
  zoom (fun s => { pr := s.pr, apm := s.apm, ext := s.ext })
    (fun t s => ((s.withPr t.pr).withApm t.apm).withExt t.ext) x

/-- `PredGet(slot)` (42_predictors.md R205): changes no state. -/
def predGet (slot : Fin 2) : Cmd Preds Prob12 := do
  let t ← get
  let p := t.pr[slot]
  match p.kind with
  | .none => raise .invalidParameter 3
  | .fixed => pure p.value
  | .localModel => pure p.model.get
  | .refined => pure p.latched
  | .external => pure (Config.extPredictor t.ext)

/-- `RefinedUpdate(slot, bit)` (42_predictors.md R211). -/
def refinedUpdate (slot : Fin 2) (bit : Bool) : Cmd Preds Unit := do
  let t ← get
  let p := t.pr[slot]
  let a := t.apm[apmIdx p.apmslot]
  check (!a.valid || decide (a.n < p.model.size)) .invalidParameter 3
  let m := p.model.update bit
  let (q, a1) := a.get bit m.get m.c1
  set { t with pr := t.pr.set slot { p with model := m, latched := q }, apm := t.apm.set (apmIdx p.apmslot) a1 }

/-- `PredUpdate(slot, bit)` (42_predictors.md R206). -/
def predUpdate (slot : Fin 2) (bit : Bool) : Cmd Preds Unit := do
  let t ← get
  let p := t.pr[slot]
  match p.kind with
  | .none => raise .invalidParameter 3
  | .fixed => pure ()
  | .localModel => set { t with pr := t.pr.set slot { p with model := p.model.update bit } }
  | .refined => refinedUpdate slot bit
  | .external => set { t with ext := bit :: t.ext }

/-- The bits of `arg` that a predictor kind does not use are reserved (42_predictors.md R204). -/
def prArgReserved : PredKind → BitVec 32
  | .none => 0#32
  | .fixed => 0xFFFFF000#32
  | .localModel => 0xFFFFFFF0#32
  | .refined => 0xFFFFF0F0#32
  | .external => 0xFFFFFFFF#32

/-- A predictor kind operand (42_predictors.md R201): 0 FIXED, 1 LOCAL, 2 REFINED, 3 EXTERNAL. -/
def predKind (kind : BitVec 8) : Option PredKind :=
  if kind = 0#8 then some .fixed else if kind = 1#8 then some .localModel
  else if kind = 2#8 then some .refined else if kind = 3#8 then some .external else none

/-- The `logSize` checks of `PR_INIT` for LOCAL and REFINED (42_predictors.md R204). -/
def checkLogSize (logSize : Nat) : Cmd State Unit := check (decide (logSize < 1) || decide (9 < logSize)) .invalidParameter 2

/-- The rule of `PR_INIT` (42_predictors.md R204). -/
def prInitBody (slot : BitVec 4) (kind : BitVec 8) (arg : BitVec 32) : Cmd State Word := do
  let s ← get
  match predSlot slot with
  | none => raise .invalidParameter 2
  | some i =>
    match predKind kind with
    | none => raise .invalidParameter 2
    | some k => do
      check (decide (arg &&& prArgReserved k ≠ 0#32)) .invalidParameter 1
      let p := { s.pr[i] with kind := k }
      let logSize := (arg.extractLsb' 0 4).toNat
      let apmslot : BitVec 4 := arg.extractLsb' 8 4
      match k with
      | .none => raise .invalidParameter 2
      | .fixed => do
        set (s.withPr (s.pr.set i { p with value := arg.extractLsb' 0 12 }))
        pure 0
      | .localModel => do
        checkLogSize logSize
        set (s.withPr (s.pr.set i { p with model := LocalModel.init logSize }))
        pure 0
      | .refined => do
        checkLogSize logSize
        check (decide (s.par.napm ≤ apmslot.toNat)) .invalidParameter 2
        check (!s.apm[apmIdx apmslot].valid) .invalidParameter 3
        check (decide (s.apm[apmIdx apmslot].n < 2 ^ logSize)) .invalidParameter 2
        set (s.withPr (s.pr.set i { p with model := LocalModel.init logSize, apmslot := apmslot, latched := 2048 }))
        pure 0
      | .external => do
        check (decide (s.pr[1 - i].kind = .external)) .invalidParameter 6
        set ((s.withPr (s.pr.set i p)).withExt [])
        pure 0

/-- `PR_INIT slot, kind, arg` (42_predictors.md R204). -/
def execPrInit (slot : BitVec 4) (kind : BitVec 8) (arg : BitVec 32) (s : State) : Host.Outcome State Fault Refusal :=
  command 0x40#8 State.spoilNothing (prInitBody slot kind arg) s

/-- The rule of `PR_GET` (42_predictors.md R205). -/
def prGetBody (slot : BitVec 4) : Cmd State Word :=
  match predSlot slot with
  | none => raise .invalidParameter 2
  | some i => do
    let p ← onPreds (predGet i)
    pure (p.setWidth 64)

/-- `PR_GET slot` (42_predictors.md R205). -/
def execPrGet (slot : BitVec 4) (s : State) : Host.Outcome State Fault Refusal :=
  command 0x41#8 State.spoilNothing (prGetBody slot) s

/-- The rule of `PR_UPDATE` (42_predictors.md R206). -/
def prUpdateBody (slot : BitVec 4) (bit : Bool) : Cmd State Word :=
  match predSlot slot with
  | none => raise .invalidParameter 2
  | some i => do
    onPreds (predUpdate i bit)
    pure 0

/-- `PR_UPDATE slot, bit` (42_predictors.md R206). -/
def execPrUpdate (slot : BitVec 4) (bit : Bool) (s : State) : Host.Outcome State Fault Refusal :=
  command 0x42#8 State.spoilNothing (prUpdateBody slot bit) s

/-- A slot with its byte context set; FIXED and EXTERNAL have none (42_predictors.md R207). -/
def PredSlot.setCtx (p : PredSlot) (byte : Byte) : PredSlot :=
  match p.kind with
  | .localModel => { p with model := p.model.setCtx byte }
  | .refined => { p with model := p.model.setCtx byte }
  | _ => p

/-- The rule of `PR_SETCTX` (42_predictors.md R207). -/
def prSetctxBody (slot : BitVec 4) (byte : Byte) : Cmd State Word := do
  let s ← get
  match predSlot slot with
  | none => raise .invalidParameter 2
  | some i => do
    check (decide (s.pr[i].kind = .none)) .invalidParameter 3
    set (s.withPr (s.pr.set i (s.pr[i].setCtx byte)))
    pure 0

/-- `PR_SETCTX slot, byte` (42_predictors.md R207). -/
def execPrSetctx (slot : BitVec 4) (byte : Byte) (s : State) : Host.Outcome State Fault Refusal :=
  command 0x43#8 State.spoilNothing (prSetctxBody slot byte) s

end Sys2Proof.Machine
end

