-- ==== Sys2Proof/Machine/Coder.lean ====
section
/-!
DEFINITION. The binary arithmetic coder: the per-bit step on an interval, and the commands `BE_*` (43_binary_coder.md).
-/

namespace Sys2Proof.Machine

/-! ### The interval (43_binary_coder.md R230 to R232), shared by the host's coder and ROLZ backend 2 -/

/-- `Split()`: `(((high - low) >> 4) * p) >> 8` on 64-bit registers (43_binary_coder.md R231). -/
def Interval.split (iv : Interval) (p : Prob12) : Word := (((iv.high - iv.low) >>> 4) * p.setWidth 64) >>> 8

/-- The sub-interval of a bit: a 1 keeps `[low, low+split]`, a 0 keeps `[low+split+1, high]` (43_binary_coder.md R233). -/
def Interval.narrow (iv : Interval) (p : Prob12) (bit : Bool) : Interval :=
  if bit then { iv with high := iv.low + iv.split p } else { iv with low := iv.low + iv.split p + 1 }

/-- The bit a code value decodes to: 1 when `current <= low + split`, unsigned (43_binary_coder.md R234). -/
def Interval.decide (iv : Interval) (p : Prob12) (current : Word) : Bool := Decidable.decide (current ≤ iv.low + iv.split p)

/-- The renormalisation test: bits 55..24 of the bounds agree (43_binary_coder.md R232). -/
def Interval.settled (iv : Interval) : Bool := Decidable.decide ((iv.low ^^^ iv.high) &&& Config.renormMask = 0)

/-- Both bounds shifted left by 32, the low bits of `high` filled with ones (43_binary_coder.md R232). -/
def Interval.shift (iv : Interval) : Interval := { low := iv.low <<< 32, high := (iv.high <<< 32) ||| 0xFFFFFFFF#64 }

/-- The group a renormalisation emits: `high[63:32]` (43_binary_coder.md R232). -/
def Interval.group (iv : Interval) : Word := iv.high >>> 32

/-! ### The host's coder -/

/-- The host's coder with another interval. -/
def setInterval (iv : Interval) : Cmd State Unit := modify fun s => s.withBe { s.be with iv := iv }

/-- `Renorm(ENC)` (43_binary_coder.md R232): the loop body runs at most once, since after it bits 31..24 differ. -/
def renormEnc : Cmd State Unit := do
  let s ← get
  if s.be.iv.settled then do
    onWriter (writeBits s.par.bufsz s.be.iv.group 32)
    setInterval s.be.iv.shift
  else pure ()

/-- `Renorm(DEC)` (43_binary_coder.md R232): the end of the stream in its refill is in the middle of the command
(60_exceptions.md R398). -/
def renormDec : Cmd State Unit := do
  let s ← get
  if s.be.iv.settled then do
    setInterval s.be.iv.shift
    let x ← midway (onReader (readBits s.par.bufsz 32))
    modify fun t => t.withBe { t.be with current := (t.be.current <<< 32) ||| x }
  else pure ()

/-- The coder left unspecified, and nothing else (43_binary_coder.md R238). -/
def State.looseCoder (s : State) : State := (s.withBe (Config.unspecCoder s.draws)).drawn

/-- The steps of `EncodeBit(bit)` (43_binary_coder.md R233). -/
def encodeStep (bit : Bool) : Cmd State Unit := do
  let s ← get
  let p ← onPreds (predGet s.be.pslot)
  setInterval (s.be.iv.narrow p bit)
  onPreds (predUpdate s.be.pslot bit)
  renormEnc

/-- `EncodeBit(bit)` (43_binary_coder.md R233). A check that fails, of a REFINED predictor or of the writer's room, leaves
every unit but the coder as it was (60_exceptions.md R398, 43_binary_coder.md R238; DEDUCED, unsafe: log entry 4). -/
def encodeBit (bit : Bool) : Cmd State Unit := reverting State.looseCoder (encodeStep bit)

/-- The steps of `DecodeBit()` (43_binary_coder.md R234). -/
def decodeStep : Cmd State Bool := do
  let s ← get
  let p ← onPreds (predGet s.be.pslot)
  let bit := s.be.iv.decide p s.be.current
  setInterval (s.be.iv.narrow p bit)
  onPreds (predUpdate s.be.pslot bit)
  renormDec
  pure bit

/-- `DecodeBit()` (43_binary_coder.md R234). A check that fails, of a REFINED predictor, leaves all state as it was
(60_exceptions.md R398). -/
def decodeBit : Cmd State Bool := reverting id decodeStep

/-- `EncodeBit` for the bits of a list in order: a check that fails leaves what the bits before it did (DEDUCED, unsafe: log
entry 4). -/
def encodeBits : List Bool → Cmd State Unit
  | [] => pure ()
  | b :: r => do
    encodeBit b
    encodeBits r

/-- `r <- 2*r + DecodeBit()`, `n` times (43_binary_coder.md R243). -/
def decodeBits : Nat → Word → Cmd State Word
  | 0, acc => pure acc
  | n + 1, acc => do
    let b ← decodeBit
    decodeBits n (2 * acc + (BitVec.ofBool b).setWidth 64)

/-- What an error in the middle of a command that codes bits leaves unspecified: coder, predictors, writer and its window. -/
def State.spoilEncoder (s : State) : State := s.spoilCoder.spoilWriter

/-- What an error in the middle of `BE_ENC_DISPOSE` leaves unspecified: coder, writer and its window; it uses no predictor
(43_binary_coder.md R240). -/
def State.spoilDispose (s : State) : State := (s.withBe (Config.unspecCoder s.draws)).spoilWriter

/-- What an error in the middle of a decoder command leaves unspecified: coder, predictors, reader. -/
def State.spoilDecoder (s : State) : State := s.spoilCoder.spoilReader

/-- The rule of `BE_ENC_INIT` (43_binary_coder.md R237). -/
def beEncInitBody (pslot : BitVec 4) : Cmd State Word := do
  let s ← get
  match predSlot pslot with
  | none => raise .invalidParameter 2
  | some i => do
    check (decide (s.pr[i].kind = .none)) .invalidParameter 3
    check (!s.bw.isOpen) .invalidParameter 3
    set (s.withBe { mode := .enc, pslot := i, iv := Interval.initial, current := 0 })
    pure 0

/-- `BE_ENC_INIT pslot` (43_binary_coder.md R237). -/
def execBeEncInit (pslot : BitVec 4) (s : State) : Host.Outcome State Fault Refusal :=
  command 0x50#8 State.spoilNothing (beEncInitBody pslot) s

/-- The checks of the encoder commands: `be.mode` and `bw.open`. -/
def checkEncoder : Cmd State Unit := do
  let s ← get
  check (decide (s.be.mode ≠ .enc)) .invalidParameter 3
  check (!s.bw.isOpen) .ioError 1

/-- The rule of `BE_ENC_BIT` (43_binary_coder.md R238). -/
def beEncBitBody (bit : Bool) : Cmd State Word := do
  checkEncoder
  encodeBit bit
  pure 0

/-- `BE_ENC_BIT bit` (43_binary_coder.md R238). -/
def execBeEncBit (bit : Bool) (s : State) : Host.Outcome State Fault Refusal :=
  command 0x51#8 State.spoilEncoder (beEncBitBody bit) s

/-- The rule of `BE_ENC_BITS` (43_binary_coder.md R239). -/
def beEncBitsBody (n : BitVec 8) (value : Word) : Cmd State Word := do
  check (decide (64 < n.toNat)) .invalidParameter 2
  checkEncoder
  encodeBits (bitsOf value n.toNat)
  pure 0

/-- `BE_ENC_BITS n, value` (43_binary_coder.md R239). -/
def execBeEncBits (n : BitVec 8) (value : Word) (s : State) : Host.Outcome State Fault Refusal :=
  command 0x52#8 State.spoilEncoder (beEncBitsBody n value) s

/-- The coder released: `be.mode <- IDLE`. -/
def releaseCoder : Cmd State Unit := modify fun s => s.withBe { s.be with mode := .idle }

/-- The rule of `BE_ENC_DISPOSE` (43_binary_coder.md R240). -/
def beEncDisposeBody : Cmd State Word := do
  checkEncoder
  let s ← get
  onWriter (writeBits s.par.bufsz s.be.iv.low 64)
  releaseCoder
  pure 0

/-- `BE_ENC_DISPOSE` (43_binary_coder.md R240). -/
def execBeEncDispose (s : State) : Host.Outcome State Fault Refusal :=
  command 0x53#8 State.spoilDispose beEncDisposeBody s

/-- The rule of `BE_DEC_INIT` (43_binary_coder.md R241). -/
def beDecInitBody (pslot : BitVec 4) : Cmd State Word := do
  let s ← get
  match predSlot pslot with
  | none => raise .invalidParameter 2
  | some i => do
    check (decide (s.pr[i].kind = .none)) .invalidParameter 3
    let x ← onReader (readBits s.par.bufsz 64)
    modify fun t => t.withBe { mode := .dec, pslot := i, iv := Interval.initial, current := x }
    pure 0

/-- `BE_DEC_INIT pslot` (43_binary_coder.md R241): if its read fails, no state of the coder has changed. -/
def execBeDecInit (pslot : BitVec 4) (s : State) : Host.Outcome State Fault Refusal :=
  command 0x54#8 State.spoilReader (beDecInitBody pslot) s

/-- The check of the decoder commands: `be.mode`. -/
def checkDecoder : Cmd State Unit := do
  let s ← get
  check (decide (s.be.mode ≠ .dec)) .invalidParameter 3

/-- The rule of `BE_DEC_BIT` (43_binary_coder.md R242). -/
def beDecBitBody : Cmd State Word := do
  checkDecoder
  let b ← decodeBit
  pure ((BitVec.ofBool b).setWidth 64)

/-- `BE_DEC_BIT` (43_binary_coder.md R242). -/
def execBeDecBit (s : State) : Host.Outcome State Fault Refusal := command 0x55#8 State.spoilDecoder beDecBitBody s

/-- The rule of `BE_DEC_BITS` (43_binary_coder.md R243). -/
def beDecBitsBody (n : BitVec 8) : Cmd State Word := do
  check (decide (64 < n.toNat)) .invalidParameter 2
  checkDecoder
  decodeBits n.toNat 0

/-- `BE_DEC_BITS n` (43_binary_coder.md R243). -/
def execBeDecBits (n : BitVec 8) (s : State) : Host.Outcome State Fault Refusal :=
  command 0x56#8 State.spoilDecoder (beDecBitsBody n) s

/-- The rule of `BE_DEC_DISPOSE` (43_binary_coder.md R244). -/
def beDecDisposeBody : Cmd State Word := do
  checkDecoder
  releaseCoder
  pure 0

/-- `BE_DEC_DISPOSE` (43_binary_coder.md R244). -/
def execBeDecDispose (s : State) : Host.Outcome State Fault Refusal :=
  command 0x57#8 State.spoilNothing beDecDisposeBody s

/-- The rule of `BE_SETPRED` (43_binary_coder.md R245). -/
def beSetpredBody (pslot : BitVec 4) : Cmd State Word := do
  let s ← get
  check (decide (s.be.mode = .idle)) .invalidParameter 3
  match predSlot pslot with
  | none => raise .invalidParameter 2
  | some i => do
    check (decide (s.pr[i].kind = .none)) .invalidParameter 3
    set (s.withBe { s.be with pslot := i })
    pure 0

/-- `BE_SETPRED pslot` (43_binary_coder.md R245). -/
def execBeSetpred (pslot : BitVec 4) (s : State) : Host.Outcome State Fault Refusal :=
  command 0x58#8 State.spoilNothing (beSetpredBody pslot) s

end Sys2Proof.Machine
end

