-- ==== Sys2Proof/Machine/MatchFinder.lean ====
section
/-!
DEFINITION. The ROLZ match finder: keys, hashes, records, insertion, search and look-up, and the commands `RZ_INIT`,
`RZ_CHUNK`, `RZ_FIND` (45_rolz_matchfinder.md).
-/

namespace Sys2Proof.Machine

/-- A piece of a rule that uses the ROLZ unit and MEM. -/
def onRolz {α : Type} (x : Cmd (Rolz × Env) α) : Cmd State α :=
  zoom (fun s => (s.rz, s.env)) (fun t s => (s.withRz t.1).withEnv t.2) x

/-- An update of the ROLZ unit. -/
def setRolz (f : Rolz → Rolz) : Cmd (Rolz × Env) Unit := modify fun t => (f t.1, t.2)

/-! ### Chunk, key, hash, record (45_rolz_matchfinder.md R292 to R295) -/

/-- `buf[p]`: the byte of MEM at `rz.cbase + p` (R292). -/
def bufByte (p : Nat) : Cmd (Rolz × Env) Byte := do
  let (z, _) ← get
  memRead (z.cbase.toNat + p)

/-- `buf[i]` in a comparison of a search. The search for a position asked after later ones may come to an index past the end of
the chunk: the bytes that follow it, as far as the window it lies in reaches (45_rolz_matchfinder.md R292, R294, R300); past
the window, where no command reads, the spec says no value: no access, an arbitrary byte (20_memory.md R71; DESIGN CHOICE,
safe: log entry 15). -/
def matchByte (i : Nat) : Cmd (Rolz × Env) Byte := do
  let (z, _) ← get
  if i < z.clen.toNat then bufByte i else freeByte

/-- `buf[p .. p+n-1]`. -/
def bufBytes (p n : Nat) : Cmd (Rolz × Env) (List Byte) := do
  let (z, _) ← get
  memReadBytes (z.cbase.toNat + p) n

/-- `Key(p)` = `buf[p-2] + 256*buf[p-1]` (R293). -/
def keyAt (p : Nat) : Cmd (Rolz × Env) Nat := do
  let b0 ← bufByte (p - 2)
  let b1 ← bufByte (p - 1)
  pure (b0.toNat + 256 * b1.toNat)

/-- The hash of three bytes (R294): the product modulo 2^32, masked with `HASH_MASK`. -/
def hashOf (b0 b1 b2 : Byte) : BitVec 32 :=
  BitVec.ofNat 32 ((b0.toNat + 2 ^ 8 * b1.toNat + 2 ^ 16 * b2.toNat) * Config.hashMul) &&& Config.hashMask

/-- `Hash(p)` (R294): byte accesses, without the fourth byte a wider read would touch. -/
def hashAt (p : Nat) : Cmd (Rolz × Env) (BitVec 32) := do
  let b0 ← bufByte p
  let b1 ← bufByte (p + 1)
  let b2 ← bufByte (p + 2)
  pure (hashOf b0 b1 b2)

/-- The position a record holds: bits 25..0 (R295). -/
def recordPos (r : BitVec 32) : Nat := (r &&& ~~~Config.hashMask).toNat

/-! ### The rings (45_rolz_matchfinder.md R290, R296, R302) -/

/-- Zero entries: counters never incremented, empty slots. -/
def zeroEntry : Nat → BitVec 32 := fun _ => 0#32

/-- `rz.counters[k]`. -/
def Rolz.counter (z : Rolz) (k : Nat) : BitVec 32 := Store.get zeroEntry z.counters k

/-- `rz.matches[i]`. -/
def Rolz.slot (z : Rolz) (i : Nat) : BitVec 32 := Store.get zeroEntry z.matchRing i

/-- The index in `rz.matches` of the slot of key `k` that a counter value selects: `k*posChecks + (c & mask)`. -/
def Rolz.ringIndex (z : Rolz) (k : Nat) (c : BitVec 32) : Nat := k * z.posChecks + c.toNat % z.posChecks

/-- The unit after a record is inserted in the ring of key `k` (R296). -/
def Rolz.insert (z : Rolz) (k : Nat) (record : BitVec 32) : Rolz :=
  let c := z.counter k
  { z with
    counters := Store.set zeroEntry z.counters k (c + 1)
    matchRing := Store.set zeroEntry z.matchRing (z.ringIndex k (c + 1)) record }

/-- `Insert(p)` (R296). -/
def insertAt (p : Nat) : Cmd (Rolz × Env) Unit := do
  let k ← keyAt p
  let h ← hashAt p
  setRolz fun z => z.insert k (h ||| BitVec.ofNat 32 p)

/-- `InsertDec(p)`: the decoder's form, whose record is the position alone (R296). -/
def insertDec (p : Nat) : Cmd (Rolz × Env) Unit := do
  let k ← keyAt p
  setRolz fun z => z.insert k (BitVec.ofNat 32 p)

/-- `f(q)` for `q` from `p` on, `n` of them. -/
def forPositions (f : Nat → Cmd (Rolz × Env) Unit) (p : Nat) : Nat → Cmd (Rolz × Env) Unit
  | 0 => pure ()
  | n + 1 => do
    f p
    forPositions f (p + 1) n

/-- `while n < maxm and buf[r + n] = buf[p + n]: n <- n + 1` (R297), at most `fuel` rounds. -/
def extendMatch (r p maxm : Nat) : Nat → Nat → Cmd (Rolz × Env) Nat
  | 0, n => pure n
  | k + 1, n =>
    if n < maxm then do
      let a ← matchByte (r + n)
      let b ← matchByte (p + n)
      if a = b then extendMatch r p maxm k (n + 1) else pure n
    else pure n

/-- The best candidate so far: its length, and its ring distance. -/
structure Best where
  len : Nat
  idx : Option Nat
deriving DecidableEq, Repr

/-- The loop of `FindMatch` over the ring distances `j`, `fuel` of them left (R297): an empty slot stops it, a slot with
another hash or another first byte is skipped, a strictly longer match replaces the best (R301). R297 lets an implementation
stop once `best = maxm`; the model looks at the older slots too, whose bytes may then fail (R79) or race (R90) (DESIGN
CHOICE, unsafe: log entry 10). -/
def searchRing (key : Nat) (h : BitVec 32) (c : BitVec 32) (p maxm : Nat) : Nat → Nat → Best → Cmd (Rolz × Env) Best
  | 0, _, best => pure best
  | k + 1, j, best => do
    let (z, _) ← get
    let ref := z.slot (z.ringIndex key (c - BitVec.ofNat 32 j))
    if ref = 0 then pure best
    else if ref &&& Config.hashMask ≠ h then searchRing key h c p maxm k (j + 1) best
    else do
      let r := recordPos ref
      let a ← matchByte r
      let b ← matchByte p
      if a ≠ b then searchRing key h c p maxm k (j + 1) best
      else do
        let n ← extendMatch r p maxm (Config.maxMatch - 1) 1
        searchRing key h c p maxm k (j + 1) (if best.len < n then { len := n, idx := some j } else best)

/-- A match: the ring distance and the length. -/
structure Match where
  idx : Nat
  len : Nat
deriving DecidableEq, Repr

/-- `FindMatch(p)` (R297): the search sees the ring before `p` is inserted; `p` is inserted whether or not a match of at
least `MIN_MATCH` bytes is found. -/
def findMatch (p : Nat) : Cmd (Rolz × Env) (Option Match) := do
  let k ← keyAt p
  let h ← hashAt p
  let (z, _) ← get
  let maxm := min Config.maxMatch (z.csize.toNat - p)
  let best ← searchRing k h (z.counter k) p maxm z.posChecks 0 { len := Config.minMatch - 1, idx := none }
  insertAt p
  pure (best.idx.map fun j => { idx := j, len := best.len })

/-- `Lookup(p, idx)` (R302). -/
def lookup (p idx : Nat) : Cmd (Rolz × Env) Nat := do
  let k ← keyAt p
  let (z, _) ← get
  let ref := z.slot (z.ringIndex k (z.counter k - BitVec.ofNat 32 idx))
  checkMid (decide (ref = 0)) .invalidData 25
  pure (recordPos ref)

/-! ### The commands -/

/-- The rule of `RZ_INIT` (45_rolz_matchfinder.md R291). -/
def rzInitBody (backend lpc : BitVec 8) : Cmd State Word := do
  check (decide (backend ≠ 1 ∧ backend ≠ 2)) .invalidParameter 2
  check (decide (lpc.toNat < 2) || decide (8 < lpc.toNat)) .invalidParameter 2
  modify fun s => s.withRz
    { s.rz with
      backend := backend.setWidth 2, lpc := lpc.setWidth 4, counters := [], matchRing := [], cvalid := false,
      ready := true }
  pure 0

/-- `RZ_INIT backend, lpc` (45_rolz_matchfinder.md R291). -/
def execRzInit (backend lpc : BitVec 8) (s : State) : Host.Outcome State Fault Refusal :=
  command 0x70#8 State.spoilNothing (rzInitBody backend lpc) s

/-- The rule of `RZ_CHUNK` (45_rolz_matchfinder.md R299). -/
def rzChunkBody (newblock : Bool) (start size : BitVec 32) : Cmd State Word := do
  let s ← get
  check (!s.rz.ready) .invalidParameter 3
  check (!windowFits s.win.srcBase s.win.srcLen) .invalidParameter 4
  check (decide (Config.chunkSize < size.toNat)) .invalidParameter 2
  check (decide (s.win.srcLen.toNat < start.toNat + size.toNat + 4)) .invalidParameter 2
  set (s.withRz
    { s.rz with
      counters := if newblock then [] else s.rz.counters
      matchRing := [], cbase := s.win.srcBase + start, csize := size, clen := s.win.srcLen - start,
      cvalid := true })
  pure 0

/-- `RZ_CHUNK newblock, start, size` (45_rolz_matchfinder.md R299). -/
def execRzChunk (newblock : Bool) (start size : BitVec 32) (s : State) : Host.Outcome State Fault Refusal :=
  command 0x73#8 State.spoilNothing (rzChunkBody newblock start size) s

/-- The response of `RZ_FIND`: `len << 8 | idx`, or all ones for no match (45_rolz_matchfinder.md R300). -/
def findResponse : Option Match → Word
  | none => 0xFFFFFFFFFFFFFFFF
  | some m => BitVec.ofNat 64 (m.len * 256 + m.idx)

/-- The rule of `RZ_FIND` (45_rolz_matchfinder.md R300). -/
def rzFindBody (p : BitVec 32) : Cmd State Word := do
  let s ← get
  check (!s.rz.ready || !s.rz.cvalid) .invalidParameter 3
  check (decide (p.toNat < 2) || decide (s.rz.csize.toNat ≤ p.toNat)) .invalidParameter 2
  let m ← onRolz (findMatch p.toNat)
  pure (findResponse m)

/-- `RZ_FIND p` (45_rolz_matchfinder.md R300). -/
def execRzFind (p : BitVec 32) (s : State) : Host.Outcome State Fault Refusal :=
  command 0x74#8 State.spoilRolz (rzFindBody p) s

end Sys2Proof.Machine
end

