-- ==== Sys2Proof/Machine/Rolz.lean ====
section
/-!
DEFINITION. The ROLZ block format with both back ends, and the commands `RZ_FWD`, `RZ_INV`, `RZ_EMITLEN`, `RZ_READLEN`
(46_rolz_backend1.md, 47_rolz_backend2.md).
-/

namespace Sys2Proof.Machine

/-! ### The length code (46_rolz_backend1.md R325, R330) -/

/-- The groups of an excess `e`: most significant first, all but the last with bit 7 set, as few as hold `e` (R325). -/
def excessGroups (e : Nat) : List Byte :=
  (if 2 ^ 21 ≤ e then [BitVec.ofNat 8 (0x80 + e / 2 ^ 21 % 128)] else [])
    ++ (if 2 ^ 14 ≤ e then [BitVec.ofNat 8 (0x80 + e / 2 ^ 14 % 128)] else [])
    ++ (if 2 ^ 7 ≤ e then [BitVec.ofNat 8 (0x80 + e / 2 ^ 7 % 128)] else [])
    ++ [BitVec.ofNat 8 (e % 128)]

/-- `EmitLengths(L, M)` (R325). -/
def emitLengths (l m : Nat) : List Byte :=
  BitVec.ofNat 8 ((if l < 31 then l * 8 else 0xF8) + (if 7 ≤ m then 7 else m))
    :: ((if 7 ≤ m then [BitVec.ofNat 8 (m - 7)] else []) ++ (if 31 ≤ l then excessGroups (l - 31) else []))

/-- The groups of an excess read back, at most `g` more of them, `e` so far: none when the bytes end or a fifth group
comes (R330). -/
def readGroups : Nat → Nat → List Byte → Option (Nat × List Byte)
  | 0, _, _ => none
  | _ + 1, _, [] => none
  | g + 1, e, x :: r =>
    if x.toNat < 128 then some (e * 128 + x.toNat, r) else readGroups g (e * 128 + x.toNat % 128) r

/-- The extra byte of `M`, when the low three bits of the first byte are 7 (R330). -/
def readExtra (m : Nat) (r : List Byte) : Option (Nat × List Byte) :=
  if m = 7 then
    match r with
    | [] => none
    | x :: r' => some (7 + x.toNat, r')
  else some (m, r)

/-- `ReadLengths` on the rest of a byte sequence: `L`, `M` and what is left; none where R330 raises `InvalidData`
sub 20. -/
def readLengths : List Byte → Option (Nat × Nat × List Byte)
  | [] => none
  | b0 :: r =>
    match readExtra (b0.toNat % 8) r with
    | none => none
    | some (m, r1) =>
      if b0.toNat / 8 = 31 then
        match readGroups 4 0 r1 with
        | none => none
        | some (e, r2) => some (31 + e, m, r2)
      else some (b0.toNat / 8, m, r1)

/-- The bytes of a sequence in the layout of `RZ_EMITLEN`'s response, byte `i` at bits `15+8i .. 8+8i`, above the count
(R326). -/
def packBytes : List Byte → Nat
  | [] => 0
  | b :: r => b.toNat + 256 * packBytes r

/-- The rule of `RZ_EMITLEN` (R326). -/
def rzEmitlenBody (l : BitVec 32) (m : BitVec 16) : Cmd State Word := do
  check (decide (2 ^ 28 + 30 < l.toNat) || decide (262 < m.toNat)) .invalidParameter 2
  let out := emitLengths l.toNat m.toNat
  pure (BitVec.ofNat 64 (out.length + 256 * packBytes out))

/-- `RZ_EMITLEN L, M` (46_rolz_backend1.md R326). -/
def execRzEmitlen (l : BitVec 32) (m : BitVec 16) (s : State) : Host.Outcome State Fault Refusal :=
  command 0x75#8 State.spoilNothing (rzEmitlenBody l m) s

/-- The first `k` bytes above the count in the layout of `RZ_EMITLEN`'s response (R336). -/
def unpackBytes (packed : Word) (k : Nat) : List Byte :=
  (List.range k).map (fun i => packed.extractLsb' (8 + 8 * i) 8)

/-- The rule of `RZ_READLEN` (R336). -/
def rzReadlenBody (packed : Word) : Cmd State Word := do
  let k := (packed.extractLsb' 0 8).toNat
  check (decide (7 < k)) .invalidParameter 2
  match readLengths (unpackBytes packed k) with
  | none => raise .invalidData 20
  | some (l, m, rest) => pure (BitVec.ofNat 64 (l * 2 ^ 32 + m * 2 ^ 16 + (k - rest.length)))

/-- `RZ_READLEN packed` (46_rolz_backend1.md R336). -/
def execRzReadlen (packed : Word) (s : State) : Host.Outcome State Fault Refusal :=
  command 0x76#8 State.spoilNothing (rzReadlenBody packed) s

/-! ### The block (46_rolz_backend1.md R320) -/

/-- The bytes of a block of `n` bytes copied verbatim. -/
def tailOf (n : Nat) : Nat := min Config.tail n

/-- The chunks (start, size) of the `srcEnd` bytes that go through the match finder. -/
def chunksOf (srcEnd : Nat) : List (Nat × Nat) :=
  (List.range ((srcEnd + Config.chunkSize - 1) / Config.chunkSize)).map fun i =>
    (i * Config.chunkSize, min Config.chunkSize (srcEnd - i * Config.chunkSize))

/-- The start of a chunk of the window of `len` bytes at `base`: the rings are cleared and the chunk is set
(46_rolz_backend1.md R322, R332; `clen`: log entry 21). -/
def openChunk (base len : BitVec 32) (start size : Nat) : Cmd (Rolz × Env) Unit :=
  setRolz fun z =>
    { z with
      matchRing := [], cbase := BitVec.ofNat 32 (base.toNat + start), csize := BitVec.ofNat 32 size
      clen := BitVec.ofNat 32 (len.toNat - start) }

/-- One byte of output at offset `o` of the DST window: it must fit (R321). -/
def emitByte (w : Windows) (o : Nat) (b : Byte) : Cmd (Rolz × Env) Nat := do
  checkMid (decide (w.dstCap.toNat < o + 1)) .bufferTooSmall 2
  memWrite (w.dstBase.toNat + o) b
  pure (o + 1)

/-- Bytes of output in ascending address order. -/
def emitBytes (w : Windows) (o : Nat) : List Byte → Cmd (Rolz × Env) Nat
  | [] => pure o
  | b :: r => do
    let o1 ← emitByte w o b
    emitBytes w o1 r

/-- The next match of the greedy parse: positions 0 and 1 have no key (46_rolz_backend1.md R322). -/
def nextMatch (p : Nat) : Cmd (Rolz × Env) (Option Match) := if p < 2 then pure none else findMatch p

/-! ### Back end 1 (46_rolz_backend1.md R322, R327, R332, R333) -/

/-- The three streams of a chunk. -/
structure Streams where
  lit : List Byte
  len : List Byte
  idx : List Byte
deriving DecidableEq, Repr

/-- The terminal tuple and the literals before it (R322). -/
def parseEnd (size first : Nat) : Cmd (Rolz × Env) Streams := do
  let lits ← bufBytes first (size - first)
  pure { lit := lits, len := emitLengths (size - first) 0, idx := [] }

/-- The parse of a chunk from position `p`, with the pending literal run from `first` (R322). Every round moves `p`
forward, so that `size` rounds reach the end. -/
def parseChunk (size : Nat) : Nat → Nat → Nat → Cmd (Rolz × Env) Streams
  | 0, _, first => parseEnd size first
  | k + 1, p, first =>
    if size ≤ p then parseEnd size first
    else do
      match ← nextMatch p with
      | none => parseChunk size k (p + 1) first
      | some m => do
        let lits ← bufBytes first (p - first)
        forPositions insertAt (p + 1) (m.len - 1)
        let r ← parseChunk size k (p + m.len) (p + m.len)
        pure
          { lit := lits ++ r.lit
            len := emitLengths (p - first) (m.len - Config.minMatch) ++ r.len
            idx := BitVec.ofNat 8 m.idx :: r.idx }

/-- The fields of a chunk bitstream (R327). -/
def chunkFields (lr : Nat) (t : Streams) : List (Word × Nat) :=
  [(BitVec.ofNat 64 t.lit.length, 32), (BitVec.ofNat 64 t.len.length, 32), (BitVec.ofNat 64 t.idx.length, 32)]
    ++ ansFields true lr t.lit ++ ansFields false lr t.len ++ ansFields false lr t.idx

/-- The bits of fields written in order. -/
def fieldBits (fields : List (Word × Nat)) : List Bool := fields.flatMap fun f => bitsOf f.1 f.2

/-- `EncodeChunk1(start, size, o)` (R327): the offset after it. -/
def encodeChunk1 (w : Windows) (lr start size o : Nat) : Cmd (Rolz × Env) Nat := do
  openChunk w.srcBase w.srcLen start size
  let t ← parseChunk size size 0 0
  emitBytes w o (pack (fieldBits (chunkFields lr t)))

/-- Back end 1 on the chunks of a block in order (R321). -/
def encodeChunks1 (w : Windows) (lr : Nat) : List (Nat × Nat) → Nat → Cmd (Rolz × Env) Nat
  | [], o => pure o
  | c :: r, o => do
    let o1 ← encodeChunk1 w lr c.1 c.2 o
    encodeChunks1 w lr r o1

/-- A private bit reader over `nbits` bits of MEM from address `base` on, `pos` of them consumed (R331, R332). -/
structure BitSource where
  base : Nat
  nbits : Nat
  pos : Nat
deriving DecidableEq, Repr

/-- The next `len` bits of a private reader, which has them; `acc` holds those before. A byte of MEM is read when a bit of it is
consumed, and none ahead: how far a reader reads ahead is left open (10_state.md R60, 40_bitstream.md R146; DESIGN CHOICE,
unsafe: log entry 7). -/
def sourceBits : Nat → Nat → Cmd (BitSource × Env) Nat
  | 0, acc => pure acc
  | k + 1, acc => do
    let (r, _) ← get
    let b ← memRead (r.base + r.pos / 8)
    modify fun t => ({ t.1 with pos := t.1.pos + 1 }, t.2)
    sourceBits k (2 * acc + (b.getLsbD (7 - r.pos % 8)).toNat)

/-- `ReadBits(r, len)` of a private reader: its exhaustion is `InvalidData` sub 24 (R331, 60_exceptions.md R394). -/
def readSource (len : Nat) : Cmd (BitSource × Env) Word := do
  let (r, _) ← get
  checkMid (decide (r.nbits < r.pos + len)) .invalidData 24
  let v ← sourceBits len 0
  pure (BitVec.ofNat 64 v)

/-- A piece of a rule that reads a private reader, inside the ROLZ unit's rule: its value and the reader after it. -/
def withSource {α : Type} (r : BitSource) (x : Cmd (BitSource × Env) α) : Cmd (Rolz × Env) (α × BitSource) := fun t =>
  match x (r, t.2) with
  | .ok a u => .ok (a, u.1) (t.1, u.2)
  | .error e u => .error e (t.1, u.2)

/-- `buf[p] <- b` in the decoder: the chunk lies in the DST window (R332). -/
def setBuf (p : Nat) (b : Byte) : Cmd (Rolz × Env) Unit := do
  let (z, _) ← get
  memWrite (z.cbase.toNat + p) b

/-- The bytes of a match copied one at a time, ascending (R333). -/
def copyBytes (r p : Nat) : Nat → Cmd (Rolz × Env) Unit
  | 0 => pure ()
  | n + 1 => do
    let b ← bufByte r
    setBuf p b
    copyBytes (r + 1) (p + 1) n

/-- `CopyMatch(p, idx, mlen)` (R333). -/
def copyMatch (p idx mlen : Nat) : Cmd (Rolz × Env) Unit := do
  let r ← lookup p idx
  copyBytes r p mlen
  forPositions insertDec p mlen

/-- Position `p` inserted by the decoder, when it has a key (R332). -/
def insertLiteral (p : Nat) : Cmd (Rolz × Env) Unit := if 2 ≤ p then insertDec p else pure ()

/-- Literals copied to the chunk from position `p` on (R332). -/
def copyLiterals (p : Nat) : List Byte → Cmd (Rolz × Env) Unit
  | [] => pure ()
  | b :: r => do
    setBuf p b
    insertLiteral p
    copyLiterals (p + 1) r

/-- The loop of `DecodeChunk1` from position `p` on what is left of the three streams (R332): every pass but the last
moves `p` by at least 3, so that `size + 1` passes reach the end. -/
def rebuildChunk (size : Nat) : Nat → Nat → Streams → Cmd (Rolz × Env) Unit
  | 0, _, _ => raiseMid .invalidData 20
  | k + 1, p, t =>
    match readLengths t.len with
    | none => raiseMid .invalidData 20
    | some (l, m, len) => do
      checkMid (decide (t.lit.length < l) || decide (size < p + l)) .invalidData 21
      copyLiterals p (t.lit.take l)
      let q := p + l
      let lit := t.lit.drop l
      if q = size then do
        checkMid (decide (m ≠ 0)) .invalidData 22
        checkMid (!lit.isEmpty || !len.isEmpty || !t.idx.isEmpty) .invalidData 24
      else do
        let mlen := m + Config.minMatch
        checkMid (decide (q < 2) || decide (Config.maxMatch < mlen) || decide (size < q + mlen)) .invalidData 23
        let (z, _) ← get
        match t.idx with
        | [] => raiseMid .invalidData 23
        | i :: idx => do
          checkMid (decide (z.posChecks ≤ i.toNat)) .invalidData 23
          copyMatch q i.toNat mlen
          rebuildChunk size k (q + mlen) { lit := lit, len := len, idx := idx }

/-- The streams of a chunk as `DecodeChunk1` reads them (R332). -/
def readStreams (size : Nat) : Cmd (BitSource × Env) Streams := do
  let nl ← readSource 32
  let nn ← readSource 32
  let nm ← readSource 32
  checkMid (decide (size < nl.toNat) || decide (size < nn.toNat) || decide (size < nm.toNat)) .invalidData 19
  let lit ← ansDecode readSource true nl.toNat
  let len ← ansDecode readSource false nn.toNat
  let idx ← ansDecode readSource false nm.toNat
  pure { lit := lit, len := len, idx := idx }

/-- `DecodeChunk1(start, size, sp, pend)` (R332): the payload offset after it. -/
def decodeChunk1 (w : Windows) (start size sp pend : Nat) : Cmd (Rolz × Env) Nat := do
  openChunk w.dstBase w.dstCap start size
  let (t, r) ← withSource { base := w.srcBase.toNat + sp, nbits := 8 * (pend - sp), pos := 0 } (readStreams size)
  rebuildChunk size (size + 1) 0 t
  pure (sp + bytesFor r.pos)

/-- Back end 1 on the chunks of a block in order (R331). -/
def decodeChunks1 (w : Windows) (pend : Nat) : List (Nat × Nat) → Nat → Cmd (Rolz × Env) Nat
  | [], sp => pure sp
  | c :: r, sp => do
    let sp1 ← decodeChunk1 w c.1 c.2 sp pend
    decodeChunks1 w pend r sp1

/-! ### Back end 2 (47_rolz_backend2.md R350 to R355) -/

/-- The private encoder of a block: the interval, the two local models, `lastLit`, the output offset (R351). -/
structure Enc2 where
  iv : Interval
  p1 : LocalModel
  p2 : LocalModel
  lastLit : Byte
  out : Nat
deriving DecidableEq, Repr

/-- The four bytes of a renormalisation group, the most significant first (43_binary_coder.md R232). -/
def groupBytes (iv : Interval) : List Byte := beBytes4 (iv.group.setWidth 32)

/-- `EncodeBit` with a private model `m` (43_binary_coder.md R233): the model, the interval and the offset after it. -/
def encodeBit2 (w : Windows) (m : LocalModel) (iv : Interval) (o : Nat) (bit : Bool) :
    Cmd (Rolz × Env) (LocalModel × Interval × Nat) := do
  let iv1 := iv.narrow m.get bit
  if iv1.settled then do
    let o1 ← emitBytes w o (groupBytes iv1)
    pure (m.update bit, iv1.shift, o1)
  else pure (m.update bit, iv1, o)

/-- `EncodeBit` for the bits of a list in order. -/
def encodeBits2 (w : Windows) (m : LocalModel) (iv : Interval) (o : Nat) :
    List Bool → Cmd (Rolz × Env) (LocalModel × Interval × Nat)
  | [] => pure (m, iv, o)
  | b :: r => do
    let (m1, iv1, o1) ← encodeBit2 w m iv o b
    encodeBits2 w m1 iv1 o1 r

/-- A 9-bit symbol coded with `P1` in the context `lastLit` (R352, R355). -/
def encodeSymbol (w : Windows) (c : Enc2) (sym : Nat) : Cmd (Rolz × Env) Enc2 := do
  let (m, iv, o) ← encodeBits2 w (c.p1.setCtx c.lastLit) c.iv c.out (bitsOf (BitVec.ofNat 64 sym) 9)
  pure { c with iv := iv, p1 := m, out := o }

/-- A match index coded with `P2` in the context of the byte before the match (R352, R355). -/
def encodeIndex (w : Windows) (c : Enc2) (prev : Byte) (lpc idx : Nat) : Cmd (Rolz × Env) Enc2 := do
  let (m, iv, o) ← encodeBits2 w (c.p2.setCtx prev) c.iv c.out (bitsOf (BitVec.ofNat 64 idx) lpc)
  pure { c with iv := iv, p2 := m, out := o }

/-- The loop of `EncodeBlock2` over a chunk from position `p` (R351): every round moves `p` forward. -/
def encodeChunk2 (w : Windows) (size : Nat) : Nat → Nat → Enc2 → Cmd (Rolz × Env) Enc2
  | 0, _, c => pure c
  | k + 1, p, c =>
    if size ≤ p then pure c
    else do
      match ← nextMatch p with
      | none => do
        let b ← bufByte p
        let c1 ← encodeSymbol w c (0x100 + b.toNat)
        let last ← bufByte p
        encodeChunk2 w size k (p + 1) { c1 with lastLit := last }
      | some m => do
        let c1 ← encodeSymbol w c (m.len - Config.minMatch)
        let prev ← bufByte (p - 1)
        let (z, _) ← get
        let c2 ← encodeIndex w c1 prev z.lpc.toNat m.idx
        forPositions insertAt (p + 1) (m.len - 1)
        encodeChunk2 w size k (p + m.len) c2

/-- The chunks of a block in order: one coding run over all of them (R350). -/
def encodeChunks2 (w : Windows) : List (Nat × Nat) → Enc2 → Cmd (Rolz × Env) Enc2
  | [], c => pure c
  | x :: r, c => do
    openChunk w.srcBase w.srcLen x.1 x.2
    let c1 ← encodeChunk2 w x.2 x.2 0 c
    encodeChunks2 w r c1

/-- `EncodeBlock2(srcEnd, o)` (R351): the offset after it. -/
def encodeBlock2 (w : Windows) (srcEnd o : Nat) : Cmd (Rolz × Env) Nat := do
  let (z, _) ← get
  let c ← encodeChunks2 w (chunksOf srcEnd)
    { iv := Interval.initial, p1 := LocalModel.init 9, p2 := LocalModel.init z.lpc.toNat, lastLit := 0, out := o }
  emitBytes w c.out (beBytes c.iv.low)

/-- The private decoder of a block (R354). -/
structure Dec2 where
  iv : Interval
  current : Word
  p1 : LocalModel
  p2 : LocalModel
  lastLit : Byte
  src : BitSource
deriving DecidableEq, Repr

/-- `DecodeBit` with a private model `m` (43_binary_coder.md R234): the bit, and model and decoder after it. -/
def decodeBit2 (m : LocalModel) (c : Dec2) : Cmd (Rolz × Env) (Bool × LocalModel × Dec2) := do
  let bit := c.iv.decide m.get c.current
  let iv1 := c.iv.narrow m.get bit
  if iv1.settled then do
    let (x, r) ← withSource c.src (readSource 32)
    pure (bit, m.update bit, { c with iv := iv1.shift, current := (c.current <<< 32) ||| x, src := r })
  else pure (bit, m.update bit, { c with iv := iv1 })

/-- `r <- 2*r + DecodeBit()`, `n` times. -/
def decodeBits2 (m : LocalModel) (c : Dec2) : Nat → Nat → Cmd (Rolz × Env) (Nat × LocalModel × Dec2)
  | 0, acc => pure (acc, m, c)
  | n + 1, acc => do
    let (b, m1, c1) ← decodeBit2 m c
    decodeBits2 m1 c1 n (2 * acc + b.toNat)

/-- The loop of `DecodeBlock2` over a chunk from position `p` (R354): every round moves `p` forward. -/
def decodeChunk2 (size : Nat) : Nat → Nat → Dec2 → Cmd (Rolz × Env) Dec2
  | 0, _, c => pure c
  | k + 1, p, c =>
    if size ≤ p then pure c
    else do
      let (s, m1, c0) ← decodeBits2 (c.p1.setCtx c.lastLit) c 9 0
      let c1 := { c0 with p1 := m1 }
      if 0x100 ≤ s then do
        let b : Byte := BitVec.ofNat 8 s
        setBuf p b
        insertLiteral p
        decodeChunk2 size k (p + 1) { c1 with lastLit := b }
      else do
        let mlen := s + Config.minMatch
        checkMid (decide (p < 2) || decide (size < p + mlen)) .invalidData 23
        let prev ← bufByte (p - 1)
        let (z, _) ← get
        let (idx, m2, c2) ← decodeBits2 (c1.p2.setCtx prev) c1 z.lpc.toNat 0
        copyMatch p idx mlen
        decodeChunk2 size k (p + mlen) { c2 with p2 := m2 }

/-- The chunks of a block in order (R354). -/
def decodeChunks2 (w : Windows) : List (Nat × Nat) → Dec2 → Cmd (Rolz × Env) Dec2
  | [], c => pure c
  | x :: r, c => do
    openChunk w.dstBase w.dstCap x.1 x.2
    let c1 ← decodeChunk2 x.2 x.2 0 c
    decodeChunks2 w r c1

/-- `DecodeBlock2(srcEnd, sp, pend)` (R354): the payload offset after it. -/
def decodeBlock2 (w : Windows) (srcEnd sp pend : Nat) : Cmd (Rolz × Env) Nat := do
  let (z, _) ← get
  let (x, r) ← withSource { base := w.srcBase.toNat + sp, nbits := 8 * (pend - sp), pos := 0 } (readSource 64)
  let c ← decodeChunks2 w (chunksOf srcEnd)
    { iv := Interval.initial, current := x, p1 := LocalModel.init 9, p2 := LocalModel.init z.lpc.toNat, lastLit := 0,
      src := r }
  pure (sp + bytesFor c.src.pos)

/-! ### `RZ_FWD` and `RZ_INV` (46_rolz_backend1.md R321, R331) -/

/-- The end of a block command: `rz.cvalid <- 0`. -/
def endBlock : Cmd (Rolz × Env) Unit := setRolz fun z => { z with cvalid := false }

/-- The payload of a block with the configured back end: the offset after it (R321). -/
def encodePayload (w : Windows) (lr srcEnd o : Nat) : Cmd (Rolz × Env) Nat := do
  let (z, _) ← get
  if z.backend = 1 then encodeChunks1 w lr (chunksOf srcEnd) o
  else if 0 < srcEnd then encodeBlock2 w srcEnd o else pure o

/-- The last bytes of a block copied verbatim from the SRC window, each checked against the capacity: the offset after
them (R321). A byte is read before it is checked against the capacity: R321 gives no order of the two (DESIGN CHOICE, unsafe:
log entry 10). -/
def emitTail (w : Windows) (src o : Nat) : Nat → Cmd (Rolz × Env) Nat
  | 0 => pure o
  | k + 1 => do
    let b ← memRead (w.srcBase.toNat + src)
    let o1 ← emitByte w o b
    emitTail w (src + 1) o1 k

/-- Bytes copied from one address to another, ascending (R331). -/
def copyTail (src dst : Nat) : Nat → Cmd (Rolz × Env) Unit
  | 0 => pure ()
  | k + 1 => do
    let b ← memRead src
    memWrite dst b
    copyTail (src + 1) (dst + 1) k

/-- `RZ_FWD` after its checks: the encoded block's length (R321). -/
def encodeBlock (w : Windows) (lr : Nat) : Cmd (Rolz × Env) Word := do
  let n := w.srcLen.toNat
  setRolz fun z => { z with counters := [] }
  if n = 0 then do
    endBlock
    pure 0
  else do
    checkMid (decide (w.dstCap.toNat < 4)) .bufferTooSmall 2
    memWriteBytes w.dstBase.toNat (beBytes4 w.srcLen)
    let o1 ← encodePayload w lr (n - tailOf n) 4
    let o2 ← emitTail w (n - tailOf n) o1 (tailOf n)
    endBlock
    pure (BitVec.ofNat 64 o2)

/-- The payload of a block read back: the payload offset after it (R331). -/
def decodePayload (w : Windows) (srcEnd sp pend : Nat) : Cmd (Rolz × Env) Nat := do
  let (z, _) ← get
  if z.backend = 1 then decodeChunks1 w pend (chunksOf srcEnd) sp
  else if 0 < srcEnd then decodeBlock2 w srcEnd sp pend else pure sp

/-- `RZ_INV` after its first checks: the decoded block's length (R331). The capacity is checked before any output
(60_exceptions.md R390): a block that does not fit leaves the DST window, and the unit but for the counters cleared before. -/
def decodeBlock (w : Windows) : Cmd (Rolz × Env) Word := do
  let len := w.srcLen.toNat
  setRolz fun z => { z with counters := [] }
  if len = 0 then do
    endBlock
    pure 0
  else do
    checkMid (decide (len < 4)) .invalidData 16
    let n ← memReadBE4 w.srcBase.toNat
    checkMid (decide (Config.maxBlock < n)) .invalidData 17
    check (decide (w.dstCap.toNat < n)) .bufferTooSmall 2
    checkMid (decide (len < 4 + tailOf n)) .invalidData 18
    let srcEnd := n - tailOf n
    let pend := len - tailOf n
    let sp ← decodePayload w srcEnd 4 pend
    checkMid (decide (sp ≠ pend)) .invalidData 24
    copyTail (w.srcBase.toNat + pend) (w.dstBase.toNat + srcEnd) (tailOf n)
    endBlock
    pure (BitVec.ofNat 64 n)

/-- The checks common to the block commands (R321, R331). -/
def checkBlock (s : State) : Cmd State Unit := do
  check (!s.rz.ready) .invalidParameter 3
  check (!windowFits s.win.srcBase s.win.srcLen || !windowFits s.win.dstBase s.win.dstCap) .invalidParameter 4
  check s.win.overlap .invalidParameter 5

/-- What an error in the middle of a block command leaves unspecified: the ROLZ unit and the DST window. -/
def State.spoilBlock (s : State) : State := s.spoilDst.spoilRolz

/-- The rule of `RZ_FWD` (R321). -/
def rzFwdBody : Cmd State Word := do
  let s ← get
  checkBlock s
  check (decide (Config.maxBlock < s.win.srcLen.toNat)) .invalidParameter 7
  onRolz (encodeBlock s.win s.logRange.toNat)

/-- `RZ_FWD` (46_rolz_backend1.md R321). -/
def execRzFwd (s : State) : Host.Outcome State Fault Refusal := command 0x71#8 State.spoilBlock rzFwdBody s

/-- The rule of `RZ_INV` (R331). -/
def rzInvBody : Cmd State Word := do
  let s ← get
  checkBlock s
  onRolz (decodeBlock s.win)

/-- `RZ_INV` (46_rolz_backend1.md R331). -/
def execRzInv (s : State) : Host.Outcome State Fault Refusal := command 0x72#8 State.spoilBlock rzInvBody s

end Sys2Proof.Machine
end

