-- ==== Sys2Proof/Machine/System.lean ====
section
/-!
DEFINITION. The system commands `NOP`, `RESET`, `CSRR`, `CSRW` (48_system_commands.md) and the CSR map
(10_state.md R26, R40 to R50).
-/

namespace Sys2Proof.Machine

/-- `RZCFG`: bits 3..0 `rz.lpc`, bits 9..8 `rz.backend` (10_state.md R48). -/
def Rolz.cfgWord (z : Rolz) : Word := 0#54 ++ z.backend ++ 0#4 ++ z.lpc

/-- The value of a CSR, zero-extended to 64 bits; none for a reserved index (10_state.md R26, R50). -/
def readCsr (s : State) (idx : BitVec 8) : Option Word :=
  match idx.toNat with
  | 0x00 => some Config.idWord
  | 0x01 => some s.status
  | 0x02 => some (s.latch.code.setWidth 64)
  | 0x03 => some s.latch.info
  | 0x04 => some s.cmdCnt
  | 0x05 => some (s.win.srcBase.setWidth 64)
  | 0x06 => some (s.win.srcLen.setWidth 64)
  | 0x07 => some (s.win.dstBase.setWidth 64)
  | 0x08 => some (s.win.dstCap.setWidth 64)
  | 0x09 => some (BitVec.ofNat 64 s.bw.count)
  | 0x0A => some (BitVec.ofNat 64 s.br.count)
  | 0x0B => some (s.logRange.setWidth 64)
  | 0x0C => some s.rz.cfgWord
  | 0x0D => some s.be.iv.low
  | 0x0E => some s.be.iv.high
  | 0x0F => some s.be.current
  | _ => none

/-- The state after `CSRW` of a legal value; none for a reserved or read-only CSR and for an illegal value
(48_system_commands.md R373). -/
def writeCsr (s : State) (idx : BitVec 8) (value : Word) : Option State :=
  let v32 := value.setWidth 32
  let fits := decide (value.toNat < 2 ^ 32)
  match idx.toNat with
  | 0x05 => if fits then some (s.withWin { s.win with srcBase := v32 }) else none
  | 0x06 => if fits then some (s.withWin { s.win with srcLen := v32 }) else none
  | 0x07 => if fits then some (s.withWin { s.win with dstBase := v32 }) else none
  | 0x08 => if fits then some (s.withWin { s.win with dstCap := v32 }) else none
  | 0x0B => if 8 ≤ value.toNat ∧ value.toNat ≤ 16 then some (s.withLogRange (value.setWidth 5)) else none
  | _ => none

/-- `NOP` (48_system_commands.md R370), accepted in the faulted state too. -/
def execNop (s : State) : Host.Outcome State Fault Refusal := .next (respond 0 s)

/-- `RESET` (48_system_commands.md R371), accepted in every state: the reset state, then this command counts itself. -/
def execReset (s : State) : Host.Outcome State Fault Refusal := .next (respond 0 s.resetUnits)

/-- The rule of `CSRR` outside the faulted state (48_system_commands.md R372). -/
def csrrBody (idx : BitVec 8) : Cmd State Word := do
  let s ← get
  match readCsr s idx with
  | some v => pure v
  | none => raise .invalidParameter 8

/-- `CSRR idx` (48_system_commands.md R372): a faulted KZE accepts it for every CSR of the map and refuses a reserved
index (60_exceptions.md R397). -/
def execCsrr (idx : BitVec 8) (s : State) : Host.Outcome State Fault Refusal :=
  if s.latch.err then
    match readCsr s idx with
    | some v => .next (respond v s)
    | none => .next (refuse s)
  else command 0x02#8 State.spoilNothing (csrrBody idx) s

/-- The rule of `CSRW` (48_system_commands.md R373). -/
def csrwBody (idx : BitVec 8) (value : Word) : Cmd State Word := do
  let s ← get
  match writeCsr s idx value with
  | some t => do
    set t
    pure 0
  | none => raise .invalidParameter 8

/-- `CSRW idx, value` (48_system_commands.md R373). -/
def execCsrw (idx : BitVec 8) (value : Word) (s : State) : Host.Outcome State Fault Refusal :=
  command 0x03#8 State.spoilNothing (csrwBody idx value) s

end Sys2Proof.Machine
end

