-- ==== Sys2Proof/Machine/Dispatch.lean ====
section
/-!
DEFINITION. The dispatch: one direct call of a meaning for every command (30_encoding.md R105).
-/

namespace Sys2Proof.Machine

/-- The execution of a decoded command (10_state.md R20). -/
def exec (i : Instr) (s : State) : Host.Outcome State Fault Refusal :=
  match i with
  | .nop => Sys2Proof.Machine.execNop s
  | .reset => Sys2Proof.Machine.execReset s
  | .csrr idx => Sys2Proof.Machine.execCsrr idx s
  | .csrw idx value => Sys2Proof.Machine.execCsrw idx value s
  | .bwOpen kind => Sys2Proof.Machine.execBwOpen kind s
  | .bwBit bit => Sys2Proof.Machine.execBwBit bit s
  | .bwBits len value => Sys2Proof.Machine.execBwBits len value s
  | .bwClose => Sys2Proof.Machine.execBwClose s
  | .brOpen kind => Sys2Proof.Machine.execBrOpen kind s
  | .brBit => Sys2Proof.Machine.execBrBit s
  | .brBits len => Sys2Proof.Machine.execBrBits len s
  | .brMore => Sys2Proof.Machine.execBrMore s
  | .brClose => Sys2Proof.Machine.execBrClose s
  | .brRead => Sys2Proof.Machine.execBrRead s
  | .apmInit slot variant rate n => Sys2Proof.Machine.execApmInit slot variant rate n s
  | .apmGet slot bit pr ctx => Sys2Proof.Machine.execApmGet slot bit pr ctx s
  | .prInit slot kind arg => Sys2Proof.Machine.execPrInit slot kind arg s
  | .prGet slot => Sys2Proof.Machine.execPrGet slot s
  | .prUpdate slot bit => Sys2Proof.Machine.execPrUpdate slot bit s
  | .prSetctx slot byte => Sys2Proof.Machine.execPrSetctx slot byte s
  | .beEncInit pslot => Sys2Proof.Machine.execBeEncInit pslot s
  | .beEncBit bit => Sys2Proof.Machine.execBeEncBit bit s
  | .beEncBits n value => Sys2Proof.Machine.execBeEncBits n value s
  | .beEncDispose => Sys2Proof.Machine.execBeEncDispose s
  | .beDecInit pslot => Sys2Proof.Machine.execBeDecInit pslot s
  | .beDecBit => Sys2Proof.Machine.execBeDecBit s
  | .beDecBits n => Sys2Proof.Machine.execBeDecBits n s
  | .beDecDispose => Sys2Proof.Machine.execBeDecDispose s
  | .beSetpred pslot => Sys2Proof.Machine.execBeSetpred pslot s
  | .ansEnc order n off => Sys2Proof.Machine.execAnsEnc order n off s
  | .ansDec order n off => Sys2Proof.Machine.execAnsDec order n off s
  | .rzInit backend lpc => Sys2Proof.Machine.execRzInit backend lpc s
  | .rzFwd => Sys2Proof.Machine.execRzFwd s
  | .rzInv => Sys2Proof.Machine.execRzInv s
  | .rzChunk newblock start size => Sys2Proof.Machine.execRzChunk newblock start size s
  | .rzFind p => Sys2Proof.Machine.execRzFind p s
  | .rzEmitlen l m => Sys2Proof.Machine.execRzEmitlen l m s
  | .rzReadlen packed => Sys2Proof.Machine.execRzReadlen packed s

end Sys2Proof.Machine
end

