-- ==== Sys2Proof/Machine/Fetch.lean ====
section
/-!
DEFINITION. How a command word runs: KZE has no program counter and fetches nothing (10_state.md R24); it takes what the
host presents, one command to its response (R20), or a reset by the `rst` pin between two commands or inside one
(70_reset_and_hazards.md R420); between two commands the host may also change what is its own (20_memory.md R70).
-/

namespace Sys2Proof.Machine

/-- What a command word that is no command raises (30_encoding.md R106, R107). -/
def decodeErr : DecodeError → Err
  | .undefinedOpcode => { kind := .unsupported, sub := 0, detail := 0, mid := false }
  | .reservedBits => { kind := .invalidParameter, sub := 1, detail := 0, mid := false }

/-- A word that does not decode: outside the faulted state it raises its error; a faulted KZE recognises `NOP` and `RESET`
by the opcode alone and refuses the rest (60_exceptions.md R397, R400). -/
def runIllegal (opcode : Byte) (e : DecodeError) (s : State) : Host.Outcome State Fault Refusal :=
  if s.latch.err then
    if opcode = 0x00#8 then execNop s
    else if opcode = 0x01#8 then execReset s
    else .next (refuse s)
  else .next (takeError opcode (decodeErr e) s)

/-- The execution of one command word (30_encoding.md R100, 60_exceptions.md R400). -/
def runWord (w : CmdWord) (s : State) : Host.Outcome State Fault Refusal :=
  match decode w with
  | .ok i => exec i s
  | .error e => runIllegal (fieldOpcode w) e s

/-- The rule of a command outside the faulted state, without what its errors leave unspecified and without its response. -/
def ruleOf (i : Instr) : Cmd State Word :=
  match i with
  | .nop => pure 0
  | .reset => pure 0
  | .csrr idx => csrrBody idx
  | .csrw idx value => csrwBody idx value
  | .bwOpen kind => bwOpenBody kind
  | .bwBit bit => bwBitBody bit
  | .bwBits len value => bwBitsBody len value
  | .bwClose => bwCloseBody
  | .brOpen kind => brOpenBody kind
  | .brBit => brBitBody
  | .brBits len => brBitsBody len
  | .brMore => brMoreBody
  | .brClose => brCloseBody
  | .brRead => brReadBody
  | .apmInit slot variant rate n => apmInitBody slot variant rate n
  | .apmGet slot bit pr ctx => apmGetBody slot bit pr ctx
  | .prInit slot kind arg => prInitBody slot kind arg
  | .prGet slot => prGetBody slot
  | .prUpdate slot bit => prUpdateBody slot bit
  | .prSetctx slot byte => prSetctxBody slot byte
  | .beEncInit pslot => beEncInitBody pslot
  | .beEncBit bit => beEncBitBody bit
  | .beEncBits n value => beEncBitsBody n value
  | .beEncDispose => beEncDisposeBody
  | .beDecInit pslot => beDecInitBody pslot
  | .beDecBit => beDecBitBody
  | .beDecBits n => beDecBitsBody n
  | .beDecDispose => beDecDisposeBody
  | .beSetpred pslot => beSetpredBody pslot
  | .ansEnc order n off => ansEncBody order n off
  | .ansDec order n off => ansDecBody order n off
  | .rzInit backend lpc => rzInitBody backend lpc
  | .rzFwd => rzFwdBody
  | .rzInv => rzInvBody
  | .rzChunk newblock start size => rzChunkBody newblock start size
  | .rzFind p => rzFindBody p
  | .rzEmitlen l m => rzEmitlenBody l m
  | .rzReadlen packed => rzReadlenBody packed

/-- The `rst` pin (70_reset_and_hazards.md R420): every unit and CSR in the reset state, no response, `CMDCNT` 0. -/
def pinReset (s : State) : State := s.resetUnits

/-- MEM when a command whose stores ascend has come to an address: the bytes below it are those the whole command leaves,
the others those before it. -/
def Memory.cut (below : Nat) (before after : List Host.Cell) : List Host.Cell :=
  after.filter (fun c => decide (c.1 < below)) ++ before.filter (fun c => decide (below ≤ c.1))

/-- The host's side when a command that would lead from `e` to `e'` has come so far: what it has taken, handed on and stored
by then stays (70_reset_and_hazards.md R420). -/
def Env.cut (p : Progress) (e e' : Env) : Env :=
  let put := e'.sink.length - e.sink.length
  let got := e.src.length - e'.src.length
  { e' with
    mem := Memory.cut p.below e.mem e'.mem
    src := e.src.drop (min p.gets got)
    srcEnd := e.srcEnd || (e'.srcEnd && decide (got < p.gets))
    sink := e'.sink.drop (put - min p.puts put)
    sinkAns := if put ≤ p.puts then e'.sinkAns else e.sinkAns.drop p.puts }

/-- The state after the `rst` pin has abandoned a command that would lead from `s` to `t` (70_reset_and_hazards.md R420): the
reset state, no response, and on the host's side what the command had done by then (DESIGN CHOICE, safe, in how far it
had come and in what it leaves of the external predictor: log entry 13). -/
def abandon (p : Progress) (s t : State) : State := (t.withEnv (s.env.cut p t.env)).resetUnits

/-- A command word, and the `rst` pin during its command. The bytes stored by then stay as the rule stored them, also where it
would have raised an error in the middle of the command: the pin leaves nothing unspecified. A word that is no command,
and a faulted KZE, have no rule to abandon. -/
def runAbandoned (w : CmdWord) (p : Progress) (s : State) : Host.Outcome State Fault Refusal :=
  if s.latch.err then .next (pinReset s)
  else
    match decode w with
    | .error _ => .next (pinReset s)
    | .ok i =>
      match ruleOf i s with
      | .ok _ t => .next (abandon p s t)
      | .error (.raise _) t => .next (abandon p s t)
      | .error (.fault f) _ => .fault f

/-- The host's store of a byte in MEM: in a window an open stream holds it is a race until that stream is closed
(20_memory.md R90). -/
def hostStore (a : Nat) (b : Byte) (s : State) : State :=
  s.withEnv { s.env with
    mem := Memory.write s.env.mem a b, dirtied := if s.holds a then a :: s.env.dirtied else s.env.dirtied }

/-- The machine with the first thing the host does taken. -/
def runInput (x : HostInput) (s : State) : Host.Outcome State Fault Refusal :=
  match x with
  | .command w => runWord w s
  | .rstPin => .next (pinReset s)
  | .rstDuring w p => runAbandoned w p s
  | .memWrite a b => .next (hostStore a.toNat b s)
  | .ports src sinkAns busErr raced =>
    .next (s.withEnv { s.env with src := src, sinkAns := sinkAns, busErr := busErr, raced := raced })

/-- One step: what the host presents first is taken and run; with nothing presented KZE holds its state unchanged
(60_exceptions.md R415). -/
def takeInput (s : State) : Host.Outcome State Fault Refusal :=
  match s.inbox with
  | [] => .next s
  | x :: rest => runInput x (s.withInbox rest)

/-- The state with a command word presented before everything else. -/
def present (w : Nat) (s : State) : State := s.withInbox (.command (BitVec.ofNat 128 w) :: s.inbox)

end Sys2Proof.Machine
end

