-- ==== Sys2Proof/Machine/Step.lean ====
section
/-!
DEFINITION. The step of the machine: one command, or one action of the host (70_reset_and_hazards.md R440).
-/

namespace Sys2Proof.Machine

/-- One step of KZE. -/
def step (s : State) : Host.Outcome State Fault Refusal := takeInput s

/-- The state in which the next step runs the command whose bits are `w`: the host presents it first (log entry 6). Every
command is one word of 128 bits. -/
def State.withFetchWord (s : State) (_nbits w : Nat) : State := present w s

end Sys2Proof.Machine
end

