-- ==== Sys2Proof/WellFormed.lean ====
section
/-!
DEFINITION. Which commands have every operand in the range their row of 30_encoding.md R105 (and their own rule) gives,
whatever the state. A command that is not well formed still has an encoding and still decodes: executing it raises
`InvalidParameter` (R108), it never completes.
-/

namespace Sys2Proof

/-- The bits of `arg` that `PR_INIT` uses for each kind are the only ones set, and a `logSize` is 1..9 (R204). -/
def prInitArgOk (kind : BitVec 8) (arg : BitVec 32) : Bool :=
  if kind = 0 then arg &&& 0xFFFFF000#32 = 0#32
  else if kind = 1 then arg &&& 0xFFFFFFF0#32 = 0#32 && 1#32 ≤ arg && arg ≤ 9#32
  else if kind = 2 then arg &&& 0xFFFFF0F0#32 = 0#32 && 1#32 ≤ (arg &&& 0xF#32) && (arg &&& 0xF#32) ≤ 9#32
  else if kind = 3 then arg = 0#32
  else false

/-- The CSRs `CSRW` may write (R373). -/
def csrWritable (idx : BitVec 8) (value : Word) : Bool :=
  if 0x05#8 ≤ idx && idx ≤ 0x08#8 then value ≤ 0xFFFFFFFF#64
  else idx = 0x0B#8 && 8#64 ≤ value && value ≤ 16#64

/-- Every operand is in the range the command's rule gives. -/
def Instr.wellFormed : Instr → Bool
  | .nop => true
  | .reset => true
  | .csrr idx => idx ≤ 0x0F#8
  | .csrw idx value => csrWritable idx value
  | .bwOpen kind => kind ≤ 1#8
  | .bwBit _ => true
  | .bwBits len _ => len ≤ 64#8
  | .bwClose => true
  | .brOpen kind => kind ≤ 1#8
  | .brBit => true
  | .brBits len => len ≤ 64#8
  | .brMore => true
  | .brClose => true
  | .brRead => true
  | .apmInit _ variant _ n => variant ≠ 3#2 && n ≠ 0#32
  | .apmGet _ _ _ _ => true
  | .prInit slot kind arg => slot ≤ 1#4 && prInitArgOk kind arg
  | .prGet slot => slot ≤ 1#4
  | .prUpdate slot _ => slot ≤ 1#4
  | .prSetctx slot _ => slot ≤ 1#4
  | .beEncInit pslot => pslot ≤ 1#4
  | .beEncBit _ => true
  | .beEncBits n _ => n ≤ 64#8
  | .beEncDispose => true
  | .beDecInit pslot => pslot ≤ 1#4
  | .beDecBit => true
  | .beDecBits n => n ≤ 64#8
  | .beDecDispose => true
  | .beSetpred pslot => pslot ≤ 1#4
  | .ansEnc order _ _ => order ≤ 1#8
  | .ansDec order _ _ => order ≤ 1#8
  | .rzInit backend lpc => (backend = 1#8 || backend = 2#8) && 2#8 ≤ lpc && lpc ≤ 8#8
  | .rzFwd => true
  | .rzInv => true
  | .rzChunk _ _ size => size ≤ 0x4000000#32
  | .rzFind p => 2#32 ≤ p
  | .rzEmitlen l m => l ≤ 0x1000001E#32 && m ≤ 262#16
  | .rzReadlen packed => packed.extractLsb' 0 8 ≤ 7#8

end Sys2Proof
end

