-- ==== Sys2Proof/Safety.lean ====
section
/-!
DEFINITION. What the claims about KZE are stated in: how a command ends, the streams a host sees, and the invariants the
spec gives the units. Nothing here is used by the machine.
-/

namespace Sys2Proof.Machine

/-! ### How a command ends -/

/-- KZE is not in the faulted state (60_exceptions.md R397). -/
abbrev State.live (s : State) : Prop := s.latch.err = false

/-- The state after a command that completed with a value and has otherwise left the state `s`: response code 0, and
`CMDCNT` counts it modulo 2^64 (30_encoding.md R104, 10_state.md R44). -/
def State.completed (s : State) (value : Word) : State :=
  { s with cmdCnt := s.cmdCnt + 1, resp := some { code := 0, value := value } }

/-- The word `detail << 16 | sub << 8 | opcode`, the detail truncated to 48 bits (60_exceptions.md R396). -/
def errorWord (opcode : Byte) (sub detail : Nat) : Word :=
  BitVec.ofNat 64 (detail % 2 ^ 48 * 2 ^ 16 + sub * 2 ^ 8 + opcode.toNat)

/-- The state after a command that raised an error and has otherwise left the state `s`: the latch is written and is the
response, `CMDCNT` does not count it (60_exceptions.md R396). -/
def State.failed (s : State) (opcode : Byte) (kind : ErrKind) (sub : Nat) (detail : Nat := 0) : State :=
  { s with
    latch := { err := true, code := kind.code, info := errorWord opcode sub detail }
    resp := some { code := kind.code, value := errorWord opcode sub detail } }

/-- The state after a command refused in the faulted state: only the response port shows it (60_exceptions.md R397). -/
def State.refused (s : State) : State := { s with resp := some { code := 0xFF, value := 0 } }

/-- MEM never fails (93_implementation_defined.md I17), and the host keeps its obligations, so that no read races
(20_memory.md R90). -/
abbrev Env.quiet (e : Env) : Prop := e.busErr = [] ∧ e.raced = [] ∧ e.dirtied = []

/-- "MEM and the ports never fail" (93_implementation_defined.md I3, I17; 95_test_vectors.md), and no read races. -/
abbrev Env.neverFails (e : Env) : Prop := e.quiet ∧ (∀ a ∈ e.sinkAns, a = true) ∧ ∀ a ∈ e.src, a ≠ .failure

/-- A window lies in the address space (20_memory.md R84). -/
abbrev fits (base len : BitVec 32) : Prop := base.toNat + len.toNat ≤ 2 ^ 32

/-- Two windows overlap (20_memory.md R84). -/
abbrev overlap (base1 len1 base2 len2 : BitVec 32) : Prop :=
  len1.toNat ≠ 0 ∧ len2.toNat ≠ 0 ∧ base1.toNat < base2.toNat + len2.toNat ∧ base2.toNat < base1.toNat + len1.toNat

/-- An address lies in a window. -/
abbrev inWindow (base len : BitVec 32) (a : Nat) : Prop := base.toNat ≤ a ∧ a < base.toNat + len.toNat

/-! ### Bits -/

/-- The number a bit sequence writes, the first bit the most significant. -/
def bitsNat (l : List Bool) : Nat := l.foldl (fun acc b => 2 * acc + b.toNat) 0

/-- The bits of bytes in stream order (40_bitstream.md R131). -/
def bytesBits (l : List Byte) : List Bool := l.flatMap fun b => bitsOf (b.setWidth 64) 8

/-- The bytes of MEM from an address on. -/
def memBytes (m : List Host.Cell) (a n : Nat) : List Byte := (List.range n).map fun i => Memory.read m (a + i)

/-! ### The bit writer (10_state.md R51, R52; 40_bitstream.md R131, R137) -/

/-- The invariants of R51 and R52: `count` is the length of `bits`; `count = 8*(sent + pos) + (64 - avail)`; `cur` holds the
last `64 - avail` bits left-aligned, its other bits zero; `buf` holds the complete bytes not delivered; the stream fits the
latched window (R138), which fits MEM. -/
structure WriterOk (bufsz : Nat) (w : BitWriter) : Prop where
  count_eq : w.count = w.bits.length
  avail_ge : 1 ≤ w.avail
  avail_le : w.avail ≤ 64
  tie : w.count = 8 * (w.sent + w.pos) + (64 - w.avail)
  cur_eq : bitsOf w.cur 64 = w.bits.drop (8 * (w.sent + w.pos)) ++ List.replicate w.avail false
  buf_eq : w.buf = (pack (w.bits.take (8 * (w.sent + w.pos)))).drop w.sent
  pos_mod : w.pos % 8 = 0
  pos_lt : w.pos < bufsz
  cap_ge : w.kind = .window → bytesFor w.count ≤ w.cap.toNat
  window : w.kind = .window → fits w.base w.cap

/-- `n` more bits fit the stream: a port has no capacity (40_bitstream.md R138). -/
abbrev BitWriter.hasRoom (w : BitWriter) (n : Nat) : Prop := w.kind = .window → bytesFor (w.count + n) ≤ w.cap.toNat

/-- From the writer `b` and host side `e` to the writer `w` and host side `e'`, exactly the bytes `b.sent .. w.sent - 1` of
`Pack(w.bits)` were delivered, in order: to the SINK port, or to the latched window, every other byte of MEM unchanged
(40_bitstream.md R131, 20_memory.md R77). -/
def Delivered (b : BitWriter) (e : Env) (w : BitWriter) (e' : Env) : Prop :=
  let out := ((pack w.bits).take w.sent).drop b.sent
  b.sent ≤ w.sent ∧ w.kind = b.kind ∧ w.base = b.base ∧ w.cap = b.cap ∧ e'.busErr = e.busErr ∧ e'.raced = e.raced ∧
  e'.dirtied = e.dirtied ∧ e'.src = e.src ∧ e'.srcEnd = e.srcEnd ∧ e'.drawn = e.drawn ∧
  (b.kind = .port → e'.mem = e.mem ∧ e'.sink = out.reverse ++ e.sink ∧ e'.sinkAns = e.sinkAns.drop out.length) ∧
  (b.kind = .window → e'.sink = e.sink ∧ e'.sinkAns = e.sinkAns ∧
    ∀ a, Memory.read e'.mem a =
      if b.base.toNat + b.sent ≤ a ∧ a < b.base.toNat + w.sent then out.getD (a - (b.base.toNat + b.sent)) 0
      else Memory.read e.mem a)

/-! ### The bit reader (10_state.md R53, R54; 40_bitstream.md R140, R146) -/

/-- The bytes of a list of answers of the SRC port, up to its end, or a failure. -/
def portBytes : List SrcAnswer → List Byte
  | .byte b :: r => b :: portBytes r
  | _ => []

/-- The bytes of the reader's source not yet fetched: of a port that has reported its end there are none (R78). -/
def sourceBytes (r : BitReader) (e : Env) : List Byte :=
  match r.kind with
  | .port => if e.srcEnd then [] else portBytes e.src
  | .window => memBytes e.mem (r.base.toNat + r.fetched) (r.len.toNat - r.fetched)

/-- The bits the reader has not consumed (R140): those on hand, then those of the source. -/
def remainingBits (r : BitReader) (e : Env) : List Bool :=
  bitsOf r.cur r.avail ++ bytesBits (r.buf.drop r.pos) ++ bytesBits (sourceBytes r e)

/-- The invariants of an open reader: what is on hand was fetched and not consumed, and is bounded (R146); the window it
latched fits MEM. -/
structure ReaderOk (bufsz : Nat) (r : BitReader) : Prop where
  tie : 8 * r.fetched = r.count + r.onHand
  ahead : r.onHand < 8 * bufsz + 64
  avail_le : r.avail ≤ 64
  pos_le : r.pos ≤ r.max
  fetched_le : r.kind = .window → r.fetched ≤ r.len.toNat
  window : r.kind = .window → fits r.base r.len

/-- The host side `e'` is `e` after a reader took `n` bytes of its source: a port has lost them, a window nothing; and a port may
have reported its end, for good, with nothing left (20_memory.md R78). -/
def Env.Took (r : BitReader) (n : Nat) (e e' : Env) : Prop :=
  e' = { e with src := if r.kind = .port then e.src.drop n else e.src, srcEnd := e'.srcEnd } ∧
  (e.srcEnd = true → e'.srcEnd = true) ∧ (e'.srcEnd = true → e.srcEnd = true ∨ r.kind = .port ∧ e'.src = [])

/-- From the reader `b` and host side `e` to the reader `r` and host side `e'`, the reader only took bytes from its source
(20_memory.md R78). -/
def Fetched (b : BitReader) (e : Env) (r : BitReader) (e' : Env) : Prop :=
  b.fetched ≤ r.fetched ∧ r.isOpen = b.isOpen ∧ r.kind = b.kind ∧ r.base = b.base ∧ r.len = b.len ∧
  Env.Took b (r.fetched - b.fetched) e e'

/-! ### Predictors (42_predictors.md R205, R206, R211) and the coder (43_binary_coder.md R236) -/

/-- A slot the coder and `PR_UPDATE` can use: not NONE, and a REFINED slot's APM slot is valid with `n >= size`. -/
abbrev State.predReady (s : State) (i : Fin 2) : Prop :=
  s.pr[i].kind ≠ .none ∧
    (s.pr[i].kind = .refined →
      s.apm[s.pr[i].apmslot.toFin].valid = true ∧ s.pr[i].model.size ≤ s.apm[s.pr[i].apmslot.toFin].n)

/-- What the predictor of a slot answers to `get` (R205). -/
def State.prob (s : State) (i : Fin 2) : Prob12 :=
  match s.pr[i].kind with
  | .none => 0
  | .fixed => s.pr[i].value
  | .localModel => s.pr[i].model.get
  | .refined => s.pr[i].latched
  | .external => Config.extPredictor s.ext

/-- The state with the predictor of a slot updated with a bit (R206, R211). -/
def State.predUpdated (s : State) (i : Fin 2) (bit : Bool) : State :=
  let p := s.pr[i]
  let m := p.model.update bit
  let x := s.apm[p.apmslot.toFin].get bit m.get m.c1
  match p.kind with
  | .none => s
  | .fixed => s
  | .localModel => { s with pr := s.pr.set i { p with model := m } }
  | .refined =>
    { s with pr := s.pr.set i { p with model := m, latched := x.1 }, apm := s.apm.set p.apmslot.toFin x.2 }
  | .external => { s with ext := bit :: s.ext }

/-- The invariants of the coding interval (R236): `low < high`, equal top bytes, and bits 55..24 not all equal. -/
abbrev CoderOk (iv : Interval) : Prop :=
  iv.low < iv.high ∧ iv.low >>> 56 = iv.high >>> 56 ∧ (iv.low ^^^ iv.high) &&& 0x00FFFFFFFF000000#64 ≠ 0

/-- The groups a coding run emits and the interval it ends with, for a list of (probability, bit) pairs (R231 to R233). -/
def codeRun : Interval → List (Prob12 × Bool) → List Word × Interval
  | iv, [] => ([], iv)
  | iv, e :: r =>
    let iv1 := iv.narrow e.1 e.2
    if iv1.settled then
      let x := codeRun iv1.shift r
      (iv1.group :: x.1, x.2)
    else codeRun iv1 r

/-- The bits a decoding run gives for a list of probabilities, from the 64 code bits under the interval and the 32-bit
groups that follow, with the groups left; none when the groups run out (R234). -/
def decodeRun : Interval → Word → List Word → List Prob12 → Option (List Bool × List Word)
  | _, _, groups, [] => some ([], groups)
  | iv, current, groups, p :: r =>
    let bit := iv.decide p current
    let iv1 := iv.narrow p bit
    if iv1.settled then
      match groups with
      | [] => none
      | g :: rest => (decodeRun iv1.shift ((current <<< 32) ||| g) rest r).map fun x => (bit :: x.1, x.2)
    else (decodeRun iv1 current groups r).map fun x => (bit :: x.1, x.2)

/-! ### ROLZ (45_rolz_matchfinder.md R297, R303; 20_memory.md R85) -/

/-- Every record of the rings holds a position before `p` of the chunk. -/
abbrev Rolz.ringsBefore (z : Rolz) (p : Nat) : Prop := ∀ e ∈ z.matchRing, recordPos e.2 < p

/-- The chunk of the match finder, with the four bytes after it, lies in the window it was latched with, and that in the address
space (R299). -/
abbrev Rolz.chunkFits (z : Rolz) : Prop :=
  z.csize.toNat + 4 ≤ z.clen.toNat ∧ z.cbase.toNat + z.clen.toNat ≤ 2 ^ 32

/-- `buf[p]` of the chunk. -/
def Rolz.buf (z : Rolz) (e : Env) (p : Nat) : Byte := Memory.read e.mem (z.cbase.toNat + p)

/-! ### The whole machine: what every step keeps -/

/-- The latch (10_state.md R42, R43): all zero outside the faulted state, an error code 1..7 in it. -/
def LatchOk (l : Latch) : Prop :=
  if l.err then 1 ≤ l.code.toNat ∧ l.code.toNat ≤ 7 else l.code = 0 ∧ l.info = 0

/-- The configuration registers hold legal values: `LOGRANGE` 8..16 (10_state.md R47); `RZCFG` 0 before the first `RZ_INIT`,
then back end 1 or 2 with `logPosChecks` 2..8 (R48, R59). -/
def ConfigOk (s : State) : Prop :=
  8 ≤ s.logRange.toNat ∧ s.logRange.toNat ≤ 16 ∧
    (s.live → if s.rz.ready then (s.rz.backend = 1 ∨ s.rz.backend = 2) ∧ 2 ≤ s.rz.lpc.toNat ∧ s.rz.lpc.toNat ≤ 8
      else s.rz.backend = 0 ∧ s.rz.lpc = 0)

/-- The windows the units have latched lie in the address space (20_memory.md R85). -/
def WindowsOk (s : State) : Prop :=
  s.live → (s.bw.isOpen = true → s.bw.kind = .window → fits s.bw.base s.bw.cap) ∧
    (s.br.isOpen = true → s.br.kind = .window → fits s.br.base s.br.len) ∧
    (s.rz.cvalid = true → s.rz.chunkFits ∧ s.rz.csize.toNat ≤ 2 ^ 26 ∧ s.rz.ringsBefore s.rz.csize.toNat)

/-- The reset values of 10_state.md R62, all but `CMDCNT`. -/
def ResetValues (t : State) : Prop :=
  t.latch = { err := false, code := 0, info := 0 } ∧
  t.win = { srcBase := 0, srcLen := 0, dstBase := 0, dstCap := 0 } ∧ t.logRange = 12 ∧
  t.bw.isOpen = false ∧ t.bw.bits = [] ∧ t.bw.count = 0 ∧ t.bw.sent = 0 ∧ t.bw.avail = 64 ∧
  t.br.isOpen = false ∧ t.br.count = 0 ∧ t.br.fetched = 0 ∧ t.br.avail = 0 ∧
  (∀ k : Fin 16, t.apm[k].valid = false) ∧ (∀ i : Fin 2, t.pr[i].kind = .none) ∧
  t.be = { mode := .idle, pslot := 0, iv := { low := 0, high := 0x00FFFFFFFFFFFFFF }, current := 0 } ∧
  t.rz.ready = false ∧ t.rz.cfgWord = 0 ∧ t.rz.cvalid = false ∧ (∀ k, t.rz.counter k = 0) ∧ ∀ i, t.rz.slot i = 0

/-- Everything a reset leaves alone: MEM, the ports, the external predictor, what the host presents, the parameters. -/
def HostSame (s t : State) : Prop := t.env = { s.env with dirtied := [] } ∧ t.ext = s.ext ∧ t.inbox = s.inbox ∧ t.par = s.par

/-- Which addresses of MEM a command may store to: the window its writer has latched, or the DST window
(20_memory.md R71, R77). -/
def storesTo (i : Instr) (s : State) (a : Nat) : Prop :=
  match i with
  | .bwBit _ | .bwBits _ _ | .bwClose | .beEncBit _ | .beEncBits _ _ | .beEncDispose | .ansEnc _ _ _ =>
    s.bw.kind = .window ∧ inWindow s.bw.base s.bw.cap a
  | .ansDec _ _ _ | .rzFwd | .rzInv => inWindow s.win.dstBase s.win.dstCap a
  | _ => False

/-- The host's side when only a reader has used it: answers of the SRC port are taken, and its end, once reported, is
(20_memory.md R78); arbitrary bytes may be read (R90). -/
def Env.OnlyRead (e e' : Env) : Prop :=
  e' = { e with src := e'.src, srcEnd := e'.srcEnd, drawn := e'.drawn } ∧ (e.srcEnd = true → e'.srcEnd = true)

/-- What a command leaves unchanged whenever it gives a next state, also when it raises an error: every unit its rule does
not touch (60_exceptions.md R398, 10_state.md R60). -/
def Untouched (i : Instr) (s t : State) : Prop :=
  t.inbox = s.inbox ∧ t.par = s.par ∧
  match i with
  | .reset => t.env = { s.env with dirtied := [] } ∧ t.ext = s.ext
  | .csrw _ _ =>
    t.bw = s.bw ∧ t.br = s.br ∧ t.apm = s.apm ∧ t.pr = s.pr ∧ t.be = s.be ∧ t.rz = s.rz ∧ t.ext = s.ext ∧ t.env = s.env
  | .nop | .csrr _ | .brRead | .prGet _ | .rzEmitlen _ _ | .rzReadlen _ =>
    t.bw = s.bw ∧ t.br = s.br ∧ t.apm = s.apm ∧ t.pr = s.pr ∧ t.be = s.be ∧ t.rz = s.rz ∧ t.ext = s.ext ∧
      t.win = s.win ∧ t.logRange = s.logRange ∧ t.env = s.env
  | .bwOpen _ =>
    t.br = s.br ∧ t.apm = s.apm ∧ t.pr = s.pr ∧ t.be = s.be ∧ t.rz = s.rz ∧ t.ext = s.ext ∧ t.win = s.win ∧
      t.logRange = s.logRange ∧ t.env = s.env
  | .bwBit _ | .bwBits _ _ | .ansEnc _ _ _ =>
    t.br = s.br ∧ t.apm = s.apm ∧ t.pr = s.pr ∧ t.be = s.be ∧ t.rz = s.rz ∧ t.ext = s.ext ∧ t.win = s.win ∧
      t.logRange = s.logRange ∧ t.env.src = s.env.src ∧ t.env.srcEnd = s.env.srcEnd ∧ t.env.busErr = s.env.busErr ∧
      t.env.raced = s.env.raced ∧ t.env.dirtied = s.env.dirtied
  | .bwClose =>
    t.br = s.br ∧ t.apm = s.apm ∧ t.pr = s.pr ∧ t.be = s.be ∧ t.rz = s.rz ∧ t.ext = s.ext ∧ t.win = s.win ∧
      t.logRange = s.logRange ∧ t.env.src = s.env.src ∧ t.env.srcEnd = s.env.srcEnd ∧ t.env.busErr = s.env.busErr ∧
      t.env.raced = s.env.raced ∧ t.env.dirtied.Sublist s.env.dirtied ∧ t.env.drawn = s.env.drawn
  | .brOpen _ =>
    t.bw = s.bw ∧ t.apm = s.apm ∧ t.pr = s.pr ∧ t.be = s.be ∧ t.rz = s.rz ∧ t.ext = s.ext ∧ t.win = s.win ∧
      t.logRange = s.logRange ∧ t.env = s.env
  | .brClose =>
    t.bw = s.bw ∧ t.apm = s.apm ∧ t.pr = s.pr ∧ t.be = s.be ∧ t.rz = s.rz ∧ t.ext = s.ext ∧ t.win = s.win ∧
      t.logRange = s.logRange ∧ t.env = { s.env with dirtied := t.env.dirtied } ∧
      t.env.dirtied.Sublist s.env.dirtied
  | .brBit | .brBits _ | .brMore =>
    t.bw = s.bw ∧ t.apm = s.apm ∧ t.pr = s.pr ∧ t.be = s.be ∧ t.rz = s.rz ∧ t.ext = s.ext ∧ t.win = s.win ∧
      t.logRange = s.logRange ∧ Env.OnlyRead s.env t.env
  | .apmInit _ _ _ _ | .apmGet _ _ _ _ =>
    t.bw = s.bw ∧ t.br = s.br ∧ t.pr = s.pr ∧ t.be = s.be ∧ t.rz = s.rz ∧ t.ext = s.ext ∧ t.win = s.win ∧
      t.logRange = s.logRange ∧ t.env = s.env
  | .prInit _ _ _ =>
    t.bw = s.bw ∧ t.br = s.br ∧ t.apm = s.apm ∧ t.be = s.be ∧ t.rz = s.rz ∧ t.win = s.win ∧ t.logRange = s.logRange ∧
      t.env = s.env
  | .prSetctx _ _ =>
    t.bw = s.bw ∧ t.br = s.br ∧ t.apm = s.apm ∧ t.be = s.be ∧ t.rz = s.rz ∧ t.ext = s.ext ∧ t.win = s.win ∧
      t.logRange = s.logRange ∧ t.env = s.env
  | .prUpdate _ _ =>
    t.bw = s.bw ∧ t.br = s.br ∧ t.be = s.be ∧ t.rz = s.rz ∧ t.win = s.win ∧ t.logRange = s.logRange ∧ t.env = s.env
  | .beEncInit _ | .beDecDispose | .beSetpred _ =>
    t.bw = s.bw ∧ t.br = s.br ∧ t.apm = s.apm ∧ t.pr = s.pr ∧ t.rz = s.rz ∧ t.ext = s.ext ∧ t.win = s.win ∧
      t.logRange = s.logRange ∧ t.env = s.env
  | .beEncBit _ | .beEncBits _ _ =>
    t.br = s.br ∧ t.rz = s.rz ∧ t.win = s.win ∧ t.logRange = s.logRange ∧ t.env.src = s.env.src ∧
      t.env.srcEnd = s.env.srcEnd ∧ t.env.busErr = s.env.busErr ∧ t.env.raced = s.env.raced ∧ t.env.dirtied = s.env.dirtied
  | .beEncDispose =>
    t.br = s.br ∧ t.apm = s.apm ∧ t.pr = s.pr ∧ t.rz = s.rz ∧ t.ext = s.ext ∧ t.win = s.win ∧ t.logRange = s.logRange ∧
      t.env.src = s.env.src ∧ t.env.srcEnd = s.env.srcEnd ∧ t.env.busErr = s.env.busErr ∧ t.env.raced = s.env.raced ∧
      t.env.dirtied = s.env.dirtied
  | .beDecInit _ =>
    t.bw = s.bw ∧ t.apm = s.apm ∧ t.pr = s.pr ∧ t.rz = s.rz ∧ t.ext = s.ext ∧ t.win = s.win ∧
      t.logRange = s.logRange ∧ Env.OnlyRead s.env t.env
  | .beDecBit | .beDecBits _ =>
    t.bw = s.bw ∧ t.rz = s.rz ∧ t.win = s.win ∧ t.logRange = s.logRange ∧
      Env.OnlyRead s.env t.env
  | .ansDec _ _ _ =>
    t.bw = s.bw ∧ t.apm = s.apm ∧ t.pr = s.pr ∧ t.be = s.be ∧ t.rz = s.rz ∧ t.ext = s.ext ∧ t.win = s.win ∧
      t.logRange = s.logRange ∧ (s.env.srcEnd = true → t.env.srcEnd = true) ∧ t.env.sink = s.env.sink ∧
      t.env.sinkAns = s.env.sinkAns ∧
      t.env.busErr = s.env.busErr ∧ t.env.raced = s.env.raced ∧ t.env.dirtied = s.env.dirtied
  | .rzInit _ _ | .rzChunk _ _ _ =>
    t.bw = s.bw ∧ t.br = s.br ∧ t.apm = s.apm ∧ t.pr = s.pr ∧ t.be = s.be ∧ t.ext = s.ext ∧ t.win = s.win ∧
      t.logRange = s.logRange ∧ t.env = s.env
  | .rzFind _ =>
    t.bw = s.bw ∧ t.br = s.br ∧ t.apm = s.apm ∧ t.pr = s.pr ∧ t.be = s.be ∧ t.ext = s.ext ∧ t.win = s.win ∧
      t.logRange = s.logRange ∧ t.env = { s.env with drawn := t.env.drawn }
  | .rzFwd | .rzInv =>
    t.bw = s.bw ∧ t.br = s.br ∧ t.apm = s.apm ∧ t.pr = s.pr ∧ t.be = s.be ∧ t.ext = s.ext ∧ t.win = s.win ∧
      t.logRange = s.logRange ∧ t.env = { s.env with mem := t.env.mem, drawn := t.env.drawn }

/-! ### What the formulas of the rules say, in plain arithmetic -/

/-- The APM update of 41_apm.md R174: under a 0 the entry falls by `ceil(e / 2^rate)`; under a 1 it rises by
`1 + floor((65534 - e) / 2^rate)`, which is 0 for `e = 65535`. -/
def apmNext (rate : Nat) (bit : Bool) (e : Nat) : Nat :=
  if bit then (if e = 65535 then 65535 else e + 1 + (65534 - e) / 2 ^ rate) else e - (e + 2 ^ rate - 1) / 2 ^ rate

/-- The local-model update of 42_predictors.md R208: under a 0, `p - floor(p/32)`; under a 1,
`p + ceil((65535 - p)/32) - 1`. -/
def localNext (bit : Bool) (p : Nat) : Nat := if bit then p + (65535 - p + 31) / 32 - 1 else p - p / 32

/-- A reader of a plain bit sequence, for statements about a stream by itself. -/
def listBits (len : Nat) : Cmd (List Bool) Word := fun l =>
  if l.length < len then raiseMid .endOfStream 2 0 l else .ok (BitVec.ofNat 64 (bitsNat (l.take len))) (l.drop len)

/-- The length of the common run of `buf` from `r` and from `p`, at most `maxm` (45_rolz_matchfinder.md R297). -/
def Rolz.commonRun (z : Rolz) (e : Env) (r p maxm : Nat) : Nat :=
  ((List.range maxm).takeWhile fun n => z.buf e (r + n) == z.buf e (p + n)).length

/-- The key of a position, and its hash (45_rolz_matchfinder.md R293, R294). -/
def Rolz.key (z : Rolz) (e : Env) (p : Nat) : Nat := (z.buf e (p - 2)).toNat + 256 * (z.buf e (p - 1)).toNat

/-- `Hash(p)`: `((t * 200002979) mod 2^32) & 0xFC000000` for the low 24 bits `t` at `p` (45_rolz_matchfinder.md R294). -/
def Rolz.hash (z : Rolz) (e : Env) (p : Nat) : BitVec 32 :=
  BitVec.ofNat 32
    (((z.buf e p).toNat + 2 ^ 8 * (z.buf e (p + 1)).toNat + 2 ^ 16 * (z.buf e (p + 2)).toNat) * 200002979) &&& 0xFC000000#32

/-- The record at ring distance `j` from the newest one of the ring of position `p`'s key. -/
def Rolz.recordAt (z : Rolz) (e : Env) (p j : Nat) : BitVec 32 :=
  z.slot (z.key e p * z.posChecks + (z.counter (z.key e p) - BitVec.ofNat 32 j).toNat % z.posChecks)

/-- The search for position `p` comes to ring distance `j`: no slot up to it is empty (45_rolz_matchfinder.md R297). -/
def Rolz.reaches (z : Rolz) (e : Env) (p j : Nat) : Prop := j < z.posChecks ∧ ∀ i ≤ j, z.recordAt e p i ≠ 0

/-- How far the record at ring distance `j` matches position `p`: 0 when its hash differs. -/
def Rolz.matchAt (z : Rolz) (e : Env) (p j : Nat) : Nat :=
  let r := z.recordAt e p j
  if r &&& 0xFC000000#32 = z.hash e p then z.commonRun e (recordPos r) p (min 258 (z.csize.toNat - p)) else 0

end Sys2Proof.Machine
end

