-- ==== Sys2Proof/Certificates/Slice0/Obligations.lean ====
section
/-!
DEFINITION. The statements about KZE for the provers, each from a rule of the spec. Where one says that MEM does not fail,
the host races with no read either (20_memory.md R79, R90).
-/

open Sys2Proof Sys2Proof.Machine

/-! ### Encoding, and how a presented word runs -/

/-- R101, R105, R111: decoding the encoding of any command, with every operand at every value its field admits, gives the
command back. -/
def Obligations.DecodeOfEncode : Prop := ∀ i : Instr, decode (encode i) = .ok i

/-- R102, R107: a word that decodes is the encoding of what it decodes to: every bit of it is an operand's or zero. -/
def Obligations.EncodeOfDecode : Prop := ∀ (w : CmdWord) (i : Instr), decode w = .ok i → encode i = w

/-- R111: words of the spec's table of examples, written out, decode to their commands. -/
def Obligations.WrittenWordsDecode : Prop :=
  decode 0x00000000000000000000000000000000#128 = .ok .nop ∧
  decode 0x120C0000000000000000000000000ABC#128 = .ok (.bwBits 12 0xABC) ∧
  decode 0x31800800000000030000000000000000#128 = .ok (.apmGet 0 true 2048 3) ∧
  decode 0x30020207000001000000000000000000#128 = .ok (.apmInit 2 2 7 256) ∧
  decode 0x40010001000000080000000000000000#128 = .ok (.prInit 1 1 8) ∧
  decode 0x60010000000000640000000000000010#128 = .ok (.ansEnc 1 100 16) ∧
  decode 0x750000070000001E0000000000000000#128 = .ok (.rzEmitlen 30 7) ∧
  decode 0x03060000000000000000000000000400#128 = .ok (.csrw 6 1024)

/-- R20, R24: the step takes the first command word presented and executes the command it decodes to, on the state without
that word; with nothing presented it changes nothing. That the host's words stand in a list, and that its own stores to MEM
and changes of the ports are steps, which change nothing else, is the model's (log entry 6); so is the list of the addresses
it has stored to in a window an open stream holds, whose bytes race until that stream is closed (R90; log entry 14). -/
def Obligations.StepRunsPresentedCommand : Prop :=
  (∀ (s : State) (w : CmdWord) (rest : List HostInput) (i : Instr), s.inbox = .command w :: rest → decode w = .ok i →
    step s = exec i (s.withInbox rest)) ∧
  (∀ s : State, s.inbox = [] → step s = .next s) ∧
  (∀ (s : State) (a : BitVec 32) (b : Byte) (rest : List HostInput), s.inbox = .memWrite a b :: rest →
    ∃ m, step s = .next { s with
        inbox := rest
        env := { s.env with
          mem := m, dirtied := if s.holds a.toNat then a.toNat :: s.env.dirtied else s.env.dirtied } } ∧
      ∀ c, Memory.read m c = if c = a.toNat then b else Memory.read s.env.mem c) ∧
  (∀ (s : State) (src : List SrcAnswer) (sinkAns : List Bool) (busErr raced : List (Nat × Nat)) (rest : List HostInput),
    s.inbox = .ports src sinkAns busErr raced :: rest →
    step s = .next { s with
      inbox := rest, env := { s.env with src := src, sinkAns := sinkAns, busErr := busErr, raced := raced } }) ∧
  ∀ (s : State) (n w : Nat) (i : Instr), decode (BitVec.ofNat 128 w) = .ok i → step (s.withFetchWord n w) = exec i s

/-- R106: every undefined opcode raises `Unsupported`, whatever the other bits, and changes no other state. -/
def Obligations.UndefinedOpcodeIsUnsupported : Prop :=
  ∀ (s : State) (w : CmdWord) (rest : List HostInput), s.inbox = .command w :: rest → s.live →
    (let op := (fieldOpcode w).toNat
     (0x04 ≤ op ∧ op ≤ 0x0F) ∨ (0x14 ≤ op ∧ op ≤ 0x1F) ∨ (0x26 ≤ op ∧ op ≤ 0x2F) ∨ (0x32 ≤ op ∧ op ≤ 0x3F) ∨
     (0x44 ≤ op ∧ op ≤ 0x4F) ∨ (0x59 ≤ op ∧ op ≤ 0x5F) ∨ (0x62 ≤ op ∧ op ≤ 0x6F) ∨ 0x77 ≤ op) →
    step s = .next ((s.withInbox rest).failed (fieldOpcode w) .unsupported 0)

/-- R107: a word with the opcode of a command that no operands of that command encode (a reserved bit is 1) raises
`InvalidParameter` sub 1 and changes no other state. -/
def Obligations.ReservedBitIsInvalidParameter : Prop :=
  ∀ (s : State) (w : CmdWord) (rest : List HostInput), s.inbox = .command w :: rest → s.live →
    (∃ i : Instr, i.opcode = fieldOpcode w) → (∀ i : Instr, encode i ≠ w) →
    step s = .next ((s.withInbox rest).failed (fieldOpcode w) .invalidParameter 1)

/-- R397: what a faulted KZE does with every command word. -/
def Obligations.FaultedStateAcceptsThreeCommands : Prop :=
  ∀ (s : State) (w : CmdWord) (rest : List HostInput), s.inbox = .command w :: rest → s.latch.err = true →
    (fieldOpcode w = 0x00 → step s = .next ((s.withInbox rest).completed 0)) ∧
    (fieldOpcode w = 0x01 → step s = exec .reset (s.withInbox rest)) ∧
    (∀ idx : BitVec 8, idx.toNat ≤ 0x0F → w = encode (.csrr idx) →
      ∃ v, readCsr s idx = some v ∧ step s = .next ((s.withInbox rest).completed v)) ∧
    (fieldOpcode w ≠ 0x00 → fieldOpcode w ≠ 0x01 → (∀ idx : BitVec 8, idx.toNat ≤ 0x0F → w ≠ encode (.csrr idx)) →
      step s = .next (s.withInbox rest).refused)

/-! ### System commands -/

/-- R62, R371, R420: `RESET`, in every state, and the `rst` pin put every unit and CSR in the reset state and leave MEM, the
ports and the external predictor; `RESET` responds and counts itself, the pin gives no response. Asserted during a command
the pin abandons it without a response: what it had taken from SRC, handed to SINK and stored in MEM by then stays, also
where the command's rule, which is all that `exec` runs, would have raised an error; a faulted KZE has no rule to abandon.
That three numbers say how far it had come is the model's (log entry 13). -/
def Obligations.ResetGivesResetState : Prop :=
  (ResetValues State.reset ∧ State.reset.cmdCnt = 0) ∧
  (∀ s : State, ∃ t, exec .reset s = .next (t.completed 0) ∧ ResetValues t ∧ t.cmdCnt = 0 ∧ HostSame s t) ∧
  (∀ (s : State) (rest : List HostInput), s.inbox = .rstPin :: rest →
    ∃ t, step s = .next t ∧ ResetValues t ∧ t.cmdCnt = 0 ∧ t.resp = none ∧ HostSame (s.withInbox rest) t) ∧
  (∀ (s : State) (w : CmdWord) (p : Progress) (rest : List HostInput), s.inbox = .rstDuring w p :: rest →
    s.latch.err = true →
    ∃ t, step s = .next t ∧ ResetValues t ∧ t.cmdCnt = 0 ∧ t.resp = none ∧ HostSame (s.withInbox rest) t) ∧
  (∀ (s : State) (i : Instr), s.live → i ≠ .reset → ∃ spoil, exec i s = command i.opcode spoil (ruleOf i) s) ∧
  ∀ (s t : State) (w : CmdWord) (i : Instr) (p : Progress) (rest : List HostInput), s.inbox = .rstDuring w p :: rest →
    s.live → decode w = .ok i →
    (∃ v, ruleOf i (s.withInbox rest) = .ok v t) ∨ (∃ e, ruleOf i (s.withInbox rest) = .error (.raise e) t) →
    ∃ u, step s = .next u ∧ ResetValues u ∧ u.cmdCnt = 0 ∧ u.resp = none ∧ u.inbox = rest ∧ u.par = s.par ∧
      u.env.busErr = s.env.busErr ∧ u.env.raced = s.env.raced ∧
      (∀ a, Memory.read u.env.mem a = if a < p.below then Memory.read t.env.mem a else Memory.read s.env.mem a) ∧
      (∃ n, u.env.src = s.env.src.drop n ∧ n ≤ p.gets ∧ n ≤ s.env.src.length - t.env.src.length) ∧
      (u.env.srcEnd = true ↔
        s.env.srcEnd = true ∨ t.env.srcEnd = true ∧ s.env.src.length - t.env.src.length < p.gets) ∧
      ∃ l, u.env.sink = l ++ s.env.sink ∧ l.length ≤ p.puts ∧ u.env.sink <:+ t.env.sink

/-- R370: `NOP` completes in every state and changes nothing but the count. -/
def Obligations.NopCompletes : Prop := (∀ s : State, exec .nop s = .next (s.completed 0)) ∧ encode .nop = 0

/-- R372, with the map of R26 and R40 to R49: `CSRR` answers every CSR, zero-extended, in every state, and changes nothing; a
reserved index raises `InvalidParameter` sub 8, or is refused in the faulted state. The counts read modulo 2^64 (the model's,
log entry 11). -/
def Obligations.CsrrAnswersEveryCsr : Prop :=
  ∀ s : State,
    exec (.csrr 0x00) s = .next (s.completed 0x4B4E5A4900000007) ∧
    exec (.csrr 0x01) s = .next (s.completed (BitVec.ofNat 64
      (s.latch.err.toNat + 2 * s.bw.isOpen.toNat + 4 * s.br.isOpen.toNat + 8 * (decide (s.be.mode = .enc)).toNat
        + 16 * (decide (s.be.mode = .dec)).toNat + 32 * s.rz.ready.toNat))) ∧
    exec (.csrr 0x02) s = .next (s.completed (BitVec.ofNat 64 s.latch.code.toNat)) ∧
    exec (.csrr 0x03) s = .next (s.completed s.latch.info) ∧
    exec (.csrr 0x04) s = .next (s.completed s.cmdCnt) ∧
    exec (.csrr 0x05) s = .next (s.completed (BitVec.ofNat 64 s.win.srcBase.toNat)) ∧
    exec (.csrr 0x06) s = .next (s.completed (BitVec.ofNat 64 s.win.srcLen.toNat)) ∧
    exec (.csrr 0x07) s = .next (s.completed (BitVec.ofNat 64 s.win.dstBase.toNat)) ∧
    exec (.csrr 0x08) s = .next (s.completed (BitVec.ofNat 64 s.win.dstCap.toNat)) ∧
    exec (.csrr 0x09) s = .next (s.completed (BitVec.ofNat 64 s.bw.count)) ∧
    exec (.csrr 0x0A) s = .next (s.completed (BitVec.ofNat 64 s.br.count)) ∧
    exec (.csrr 0x0B) s = .next (s.completed (BitVec.ofNat 64 s.logRange.toNat)) ∧
    exec (.csrr 0x0C) s = .next (s.completed (BitVec.ofNat 64 (s.rz.lpc.toNat + 2 ^ 8 * s.rz.backend.toNat))) ∧
    exec (.csrr 0x0D) s = .next (s.completed s.be.iv.low) ∧
    exec (.csrr 0x0E) s = .next (s.completed s.be.iv.high) ∧
    exec (.csrr 0x0F) s = .next (s.completed s.be.current) ∧
    ∀ idx : BitVec 8, 0x0F < idx.toNat →
      exec (.csrr idx) s = .next (if s.latch.err then s.refused else s.failed 0x02 .invalidParameter 8)

/-- R373: `CSRW` writes the five writable CSRs with legal values and nothing else; every other access raises
`InvalidParameter` sub 8 and changes nothing else. -/
def Obligations.CsrwWritesWritableCsrs : Prop :=
  ∀ (s : State) (v : Word), s.live →
    (v.toNat < 2 ^ 32 →
      let x := BitVec.ofNat 32 v.toNat
      exec (.csrw 0x05 v) s = .next (({ s with win := { s.win with srcBase := x } } : State).completed 0) ∧
      exec (.csrw 0x06 v) s = .next (({ s with win := { s.win with srcLen := x } } : State).completed 0) ∧
      exec (.csrw 0x07 v) s = .next (({ s with win := { s.win with dstBase := x } } : State).completed 0) ∧
      exec (.csrw 0x08 v) s = .next (({ s with win := { s.win with dstCap := x } } : State).completed 0)) ∧
    (8 ≤ v.toNat → v.toNat ≤ 16 →
      exec (.csrw 0x0B v) s = .next (({ s with logRange := BitVec.ofNat 5 v.toNat } : State).completed 0)) ∧
    ∀ idx : BitVec 8, ¬(5 ≤ idx.toNat ∧ idx.toNat ≤ 8 ∧ v.toNat < 2 ^ 32) →
      ¬(idx.toNat = 0x0B ∧ 8 ≤ v.toNat ∧ v.toNat ≤ 16) →
      exec (.csrw idx v) s = .next (s.failed 0x03 .invalidParameter 8)

/-! ### The bit writer -/

/-- R132: `BW_OPEN` in every case, its checks in order. -/
def Obligations.BwOpenStartsEmptyStream : Prop :=
  ∀ (s : State) (kind : BitVec 8), s.live →
    let fresh : BitWriter :=
      { s.bw with isOpen := true, bits := [], count := 0, sent := 0, cur := 0, avail := 64, buf := [] }
    (1 < kind.toNat → exec (.bwOpen kind) s = .next (s.failed 0x10 .invalidParameter 2)) ∧
    (kind.toNat ≤ 1 → s.bw.isOpen = true → exec (.bwOpen kind) s = .next (s.failed 0x10 .invalidParameter 6)) ∧
    (kind.toNat = 1 → s.bw.isOpen = false → ¬fits s.win.dstBase s.win.dstCap →
      exec (.bwOpen kind) s = .next (s.failed 0x10 .invalidParameter 4)) ∧
    (kind.toNat = 0 → s.bw.isOpen = false →
      exec (.bwOpen kind) s = .next (({ s with bw := { fresh with kind := .port } } : State).completed 0)) ∧
    (kind.toNat = 1 → s.bw.isOpen = false → fits s.win.dstBase s.win.dstCap →
      exec (.bwOpen kind) s = .next
        (({ s with bw := { fresh with kind := .window, base := s.win.dstBase, cap := s.win.dstCap } } : State).completed 0))

/-- R133, R134, R136: `BW_BITS` and `BW_BIT` complete on an open writer that has room, when the ports and MEM do not fail:
the low `len` bits of the value are appended, the first the most significant, and only whole bytes of the stream are
delivered. Which of them the statement leaves open but for `WriterOk` (log entry 7). -/
def Obligations.BwBitsAppendsBits : Prop :=
  ∀ (s : State) (len : BitVec 8) (value : Word) (bit : Bool), s.live → s.par.ok = true → s.bw.isOpen = true →
    WriterOk s.par.bufsz s.bw → s.env.neverFails →
    (len.toNat ≤ 64 → s.bw.hasRoom len.toNat →
      ∃ w e, exec (.bwBits len value) s = .next (({ s with bw := w, env := e } : State).completed 0) ∧
        w.bits = s.bw.bits ++ bitsOf value len.toNat ∧ w.isOpen = true ∧ WriterOk s.par.bufsz w ∧
        Delivered s.bw s.env w e) ∧
    (s.bw.hasRoom 1 →
      ∃ w e, exec (.bwBit bit) s = .next (({ s with bw := w, env := e } : State).completed 0) ∧
        w.bits = s.bw.bits ++ [bit] ∧ w.isOpen = true ∧ WriterOk s.par.bufsz w ∧ Delivered s.bw s.env w e)

/-- R133, R138, R139, R400: the writes that fail before anything changes: a length above 64, a writer that is not open (also
for the commands of the coders that write), a window without room. That a write of length 0 (`BW_BITS`, `BE_ENC_BITS`,
`ANS_ENC`) on a closed writer fails too is the model's reading of R133, R239 and R273 against R399 (log entry 8). -/
def Obligations.WriteChecksChangeNothing : Prop :=
  ∀ (s : State) (len : BitVec 8) (value : Word) (bit : Bool) (order : BitVec 8) (n off : BitVec 32), s.live →
    (64 < len.toNat → exec (.bwBits len value) s = .next (s.failed 0x12 .invalidParameter 2)) ∧
    (s.bw.isOpen = false →
      exec (.bwBit bit) s = .next (s.failed 0x11 .ioError 1) ∧
      (len.toNat ≤ 64 → exec (.bwBits len value) s = .next (s.failed 0x12 .ioError 1)) ∧
      exec .bwClose s = .next (s.failed 0x13 .ioError 1) ∧
      (s.be.mode = .enc →
        exec (.beEncBit bit) s = .next (s.failed 0x51 .ioError 1) ∧
        (len.toNat ≤ 64 → exec (.beEncBits len value) s = .next (s.failed 0x52 .ioError 1)) ∧
        exec .beEncDispose s = .next (s.failed 0x53 .ioError 1)) ∧
      (order.toNat ≤ 1 → fits s.win.srcBase s.win.srcLen → off.toNat + n.toNat ≤ s.win.srcLen.toNat →
        exec (.ansEnc order n off) s = .next (s.failed 0x60 .ioError 1))) ∧
    (s.bw.isOpen = true →
      (len.toNat ≤ 64 → ¬s.bw.hasRoom len.toNat →
        exec (.bwBits len value) s =
          .next (s.failed 0x12 .bufferTooSmall 1 (bytesFor (s.bw.count + len.toNat)))) ∧
      (¬s.bw.hasRoom 1 →
        exec (.bwBit bit) s = .next (s.failed 0x11 .bufferTooSmall 1 (bytesFor (s.bw.count + 1)))))

/-- R135: `BW_CLOSE` on an open writer, when the ports and MEM do not fail, pads with zero bits to a byte boundary, delivers
every byte not yet delivered, closes the writer and answers the count with the padding. -/
def Obligations.BwCloseDeliversEverything : Prop :=
  ∀ s : State, s.live → s.par.ok = true → s.bw.isOpen = true → WriterOk s.par.bufsz s.bw → s.env.neverFails →
    ∃ w e, exec .bwClose s = .next (({ s with bw := w, env := e } : State).completed (BitVec.ofNat 64 w.count)) ∧
      w.bits = s.bw.bits ++ List.replicate ((8 - s.bw.count % 8) % 8) false ∧ w.count = 8 * bytesFor s.bw.count ∧
      w.sent = w.count / 8 ∧ w.isOpen = false ∧ Delivered s.bw s.env w e

/-! ### The bit reader -/

/-- R141: `BR_OPEN` in every case, its checks in order. -/
def Obligations.BrOpenStartsAtSource : Prop :=
  ∀ (s : State) (kind : BitVec 8), s.live →
    let fresh : BitReader := { s.br with isOpen := true, count := 0, fetched := 0, cur := 0, avail := 0, buf := [], pos := 0 }
    (1 < kind.toNat → exec (.brOpen kind) s = .next (s.failed 0x20 .invalidParameter 2)) ∧
    (kind.toNat ≤ 1 → s.br.isOpen = true → exec (.brOpen kind) s = .next (s.failed 0x20 .invalidParameter 6)) ∧
    (kind.toNat = 1 → s.br.isOpen = false → ¬fits s.win.srcBase s.win.srcLen →
      exec (.brOpen kind) s = .next (s.failed 0x20 .invalidParameter 4)) ∧
    (kind.toNat = 0 → s.br.isOpen = false →
      exec (.brOpen kind) s = .next (({ s with br := { fresh with kind := .port } } : State).completed 0)) ∧
    (kind.toNat = 1 → s.br.isOpen = false → fits s.win.srcBase s.win.srcLen →
      exec (.brOpen kind) s = .next
        (({ s with br := { fresh with kind := .window, base := s.win.srcBase, len := s.win.srcLen } } : State).completed 0))

/-- R142, R143: `BR_BITS` and `BR_BIT` complete when enough bits remain and the source does not fail: they answer the next
bits, the first the most significant, and consume exactly them. -/
def Obligations.BrBitsAnswersNextBits : Prop :=
  ∀ (s : State) (len : BitVec 8), s.live → s.par.ok = true → s.br.isOpen = true → ReaderOk s.par.bufsz s.br →
    s.env.neverFails →
    let stream := remainingBits s.br s.env
    (len.toNat ≤ 64 → len.toNat ≤ stream.length →
      ∃ r e, exec (.brBits len) s = .next
          (({ s with br := r, env := e } : State).completed (BitVec.ofNat 64 (bitsNat (stream.take len.toNat)))) ∧
        r.count = s.br.count + len.toNat ∧ remainingBits r e = stream.drop len.toNat ∧ ReaderOk s.par.bufsz r ∧
        Fetched s.br s.env r e) ∧
    (1 ≤ stream.length →
      ∃ r e, exec .brBit s = .next
          (({ s with br := r, env := e } : State).completed (BitVec.ofNat 64 (bitsNat (stream.take 1)))) ∧
        r.count = s.br.count + 1 ∧ remainingBits r e = stream.drop 1 ∧ ReaderOk s.par.bufsz r ∧ Fetched s.br s.env r e)

/-- R148, R394: a read of at least one bit raises `EndOfStream`, sub 1 when the reader is not open and sub 2 when fewer bits
remain, and consumes nothing; a length above 64 raises `InvalidParameter`. That a read of 0 bits completes on a closed
reader too is the model's reading of R148, R394 and R399 (log entry 8). -/
def Obligations.ReadsPastEndConsumeNothing : Prop :=
  ∀ (s : State) (len : BitVec 8), s.live →
    (64 < len.toNat → exec (.brBits len) s = .next (s.failed 0x22 .invalidParameter 2)) ∧
    (s.br.isOpen = false →
      exec .brBit s = .next (s.failed 0x21 .endOfStream 1) ∧
      (1 ≤ len.toNat → len.toNat ≤ 64 → exec (.brBits len) s = .next (s.failed 0x22 .endOfStream 1))) ∧
    (exec (.brBits 0) s = .next (s.completed 0)) ∧
    (s.par.ok = true → s.br.isOpen = true → ReaderOk s.par.bufsz s.br → s.env.neverFails →
      let stream := remainingBits s.br s.env
      (len.toNat ≤ 64 → stream.length < len.toNat →
        ∃ r e, exec (.brBits len) s = .next (({ s with br := r, env := e } : State).failed 0x22 .endOfStream 2) ∧
          r.count = s.br.count ∧ remainingBits r e = stream ∧ Fetched s.br s.env r e) ∧
      (stream = [] →
        ∃ r e, exec .brBit s = .next (({ s with br := r, env := e } : State).failed 0x21 .endOfStream 2) ∧
          r.count = s.br.count ∧ Fetched s.br s.env r e))

/-- R144, R145, R147: `BR_MORE` answers whether a bit remains and consumes none, and where none remains of a port it has its
`end` reported (R78); `BR_CLOSE` drops what was fetched ahead, keeps
the count and answers it, and closing twice is harmless; `BR_READ` answers the count. After it what the host stored in the
reader's window races no more (R90, `State.release`; log entry 14). -/
def Obligations.BrMoreCloseAndRead : Prop :=
  ∀ s : State, s.live →
    (s.br.isOpen = false → exec .brMore s = .next (s.completed 0)) ∧
    (s.par.ok = true → s.br.isOpen = true → ReaderOk s.par.bufsz s.br → s.env.neverFails →
      ∃ r e, exec .brMore s = .next (({ s with br := r, env := e } : State).completed
          (if remainingBits s.br s.env = [] then 0 else 1)) ∧
        r.count = s.br.count ∧ remainingBits r e = remainingBits s.br s.env ∧ ReaderOk s.par.bufsz r ∧
        Fetched s.br s.env r e ∧
        (s.br.kind = .port → remainingBits s.br s.env = [] → e.srcEnd = true)) ∧
    (s.br.isOpen = false → exec .brClose s = .next (s.completed (BitVec.ofNat 64 s.br.count))) ∧
    (s.br.isOpen = true →
      exec .brClose s = .next
        (({ s with br := { s.br with isOpen := false, avail := 0, pos := 0, buf := [] } } : State).release.completed
          (BitVec.ofNat 64 s.br.count))) ∧
    exec .brRead s = .next (s.completed (BitVec.ofNat 64 s.br.count))

/-! ### Adaptive probability maps -/

/-- R176, with the initial contents of R175: `APM_INIT` in every case, its checks in order. The logistic contents are an open
table (log entry 2). -/
def Obligations.ApmInitFillsTable : Prop :=
  ∀ (s : State) (slot : BitVec 4) (variant : BitVec 2) (rate : BitVec 4) (n : BitVec 32), s.live →
    (s.par.napm ≤ slot.toNat → exec (.apmInit slot variant rate n) s = .next (s.failed 0x30 .invalidParameter 2)) ∧
    (variant = 3 → exec (.apmInit slot variant rate n) s = .next (s.failed 0x30 .invalidParameter 2)) ∧
    (n.toNat = 0 ∨ s.par.apmMaxN < n.toNat →
      exec (.apmInit slot variant rate n) s = .next (s.failed 0x30 .invalidParameter 2)) ∧
    (slot.toNat < s.par.napm → variant ≠ 3 → 1 ≤ n.toNat → n.toNat ≤ s.par.apmMaxN →
      ∃ a : ApmSlot, exec (.apmInit slot variant rate n) s =
          .next (({ s with apm := s.apm.set slot.toFin a } : State).completed 0) ∧
        a.valid = true ∧ a.rate = rate ∧ a.n = n.toNat ∧
        a.variant = (if variant = 0 then .logistic else if variant = 1 then .fastLogistic else .linear) ∧
        (variant = 2 → ∀ c < n.toNat, ∀ j < 65, (a.entry (65 * c + j)).toNat = min (j * 1024) 65535) ∧
        (variant ≠ 2 → ∀ c < n.toNat, ∀ j : Fin 33, a.entry (33 * c + j.val) = Config.apmLogisticInit j))

/-- R173, R174: the update of an APM entry, for every rate and bit, is the plain arithmetic of R174, stays in [0..65535]
without a clamp, and changes no other entry. -/
def Obligations.ApmUpdateStaysInRange : Prop :=
  ∀ (a : ApmSlot) (i j : Nat) (bit : Bool),
    ((a.update i bit).entry j).toNat = (if j = i then apmNext a.rate.toNat bit (a.entry i).toNat else (a.entry j).toNat) ∧
      apmNext a.rate.toNat bit (a.entry i).toNat ≤ 65535

/-- R177 to R181: `APM_GET` completes on a valid slot for a context below `n`, for every variant and every content of the open
tables (log entries 1, 2): it updates the entries of its row with its bit, then answers from the updated entries, in
[0..4095]; the checks in order. -/
def Obligations.ApmGetUpdatesThenAnswers : Prop :=
  ∀ (s : State) (slot : BitVec 4) (bit : Bool) (pr : Prob12) (ctx : BitVec 32), s.live →
    let a := s.apm[slot.toFin]
    let st := (Config.stretch pr + 2048).toNat
    let i := if a.variant = .linear then pr.toNat / 64 + 65 * ctx.toNat else st / 128 + 33 * ctx.toNat
    let w := if a.variant = .linear then pr.toNat % 128 else st % 128
    let e0 := apmNext a.rate.toNat bit (a.entry i).toNat
    let e1 := apmNext a.rate.toNat bit (a.entry (i + 1)).toNat
    let p := if a.variant = .fastLogistic then e0 / 16 else (e1 * w + e0 * (128 - w)) / 2048
    (s.par.napm ≤ slot.toNat → exec (.apmGet slot bit pr ctx) s = .next (s.failed 0x31 .invalidParameter 2)) ∧
    (slot.toNat < s.par.napm → a.valid = false →
      exec (.apmGet slot bit pr ctx) s = .next (s.failed 0x31 .invalidParameter 3)) ∧
    (slot.toNat < s.par.napm → a.valid = true → a.n ≤ ctx.toNat →
      exec (.apmGet slot bit pr ctx) s = .next (s.failed 0x31 .invalidParameter 2)) ∧
    (slot.toNat < s.par.napm → a.valid = true → ctx.toNat < a.n →
      ∃ table, exec (.apmGet slot bit pr ctx) s =
          .next (({ s with apm := s.apm.set slot.toFin { a with data := table } } : State).completed (BitVec.ofNat 64 p)) ∧
        p ≤ 4095 ∧
        ∀ j, (({ a with data := table } : ApmSlot).entry j).toNat =
          if j = i then e0 else if j = i + 1 ∧ a.variant ≠ .fastLogistic then e1 else (a.entry j).toNat)

/-! ### Predictors -/

/-- R203, R208: the local model, for every table and context: the update is the plain arithmetic of R208 on the one entry
`ctx + c1`, in [0..65535] without a clamp; `c1` shifts the bit in and goes back to 1 at `size`; `get` is the entry over 16. -/
def Obligations.LocalModelUpdate : Prop :=
  ∀ (m : LocalModel) (bit : Bool),
    m.get.toNat = (m.prob (m.ctx + m.c1)).toNat / 16 ∧
    (∀ j, ((m.update bit).prob j).toNat =
      if j = m.ctx + m.c1 then localNext bit (m.prob j).toNat else (m.prob j).toNat) ∧
    (∀ j, localNext bit (m.prob j).toNat ≤ 65535) ∧
    (m.update bit).c1 = (if m.size ≤ 2 * m.c1 + bit.toNat then 1 else 2 * m.c1 + bit.toNat) ∧
    (m.update bit).ctx = m.ctx ∧ (m.update bit).logSize = m.logSize

/-- R204: `PR_INIT` of every kind completes on legal operands and initialises the slot; the external predictor starts with an
empty history (log entry 3). -/
def Obligations.PrInitInitialises : Prop :=
  ∀ (s : State) (i : Fin 2) (arg : BitVec 32), s.live →
    let slot := BitVec.ofNat 4 i.val
    let p := s.pr[i]
    let k := (arg.extractLsb' 0 4).toNat
    let a : BitVec 4 := arg.extractLsb' 8 4
    let fresh : LocalModel := { logSize := k, probs := [], c1 := 1, ctx := 0 }
    (arg.toNat < 4096 →
      exec (.prInit slot 0 arg) s = .next
        (({ s with pr := s.pr.set i { p with kind := .fixed, value := arg.extractLsb' 0 12 } } : State).completed 0)) ∧
    (1 ≤ arg.toNat → arg.toNat ≤ 9 →
      exec (.prInit slot 1 arg) s = .next
        (({ s with pr := s.pr.set i { p with kind := .localModel, model := fresh } } : State).completed 0)) ∧
    (arg.toNat = 256 * a.toNat + k → 1 ≤ k → k ≤ 9 → a.toNat < s.par.napm → s.apm[a.toFin].valid = true →
      2 ^ k ≤ s.apm[a.toFin].n →
      exec (.prInit slot 2 arg) s = .next
        (({ s with pr := s.pr.set i { p with kind := .refined, model := fresh, apmslot := a, latched := 2048 } } :
          State).completed 0)) ∧
    (arg = 0 → s.pr[1 - i].kind ≠ .external →
      exec (.prInit slot 3 arg) s = .next
        (({ s with pr := s.pr.set i { p with kind := .external }, ext := [] } : State).completed 0)) ∧
    ∀ j, fresh.prob j = 0x8000

/-- R204: every illegal `PR_INIT`, its checks in order. -/
def Obligations.PrInitRefusesIllegal : Prop :=
  ∀ (s : State) (i : Fin 2) (slot : BitVec 4) (kind : BitVec 8) (arg : BitVec 32), s.live →
    let own := BitVec.ofNat 4 i.val
    let k := (arg.extractLsb' 0 4).toNat
    let a : BitVec 4 := arg.extractLsb' 8 4
    let bad := fun sub => Host.Outcome.next (s.failed 0x40 .invalidParameter sub)
    (1 < slot.toNat → exec (.prInit slot kind arg) s = bad 2) ∧
    (3 < kind.toNat → exec (.prInit slot kind arg) s = bad 2) ∧
    (4096 ≤ arg.toNat → exec (.prInit own 0 arg) s = bad 1) ∧
    (16 ≤ arg.toNat → exec (.prInit own 1 arg) s = bad 1) ∧
    (arg.toNat < 16 → arg.toNat = 0 ∨ 9 < arg.toNat → exec (.prInit own 1 arg) s = bad 2) ∧
    (arg.toNat ≠ 256 * a.toNat + k → exec (.prInit own 2 arg) s = bad 1) ∧
    (arg.toNat = 256 * a.toNat + k →
      (k = 0 ∨ 9 < k → exec (.prInit own 2 arg) s = bad 2) ∧
      (1 ≤ k → k ≤ 9 →
        (s.par.napm ≤ a.toNat → exec (.prInit own 2 arg) s = bad 2) ∧
        (a.toNat < s.par.napm → s.apm[a.toFin].valid = false → exec (.prInit own 2 arg) s = bad 3) ∧
        (a.toNat < s.par.napm → s.apm[a.toFin].valid = true → s.apm[a.toFin].n < 2 ^ k →
          exec (.prInit own 2 arg) s = bad 2))) ∧
    (arg ≠ 0 → exec (.prInit own 3 arg) s = bad 1) ∧
    (arg = 0 → s.pr[1 - i].kind = .external → exec (.prInit own 3 arg) s = bad 6)

/-- R205, R206, R211: `PR_GET` answers the slot's probability and changes nothing; `PR_UPDATE` feeds the bit to the slot's
predictor and to nothing else; the checks in order. What the external predictor answers is open (log entry 3). -/
def Obligations.PrGetAndUpdate : Prop :=
  ∀ (s : State) (i : Fin 2) (slot : BitVec 4) (bit : Bool), s.live →
    let own := BitVec.ofNat 4 i.val
    (1 < slot.toNat → exec (.prGet slot) s = .next (s.failed 0x41 .invalidParameter 2) ∧
      exec (.prUpdate slot bit) s = .next (s.failed 0x42 .invalidParameter 2)) ∧
    (s.pr[i].kind = .none → exec (.prGet own) s = .next (s.failed 0x41 .invalidParameter 3) ∧
      exec (.prUpdate own bit) s = .next (s.failed 0x42 .invalidParameter 3)) ∧
    (s.pr[i].kind = .refined → ¬s.predReady i → exec (.prUpdate own bit) s = .next (s.failed 0x42 .invalidParameter 3)) ∧
    (s.pr[i].kind ≠ .none → exec (.prGet own) s = .next (s.completed (BitVec.ofNat 64 (s.prob i).toNat))) ∧
    (s.predReady i → exec (.prUpdate own bit) s = .next ((s.predUpdated i bit).completed 0))

/-- R207: `PR_SETCTX` sets the byte context of a LOCAL or REFINED slot and nothing else; the checks in order. -/
def Obligations.PrSetctxSetsContext : Prop :=
  ∀ (s : State) (i : Fin 2) (slot : BitVec 4) (byte : Byte), s.live →
    let own := BitVec.ofNat 4 i.val
    let p := s.pr[i]
    (1 < slot.toNat → exec (.prSetctx slot byte) s = .next (s.failed 0x43 .invalidParameter 2)) ∧
    (p.kind = .none → exec (.prSetctx own byte) s = .next (s.failed 0x43 .invalidParameter 3)) ∧
    (p.kind = .localModel ∨ p.kind = .refined →
      exec (.prSetctx own byte) s = .next
        (({ s with pr := s.pr.set i { p with model := { p.model with ctx := byte.toNat * 2 ^ p.model.logSize } } } :
          State).completed 0)) ∧
    (p.kind = .fixed ∨ p.kind = .external → exec (.prSetctx own byte) s = .next (s.completed 0))

/-! ### The binary coder -/

/-- R237: `BE_ENC_INIT` in every case, its checks in order. -/
def Obligations.BeEncInitBinds : Prop :=
  ∀ (s : State) (i : Fin 2) (slot : BitVec 4), s.live →
    let own := BitVec.ofNat 4 i.val
    (1 < slot.toNat → exec (.beEncInit slot) s = .next (s.failed 0x50 .invalidParameter 2)) ∧
    (s.pr[i].kind = .none ∨ s.bw.isOpen = false → exec (.beEncInit own) s = .next (s.failed 0x50 .invalidParameter 3)) ∧
    (s.pr[i].kind ≠ .none → s.bw.isOpen = true →
      exec (.beEncInit own) s = .next
        (({ s with be := { mode := .enc, pslot := i, iv := { low := 0, high := 0x00FFFFFFFFFFFFFF }, current := 0 } } :
          State).completed 0))

/-- R231, R233, R236: on an interval that meets R236, for every probability: `split` is computed without a wrap, both
sub-intervals are non-empty and partition the interval, and the interval after the bit and one renormalisation meets R236
again. -/
def Obligations.CoderStepKeepsInterval : Prop :=
  ∀ (iv : Interval) (p : Prob12), CoderOk iv →
    let split := (iv.high.toNat - iv.low.toNat) / 16 * p.toNat / 256
    (iv.split p).toNat = split ∧ iv.low.toNat + split < iv.high.toNat ∧
    (iv.narrow p true).low = iv.low ∧ (iv.narrow p true).high.toNat = iv.low.toNat + split ∧
    (iv.narrow p false).low.toNat = iv.low.toNat + split + 1 ∧ (iv.narrow p false).high = iv.high ∧
    ∀ bit, CoderOk (if (iv.narrow p bit).settled then (iv.narrow p bit).shift else iv.narrow p bit)

/-- R231 to R233, R238: `BE_ENC_BIT` completes on an encoder with a usable predictor and a writer with room for a group: the
interval narrows by the predictor's probability, the predictor learns the bit, and when bits 55..24 of the bounds agree
the group `high[63:32]` is written and both bounds shift by 32. -/
def Obligations.BeEncBitCodesOneBit : Prop :=
  ∀ (s : State) (bit : Bool), s.live →
    (s.be.mode ≠ .enc → exec (.beEncBit bit) s = .next (s.failed 0x51 .invalidParameter 3)) ∧
    (s.be.mode = .enc → s.bw.isOpen = true → s.predReady s.be.pslot →
      let iv := s.be.iv.narrow (s.prob s.be.pslot) bit
      let u := s.predUpdated s.be.pslot bit
      ((iv.low ^^^ iv.high) &&& 0x00FFFFFFFF000000#64 ≠ 0 →
        exec (.beEncBit bit) s = .next (({ u with be := { s.be with iv := iv } } : State).completed 0)) ∧
      ((iv.low ^^^ iv.high) &&& 0x00FFFFFFFF000000#64 = 0 → s.par.ok = true → WriterOk s.par.bufsz s.bw →
        s.env.neverFails → s.bw.hasRoom 32 →
        ∃ w e, exec (.beEncBit bit) s = .next
            (({ u with
                be := { s.be with iv := { low := iv.low <<< 32, high := (iv.high <<< 32) ||| 0xFFFFFFFF#64 } }
                bw := w, env := e } : State).completed 0) ∧
          w.bits = s.bw.bits ++ bitsOf (iv.high >>> 32) 32 ∧ w.isOpen = true ∧ WriterOk s.par.bufsz w ∧
          Delivered s.bw s.env w e))

/-- R239: `BE_ENC_BITS` completes on an encoder with a usable predictor and a writer with room for a group a bit, and is
`BE_ENC_BIT` of its bits in turn, the most significant first. That `n = 0` completes only in mode ENC on an open writer, and
raises sub 3 in another mode, is the model's reading of R239 against R399 (log entry 8). -/
def Obligations.BeEncBitsCodesBitsInTurn : Prop :=
  ∀ (s : State) (n : BitVec 8) (value : Word), s.live →
    (64 < n.toNat → exec (.beEncBits n value) s = .next (s.failed 0x52 .invalidParameter 2)) ∧
    (n.toNat ≤ 64 → s.be.mode ≠ .enc → exec (.beEncBits n value) s = .next (s.failed 0x52 .invalidParameter 3)) ∧
    (s.be.mode = .enc → s.bw.isOpen = true → exec (.beEncBits 0 value) s = .next (s.completed 0)) ∧
    (n.toNat ≤ 64 → s.be.mode = .enc → s.bw.isOpen = true → s.predReady s.be.pslot → s.par.ok = true →
      WriterOk s.par.bufsz s.bw → s.env.neverFails → s.bw.hasRoom (32 * n.toNat) →
      ∃ t : State, exec (.beEncBits n value) s = .next (t.completed 0) ∧
        t = { s with be := { s.be with iv := t.be.iv }, pr := t.pr, apm := t.apm, ext := t.ext, bw := t.bw, env := t.env } ∧
        t.bw.isOpen = true ∧ s.bw.bits <+: t.bw.bits ∧ WriterOk s.par.bufsz t.bw ∧ Delivered s.bw s.env t.bw t.env) ∧
    (n.toNat < 64 → s.be.mode = .enc → s.bw.isOpen = true → ∀ u t : State,
      exec (.beEncBit (value.getLsbD n.toNat)) s = .next (u.completed 0) → u.live → u.resp = s.resp →
      exec (.beEncBits n value) u = .next (t.completed 0) → t.live →
      exec (.beEncBits (n + 1) value) s = .next (t.completed 0))

/-- R240: `BE_ENC_DISPOSE` completes on an encoder whose writer has room: it writes the 64 bits of `low` and releases the
coder, whose bounds stay. -/
def Obligations.BeEncDisposeFlushesLow : Prop :=
  ∀ s : State, s.live →
    (s.be.mode ≠ .enc → exec .beEncDispose s = .next (s.failed 0x53 .invalidParameter 3)) ∧
    (s.be.mode = .enc → s.bw.isOpen = true → s.par.ok = true → WriterOk s.par.bufsz s.bw → s.env.neverFails →
      s.bw.hasRoom 64 →
      ∃ w e, exec .beEncDispose s = .next
          (({ s with be := { s.be with mode := .idle }, bw := w, env := e } : State).completed 0) ∧
        w.bits = s.bw.bits ++ bitsOf s.be.iv.low 64 ∧ w.isOpen = true ∧ WriterOk s.par.bufsz w ∧ Delivered s.bw s.env w e)

/-- R241: `BE_DEC_INIT` in every case but a failing source: it seeds `current` with the next 64 bits; when its read fails the
coder has not changed and nothing is consumed. -/
def Obligations.BeDecInitSeedsCurrent : Prop :=
  ∀ (s : State) (i : Fin 2) (slot : BitVec 4), s.live →
    let own := BitVec.ofNat 4 i.val
    let stream := remainingBits s.br s.env
    (1 < slot.toNat → exec (.beDecInit slot) s = .next (s.failed 0x54 .invalidParameter 2)) ∧
    (s.pr[i].kind = .none → exec (.beDecInit own) s = .next (s.failed 0x54 .invalidParameter 3)) ∧
    (s.pr[i].kind ≠ .none → s.br.isOpen = false → exec (.beDecInit own) s = .next (s.failed 0x54 .endOfStream 1)) ∧
    (s.pr[i].kind ≠ .none → s.br.isOpen = true → s.par.ok = true → ReaderOk s.par.bufsz s.br → s.env.neverFails →
      (stream.length < 64 →
        ∃ r e, exec (.beDecInit own) s = .next (({ s with br := r, env := e } : State).failed 0x54 .endOfStream 2) ∧
          r.count = s.br.count ∧ remainingBits r e = stream ∧ Fetched s.br s.env r e) ∧
      (64 ≤ stream.length →
        ∃ r e, exec (.beDecInit own) s = .next
            (({ s with
                be :=
                  { mode := .dec, pslot := i, iv := { low := 0, high := 0x00FFFFFFFFFFFFFF }
                    current := BitVec.ofNat 64 (bitsNat (stream.take 64)) }
                br := r, env := e } : State).completed 0) ∧
          r.count = s.br.count + 64 ∧ remainingBits r e = stream.drop 64 ∧ ReaderOk s.par.bufsz r ∧
          Fetched s.br s.env r e))

/-- R231, R232, R234, R242: `BE_DEC_BIT` completes on a decoder with a usable predictor and, when it renormalises, a reader with
32 bits left: the bit is 1 exactly when `current <= low + split`, the interval narrows to it, the predictor learns it, and a
renormalisation shifts the next 32 bits into `current`. -/
def Obligations.BeDecBitDecidesOneBit : Prop :=
  ∀ s : State, s.live →
    (s.be.mode ≠ .dec → exec .beDecBit s = .next (s.failed 0x55 .invalidParameter 3)) ∧
    (s.be.mode = .dec → s.predReady s.be.pslot →
      let p := s.prob s.be.pslot
      let bit := decide (s.be.current ≤ s.be.iv.low + s.be.iv.split p)
      let iv := s.be.iv.narrow p bit
      let u := s.predUpdated s.be.pslot bit
      let stream := remainingBits s.br s.env
      ((iv.low ^^^ iv.high) &&& 0x00FFFFFFFF000000#64 ≠ 0 →
        exec .beDecBit s = .next
          (({ u with be := { s.be with iv := iv } } : State).completed (BitVec.ofNat 64 bit.toNat))) ∧
      ((iv.low ^^^ iv.high) &&& 0x00FFFFFFFF000000#64 = 0 → s.br.isOpen = true → s.par.ok = true →
        ReaderOk s.par.bufsz s.br → s.env.neverFails → 32 ≤ stream.length →
        ∃ r e, exec .beDecBit s = .next
            (({ u with
                be :=
                  { s.be with
                    iv := { low := iv.low <<< 32, high := (iv.high <<< 32) ||| 0xFFFFFFFF#64 }
                    current := (s.be.current <<< 32) ||| BitVec.ofNat 64 (bitsNat (stream.take 32)) }
                br := r, env := e } : State).completed (BitVec.ofNat 64 bit.toNat)) ∧
          r.count = s.br.count + 32 ∧ remainingBits r e = stream.drop 32 ∧ ReaderOk s.par.bufsz r ∧
          Fetched s.br s.env r e))

/-- R243: `BE_DEC_BITS` completes on a decoder with a usable predictor and a reader with 32 bits a bit left, and is
`BE_DEC_BIT` in turn, the first bit the most significant of the answer. That `n = 0` completes only in mode DEC, and raises
sub 3 in another mode, is the model's reading of R243 against R399 (log entry 8). -/
def Obligations.BeDecBitsDecodesBitsInTurn : Prop :=
  ∀ (s : State) (n : BitVec 8), s.live →
    (64 < n.toNat → exec (.beDecBits n) s = .next (s.failed 0x56 .invalidParameter 2)) ∧
    (n.toNat ≤ 64 → s.be.mode ≠ .dec → exec (.beDecBits n) s = .next (s.failed 0x56 .invalidParameter 3)) ∧
    (s.be.mode = .dec → exec (.beDecBits 0) s = .next (s.completed 0)) ∧
    (n.toNat ≤ 64 → s.be.mode = .dec → s.predReady s.be.pslot → s.par.ok = true → s.br.isOpen = true →
      ReaderOk s.par.bufsz s.br → s.env.neverFails → 32 * n.toNat ≤ (remainingBits s.br s.env).length →
      ∃ (t : State) (v : Word), exec (.beDecBits n) s = .next (t.completed v) ∧ v.toNat < 2 ^ n.toNat ∧
        t = { s with be := { s.be with iv := t.be.iv, current := t.be.current }, pr := t.pr, apm := t.apm, ext := t.ext,
                     br := t.br, env := t.env } ∧
        ReaderOk s.par.bufsz t.br ∧ Fetched s.br s.env t.br t.env) ∧
    (n.toNat < 64 → s.be.mode = .dec → ∀ (u t : State) (b v : Word),
      exec .beDecBit s = .next (u.completed b) → u.live → u.resp = s.resp →
      exec (.beDecBits n) u = .next (t.completed v) → t.live →
      exec (.beDecBits (n + 1)) s = .next (t.completed (b * BitVec.ofNat 64 (2 ^ n.toNat) + v)))

/-- R244, R245: `BE_DEC_DISPOSE` releases the decoder and reads nothing; `BE_SETPRED` switches the predictor without touching
the interval; the checks in order. -/
def Obligations.BeDecDisposeAndSetpred : Prop :=
  ∀ (s : State) (i : Fin 2) (slot : BitVec 4), s.live →
    let own := BitVec.ofNat 4 i.val
    (s.be.mode ≠ .dec → exec .beDecDispose s = .next (s.failed 0x57 .invalidParameter 3)) ∧
    (s.be.mode = .dec →
      exec .beDecDispose s = .next (({ s with be := { s.be with mode := .idle } } : State).completed 0)) ∧
    (s.be.mode = .idle → exec (.beSetpred slot) s = .next (s.failed 0x58 .invalidParameter 3)) ∧
    (s.be.mode ≠ .idle → 1 < slot.toNat → exec (.beSetpred slot) s = .next (s.failed 0x58 .invalidParameter 2)) ∧
    (s.be.mode ≠ .idle → s.pr[i].kind = .none →
      exec (.beSetpred own) s = .next (s.failed 0x58 .invalidParameter 3)) ∧
    (s.be.mode ≠ .idle → s.pr[i].kind ≠ .none →
      exec (.beSetpred own) s = .next (({ s with be := { s.be with pslot := i } } : State).completed 0))

/-- R246 to R248: for every interval that meets R236 and every sequence of (probability, bit) pairs, the run's groups followed
by the two halves of the final `low` decode, from a window seeded with the first 64 bits, to exactly the bits, and
exactly the run is read. -/
def Obligations.CoderRoundTrip : Prop :=
  ∀ (iv : Interval) (run : List (Prob12 × Bool)) (tail : List Word), CoderOk iv →
    let x := codeRun iv run
    ∃ g0 g1 rest, x.1 ++ [x.2.low >>> 32, x.2.low &&& 0xFFFFFFFF#64] ++ tail = g0 :: g1 :: rest ∧
      decodeRun iv ((g0 <<< 32) ||| g1) rest (run.map Prod.fst) = some (run.map Prod.snd, tail)

/-! ### The ANS coder -/

/-- R264: for every counts of 256 symbols, not all zero, and every `LR` in 8..16, the normalised table sums to exactly `2^LR`
and has a nonzero entry exactly for the symbols that occur. -/
def Obligations.AnsTablesSumToRange : Prop :=
  ∀ (count : List Nat) (lr : Nat), count.length = 256 → count.sum ≠ 0 → 8 ≤ lr → lr ≤ 16 →
    (ansNormalize count lr).length = 256 ∧ (ansNormalize count lr).sum = 2 ^ lr ∧
      ∀ s, (ansNormalize count lr).getD s 0 = 0 ↔ count.getD s 0 = 0

/-- R277: for every data, order and `LR` in 8..16, decoding the bits of a run returns the data and consumes exactly the
run. -/
def Obligations.AnsRoundTrip : Prop :=
  ∀ (order1 : Bool) (lr : Nat) (d : List Byte) (rest : List Bool), 8 ≤ lr → lr ≤ 16 →
    ansDecode listBits order1 d.length (fieldBits (ansFields order1 lr d) ++ rest) = .ok d rest

/-- R266, R270, R273: `ANS_ENC` completes on legal operands, an open writer with room for the run and a SRC window it does not
overlap: it appends the run of the bytes `Src[off .. off+N-1]` and answers the run's length; its checks in order. That the
checks come first also for `N = 0` is the model's reading of R273 against R399 (log entry 8). -/
def Obligations.AnsEncWritesRun : Prop :=
  ∀ (s : State) (order : BitVec 8) (n off : BitVec 32), s.live →
    (1 < order.toNat → exec (.ansEnc order n off) s = .next (s.failed 0x60 .invalidParameter 2)) ∧
    (order.toNat ≤ 1 → ¬fits s.win.srcBase s.win.srcLen →
      exec (.ansEnc order n off) s = .next (s.failed 0x60 .invalidParameter 4)) ∧
    (order.toNat ≤ 1 → fits s.win.srcBase s.win.srcLen → s.win.srcLen.toNat < off.toNat + n.toNat →
      exec (.ansEnc order n off) s = .next (s.failed 0x60 .invalidParameter 2)) ∧
    (order.toNat ≤ 1 → fits s.win.srcBase s.win.srcLen → off.toNat + n.toNat ≤ s.win.srcLen.toNat →
      s.bw.isOpen = true → s.bw.kind = .window → overlap s.bw.base s.bw.cap s.win.srcBase s.win.srcLen →
      exec (.ansEnc order n off) s = .next (s.failed 0x60 .invalidParameter 5)) ∧
    (order.toNat ≤ 1 → fits s.win.srcBase s.win.srcLen → off.toNat + n.toNat ≤ s.win.srcLen.toNat →
      s.bw.isOpen = true → (s.bw.kind = .window → ¬overlap s.bw.base s.bw.cap s.win.srcBase s.win.srcLen) →
      s.par.ok = true → WriterOk s.par.bufsz s.bw → s.env.neverFails →
      let d := memBytes s.env.mem (s.win.srcBase.toNat + off.toNat) n.toNat
      let run := fieldBits (ansFields (decide (order.toNat = 1)) s.logRange.toNat d)
      s.bw.hasRoom run.length →
      ∃ w e, exec (.ansEnc order n off) s = .next
          (({ s with bw := w, env := e } : State).completed (BitVec.ofNat 64 run.length)) ∧
        w.bits = s.bw.bits ++ run ∧ w.isOpen = true ∧ WriterOk s.par.bufsz w ∧ Delivered s.bw s.env w e)

/-- R274: `ANS_DEC` completes on legal operands and an open reader whose next bits are the run of some data `d` of `N` bytes
at any table precision: it stores `d` at `Dst[off .. off+N-1]`, consumes exactly the run, so that what follows it remains,
and answers its length; every byte of MEM outside them reads as before; its checks in order. That they come first also for
`N = 0` is the model's reading of R274 against R399 (log entry 8). -/
def Obligations.AnsDecStoresData : Prop :=
  ∀ (s : State) (order : BitVec 8) (n off : BitVec 32), s.live →
    (1 < order.toNat → exec (.ansDec order n off) s = .next (s.failed 0x61 .invalidParameter 2)) ∧
    (order.toNat ≤ 1 → ¬fits s.win.dstBase s.win.dstCap →
      exec (.ansDec order n off) s = .next (s.failed 0x61 .invalidParameter 4)) ∧
    (order.toNat ≤ 1 → fits s.win.dstBase s.win.dstCap →
      (s.win.dstCap.toNat < off.toNat + n.toNat →
        exec (.ansDec order n off) s = .next (s.failed 0x61 .bufferTooSmall 2 (off.toNat + n.toNat))) ∧
      (off.toNat + n.toNat ≤ s.win.dstCap.toNat →
        (s.br.isOpen = false → exec (.ansDec order n off) s = .next (s.failed 0x61 .endOfStream 1)) ∧
        (s.br.isOpen = true → s.br.kind = .window → overlap s.br.base s.br.len s.win.dstBase s.win.dstCap →
          exec (.ansDec order n off) s = .next (s.failed 0x61 .invalidParameter 5)) ∧
        (s.br.isOpen = true → (s.br.kind = .window → ¬overlap s.br.base s.br.len s.win.dstBase s.win.dstCap) →
          s.par.ok = true → ReaderOk s.par.bufsz s.br → s.env.neverFails →
          ∀ (lr : Nat) (d : List Byte) (rest : List Bool), 8 ≤ lr → lr ≤ 16 → d.length = n.toNat →
            let run := fieldBits (ansFields (decide (order.toNat = 1)) lr d)
            remainingBits s.br s.env = run ++ rest →
            ∃ r e, exec (.ansDec order n off) s = .next
                (({ s with br := r, env := e } : State).completed (BitVec.ofNat 64 run.length)) ∧
              r.count = s.br.count + run.length ∧ remainingBits r e = rest ∧ ReaderOk s.par.bufsz r ∧
              Fetched s.br s.env r { e with mem := s.env.mem } ∧
              ∀ a, Memory.read e.mem a =
                let first := s.win.dstBase.toNat + off.toNat
                if first ≤ a ∧ a < first + n.toNat then d.getD (a - first) 0 else Memory.read s.env.mem a)))

/-! ### ROLZ -/

/-- R291: `RZ_INIT` in every case: legal operands configure the unit and empty its tables. -/
def Obligations.RzInitConfigures : Prop :=
  ∀ (s : State) (backend lpc : BitVec 8), s.live →
    (backend ≠ 1 ∧ backend ≠ 2 ∨ lpc.toNat < 2 ∨ 8 < lpc.toNat →
      exec (.rzInit backend lpc) s = .next (s.failed 0x70 .invalidParameter 2)) ∧
    (backend = 1 ∨ backend = 2 → 2 ≤ lpc.toNat → lpc.toNat ≤ 8 →
      ∃ z : Rolz, exec (.rzInit backend lpc) s = .next (({ s with rz := z } : State).completed 0) ∧ z.ready = true ∧
        z.backend.toNat = backend.toNat ∧ z.lpc.toNat = lpc.toNat ∧ z.posChecks = 2 ^ lpc.toNat ∧
        z.mask = 2 ^ lpc.toNat - 1 ∧ (∀ k, z.counter k = 0) ∧ (∀ i, z.slot i = 0) ∧ z.cvalid = false)

/-- R299: `RZ_CHUNK` in every case, its checks in order. That it latches how far the SRC window reaches is the model's (log
entry 21). -/
def Obligations.RzChunkSetsChunk : Prop :=
  ∀ (s : State) (newblock : Bool) (start size : BitVec 32), s.live →
    let run := exec (.rzChunk newblock start size) s
    (s.rz.ready = false → run = .next (s.failed 0x73 .invalidParameter 3)) ∧
    (s.rz.ready = true → ¬fits s.win.srcBase s.win.srcLen → run = .next (s.failed 0x73 .invalidParameter 4)) ∧
    (s.rz.ready = true → fits s.win.srcBase s.win.srcLen →
      2 ^ 26 < size.toNat ∨ s.win.srcLen.toNat < start.toNat + size.toNat + 4 →
      run = .next (s.failed 0x73 .invalidParameter 2)) ∧
    (s.rz.ready = true → fits s.win.srcBase s.win.srcLen → size.toNat ≤ 2 ^ 26 →
      start.toNat + size.toNat + 4 ≤ s.win.srcLen.toNat →
      ∃ z : Rolz, exec (.rzChunk newblock start size) s = .next (({ s with rz := z } : State).completed 0) ∧
        z.ready = true ∧ z.backend = s.rz.backend ∧ z.lpc = s.rz.lpc ∧ z.cvalid = true ∧ z.csize = size ∧
        z.cbase.toNat = s.win.srcBase.toNat + start.toNat ∧ z.clen.toNat = s.win.srcLen.toNat - start.toNat ∧ (∀ i, z.slot i = 0) ∧
        ∀ k, z.counter k = if newblock then 0 else s.rz.counter k)

/-- R296, R297, R300, R301: `RZ_FIND` completes on every position of a valid chunk, asked in any order, when MEM does not fail
and nothing races: it answers the newest of the longest matches among the records the search reaches, if that is at least 3
bytes, else all ones; and it inserts `p` in either case. Its checks in order. When `p` comes after every position of the
rings, all comparisons stay inside the chunk and every match counts as it is, and so it does as long as the comparison stays
inside the window the chunk lies in (log entry 21); a record behind which that window ends before the comparison may have any length up to
`min(258, size - p)`, which is the model's (log entry 15). -/
def Obligations.RzFindAnswersBestMatch : Prop :=
  ∀ (s : State) (q : BitVec 32), s.live →
    (s.rz.ready = false ∨ s.rz.cvalid = false → exec (.rzFind q) s = .next (s.failed 0x74 .invalidParameter 3)) ∧
    (s.rz.ready = true → s.rz.cvalid = true → q.toNat < 2 ∨ s.rz.csize.toNat ≤ q.toNat →
      exec (.rzFind q) s = .next (s.failed 0x74 .invalidParameter 2)) ∧
    (s.rz.ready = true → s.rz.cvalid = true → 2 ≤ q.toNat → q.toNat < s.rz.csize.toNat → s.rz.chunkFits → s.env.quiet →
      let z := s.rz
      let e := s.env
      let p := q.toNat
      let k := z.key e p
      let inside := fun j => recordPos (z.recordAt e p j) + min 258 (z.csize.toNat - p) ≤ z.clen.toNat
      ∃ (z' : Rolz) (v : Word) (d : Nat), exec (.rzFind q) s =
          .next (({ s with rz := z', env := { s.env with drawn := d } } : State).completed v) ∧
        (z.ringsBefore p → d = s.env.drawn ∧ ∀ j, z.reaches e p j → inside j) ∧
        ((v = 0xFFFFFFFFFFFFFFFF ∧ ∀ j, z.reaches e p j → inside j → z.matchAt e p j < 3) ∨
          ∃ idx len, v.toNat = len * 256 + idx ∧ z.reaches e p idx ∧ (inside idx → z.matchAt e p idx = len) ∧ 3 ≤ len ∧
            len ≤ min 258 (z.csize.toNat - p) ∧ (∀ j, z.reaches e p j → inside j → z.matchAt e p j ≤ len) ∧
            ∀ j, z.reaches e p j → inside j → j < idx → z.matchAt e p j < len) ∧
        z' = { z with counters := z'.counters, matchRing := z'.matchRing } ∧
        (∀ x, z'.counter x = if x = k then z.counter k + 1 else z.counter x) ∧
        ∀ x, z'.slot x =
          if x = k * z.posChecks + (z.counter k + 1).toNat % z.posChecks then z.hash e p ||| BitVec.ofNat 32 p else z.slot x)

/-- R325, R326, R330, R336: for every legal `(L, M)`: the code is 1 to 6 bytes, reading it back from any byte sequence that
begins with it gives `(L, M)` and leaves what follows; `RZ_EMITLEN` answers it packed, `RZ_READLEN` of that answers
`(L << 32) | (M << 16) | k`; operands out of range raise `InvalidParameter` sub 2. -/
def Obligations.LengthCodeRoundTrip : Prop :=
  ∀ (s : State) (l : BitVec 32) (m : BitVec 16), s.live →
    (2 ^ 28 + 30 < l.toNat ∨ 262 < m.toNat → exec (.rzEmitlen l m) s = .next (s.failed 0x75 .invalidParameter 2)) ∧
    (l.toNat ≤ 2 ^ 28 + 30 → m.toNat ≤ 262 →
      let out := emitLengths l.toNat m.toNat
      let packed := BitVec.ofNat 64 (out.length + 256 * packBytes out)
      1 ≤ out.length ∧ out.length ≤ 6 ∧ (∀ rest, readLengths (out ++ rest) = some (l.toNat, m.toNat, rest)) ∧
      exec (.rzEmitlen l m) s = .next (s.completed packed) ∧
      exec (.rzReadlen packed) s =
        .next (s.completed (BitVec.ofNat 64 (l.toNat * 2 ^ 32 + m.toNat * 2 ^ 16 + out.length))))

/-- R330, R336: `RZ_READLEN` on every word: it answers what `ReadLengths` reads from its first `k` bytes, and raises
`InvalidData` sub 20 when they are no length code, `InvalidParameter` sub 2 when `k` is above 7. -/
def Obligations.RzReadlenReadsOneTuple : Prop :=
  ∀ (s : State) (packed : Word), s.live →
    let k := packed.toNat % 256
    let bytes := (List.range k).map fun i => BitVec.ofNat 8 (packed.toNat / 2 ^ (8 + 8 * i))
    (7 < k → exec (.rzReadlen packed) s = .next (s.failed 0x76 .invalidParameter 2)) ∧
    (k ≤ 7 → readLengths bytes = none → exec (.rzReadlen packed) s = .next (s.failed 0x76 .invalidData 20)) ∧
    ∀ l m rest, k ≤ 7 → readLengths bytes = some (l, m, rest) →
      exec (.rzReadlen packed) s =
        .next (s.completed (BitVec.ofNat 64 (l * 2 ^ 32 + m * 2 ^ 16 + (k - rest.length))))

/-- R320, R321, R331, R337 (scenarios S1, S2): with either back end, `RZ_FWD` of a block of at most 4 bytes completes and
stores the size, big-endian, and the bytes (nothing at all for the empty block); `RZ_INV` of such an encoded block completes
and stores the bytes. Every other byte of MEM reads as before. -/
def Obligations.StoredBlocksRoundTrip : Prop :=
  ∀ (s : State) (n : Nat), s.live → s.rz.ready = true → s.rz.backend = 1 ∨ s.rz.backend = 2 →
    fits s.win.srcBase s.win.srcLen → fits s.win.dstBase s.win.dstCap →
    ¬overlap s.win.srcBase s.win.srcLen s.win.dstBase s.win.dstCap → s.env.quiet → n ≤ 4 →
    let src := s.win.srcBase.toNat
    let dst := s.win.dstBase.toNat
    let done := fun (m : List Host.Cell) (v : Nat) =>
      Host.Outcome.next (({ s with
        rz := { s.rz with counters := [], cvalid := false }, env := { s.env with mem := m } } : State).completed
          (BitVec.ofNat 64 v))
    (s.win.srcLen.toNat = 0 → exec .rzFwd s = done s.env.mem 0 ∧ exec .rzInv s = done s.env.mem 0) ∧
    (1 ≤ n → s.win.srcLen.toNat = n → n + 4 ≤ s.win.dstCap.toNat →
      ∃ m, exec .rzFwd s = done m (n + 4) ∧ ∀ a, Memory.read m a =
        if a = dst ∨ a = dst + 1 ∨ a = dst + 2 then 0 else if a = dst + 3 then BitVec.ofNat 8 n
        else if dst + 4 ≤ a ∧ a < dst + 4 + n then Memory.read s.env.mem (src + (a - (dst + 4)))
        else Memory.read s.env.mem a) ∧
    (s.win.srcLen.toNat = n + 4 → n ≤ s.win.dstCap.toNat →
      Memory.read s.env.mem src = 0 → Memory.read s.env.mem (src + 1) = 0 → Memory.read s.env.mem (src + 2) = 0 →
      Memory.read s.env.mem (src + 3) = BitVec.ofNat 8 n →
      ∃ m, exec .rzInv s = done m n ∧ ∀ a, Memory.read m a =
        if dst ≤ a ∧ a < dst + n then Memory.read s.env.mem (src + 4 + (a - dst)) else Memory.read s.env.mem a)

/-- R320, R321, R328, R356: `RZ_FWD` completes on every block of at most 2^27 bytes with either back end, when MEM does not fail
and the DST window is large enough: it answers the length, which begins with the size, big-endian, and ends with the
block's last bytes; bytes of MEM outside the encoded block read as before; no other unit changes. The bounds on the
capacity (16 and 36 bytes a byte) are derived from R327 and R351, they are no rule's; `LOGRANGE`, which back end 1 uses, is
legal in every run (R47, `StepKeepsRegistersLegal`). -/
def Obligations.RzFwdEncodesBlock : Prop :=
  ∀ s : State, s.live → s.rz.ready = true → s.rz.backend = 1 ∨ s.rz.backend = 2 →
    fits s.win.srcBase s.win.srcLen → fits s.win.dstBase s.win.dstCap →
    ¬overlap s.win.srcBase s.win.srcLen s.win.dstBase s.win.dstCap → s.win.srcLen.toNat ≤ 2 ^ 27 → s.env.quiet →
    (s.rz.backend = 1 → 8 ≤ s.logRange.toNat ∧ s.logRange.toNat ≤ 16) →
    (s.rz.backend = 1 → 16 * s.win.srcLen.toNat + 2 ^ 20 ≤ s.win.dstCap.toNat) →
    (s.rz.backend = 2 → 36 * s.win.srcLen.toNat + 16 ≤ s.win.dstCap.toNat) →
    let n := s.win.srcLen.toNat
    let src := s.win.srcBase.toNat
    let dst := s.win.dstBase.toNat
    ∃ (z : Rolz) (m : List Host.Cell) (len : Nat),
      exec .rzFwd s = .next
        (({ s with rz := z, env := { s.env with mem := m } } : State).completed (BitVec.ofNat 64 len)) ∧
      z.ready = true ∧ z.backend = s.rz.backend ∧ z.lpc = s.rz.lpc ∧ z.cvalid = false ∧
      (n = 0 → len = 0) ∧ (n ≠ 0 → 4 + min 4 n ≤ len) ∧ len ≤ s.win.dstCap.toNat ∧
      (n ≠ 0 → memBytes m dst 4 = beBytes4 s.win.srcLen ∧
        memBytes m (dst + len - min 4 n) (min 4 n) = memBytes s.env.mem (src + n - min 4 n) (min 4 n)) ∧
      ∀ a, a < dst ∨ dst + len ≤ a → Memory.read m a = Memory.read s.env.mem a

/-- R321, R331: the checks of `RZ_FWD` and `RZ_INV`, in order, which change nothing; and R390: the capacity check of `RZ_INV`
comes before any output, so that only the counters, cleared before it, have changed. -/
def Obligations.BlockChecksChangeNothing : Prop :=
  ∀ s : State, s.live →
    (s.rz.ready = false → exec .rzFwd s = .next (s.failed 0x71 .invalidParameter 3) ∧
      exec .rzInv s = .next (s.failed 0x72 .invalidParameter 3)) ∧
    (s.rz.ready = true →
      (¬(fits s.win.srcBase s.win.srcLen ∧ fits s.win.dstBase s.win.dstCap) →
        exec .rzFwd s = .next (s.failed 0x71 .invalidParameter 4) ∧
        exec .rzInv s = .next (s.failed 0x72 .invalidParameter 4)) ∧
      (fits s.win.srcBase s.win.srcLen → fits s.win.dstBase s.win.dstCap →
        (overlap s.win.srcBase s.win.srcLen s.win.dstBase s.win.dstCap →
          exec .rzFwd s = .next (s.failed 0x71 .invalidParameter 5) ∧
          exec .rzInv s = .next (s.failed 0x72 .invalidParameter 5)) ∧
        (¬overlap s.win.srcBase s.win.srcLen s.win.dstBase s.win.dstCap → 2 ^ 27 < s.win.srcLen.toNat →
          exec .rzFwd s = .next (s.failed 0x71 .invalidParameter 7)) ∧
        (∀ n : Nat, ¬overlap s.win.srcBase s.win.srcLen s.win.dstBase s.win.dstCap → s.env.quiet → 4 ≤ s.win.srcLen.toNat →
          memBytes s.env.mem s.win.srcBase.toNat 4 = beBytes4 (BitVec.ofNat 32 n) → n ≤ 2 ^ 27 →
          s.win.dstCap.toNat < n →
          exec .rzInv s = .next
            (({ s with rz := { s.rz with counters := [] } } : State).failed 0x72 .bufferTooSmall 2))))

/-- R335 (the source's property 1): if `RZ_FWD` completes on a block, then `RZ_INV` with the same configuration, on any state
whose SRC window holds exactly the encoded block and whose DST window holds the block, completes, answers the block's length
and writes the block. -/
def Obligations.RzRoundTrip : Prop :=
  ∀ (s t u : State) (len : Word), s.live → s.rz.backend = 1 ∨ s.rz.backend = 2 → 2 ≤ s.rz.lpc.toNat →
    s.rz.lpc.toNat ≤ 8 → 8 ≤ s.logRange.toNat → s.logRange.toNat ≤ 16 → s.env.quiet →
    exec .rzFwd s = .next (t.completed len) → t.live →
    u.live → u.rz.ready = true → u.rz.backend = s.rz.backend → u.rz.lpc = s.rz.lpc → u.env.quiet →
    fits u.win.srcBase u.win.srcLen → fits u.win.dstBase u.win.dstCap →
    ¬overlap u.win.srcBase u.win.srcLen u.win.dstBase u.win.dstCap →
    u.win.srcLen.toNat = len.toNat → s.win.srcLen.toNat ≤ u.win.dstCap.toNat →
    memBytes u.env.mem u.win.srcBase.toNat len.toNat = memBytes t.env.mem s.win.dstBase.toNat len.toNat →
    ∃ v : State, exec .rzInv u = .next (v.completed (BitVec.ofNat 64 s.win.srcLen.toNat)) ∧
      v = { u with rz := v.rz, env := { u.env with mem := v.env.mem } } ∧
      memBytes v.env.mem u.win.dstBase.toNat s.win.srcLen.toNat = memBytes s.env.mem s.win.srcBase.toNat s.win.srcLen.toNat

/-! ### The whole machine -/

/-- Every invariant below holds at reset, the one of an open reader too. -/
def Obligations.InvariantsHoldAtReset : Prop :=
  Memory.wf State.reset.env.mem = true ∧ State.reset.par.ok = true ∧ LatchOk State.reset.latch ∧ ConfigOk State.reset ∧
    WindowsOk State.reset ∧ WriterOk State.reset.par.bufsz State.reset.bw ∧
    (State.reset.br.isOpen = true → ReaderOk State.reset.par.bufsz State.reset.br) ∧ CoderOk State.reset.be.iv

/-- MEM keeps its canonical form at every step. -/
def Obligations.StepKeepsMemoryCanonical : Prop :=
  ∀ s t : State, Memory.wf s.env.mem = true → step s = .next t → Memory.wf t.env.mem = true

/-- R71, R398: whatever command runs and however it ends, a byte of MEM that changes lies in the window the command writes
to. -/
def Obligations.CommandsStoreOnlyInTheirWindow : Prop :=
  ∀ (i : Instr) (s t : State), exec i s = .next t →
    ∀ a, Memory.read t.env.mem a ≠ Memory.read s.env.mem a → storesTo i s a

/-- R398 (first guarantees), R60, R356: whatever command runs and however it ends, every unit its rule does not touch is
unchanged (which units an error in the middle of a command spoils: log entry 4). -/
def Obligations.CommandsLeaveOtherUnits : Prop := ∀ (i : Instr) (s t : State), exec i s = .next t → Untouched i s t

/-- R104, R44, R396: every command gets exactly one response: code 0 and it is counted; or an error kind 1 to 7, which is what
the latch now holds; or 0xFF with value 0, the latch and the count unchanged. -/
def Obligations.EveryCommandResponds : Prop :=
  ∀ (i : Instr) (s t : State), exec i s = .next t → i ≠ .reset → ∃ r : Response, t.resp = some r ∧
    ((r.code = 0 ∧ t.cmdCnt = s.cmdCnt + 1 ∧ t.latch = s.latch) ∨
     (s.live ∧ 1 ≤ r.code.toNat ∧ r.code.toNat ≤ 7 ∧ t.cmdCnt = s.cmdCnt ∧
       t.latch = { err := true, code := r.code, info := r.value } ∧ r.value.toNat % 256 = i.opcode.toNat) ∨
     (s.latch.err = true ∧ r.code = 0xFF ∧ r.value = 0 ∧ t = s.refused))

/-- R42, R43, R47, R48: the error latch and the configuration registers hold only legal values, at every step. -/
def Obligations.StepKeepsRegistersLegal : Prop :=
  ∀ s t : State, LatchOk s.latch → ConfigOk s → step s = .next t → LatchOk t.latch ∧ ConfigOk t

/-- R51, R52, R137: outside the faulted state the bit writer keeps its invariants at every step; so at most
`8*BUFSZ + 63` accepted bits are not delivered. What is held where is the reference's (log entry 7). -/
def Obligations.StepKeepsWriterInvariant : Prop :=
  (∀ s t : State, s.par.ok = true → (s.live → WriterOk s.par.bufsz s.bw) → step s = .next t →
    t.par = s.par ∧ (t.live → WriterOk t.par.bufsz t.bw)) ∧
  ∀ (bufsz : Nat) (w : BitWriter), WriterOk bufsz w → 8 * w.sent ≤ w.count ∧ w.count < 8 * w.sent + 8 * bufsz + 64

/-- R53, R54, R146: outside the faulted state an open bit reader keeps its invariants at every step; so it has fetched what it
has consumed, and at most `BUFSZ + 8` bytes more. In every state, once the SRC port has reported `end` it has for good (R78).
What is held where is the reference's (log entry 7). -/
def Obligations.StepKeepsReaderInvariant : Prop :=
  (∀ s t : State, s.par.ok = true → (s.live → s.br.isOpen = true → ReaderOk s.par.bufsz s.br) → step s = .next t →
    (t.live → t.br.isOpen = true → ReaderOk t.par.bufsz t.br)) ∧
  (∀ s t : State, step s = .next t → s.env.srcEnd = true → t.env.srcEnd = true) ∧
  ∀ (bufsz : Nat) (r : BitReader), ReaderOk bufsz r →
    bytesFor r.count ≤ r.fetched ∧ r.fetched ≤ bytesFor r.count + bufsz + 8

/-- R57, R236: outside the faulted state the coder's interval keeps its invariants at every step. -/
def Obligations.StepKeepsCoderInterval : Prop :=
  ∀ s t : State, (s.live → CoderOk s.be.iv) → step s = .next t → t.live → CoderOk t.be.iv

/-- R84, R85, R71: outside the faulted state the windows the units have latched stay inside the address space at every step;
and while they do every step answers a next state, whatever command is presented and whatever MEM and the ports answer: no
access leaves the address space. -/
def Obligations.LatchedWindowsStayInMemory : Prop :=
  (∀ s t : State, WindowsOk s → step s = .next t → WindowsOk t) ∧
  ∀ s : State, WindowsOk s → ∃ t, step s = .next t
end

