-- ==== Sys2Proof/Laws/State.lean ====
section
/-!
SUPPORT. What every update of the state leaves in every field: one lemma per field per update, true by `rfl`.
-/

namespace Sys2Proof.Machine

variable (s : State)

/-! ### `withEnv` -/

@[simp] theorem State.withEnv_latch (e : Env) : (s.withEnv e).latch = s.latch := rfl
@[simp] theorem State.withEnv_cmdCnt (e : Env) : (s.withEnv e).cmdCnt = s.cmdCnt := rfl
@[simp] theorem State.withEnv_win (e : Env) : (s.withEnv e).win = s.win := rfl
@[simp] theorem State.withEnv_logRange (e : Env) : (s.withEnv e).logRange = s.logRange := rfl
@[simp] theorem State.withEnv_bw (e : Env) : (s.withEnv e).bw = s.bw := rfl
@[simp] theorem State.withEnv_br (e : Env) : (s.withEnv e).br = s.br := rfl
@[simp] theorem State.withEnv_apm (e : Env) : (s.withEnv e).apm = s.apm := rfl
@[simp] theorem State.withEnv_pr (e : Env) : (s.withEnv e).pr = s.pr := rfl
@[simp] theorem State.withEnv_be (e : Env) : (s.withEnv e).be = s.be := rfl
@[simp] theorem State.withEnv_rz (e : Env) : (s.withEnv e).rz = s.rz := rfl
@[simp] theorem State.withEnv_env (e : Env) : (s.withEnv e).env = e := rfl
@[simp] theorem State.withEnv_ext (e : Env) : (s.withEnv e).ext = s.ext := rfl
@[simp] theorem State.withEnv_inbox (e : Env) : (s.withEnv e).inbox = s.inbox := rfl
@[simp] theorem State.withEnv_resp (e : Env) : (s.withEnv e).resp = s.resp := rfl
@[simp] theorem State.withEnv_par (e : Env) : (s.withEnv e).par = s.par := rfl
@[simp] theorem State.withEnv_draws (e : Env) : (s.withEnv e).draws = s.draws := rfl

/-! ### `withBw` -/

@[simp] theorem State.withBw_latch (w : BitWriter) : (s.withBw w).latch = s.latch := rfl
@[simp] theorem State.withBw_cmdCnt (w : BitWriter) : (s.withBw w).cmdCnt = s.cmdCnt := rfl
@[simp] theorem State.withBw_win (w : BitWriter) : (s.withBw w).win = s.win := rfl
@[simp] theorem State.withBw_logRange (w : BitWriter) : (s.withBw w).logRange = s.logRange := rfl
@[simp] theorem State.withBw_bw (w : BitWriter) : (s.withBw w).bw = w := rfl
@[simp] theorem State.withBw_br (w : BitWriter) : (s.withBw w).br = s.br := rfl
@[simp] theorem State.withBw_apm (w : BitWriter) : (s.withBw w).apm = s.apm := rfl
@[simp] theorem State.withBw_pr (w : BitWriter) : (s.withBw w).pr = s.pr := rfl
@[simp] theorem State.withBw_be (w : BitWriter) : (s.withBw w).be = s.be := rfl
@[simp] theorem State.withBw_rz (w : BitWriter) : (s.withBw w).rz = s.rz := rfl
@[simp] theorem State.withBw_env (w : BitWriter) : (s.withBw w).env = s.env := rfl
@[simp] theorem State.withBw_ext (w : BitWriter) : (s.withBw w).ext = s.ext := rfl
@[simp] theorem State.withBw_inbox (w : BitWriter) : (s.withBw w).inbox = s.inbox := rfl
@[simp] theorem State.withBw_resp (w : BitWriter) : (s.withBw w).resp = s.resp := rfl
@[simp] theorem State.withBw_par (w : BitWriter) : (s.withBw w).par = s.par := rfl
@[simp] theorem State.withBw_draws (w : BitWriter) : (s.withBw w).draws = s.draws := rfl

/-! ### `withBr` -/

@[simp] theorem State.withBr_latch (r : BitReader) : (s.withBr r).latch = s.latch := rfl
@[simp] theorem State.withBr_cmdCnt (r : BitReader) : (s.withBr r).cmdCnt = s.cmdCnt := rfl
@[simp] theorem State.withBr_win (r : BitReader) : (s.withBr r).win = s.win := rfl
@[simp] theorem State.withBr_logRange (r : BitReader) : (s.withBr r).logRange = s.logRange := rfl
@[simp] theorem State.withBr_bw (r : BitReader) : (s.withBr r).bw = s.bw := rfl
@[simp] theorem State.withBr_br (r : BitReader) : (s.withBr r).br = r := rfl
@[simp] theorem State.withBr_apm (r : BitReader) : (s.withBr r).apm = s.apm := rfl
@[simp] theorem State.withBr_pr (r : BitReader) : (s.withBr r).pr = s.pr := rfl
@[simp] theorem State.withBr_be (r : BitReader) : (s.withBr r).be = s.be := rfl
@[simp] theorem State.withBr_rz (r : BitReader) : (s.withBr r).rz = s.rz := rfl
@[simp] theorem State.withBr_env (r : BitReader) : (s.withBr r).env = s.env := rfl
@[simp] theorem State.withBr_ext (r : BitReader) : (s.withBr r).ext = s.ext := rfl
@[simp] theorem State.withBr_inbox (r : BitReader) : (s.withBr r).inbox = s.inbox := rfl
@[simp] theorem State.withBr_resp (r : BitReader) : (s.withBr r).resp = s.resp := rfl
@[simp] theorem State.withBr_par (r : BitReader) : (s.withBr r).par = s.par := rfl
@[simp] theorem State.withBr_draws (r : BitReader) : (s.withBr r).draws = s.draws := rfl

/-! ### `withApm` -/

@[simp] theorem State.withApm_latch (a : Vector ApmSlot 16) : (s.withApm a).latch = s.latch := rfl
@[simp] theorem State.withApm_cmdCnt (a : Vector ApmSlot 16) : (s.withApm a).cmdCnt = s.cmdCnt := rfl
@[simp] theorem State.withApm_win (a : Vector ApmSlot 16) : (s.withApm a).win = s.win := rfl
@[simp] theorem State.withApm_logRange (a : Vector ApmSlot 16) : (s.withApm a).logRange = s.logRange := rfl
@[simp] theorem State.withApm_bw (a : Vector ApmSlot 16) : (s.withApm a).bw = s.bw := rfl
@[simp] theorem State.withApm_br (a : Vector ApmSlot 16) : (s.withApm a).br = s.br := rfl
@[simp] theorem State.withApm_apm (a : Vector ApmSlot 16) : (s.withApm a).apm = a := rfl
@[simp] theorem State.withApm_pr (a : Vector ApmSlot 16) : (s.withApm a).pr = s.pr := rfl
@[simp] theorem State.withApm_be (a : Vector ApmSlot 16) : (s.withApm a).be = s.be := rfl
@[simp] theorem State.withApm_rz (a : Vector ApmSlot 16) : (s.withApm a).rz = s.rz := rfl
@[simp] theorem State.withApm_env (a : Vector ApmSlot 16) : (s.withApm a).env = s.env := rfl
@[simp] theorem State.withApm_ext (a : Vector ApmSlot 16) : (s.withApm a).ext = s.ext := rfl
@[simp] theorem State.withApm_inbox (a : Vector ApmSlot 16) : (s.withApm a).inbox = s.inbox := rfl
@[simp] theorem State.withApm_resp (a : Vector ApmSlot 16) : (s.withApm a).resp = s.resp := rfl
@[simp] theorem State.withApm_par (a : Vector ApmSlot 16) : (s.withApm a).par = s.par := rfl
@[simp] theorem State.withApm_draws (a : Vector ApmSlot 16) : (s.withApm a).draws = s.draws := rfl

/-! ### `withPr` -/

@[simp] theorem State.withPr_latch (p : Vector PredSlot 2) : (s.withPr p).latch = s.latch := rfl
@[simp] theorem State.withPr_cmdCnt (p : Vector PredSlot 2) : (s.withPr p).cmdCnt = s.cmdCnt := rfl
@[simp] theorem State.withPr_win (p : Vector PredSlot 2) : (s.withPr p).win = s.win := rfl
@[simp] theorem State.withPr_logRange (p : Vector PredSlot 2) : (s.withPr p).logRange = s.logRange := rfl
@[simp] theorem State.withPr_bw (p : Vector PredSlot 2) : (s.withPr p).bw = s.bw := rfl
@[simp] theorem State.withPr_br (p : Vector PredSlot 2) : (s.withPr p).br = s.br := rfl
@[simp] theorem State.withPr_apm (p : Vector PredSlot 2) : (s.withPr p).apm = s.apm := rfl
@[simp] theorem State.withPr_pr (p : Vector PredSlot 2) : (s.withPr p).pr = p := rfl
@[simp] theorem State.withPr_be (p : Vector PredSlot 2) : (s.withPr p).be = s.be := rfl
@[simp] theorem State.withPr_rz (p : Vector PredSlot 2) : (s.withPr p).rz = s.rz := rfl
@[simp] theorem State.withPr_env (p : Vector PredSlot 2) : (s.withPr p).env = s.env := rfl
@[simp] theorem State.withPr_ext (p : Vector PredSlot 2) : (s.withPr p).ext = s.ext := rfl
@[simp] theorem State.withPr_inbox (p : Vector PredSlot 2) : (s.withPr p).inbox = s.inbox := rfl
@[simp] theorem State.withPr_resp (p : Vector PredSlot 2) : (s.withPr p).resp = s.resp := rfl
@[simp] theorem State.withPr_par (p : Vector PredSlot 2) : (s.withPr p).par = s.par := rfl
@[simp] theorem State.withPr_draws (p : Vector PredSlot 2) : (s.withPr p).draws = s.draws := rfl

/-! ### `withBe` -/

@[simp] theorem State.withBe_latch (b : Coder) : (s.withBe b).latch = s.latch := rfl
@[simp] theorem State.withBe_cmdCnt (b : Coder) : (s.withBe b).cmdCnt = s.cmdCnt := rfl
@[simp] theorem State.withBe_win (b : Coder) : (s.withBe b).win = s.win := rfl
@[simp] theorem State.withBe_logRange (b : Coder) : (s.withBe b).logRange = s.logRange := rfl
@[simp] theorem State.withBe_bw (b : Coder) : (s.withBe b).bw = s.bw := rfl
@[simp] theorem State.withBe_br (b : Coder) : (s.withBe b).br = s.br := rfl
@[simp] theorem State.withBe_apm (b : Coder) : (s.withBe b).apm = s.apm := rfl
@[simp] theorem State.withBe_pr (b : Coder) : (s.withBe b).pr = s.pr := rfl
@[simp] theorem State.withBe_be (b : Coder) : (s.withBe b).be = b := rfl
@[simp] theorem State.withBe_rz (b : Coder) : (s.withBe b).rz = s.rz := rfl
@[simp] theorem State.withBe_env (b : Coder) : (s.withBe b).env = s.env := rfl
@[simp] theorem State.withBe_ext (b : Coder) : (s.withBe b).ext = s.ext := rfl
@[simp] theorem State.withBe_inbox (b : Coder) : (s.withBe b).inbox = s.inbox := rfl
@[simp] theorem State.withBe_resp (b : Coder) : (s.withBe b).resp = s.resp := rfl
@[simp] theorem State.withBe_par (b : Coder) : (s.withBe b).par = s.par := rfl
@[simp] theorem State.withBe_draws (b : Coder) : (s.withBe b).draws = s.draws := rfl

/-! ### `withRz` -/

@[simp] theorem State.withRz_latch (z : Rolz) : (s.withRz z).latch = s.latch := rfl
@[simp] theorem State.withRz_cmdCnt (z : Rolz) : (s.withRz z).cmdCnt = s.cmdCnt := rfl
@[simp] theorem State.withRz_win (z : Rolz) : (s.withRz z).win = s.win := rfl
@[simp] theorem State.withRz_logRange (z : Rolz) : (s.withRz z).logRange = s.logRange := rfl
@[simp] theorem State.withRz_bw (z : Rolz) : (s.withRz z).bw = s.bw := rfl
@[simp] theorem State.withRz_br (z : Rolz) : (s.withRz z).br = s.br := rfl
@[simp] theorem State.withRz_apm (z : Rolz) : (s.withRz z).apm = s.apm := rfl
@[simp] theorem State.withRz_pr (z : Rolz) : (s.withRz z).pr = s.pr := rfl
@[simp] theorem State.withRz_be (z : Rolz) : (s.withRz z).be = s.be := rfl
@[simp] theorem State.withRz_rz (z : Rolz) : (s.withRz z).rz = z := rfl
@[simp] theorem State.withRz_env (z : Rolz) : (s.withRz z).env = s.env := rfl
@[simp] theorem State.withRz_ext (z : Rolz) : (s.withRz z).ext = s.ext := rfl
@[simp] theorem State.withRz_inbox (z : Rolz) : (s.withRz z).inbox = s.inbox := rfl
@[simp] theorem State.withRz_resp (z : Rolz) : (s.withRz z).resp = s.resp := rfl
@[simp] theorem State.withRz_par (z : Rolz) : (s.withRz z).par = s.par := rfl
@[simp] theorem State.withRz_draws (z : Rolz) : (s.withRz z).draws = s.draws := rfl

/-! ### `withExt` -/

@[simp] theorem State.withExt_latch (h : List Bool) : (s.withExt h).latch = s.latch := rfl
@[simp] theorem State.withExt_cmdCnt (h : List Bool) : (s.withExt h).cmdCnt = s.cmdCnt := rfl
@[simp] theorem State.withExt_win (h : List Bool) : (s.withExt h).win = s.win := rfl
@[simp] theorem State.withExt_logRange (h : List Bool) : (s.withExt h).logRange = s.logRange := rfl
@[simp] theorem State.withExt_bw (h : List Bool) : (s.withExt h).bw = s.bw := rfl
@[simp] theorem State.withExt_br (h : List Bool) : (s.withExt h).br = s.br := rfl
@[simp] theorem State.withExt_apm (h : List Bool) : (s.withExt h).apm = s.apm := rfl
@[simp] theorem State.withExt_pr (h : List Bool) : (s.withExt h).pr = s.pr := rfl
@[simp] theorem State.withExt_be (h : List Bool) : (s.withExt h).be = s.be := rfl
@[simp] theorem State.withExt_rz (h : List Bool) : (s.withExt h).rz = s.rz := rfl
@[simp] theorem State.withExt_env (h : List Bool) : (s.withExt h).env = s.env := rfl
@[simp] theorem State.withExt_ext (h : List Bool) : (s.withExt h).ext = h := rfl
@[simp] theorem State.withExt_inbox (h : List Bool) : (s.withExt h).inbox = s.inbox := rfl
@[simp] theorem State.withExt_resp (h : List Bool) : (s.withExt h).resp = s.resp := rfl
@[simp] theorem State.withExt_par (h : List Bool) : (s.withExt h).par = s.par := rfl
@[simp] theorem State.withExt_draws (h : List Bool) : (s.withExt h).draws = s.draws := rfl

/-! ### `withWin` -/

@[simp] theorem State.withWin_latch (w : Windows) : (s.withWin w).latch = s.latch := rfl
@[simp] theorem State.withWin_cmdCnt (w : Windows) : (s.withWin w).cmdCnt = s.cmdCnt := rfl
@[simp] theorem State.withWin_win (w : Windows) : (s.withWin w).win = w := rfl
@[simp] theorem State.withWin_logRange (w : Windows) : (s.withWin w).logRange = s.logRange := rfl
@[simp] theorem State.withWin_bw (w : Windows) : (s.withWin w).bw = s.bw := rfl
@[simp] theorem State.withWin_br (w : Windows) : (s.withWin w).br = s.br := rfl
@[simp] theorem State.withWin_apm (w : Windows) : (s.withWin w).apm = s.apm := rfl
@[simp] theorem State.withWin_pr (w : Windows) : (s.withWin w).pr = s.pr := rfl
@[simp] theorem State.withWin_be (w : Windows) : (s.withWin w).be = s.be := rfl
@[simp] theorem State.withWin_rz (w : Windows) : (s.withWin w).rz = s.rz := rfl
@[simp] theorem State.withWin_env (w : Windows) : (s.withWin w).env = s.env := rfl
@[simp] theorem State.withWin_ext (w : Windows) : (s.withWin w).ext = s.ext := rfl
@[simp] theorem State.withWin_inbox (w : Windows) : (s.withWin w).inbox = s.inbox := rfl
@[simp] theorem State.withWin_resp (w : Windows) : (s.withWin w).resp = s.resp := rfl
@[simp] theorem State.withWin_par (w : Windows) : (s.withWin w).par = s.par := rfl
@[simp] theorem State.withWin_draws (w : Windows) : (s.withWin w).draws = s.draws := rfl

/-! ### `withLogRange` -/

@[simp] theorem State.withLogRange_latch (v : BitVec 5) : (s.withLogRange v).latch = s.latch := rfl
@[simp] theorem State.withLogRange_cmdCnt (v : BitVec 5) : (s.withLogRange v).cmdCnt = s.cmdCnt := rfl
@[simp] theorem State.withLogRange_win (v : BitVec 5) : (s.withLogRange v).win = s.win := rfl
@[simp] theorem State.withLogRange_logRange (v : BitVec 5) : (s.withLogRange v).logRange = v := rfl
@[simp] theorem State.withLogRange_bw (v : BitVec 5) : (s.withLogRange v).bw = s.bw := rfl
@[simp] theorem State.withLogRange_br (v : BitVec 5) : (s.withLogRange v).br = s.br := rfl
@[simp] theorem State.withLogRange_apm (v : BitVec 5) : (s.withLogRange v).apm = s.apm := rfl
@[simp] theorem State.withLogRange_pr (v : BitVec 5) : (s.withLogRange v).pr = s.pr := rfl
@[simp] theorem State.withLogRange_be (v : BitVec 5) : (s.withLogRange v).be = s.be := rfl
@[simp] theorem State.withLogRange_rz (v : BitVec 5) : (s.withLogRange v).rz = s.rz := rfl
@[simp] theorem State.withLogRange_env (v : BitVec 5) : (s.withLogRange v).env = s.env := rfl
@[simp] theorem State.withLogRange_ext (v : BitVec 5) : (s.withLogRange v).ext = s.ext := rfl
@[simp] theorem State.withLogRange_inbox (v : BitVec 5) : (s.withLogRange v).inbox = s.inbox := rfl
@[simp] theorem State.withLogRange_resp (v : BitVec 5) : (s.withLogRange v).resp = s.resp := rfl
@[simp] theorem State.withLogRange_par (v : BitVec 5) : (s.withLogRange v).par = s.par := rfl
@[simp] theorem State.withLogRange_draws (v : BitVec 5) : (s.withLogRange v).draws = s.draws := rfl

/-! ### `withLatch` -/

@[simp] theorem State.withLatch_latch (l : Latch) : (s.withLatch l).latch = l := rfl
@[simp] theorem State.withLatch_cmdCnt (l : Latch) : (s.withLatch l).cmdCnt = s.cmdCnt := rfl
@[simp] theorem State.withLatch_win (l : Latch) : (s.withLatch l).win = s.win := rfl
@[simp] theorem State.withLatch_logRange (l : Latch) : (s.withLatch l).logRange = s.logRange := rfl
@[simp] theorem State.withLatch_bw (l : Latch) : (s.withLatch l).bw = s.bw := rfl
@[simp] theorem State.withLatch_br (l : Latch) : (s.withLatch l).br = s.br := rfl
@[simp] theorem State.withLatch_apm (l : Latch) : (s.withLatch l).apm = s.apm := rfl
@[simp] theorem State.withLatch_pr (l : Latch) : (s.withLatch l).pr = s.pr := rfl
@[simp] theorem State.withLatch_be (l : Latch) : (s.withLatch l).be = s.be := rfl
@[simp] theorem State.withLatch_rz (l : Latch) : (s.withLatch l).rz = s.rz := rfl
@[simp] theorem State.withLatch_env (l : Latch) : (s.withLatch l).env = s.env := rfl
@[simp] theorem State.withLatch_ext (l : Latch) : (s.withLatch l).ext = s.ext := rfl
@[simp] theorem State.withLatch_inbox (l : Latch) : (s.withLatch l).inbox = s.inbox := rfl
@[simp] theorem State.withLatch_resp (l : Latch) : (s.withLatch l).resp = s.resp := rfl
@[simp] theorem State.withLatch_par (l : Latch) : (s.withLatch l).par = s.par := rfl
@[simp] theorem State.withLatch_draws (l : Latch) : (s.withLatch l).draws = s.draws := rfl

/-! ### `withCmdCnt` -/

@[simp] theorem State.withCmdCnt_latch (c : Word) : (s.withCmdCnt c).latch = s.latch := rfl
@[simp] theorem State.withCmdCnt_cmdCnt (c : Word) : (s.withCmdCnt c).cmdCnt = c := rfl
@[simp] theorem State.withCmdCnt_win (c : Word) : (s.withCmdCnt c).win = s.win := rfl
@[simp] theorem State.withCmdCnt_logRange (c : Word) : (s.withCmdCnt c).logRange = s.logRange := rfl
@[simp] theorem State.withCmdCnt_bw (c : Word) : (s.withCmdCnt c).bw = s.bw := rfl
@[simp] theorem State.withCmdCnt_br (c : Word) : (s.withCmdCnt c).br = s.br := rfl
@[simp] theorem State.withCmdCnt_apm (c : Word) : (s.withCmdCnt c).apm = s.apm := rfl
@[simp] theorem State.withCmdCnt_pr (c : Word) : (s.withCmdCnt c).pr = s.pr := rfl
@[simp] theorem State.withCmdCnt_be (c : Word) : (s.withCmdCnt c).be = s.be := rfl
@[simp] theorem State.withCmdCnt_rz (c : Word) : (s.withCmdCnt c).rz = s.rz := rfl
@[simp] theorem State.withCmdCnt_env (c : Word) : (s.withCmdCnt c).env = s.env := rfl
@[simp] theorem State.withCmdCnt_ext (c : Word) : (s.withCmdCnt c).ext = s.ext := rfl
@[simp] theorem State.withCmdCnt_inbox (c : Word) : (s.withCmdCnt c).inbox = s.inbox := rfl
@[simp] theorem State.withCmdCnt_resp (c : Word) : (s.withCmdCnt c).resp = s.resp := rfl
@[simp] theorem State.withCmdCnt_par (c : Word) : (s.withCmdCnt c).par = s.par := rfl
@[simp] theorem State.withCmdCnt_draws (c : Word) : (s.withCmdCnt c).draws = s.draws := rfl

/-! ### `withResp` -/

@[simp] theorem State.withResp_latch (r : Option Response) : (s.withResp r).latch = s.latch := rfl
@[simp] theorem State.withResp_cmdCnt (r : Option Response) : (s.withResp r).cmdCnt = s.cmdCnt := rfl
@[simp] theorem State.withResp_win (r : Option Response) : (s.withResp r).win = s.win := rfl
@[simp] theorem State.withResp_logRange (r : Option Response) : (s.withResp r).logRange = s.logRange := rfl
@[simp] theorem State.withResp_bw (r : Option Response) : (s.withResp r).bw = s.bw := rfl
@[simp] theorem State.withResp_br (r : Option Response) : (s.withResp r).br = s.br := rfl
@[simp] theorem State.withResp_apm (r : Option Response) : (s.withResp r).apm = s.apm := rfl
@[simp] theorem State.withResp_pr (r : Option Response) : (s.withResp r).pr = s.pr := rfl
@[simp] theorem State.withResp_be (r : Option Response) : (s.withResp r).be = s.be := rfl
@[simp] theorem State.withResp_rz (r : Option Response) : (s.withResp r).rz = s.rz := rfl
@[simp] theorem State.withResp_env (r : Option Response) : (s.withResp r).env = s.env := rfl
@[simp] theorem State.withResp_ext (r : Option Response) : (s.withResp r).ext = s.ext := rfl
@[simp] theorem State.withResp_inbox (r : Option Response) : (s.withResp r).inbox = s.inbox := rfl
@[simp] theorem State.withResp_resp (r : Option Response) : (s.withResp r).resp = r := rfl
@[simp] theorem State.withResp_par (r : Option Response) : (s.withResp r).par = s.par := rfl
@[simp] theorem State.withResp_draws (r : Option Response) : (s.withResp r).draws = s.draws := rfl

/-! ### `withInbox` -/

@[simp] theorem State.withInbox_latch (q : List HostInput) : (s.withInbox q).latch = s.latch := rfl
@[simp] theorem State.withInbox_cmdCnt (q : List HostInput) : (s.withInbox q).cmdCnt = s.cmdCnt := rfl
@[simp] theorem State.withInbox_win (q : List HostInput) : (s.withInbox q).win = s.win := rfl
@[simp] theorem State.withInbox_logRange (q : List HostInput) : (s.withInbox q).logRange = s.logRange := rfl
@[simp] theorem State.withInbox_bw (q : List HostInput) : (s.withInbox q).bw = s.bw := rfl
@[simp] theorem State.withInbox_br (q : List HostInput) : (s.withInbox q).br = s.br := rfl
@[simp] theorem State.withInbox_apm (q : List HostInput) : (s.withInbox q).apm = s.apm := rfl
@[simp] theorem State.withInbox_pr (q : List HostInput) : (s.withInbox q).pr = s.pr := rfl
@[simp] theorem State.withInbox_be (q : List HostInput) : (s.withInbox q).be = s.be := rfl
@[simp] theorem State.withInbox_rz (q : List HostInput) : (s.withInbox q).rz = s.rz := rfl
@[simp] theorem State.withInbox_env (q : List HostInput) : (s.withInbox q).env = s.env := rfl
@[simp] theorem State.withInbox_ext (q : List HostInput) : (s.withInbox q).ext = s.ext := rfl
@[simp] theorem State.withInbox_inbox (q : List HostInput) : (s.withInbox q).inbox = q := rfl
@[simp] theorem State.withInbox_resp (q : List HostInput) : (s.withInbox q).resp = s.resp := rfl
@[simp] theorem State.withInbox_par (q : List HostInput) : (s.withInbox q).par = s.par := rfl
@[simp] theorem State.withInbox_draws (q : List HostInput) : (s.withInbox q).draws = s.draws := rfl

/-! ### `drawn` -/

@[simp] theorem State.drawn_latch : (s.drawn).latch = s.latch := rfl
@[simp] theorem State.drawn_cmdCnt : (s.drawn).cmdCnt = s.cmdCnt := rfl
@[simp] theorem State.drawn_win : (s.drawn).win = s.win := rfl
@[simp] theorem State.drawn_logRange : (s.drawn).logRange = s.logRange := rfl
@[simp] theorem State.drawn_bw : (s.drawn).bw = s.bw := rfl
@[simp] theorem State.drawn_br : (s.drawn).br = s.br := rfl
@[simp] theorem State.drawn_apm : (s.drawn).apm = s.apm := rfl
@[simp] theorem State.drawn_pr : (s.drawn).pr = s.pr := rfl
@[simp] theorem State.drawn_be : (s.drawn).be = s.be := rfl
@[simp] theorem State.drawn_rz : (s.drawn).rz = s.rz := rfl
@[simp] theorem State.drawn_env : (s.drawn).env = s.env := rfl
@[simp] theorem State.drawn_ext : (s.drawn).ext = s.ext := rfl
@[simp] theorem State.drawn_inbox : (s.drawn).inbox = s.inbox := rfl
@[simp] theorem State.drawn_resp : (s.drawn).resp = s.resp := rfl
@[simp] theorem State.drawn_par : (s.drawn).par = s.par := rfl
@[simp] theorem State.drawn_draws : (s.drawn).draws = s.draws + 1 := rfl

/-! ### `respond` -/

@[simp] theorem respond_latch (v : Word) : (respond v s).latch = s.latch := rfl
@[simp] theorem respond_cmdCnt (v : Word) : (respond v s).cmdCnt = s.cmdCnt + 1 := rfl
@[simp] theorem respond_win (v : Word) : (respond v s).win = s.win := rfl
@[simp] theorem respond_logRange (v : Word) : (respond v s).logRange = s.logRange := rfl
@[simp] theorem respond_bw (v : Word) : (respond v s).bw = s.bw := rfl
@[simp] theorem respond_br (v : Word) : (respond v s).br = s.br := rfl
@[simp] theorem respond_apm (v : Word) : (respond v s).apm = s.apm := rfl
@[simp] theorem respond_pr (v : Word) : (respond v s).pr = s.pr := rfl
@[simp] theorem respond_be (v : Word) : (respond v s).be = s.be := rfl
@[simp] theorem respond_rz (v : Word) : (respond v s).rz = s.rz := rfl
@[simp] theorem respond_env (v : Word) : (respond v s).env = s.env := rfl
@[simp] theorem respond_ext (v : Word) : (respond v s).ext = s.ext := rfl
@[simp] theorem respond_inbox (v : Word) : (respond v s).inbox = s.inbox := rfl
@[simp] theorem respond_resp (v : Word) : (respond v s).resp = some { code := 0, value := v } := rfl
@[simp] theorem respond_par (v : Word) : (respond v s).par = s.par := rfl
@[simp] theorem respond_draws (v : Word) : (respond v s).draws = s.draws := rfl

/-! ### `takeError` -/

@[simp] theorem takeError_latch (op : Byte) (e : Err) : (takeError op e s).latch = { err := true, code := e.kind.code, info := errInfo op e } := rfl
@[simp] theorem takeError_cmdCnt (op : Byte) (e : Err) : (takeError op e s).cmdCnt = s.cmdCnt := rfl
@[simp] theorem takeError_win (op : Byte) (e : Err) : (takeError op e s).win = s.win := rfl
@[simp] theorem takeError_logRange (op : Byte) (e : Err) : (takeError op e s).logRange = s.logRange := rfl
@[simp] theorem takeError_bw (op : Byte) (e : Err) : (takeError op e s).bw = s.bw := rfl
@[simp] theorem takeError_br (op : Byte) (e : Err) : (takeError op e s).br = s.br := rfl
@[simp] theorem takeError_apm (op : Byte) (e : Err) : (takeError op e s).apm = s.apm := rfl
@[simp] theorem takeError_pr (op : Byte) (e : Err) : (takeError op e s).pr = s.pr := rfl
@[simp] theorem takeError_be (op : Byte) (e : Err) : (takeError op e s).be = s.be := rfl
@[simp] theorem takeError_rz (op : Byte) (e : Err) : (takeError op e s).rz = s.rz := rfl
@[simp] theorem takeError_env (op : Byte) (e : Err) : (takeError op e s).env = s.env := rfl
@[simp] theorem takeError_ext (op : Byte) (e : Err) : (takeError op e s).ext = s.ext := rfl
@[simp] theorem takeError_inbox (op : Byte) (e : Err) : (takeError op e s).inbox = s.inbox := rfl
@[simp] theorem takeError_resp (op : Byte) (e : Err) : (takeError op e s).resp = some { code := e.kind.code, value := errInfo op e } := rfl
@[simp] theorem takeError_par (op : Byte) (e : Err) : (takeError op e s).par = s.par := rfl
@[simp] theorem takeError_draws (op : Byte) (e : Err) : (takeError op e s).draws = s.draws := rfl

/-! ### `refuse` -/

@[simp] theorem refuse_latch : (refuse s).latch = s.latch := rfl
@[simp] theorem refuse_cmdCnt : (refuse s).cmdCnt = s.cmdCnt := rfl
@[simp] theorem refuse_win : (refuse s).win = s.win := rfl
@[simp] theorem refuse_logRange : (refuse s).logRange = s.logRange := rfl
@[simp] theorem refuse_bw : (refuse s).bw = s.bw := rfl
@[simp] theorem refuse_br : (refuse s).br = s.br := rfl
@[simp] theorem refuse_apm : (refuse s).apm = s.apm := rfl
@[simp] theorem refuse_pr : (refuse s).pr = s.pr := rfl
@[simp] theorem refuse_be : (refuse s).be = s.be := rfl
@[simp] theorem refuse_rz : (refuse s).rz = s.rz := rfl
@[simp] theorem refuse_env : (refuse s).env = s.env := rfl
@[simp] theorem refuse_ext : (refuse s).ext = s.ext := rfl
@[simp] theorem refuse_inbox : (refuse s).inbox = s.inbox := rfl
@[simp] theorem refuse_resp : (refuse s).resp = some { code := 0xFF, value := 0 } := rfl
@[simp] theorem refuse_par : (refuse s).par = s.par := rfl
@[simp] theorem refuse_draws : (refuse s).draws = s.draws := rfl

/-! ### `release` -/

@[simp] theorem State.release_latch : (s.release).latch = s.latch := rfl
@[simp] theorem State.release_cmdCnt : (s.release).cmdCnt = s.cmdCnt := rfl
@[simp] theorem State.release_win : (s.release).win = s.win := rfl
@[simp] theorem State.release_logRange : (s.release).logRange = s.logRange := rfl
@[simp] theorem State.release_bw : (s.release).bw = s.bw := rfl
@[simp] theorem State.release_br : (s.release).br = s.br := rfl
@[simp] theorem State.release_apm : (s.release).apm = s.apm := rfl
@[simp] theorem State.release_pr : (s.release).pr = s.pr := rfl
@[simp] theorem State.release_be : (s.release).be = s.be := rfl
@[simp] theorem State.release_rz : (s.release).rz = s.rz := rfl
@[simp] theorem State.release_ext : (s.release).ext = s.ext := rfl
@[simp] theorem State.release_inbox : (s.release).inbox = s.inbox := rfl
@[simp] theorem State.release_resp : (s.release).resp = s.resp := rfl
@[simp] theorem State.release_par : (s.release).par = s.par := rfl
@[simp] theorem State.release_draws : (s.release).draws = s.draws := rfl
@[simp] theorem State.release_env :
    (s.release).env = { s.env with dirtied := s.env.dirtied.filter s.holds } := rfl

/-- With nothing raced on, closing a stream changes nothing more. -/
theorem State.release_of (h : s.env.dirtied = []) : s.release = s := by
  unfold State.release
  rw [h]
  obtain ⟨_, _, _, _, _, _, _, _, _, _, ⟨_, _, _, d, _, _, _, _, _⟩, _, _, _, _, _⟩ := s
  cases h
  rfl

/-! ### `resetUnits` -/

@[simp] theorem State.resetUnits_latch : (s.resetUnits).latch = State.reset.latch := rfl
@[simp] theorem State.resetUnits_cmdCnt : (s.resetUnits).cmdCnt = State.reset.cmdCnt := rfl
@[simp] theorem State.resetUnits_win : (s.resetUnits).win = State.reset.win := rfl
@[simp] theorem State.resetUnits_logRange : (s.resetUnits).logRange = State.reset.logRange := rfl
@[simp] theorem State.resetUnits_bw : (s.resetUnits).bw = State.reset.bw := rfl
@[simp] theorem State.resetUnits_br : (s.resetUnits).br = State.reset.br := rfl
@[simp] theorem State.resetUnits_apm : (s.resetUnits).apm = State.reset.apm := rfl
@[simp] theorem State.resetUnits_pr : (s.resetUnits).pr = State.reset.pr := rfl
@[simp] theorem State.resetUnits_be : (s.resetUnits).be = State.reset.be := rfl
@[simp] theorem State.resetUnits_rz : (s.resetUnits).rz = State.reset.rz := rfl
@[simp] theorem State.resetUnits_env : (s.resetUnits).env = { s.env with dirtied := [] } := rfl
@[simp] theorem State.resetUnits_ext : (s.resetUnits).ext = s.ext := rfl
@[simp] theorem State.resetUnits_inbox : (s.resetUnits).inbox = s.inbox := rfl
@[simp] theorem State.resetUnits_resp : (s.resetUnits).resp = State.reset.resp := rfl
@[simp] theorem State.resetUnits_par : (s.resetUnits).par = s.par := rfl
@[simp] theorem State.resetUnits_draws : (s.resetUnits).draws = s.draws := rfl

end Sys2Proof.Machine
end

