-- ==== Sys2Proof/Laws/Store.lean ====
section
/-!
SUPPORT. The laws of sparse stores and of MEM: a read after a write, and the canonical form.
-/

namespace Sys2Proof.Machine

variable {α : Type}

/-! ### Reading after an update -/

theorem Store.get_erase_same (d : Nat → α) (k : Nat) (l : List (Nat × α)) : Store.get d (Store.erase k l) k = d k := by
  induction l with
  | nil => rfl
  | cons e r ih =>
    obtain ⟨j, v⟩ := e
    by_cases h : j = k <;> simp [Store.erase, Store.get, h, ih]

theorem Store.get_erase_other (d : Nat → α) {k a : Nat} (h : a ≠ k) (l : List (Nat × α)) :
    Store.get d (Store.erase k l) a = Store.get d l a := by
  induction l with
  | nil => rfl
  | cons e r ih =>
    obtain ⟨j, v⟩ := e
    by_cases hj : j = k
    · have : j ≠ a := by omega
      simp [Store.erase, Store.get, hj, ih, Ne.symm h]
    · simp [Store.erase, Store.get, hj, ih]

theorem Store.get_insert_other (d : Nat → α) {k a : Nat} (v : α) (h : a ≠ k) (l : List (Nat × α)) :
    Store.get d (Store.insert k v l) a = Store.get d l a := by
  induction l with
  | nil => simp [Store.insert, Store.get, Ne.symm h]
  | cons e r ih =>
    obtain ⟨j, u⟩ := e
    by_cases hj : k < j
    · simp [Store.insert, Store.get, hj, Ne.symm h]
    · simp [Store.insert, Store.get, hj, ih]

/-- Inserting where the index is not listed. -/
theorem Store.get_insert_same (d : Nat → α) (k : Nat) (v : α) (l : List (Nat × α)) (h : ∀ e ∈ l, e.1 ≠ k) :
    Store.get d (Store.insert k v l) k = v := by
  induction l with
  | nil => simp [Store.insert, Store.get]
  | cons e r ih =>
    obtain ⟨j, u⟩ := e
    have hj : j ≠ k := h (j, u) (by simp)
    by_cases hk : k < j
    · simp [Store.insert, Store.get, hk]
    · simp [Store.insert, Store.get, hk, hj, ih (fun e he => h e (by simp [he]))]

theorem Store.erase_ne (k : Nat) (l : List (Nat × α)) : ∀ e ∈ Store.erase k l, e.1 ≠ k := by
  induction l with
  | nil => simp [Store.erase]
  | cons e r ih =>
    obtain ⟨j, v⟩ := e
    by_cases h : j = k
    · simpa [Store.erase, h] using ih
    · simp [Store.erase, h]
      exact fun a b => ih (a, b)

theorem Store.erase_subset (k : Nat) (l : List (Nat × α)) : ∀ e ∈ Store.erase k l, e ∈ l := by
  induction l with
  | nil => simp [Store.erase]
  | cons e r ih =>
    obtain ⟨j, v⟩ := e
    by_cases h : j = k
    · simp only [Store.erase, h, if_true]
      exact fun x hx => List.mem_cons_of_mem _ (ih x hx)
    · simp only [Store.erase, h, if_false]
      intro x hx
      rcases List.mem_cons.mp hx with rfl | hx
      · exact List.mem_cons_self
      · exact List.mem_cons_of_mem _ (ih x hx)

theorem Store.mem_insert {k : Nat} {v : α} {l : List (Nat × α)} {e : Nat × α} (h : e ∈ Store.insert k v l) :
    e = (k, v) ∨ e ∈ l := by
  induction l with
  | nil => simpa [Store.insert] using h
  | cons x r ih =>
    obtain ⟨j, u⟩ := x
    by_cases hk : k < j
    · simpa [Store.insert, hk] using h
    · simp only [Store.insert, hk, if_false] at h
      rcases List.mem_cons.mp h with rfl | h
      · simp
      · rcases ih h with h | h
        · exact .inl h
        · exact .inr (List.mem_cons_of_mem _ h)

variable [DecidableEq α]

/-- A read at the written index gives the written entry. -/
@[simp] theorem Store.get_set_same (d : Nat → α) (l : List (Nat × α)) (k : Nat) (v : α) :
    Store.get d (Store.set d l k v) k = v := by
  unfold Store.set
  split
  · rename_i h
    rw [Store.get_erase_same, h]
  · exact Store.get_insert_same d k v _ (Store.erase_ne k l)

/-- A write leaves every other index alone. -/
theorem Store.get_set_other (d : Nat → α) (l : List (Nat × α)) {k a : Nat} (v : α) (h : a ≠ k) :
    Store.get d (Store.set d l k v) a = Store.get d l a := by
  unfold Store.set
  split
  · exact Store.get_erase_other d h l
  · rw [Store.get_insert_other d v h, Store.get_erase_other d h]

theorem Store.get_set (d : Nat → α) (l : List (Nat × α)) (k a : Nat) (v : α) :
    Store.get d (Store.set d l k v) a = if a = k then v else Store.get d l a := by
  by_cases h : a = k
  · simp [h]
  · simp [h, Store.get_set_other d l v h]

/-! ### The canonical form -/

omit [DecidableEq α] in
theorem Store.rising_mono {b c : Nat} (h : c ≤ b) : ∀ {l : List (Nat × α)}, Store.rising b l = true → Store.rising c l = true
  | [], _ => rfl
  | (j, _) :: _, hl => by
    simp only [Store.rising, Bool.and_eq_true, decide_eq_true_eq] at hl ⊢
    exact ⟨le_trans h hl.1, hl.2⟩

omit [DecidableEq α] in
theorem Store.rising_erase (k : Nat) : ∀ {l : List (Nat × α)} {b : Nat}, Store.rising b l = true →
    Store.rising b (Store.erase k l) = true
  | [], _, _ => rfl
  | (j, v) :: r, b, h => by
    simp only [Store.rising, Bool.and_eq_true, decide_eq_true_eq] at h
    by_cases hj : j = k
    · simp only [Store.erase, hj, if_true]
      exact Store.rising_mono (by omega) (Store.rising_erase k h.2)
    · simp only [Store.erase, hj, if_false, Store.rising, Bool.and_eq_true, decide_eq_true_eq]
      exact ⟨h.1, Store.rising_erase k h.2⟩

omit [DecidableEq α] in
theorem Store.rising_insert (k : Nat) (v : α) : ∀ {l : List (Nat × α)} {b : Nat}, b ≤ k → Store.rising b l = true →
    (∀ e ∈ l, e.1 ≠ k) → Store.rising b (Store.insert k v l) = true
  | [], b, hb, _, _ => by simp [Store.insert, Store.rising, hb]
  | (j, u) :: r, b, hb, h, hne => by
    simp only [Store.rising, Bool.and_eq_true, decide_eq_true_eq] at h
    have hjk : j ≠ k := hne (j, u) (by simp)
    by_cases hk : k < j
    · simp only [Store.insert, hk, if_true, Store.rising, Bool.and_eq_true, decide_eq_true_eq]
      exact ⟨hb, by omega, h.2⟩
    · simp only [Store.insert, hk, if_false, Store.rising, Bool.and_eq_true, decide_eq_true_eq]
      exact ⟨h.1, Store.rising_insert k v (by omega) h.2 (fun e he => hne e (List.mem_cons_of_mem _ he))⟩

theorem Store.wf_iff (d : Nat → α) (bound : Nat) (l : List (Nat × α)) :
    Store.wf d bound l = true ↔ Store.rising 0 l = true ∧ ∀ e ∈ l, e.1 < bound ∧ e.2 ≠ d e.1 := by
  simp [Store.wf]

/-- Every write below the bound keeps the canonical form. -/
theorem Store.wf_set (d : Nat → α) {bound : Nat} {l : List (Nat × α)} (k : Nat) (v : α) (h : Store.wf d bound l = true)
    (hk : k < bound) : Store.wf d bound (Store.set d l k v) = true := by
  rw [Store.wf_iff] at h ⊢
  have hr := Store.rising_erase k h.1
  unfold Store.set
  split
  · exact ⟨hr, fun e he => h.2 e (Store.erase_subset k l e he)⟩
  · rename_i hv
    refine ⟨Store.rising_insert k v (Nat.zero_le k) hr (Store.erase_ne k l), fun e he => ?_⟩
    rcases Store.mem_insert he with rfl | he
    · exact ⟨hk, hv⟩
    · exact h.2 e (Store.erase_subset k l e he)

/-! ### MEM -/

@[simp] theorem Memory.read_write_same (m : List (Nat × Byte)) (a : Nat) (b : Byte) :
    Memory.read (Memory.write m a b) a = b := Store.get_set_same _ _ _ _

theorem Memory.read_write_other (m : List (Nat × Byte)) {a c : Nat} (b : Byte) (h : c ≠ a) :
    Memory.read (Memory.write m a b) c = Memory.read m c := Store.get_set_other _ _ _ h

theorem Memory.read_write (m : List (Nat × Byte)) (a c : Nat) (b : Byte) :
    Memory.read (Memory.write m a b) c = if c = a then b else Memory.read m c := Store.get_set _ _ _ _ _

/-- Every write at an address of MEM keeps the canonical form. -/
theorem Memory.wf_write {m : List (Nat × Byte)} (a : Nat) (b : Byte) (h : Memory.wf m = true) (ha : a < 2 ^ 32) :
    Memory.wf (Memory.write m a b) = true := Store.wf_set _ a b h ha

end Sys2Proof.Machine
end

