-- ==== Sys2Proof/Laws/Cmd.lean ====
section
/-!
SUPPORT. How a rule runs: what each way of composing pieces of a rule can answer, a compositional frame relation
(`Keeps`), and what `command` can answer.
-/

namespace Sys2Proof.Machine

variable {σ τ α β : Type}

/-! ### The pieces -/

@[simp] theorem Cmd.pure_run (a : α) (s : σ) : (pure a : Cmd σ α) s = .ok a s := rfl

theorem Cmd.bind_run (x : Cmd σ α) (f : α → Cmd σ β) (s : σ) :
    (x >>= f) s = match x s with | .ok a t => f a t | .error e t => .error e t := by
  show EStateM.bind x f s = _
  unfold EStateM.bind
  cases x s <;> rfl

/-- A sequence answers a value when both parts do. -/
theorem Cmd.bind_eq_ok {x : Cmd σ α} {f : α → Cmd σ β} {s u : σ} {b : β} :
    (x >>= f) s = .ok b u ↔ ∃ a t, x s = .ok a t ∧ f a t = .ok b u := by
  rw [Cmd.bind_run]
  cases h : x s <;> simp

/-- A sequence ends early when its first part does, or its second part after it. -/
theorem Cmd.bind_eq_error {x : Cmd σ α} {f : α → Cmd σ β} {s u : σ} {e : Abort} :
    (x >>= f) s = .error e u ↔ x s = .error e u ∨ ∃ a t, x s = .ok a t ∧ f a t = .error e u := by
  rw [Cmd.bind_run]
  cases h : x s <;> simp

theorem Cmd.bind_of_ok {x : Cmd σ α} (f : α → Cmd σ β) {s t : σ} {a : α} (h : x s = .ok a t) : (x >>= f) s = f a t := by
  rw [Cmd.bind_run, h]

theorem Cmd.bind_of_error {x : Cmd σ α} (f : α → Cmd σ β) {s t : σ} {e : Abort} (h : x s = .error e t) :
    (x >>= f) s = .error e t := by
  rw [Cmd.bind_run, h]

@[simp] theorem Cmd.get_run (s : σ) : (get : Cmd σ σ) s = .ok s s := rfl
@[simp] theorem Cmd.set_run (t s : σ) : (set t : Cmd σ PUnit) s = .ok ⟨⟩ t := rfl
@[simp] theorem Cmd.modify_run (f : σ → σ) (s : σ) : (modify f : Cmd σ PUnit) s = .ok ⟨⟩ (f s) := rfl

@[simp] theorem Cmd.get_bind (f : σ → Cmd σ β) (s : σ) : ((get : Cmd σ σ) >>= f) s = f s s := rfl
@[simp] theorem Cmd.set_bind (t : σ) (f : PUnit → Cmd σ β) (s : σ) : ((set t : Cmd σ PUnit) >>= f) s = f ⟨⟩ t := rfl
@[simp] theorem Cmd.modify_bind (g : σ → σ) (f : PUnit → Cmd σ β) (s : σ) :
    ((modify g : Cmd σ PUnit) >>= f) s = f ⟨⟩ (g s) := rfl
@[simp] theorem Cmd.pure_bind (a : α) (f : α → Cmd σ β) (s : σ) : ((pure a : Cmd σ α) >>= f) s = f a s := rfl
theorem Cmd.bind_assoc (x : Cmd σ α) (f : α → Cmd σ β) {γ : Type} (g : β → Cmd σ γ) :
    (x >>= f) >>= g = x >>= fun a => f a >>= g := by
  funext s
  simp only [Cmd.bind_run]
  cases x s <;> rfl

/-- The error a check raises. -/
def errOf (kind : ErrKind) (sub : Byte) (detail : Nat) (mid : Bool) : Err :=
  { kind := kind, sub := sub, detail := BitVec.ofNat 48 detail, mid := mid }

@[simp] theorem raise_run (kind : ErrKind) (sub : Byte) (detail : Nat) (s : σ) :
    (raise kind sub detail : Cmd σ α) s = .error (.raise (errOf kind sub detail false)) s := rfl

@[simp] theorem raiseMid_run (kind : ErrKind) (sub : Byte) (detail : Nat) (s : σ) :
    (raiseMid kind sub detail : Cmd σ α) s = .error (.raise (errOf kind sub detail true)) s := rfl

@[simp] theorem check_run (bad : Bool) (kind : ErrKind) (sub : Byte) (detail : Nat) (s : σ) :
    (check bad kind sub detail : Cmd σ Unit) s =
      if bad then .error (.raise (errOf kind sub detail false)) s else .ok () s := by
  cases bad <;> rfl

@[simp] theorem checkMid_run (bad : Bool) (kind : ErrKind) (sub : Byte) (detail : Nat) (s : σ) :
    (checkMid bad kind sub detail : Cmd σ Unit) s =
      if bad then .error (.raise (errOf kind sub detail true)) s else .ok () s := by
  cases bad <;> rfl

/-- A check, then the rest of the rule. -/
@[simp] theorem check_bind (bad : Bool) (kind : ErrKind) (sub : Byte) (detail : Nat) (f : Unit → Cmd σ β) (s : σ) :
    (check bad kind sub detail >>= f) s =
      if bad then .error (.raise (errOf kind sub detail false)) s else f () s := by
  cases bad <;> rfl

@[simp] theorem checkMid_bind (bad : Bool) (kind : ErrKind) (sub : Byte) (detail : Nat) (f : Unit → Cmd σ β) (s : σ) :
    (checkMid bad kind sub detail >>= f) s =
      if bad then .error (.raise (errOf kind sub detail true)) s else f () s := by
  cases bad <;> rfl

/-- The rest of a command answers a value when it does. -/
theorem midway_eq_ok {x : Cmd σ α} {s t : σ} {a : α} : midway x s = .ok a t ↔ x s = .ok a t := by
  unfold midway
  cases x s <;> simp

theorem midway_eq_error {x : Cmd σ α} {s t : σ} {e : Abort} :
    midway x s = .error e t ↔ ∃ e0, x s = .error e0 t ∧ e = e0.inMidst := by
  unfold midway
  cases x s <;> simp [eq_comm, and_comm]

/-- A piece whose checks leave no trace answers a value when it does. -/
theorem reverting_eq_ok {f : σ → σ} {x : Cmd σ α} {s t : σ} {a : α} : reverting f x s = .ok a t ↔ x s = .ok a t := by
  unfold reverting
  cases h : x s with
  | ok a t => simp
  | error e t => cases e <;> simp

/-- It ends early where the piece does: on a failed check in the state before it, else in the state the piece reached. -/
theorem reverting_eq_error {f : σ → σ} {x : Cmd σ α} {s t : σ} {e : Abort} :
    reverting f x s = .error e t ↔
      ∃ u, x s = .error e u ∧ t = (match e with | .raise r => if r.mid then u else f s | .fault _ => u) := by
  unfold reverting
  cases h : x s with
  | ok a u => simp
  | error e u =>
    cases e <;> simp only [EStateM.Result.error.injEq] <;> constructor
    all_goals first
      | (rintro ⟨h1, h2⟩; exact ⟨u, ⟨h1, rfl⟩, by rw [← h2, ← h1]⟩)
      | (rintro ⟨v, ⟨h1, rfl⟩, h2⟩; exact ⟨h1, by rw [h2, ← h1]⟩)

theorem reverting_of_ok {f : σ → σ} {x : Cmd σ α} {s t : σ} {a : α} (h : x s = .ok a t) : reverting f x s = .ok a t :=
  reverting_eq_ok.mpr h

theorem reverting_of_check {f : σ → σ} {x : Cmd σ α} {s t : σ} {kind : ErrKind} {sub : Byte} {detail : Nat}
    (h : x s = .error (.raise (errOf kind sub detail false)) t) :
    reverting f x s = .error (.raise (errOf kind sub detail false)) (f s) := by
  unfold reverting
  rw [h]
  rfl

/-- A piece over a part of the state answers what it answers on the part, and leaves the rest as it was. -/
theorem zoom_eq_ok {part : σ → τ} {put : τ → σ → σ} {x : Cmd τ α} {s u : σ} {a : α} :
    zoom part put x s = .ok a u ↔ ∃ t, x (part s) = .ok a t ∧ u = put t s := by
  unfold zoom
  cases x (part s) <;> simp [eq_comm, and_comm]

theorem zoom_eq_error {part : σ → τ} {put : τ → σ → σ} {x : Cmd τ α} {s u : σ} {e : Abort} :
    zoom part put x s = .error e u ↔ ∃ t, x (part s) = .error e t ∧ u = put t s := by
  unfold zoom
  cases x (part s) <;> simp [eq_comm, and_comm]

theorem zoom_of_ok {part : σ → τ} {put : τ → σ → σ} {x : Cmd τ α} {s : σ} {t : τ} {a : α} (h : x (part s) = .ok a t) :
    zoom part put x s = .ok a (put t s) := zoom_eq_ok.mpr ⟨t, h, rfl⟩

theorem zoom_of_error {part : σ → τ} {put : τ → σ → σ} {x : Cmd τ α} {s : σ} {t : τ} {e : Abort}
    (h : x (part s) = .error e t) : zoom part put x s = .error e (put t s) := zoom_eq_error.mpr ⟨t, h, rfl⟩

/-! ### Frames: a relation between the state before and the state after, whether or not the piece ends early -/

/-- The state a piece of a rule ends with. -/
def Cmd.final (x : Cmd σ α) (s : σ) : σ :=
  match x s with
  | .ok _ t => t
  | .error _ t => t

/-- Every run of `x` relates its first and last state by `R`. -/
def Cmd.Keeps (R : σ → σ → Prop) (x : Cmd σ α) : Prop := ∀ s, R s (x.final s)

variable {R : σ → σ → Prop}

theorem Cmd.Keeps.of_ok {x : Cmd σ α} (h : x.Keeps R) {s t : σ} {a : α} (hx : x s = .ok a t) : R s t := by
  have := h s
  rwa [Cmd.final, hx] at this

theorem Cmd.Keeps.of_error {x : Cmd σ α} (h : x.Keeps R) {s t : σ} {e : Abort} (hx : x s = .error e t) : R s t := by
  have := h s
  rwa [Cmd.final, hx] at this

/-- A piece keeps a relation that its values and its early ends keep. -/
theorem Cmd.Keeps.intro {x : Cmd σ α} (hok : ∀ s a t, x s = .ok a t → R s t) (herr : ∀ s e t, x s = .error e t → R s t) :
    x.Keeps R := by
  intro s
  unfold Cmd.final
  cases h : x s with
  | ok a t => exact hok s a t h
  | error e t => exact herr s e t h

theorem Cmd.Keeps.pure (hr : ∀ s, R s s) (a : α) : (Pure.pure a : Cmd σ α).Keeps R := fun s => hr s
theorem Cmd.Keeps.get (hr : ∀ s, R s s) : (MonadState.get : Cmd σ σ).Keeps R := fun s => hr s
theorem Cmd.Keeps.of_modify {f : σ → σ} (h : ∀ s, R s (f s)) : (modify f : Cmd σ PUnit).Keeps R := fun s => h s
theorem Cmd.Keeps.of_set {t : σ} (h : ∀ s, R s t) : (set t : Cmd σ PUnit).Keeps R := fun s => h s
theorem Cmd.Keeps.raise (hr : ∀ s, R s s) (k : ErrKind) (b : Byte) (d : Nat) :
    (Machine.raise k b d : Cmd σ α).Keeps R := fun s => hr s
theorem Cmd.Keeps.raiseMid (hr : ∀ s, R s s) (k : ErrKind) (b : Byte) (d : Nat) :
    (Machine.raiseMid k b d : Cmd σ α).Keeps R := fun s => hr s

theorem Cmd.Keeps.check (hr : ∀ s, R s s) (c : Bool) (k : ErrKind) (b : Byte) (d : Nat) :
    (Machine.check c k b d : Cmd σ Unit).Keeps R := by
  cases c <;> exact fun s => hr s

theorem Cmd.Keeps.checkMid (hr : ∀ s, R s s) (c : Bool) (k : ErrKind) (b : Byte) (d : Nat) :
    (Machine.checkMid c k b d : Cmd σ Unit).Keeps R := by
  cases c <;> exact fun s => hr s

theorem Cmd.Keeps.bind (ht : ∀ a b c, R a b → R b c → R a c) {x : Cmd σ α} {f : α → Cmd σ β} (hx : x.Keeps R)
    (hf : ∀ a, (f a).Keeps R) : (x >>= f).Keeps R := by
  refine Cmd.Keeps.intro (fun s b u h => ?_) (fun s e u h => ?_)
  · obtain ⟨a, t, h1, h2⟩ := Cmd.bind_eq_ok.mp h
    exact ht _ _ _ (hx.of_ok h1) ((hf a).of_ok h2)
  · rcases Cmd.bind_eq_error.mp h with h1 | ⟨a, t, h1, h2⟩
    · exact hx.of_error h1
    · exact ht _ _ _ (hx.of_ok h1) ((hf a).of_error h2)

/-- A piece that reads the state first: the rest may use what it read of this very state. -/
theorem Cmd.Keeps.get_bind {f : σ → Cmd σ β} (hf : ∀ s, R s ((f s).final s)) : ((MonadState.get : Cmd σ σ) >>= f).Keeps R :=
  fun s => hf s

/-- A piece that reads the state first keeps the relation when every run of the rest does, from the state it read. -/
theorem Cmd.Keeps.at_bind (ht : ∀ a b c, R a b → R b c → R a c) {x : Cmd σ α} {f : α → Cmd σ β} {s : σ}
    (hx : R s (x.final s)) (hf : ∀ a t, x s = .ok a t → R t ((f a).final t)) : R s ((x >>= f).final s) := by
  unfold Cmd.final at hx ⊢
  rw [Cmd.bind_run]
  cases h : x s with
  | ok a t =>
    rw [h] at hx
    exact ht _ _ _ hx (by simpa [Cmd.final] using hf a t h)
  | error e t =>
    rw [h] at hx
    exact hx

theorem Cmd.Keeps.ite {c : Prop} [Decidable c] {x y : Cmd σ α} (hx : c → x.Keeps R) (hy : ¬c → y.Keeps R) :
    (if c then x else y).Keeps R := by
  split
  · exact hx ‹_›
  · exact hy ‹_›

theorem Cmd.Keeps.midway {x : Cmd σ α} (h : x.Keeps R) : (Machine.midway x).Keeps R := by
  refine Cmd.Keeps.intro (fun s a t hx => h.of_ok (midway_eq_ok.mp hx)) (fun s e t hx => ?_)
  obtain ⟨e0, h0, -⟩ := midway_eq_error.mp hx
  exact h.of_error h0

theorem Cmd.Keeps.reverting {f : σ → σ} {x : Cmd σ α} (h : x.Keeps R) (hf : ∀ s, R s (f s)) :
    (Machine.reverting f x).Keeps R := by
  refine Cmd.Keeps.intro (fun s a t hx => h.of_ok (reverting_eq_ok.mp hx)) (fun s e t hx => ?_)
  obtain ⟨u, hu, rfl⟩ := reverting_eq_error.mp hx
  cases e with
  | fault g => exact h.of_error hu
  | raise r =>
    simp only
    split
    · exact h.of_error hu
    · exact hf s

theorem Cmd.Keeps.zoom {Q : τ → τ → Prop} {part : σ → τ} {put : τ → σ → σ} {x : Cmd τ α} (h : x.Keeps Q)
    (hp : ∀ s t, Q (part s) t → R s (put t s)) : (Machine.zoom part put x).Keeps R := by
  refine Cmd.Keeps.intro (fun s a u hx => ?_) (fun s e u hx => ?_)
  · obtain ⟨t, h1, rfl⟩ := zoom_eq_ok.mp hx
    exact hp s t (h.of_ok h1)
  · obtain ⟨t, h1, rfl⟩ := zoom_eq_error.mp hx
    exact hp s t (h.of_error h1)

theorem Cmd.Keeps.mono {Q : σ → σ → Prop} {x : Cmd σ α} (h : x.Keeps R) (hq : ∀ {s t}, R s t → Q s t) : x.Keeps Q :=
  fun s => hq (h s)

/-- The rest of a rule after a check may use that the check passed. -/
theorem Cmd.Keeps.check_then (hr : ∀ s, R s s) {c : Bool} {k : ErrKind} {b : Byte} {d : Nat} {f : Unit → Cmd σ β}
    (hf : c = false → (f ()).Keeps R) : (Machine.check c k b d >>= f).Keeps R := by
  cases c with
  | true => exact fun s => hr s
  | false => exact hf rfl

theorem Cmd.Keeps.checkMid_then (hr : ∀ s, R s s) {c : Bool} {k : ErrKind} {b : Byte} {d : Nat} {f : Unit → Cmd σ β}
    (hf : c = false → (f ()).Keeps R) : (Machine.checkMid c k b d >>= f).Keeps R := by
  cases c with
  | true => exact fun s => hr s
  | false => exact hf rfl

/-! ### A command -/

/-- A faulted KZE refuses. -/
theorem command_faulted (op : Byte) (spoil : State → State) (body : Cmd State Word) {s : State} (h : s.latch.err = true) :
    command op spoil body s = .next (refuse s) := by
  simp [command, h]

/-- Outside the faulted state a rule that answers a value completes the command. -/
theorem command_of_ok {op : Byte} {spoil : State → State} {body : Cmd State Word} {s t : State} {v : Word}
    (h : s.latch.err = false) (hb : body s = .ok v t) : command op spoil body s = .next (respond v t) := by
  simp [command, h, hb]

/-- Outside the faulted state a rule that raises takes its error. -/
theorem command_of_raise {op : Byte} {spoil : State → State} {body : Cmd State Word} {s t : State} {e : Err}
    (h : s.latch.err = false) (hb : body s = .error (.raise e) t) :
    command op spoil body s = .next (takeError op e (if e.mid then (spoil t).drawn else t)) := by
  simp [command, h, hb]

/-- Everything a command can answer. -/
theorem command_cases {op : Byte} {spoil : State → State} {body : Cmd State Word} {s : State}
    {r : Host.Outcome State Fault Refusal} (h : command op spoil body s = r) :
    (s.latch.err = true ∧ r = .next (refuse s)) ∨
    (s.latch.err = false ∧ ∃ v t, body s = .ok v t ∧ r = .next (respond v t)) ∨
    (s.latch.err = false ∧ ∃ e t, body s = .error (.raise e) t ∧
      r = .next (takeError op e (if e.mid then (spoil t).drawn else t))) ∨
    (s.latch.err = false ∧ ∃ f t, body s = .error (.fault f) t ∧ r = .fault f) := by
  subst h
  cases he : s.latch.err with
  | true => exact .inl ⟨rfl, command_faulted op spoil body he⟩
  | false =>
    right
    cases hb : body s with
    | ok v t => exact .inl ⟨rfl, v, t, rfl, command_of_ok he hb⟩
    | error a t =>
      cases a with
      | raise e => exact .inr (.inl ⟨rfl, e, t, rfl, command_of_raise he hb⟩)
      | fault f => exact .inr (.inr ⟨rfl, f, t, rfl, by simp [command, he, hb]⟩)

/-- A property that the response, taking an error and a draw do not disturb, and the rule and the spoiling keep, relates
every state to the next one. -/
theorem command_keeps {op : Byte} {spoil : State → State} {body : Cmd State Word} {R : State → State → Prop}
    (hrefl : ∀ s, R s (refuse s)) (hbody : body.Keeps R) (hrespond : ∀ s t v, R s t → R s (respond v t))
    (htake : ∀ s t op e, R s t → R s (takeError op e t)) (hdraw : ∀ s t, R s t → R s t.drawn)
    (hspoil : ∀ s t, R s t → R s (spoil t)) {s u : State} (h : command op spoil body s = .next u) : R s u := by
  rcases command_cases h with ⟨-, hr⟩ | ⟨-, v, t, hb, hr⟩ | ⟨-, e, t, hb, hr⟩ | ⟨-, f, t, -, hr⟩
  · cases hr; exact hrefl s
  · cases hr; exact hrespond s t v (hbody.of_ok hb)
  · cases hr
    have ht := hbody.of_error hb
    cases e.mid with
    | true => exact htake s _ op e (hdraw s _ (hspoil s t ht))
    | false => exact htake s t op e ht
  · cases hr

end Sys2Proof.Machine
end

