-- ==== Sys2Proof/Laws/Predictor.lean ====
section
/-!
SUPPORT. What the predictors can do, seen from the whole state: `predGet` answers `State.prob`, `predUpdate` gives
`State.predUpdated`, or they raise before anything changes.
-/

namespace Sys2Proof.Machine

/-- Everything `predGet` can do. -/
theorem onPreds_predGet (i : Fin 2) (s : State) :
    onPreds (predGet i) s =
      if s.pr[i].kind = .none then .error (.raise (errOf .invalidParameter 3 0 false)) s else .ok (s.prob i) s := by
  unfold onPreds zoom predGet State.prob
  simp only [Cmd.get_bind]
  cases h : s.pr[i].kind <;> rfl

theorem onPreds_predGet_of {i : Fin 2} {s : State} (h : s.pr[i].kind ≠ .none) :
    onPreds (predGet i) s = .ok (s.prob i) s := by
  rw [onPreds_predGet, if_neg h]

/-! ### An update, by the kind of the slot -/

variable {s : State} {i : Fin 2}

theorem State.predUpdated_fixed (h : s.pr[i].kind = .fixed) (bit : Bool) : s.predUpdated i bit = s := by
  simp only [State.predUpdated, h]

theorem State.predUpdated_local (h : s.pr[i].kind = .localModel) (bit : Bool) :
    s.predUpdated i bit = s.withPr (s.pr.set i { s.pr[i] with model := s.pr[i].model.update bit }) := by
  simp only [State.predUpdated, h, State.withPr]

theorem State.predUpdated_refined (h : s.pr[i].kind = .refined) (bit : Bool) :
    s.predUpdated i bit =
      let m := s.pr[i].model.update bit
      let x := s.apm[s.pr[i].apmslot.toFin].get bit m.get m.c1
      (s.withPr (s.pr.set i { s.pr[i] with model := m, latched := x.1 })).withApm (s.apm.set s.pr[i].apmslot.toFin x.2) := by
  simp only [State.predUpdated, h, State.withPr, State.withApm]

theorem State.predUpdated_external (h : s.pr[i].kind = .external) (bit : Bool) :
    s.predUpdated i bit = s.withExt (bit :: s.ext) := by
  simp only [State.predUpdated, h, State.withExt]

theorem State.predUpdated_none (h : s.pr[i].kind = .none) (bit : Bool) : s.predUpdated i bit = s := by
  simp only [State.predUpdated, h]

/-- An update of a slot that can take it. -/
theorem onPreds_predUpdate_of (h : s.predReady i) (bit : Bool) :
    onPreds (predUpdate i bit) s = .ok () (s.predUpdated i bit) := by
  obtain ⟨h0, h1⟩ := h
  unfold onPreds zoom predUpdate
  simp only [Cmd.get_bind]
  cases hk : s.pr[i].kind with
  | none => exact absurd hk h0
  | fixed => rw [State.predUpdated_fixed hk]; rfl
  | localModel => rw [State.predUpdated_local hk]; simp only [Cmd.set_run, State.withPr, State.withApm, State.withExt, hk]
  | external => rw [State.predUpdated_external hk]; rfl
  | refined =>
    obtain ⟨hv, hn⟩ := h1 hk
    have hbad : (!s.apm[apmIdx s.pr[i].apmslot].valid ||
        decide (s.apm[apmIdx s.pr[i].apmslot].n < s.pr[i].model.size)) = false := by
      simp only [Bool.or_eq_false_iff, Bool.not_eq_false', decide_eq_false_iff_not, Nat.not_lt]
      exact ⟨hv, hn⟩
    rw [State.predUpdated_refined hk]
    unfold refinedUpdate
    simp only [Cmd.get_bind, hbad, check_bind, Bool.false_eq_true, if_false, Cmd.set_run, hk]
    rfl

/-- An update of a slot that cannot take it raises before anything changes. -/
theorem onPreds_predUpdate_not (h : ¬s.predReady i) (bit : Bool) :
    onPreds (predUpdate i bit) s = .error (.raise (errOf .invalidParameter 3 0 false)) s := by
  unfold onPreds zoom predUpdate
  simp only [Cmd.get_bind]
  cases hk : s.pr[i].kind with
  | none => rfl
  | fixed => exact absurd ⟨by rw [hk]; simp, fun h => by rw [hk] at h; cases h⟩ h
  | localModel => exact absurd ⟨by rw [hk]; simp, fun h => by rw [hk] at h; cases h⟩ h
  | external => exact absurd ⟨by rw [hk]; simp, fun h => by rw [hk] at h; cases h⟩ h
  | refined =>
    have hbad : (!s.apm[apmIdx s.pr[i].apmslot].valid ||
        decide (s.apm[apmIdx s.pr[i].apmslot].n < s.pr[i].model.size)) = true := by
      by_contra hc
      simp only [Bool.or_eq_true, Bool.not_eq_true', decide_eq_true_eq, not_or, Bool.not_eq_false, Nat.not_lt] at hc
      exact h ⟨by rw [hk]; simp, fun _ => hc⟩
    unfold refinedUpdate
    simp only [Cmd.get_bind, hbad, check_bind, if_true]
    rfl

/-! ### What an update leaves alone -/

@[simp] theorem LocalModel.update_size (m : LocalModel) (bit : Bool) : (m.update bit).size = m.size := rfl
@[simp] theorem LocalModel.update_logSize (m : LocalModel) (bit : Bool) : (m.update bit).logSize = m.logSize := rfl
@[simp] theorem LocalModel.update_ctx (m : LocalModel) (bit : Bool) : (m.update bit).ctx = m.ctx := rfl

/-- An APM slot after a `get`: only its table changed. -/
theorem ApmSlot.get_slot (a : ApmSlot) (bit : Bool) (pr : Prob12) (ctx : Nat) :
    (a.get bit pr ctx).2 = { a with data := (a.get bit pr ctx).2.data } := by
  unfold ApmSlot.get
  cases hv : a.variant <;> simp only [ApmSlot.update, ApmSlot.setEntry, hv]

/-- An update touches the predictors only. -/
theorem State.predUpdated_frame (s : State) (i : Fin 2) (bit : Bool) :
    s.predUpdated i bit = { s with
      pr := (s.predUpdated i bit).pr, apm := (s.predUpdated i bit).apm, ext := (s.predUpdated i bit).ext } := by
  cases hk : s.pr[i].kind with
  | none => rw [State.predUpdated_none hk]
  | fixed => rw [State.predUpdated_fixed hk]
  | localModel => rw [State.predUpdated_local hk]; rfl
  | refined => rw [State.predUpdated_refined hk]; rfl
  | external => rw [State.predUpdated_external hk]; rfl

/-- An update leaves the coder, the streams and the rest of the state alone. -/
theorem State.predUpdated_fields (s : State) (i : Fin 2) (bit : Bool) :
    (s.predUpdated i bit).be = s.be ∧ (s.predUpdated i bit).bw = s.bw ∧ (s.predUpdated i bit).br = s.br ∧
      (s.predUpdated i bit).env = s.env ∧ (s.predUpdated i bit).par = s.par ∧ (s.predUpdated i bit).latch = s.latch := by
  rw [State.predUpdated_frame]
  exact ⟨rfl, rfl, rfl, rfl, rfl, rfl⟩

/-- An update keeps its own slot usable. -/
theorem State.predReady_predUpdated (h : s.predReady i) (bit : Bool) : (s.predUpdated i bit).predReady i := by
  obtain ⟨h0, h1⟩ := h
  cases hk : s.pr[i].kind with
  | none => exact absurd hk h0
  | fixed => rw [State.predUpdated_fixed hk]; exact ⟨h0, h1⟩
  | external => rw [State.predUpdated_external hk]; exact ⟨h0, h1⟩
  | localModel =>
    rw [State.predUpdated_local hk]
    unfold State.predReady
    simp only [State.withPr, Fin.getElem_fin, Vector.getElem_set_self] at hk h0 h1 ⊢
    exact ⟨h0, h1⟩
  | refined =>
    obtain ⟨h2, h3⟩ := h1 hk
    rw [State.predUpdated_refined hk]
    unfold State.predReady
    simp only
    rw [ApmSlot.get_slot]
    simp only [State.withPr, State.withApm, Fin.getElem_fin, Vector.getElem_set_self] at h2 h3 hk ⊢
    exact ⟨by rw [hk]; simp, fun _ => ⟨h2, h3⟩⟩

end Sys2Proof.Machine
end

