-- ==== Sys2Proof/Laws/Bits.lean ====
section
/-!
SUPPORT. Bit sequences and their bytes: `bitsOf`, `pack`, `bytesBits`.
-/

namespace Sys2Proof.Machine

/-! ### `bitsOf` -/

@[simp] theorem bitsOf_length (v : Word) (n : Nat) : (bitsOf v n).length = n := by
  induction n with
  | zero => rfl
  | succ n ih => simp [bitsOf, ih]

/-- Bit `i` of the sequence is bit `n - 1 - i` of the value. -/
theorem bitsOf_getElem (v : Word) {n i : Nat} (h : i < (bitsOf v n).length) :
    (bitsOf v n)[i] = v.getLsbD (n - 1 - i) := by
  induction n generalizing i with
  | zero => simp at h
  | succ n ih =>
    cases i with
    | zero => simp [bitsOf]
    | succ i =>
      simp only [bitsOf, List.getElem_cons_succ]
      rw [ih]
      congr 1
      omega

/-- Two sequences of `n` bits are equal when the values agree on their low `n` bits. -/
theorem bitsOf_congr {v w : Word} : ∀ {n : Nat}, (∀ i < n, v.getLsbD i = w.getLsbD i) → bitsOf v n = bitsOf w n
  | 0, _ => rfl
  | n + 1, h => by
    rw [bitsOf, bitsOf, h n (Nat.lt_succ_self n), bitsOf_congr fun i hi => h i (Nat.lt_succ_of_lt hi)]

/-- The bits of a value above its low `n` bits, then those. -/
theorem bitsOf_add (v : Word) (n : Nat) : ∀ m, bitsOf v (m + n) = bitsOf (v >>> n) m ++ bitsOf v n
  | 0 => by simp [bitsOf]
  | m + 1 => by
    rw [Nat.succ_add, bitsOf, bitsOf_add v n m, bitsOf, List.cons_append, BitVec.getLsbD_ushiftRight, Nat.add_comm n m]

/-! ### `pack` -/

theorem packFrom_append (a b : List Bool) {acc c : Nat} (hc : c < 8) (h0 : c = 0 → acc = 0) (h : (c + a.length) % 8 = 0) :
    packFrom acc c (a ++ b) = packFrom acc c a ++ pack b := by
  induction a generalizing acc c with
  | nil =>
    have : c = 0 := by simp at h; omega
    subst this
    simp [packFrom, pack, h0 rfl]
  | cons x r ih =>
    rw [List.length_cons] at h
    by_cases h7 : c = 7
    · simp only [List.cons_append, packFrom, h7, if_true]
      rw [ih (by omega) (fun _ => rfl) (by omega)]
    · simp only [List.cons_append, packFrom, h7, if_false]
      rw [ih (by omega) (fun h => absurd h (Nat.succ_ne_zero c)) (by omega)]

/-- Whole bytes pack on their own. -/
theorem pack_append {a : List Bool} (b : List Bool) (h : a.length % 8 = 0) : pack (a ++ b) = pack a ++ pack b :=
  packFrom_append a b (by omega) (fun _ => rfl) (by omega)

theorem packFrom_length (l : List Bool) {acc c : Nat} (hc : c < 8) : (packFrom acc c l).length = bytesFor (c + l.length) := by
  induction l generalizing acc c with
  | nil =>
    unfold packFrom bytesFor
    split <;> simp <;> omega
  | cons x r ih =>
    rw [List.length_cons]
    by_cases h7 : c = 7
    · simp only [packFrom, h7, if_true, List.length_cons]
      rw [ih (by omega)]
      unfold bytesFor
      omega
    · simp only [packFrom, h7, if_false]
      rw [ih (by omega)]
      congr 1
      omega

@[simp] theorem pack_length (l : List Bool) : (pack l).length = bytesFor l.length := by
  rw [pack, packFrom_length l (by omega), Nat.zero_add]

/-- A byte is the packing of its bits. -/
theorem pack_byte : ∀ b : Byte, pack (bitsOf (b.setWidth 64) 8) = [b] := by decide +kernel

/-- The first bytes of a packing are the packing of the first bits. -/
theorem pack_take {l : List Bool} {k : Nat} (h : 8 * k ≤ l.length) : (pack l).take k = pack (l.take (8 * k)) := by
  have hl : (l.take (8 * k)).length = 8 * k := by rw [List.length_take]; omega
  have hp : (pack (l.take (8 * k))).length = k := by rw [pack_length, hl, bytesFor]; omega
  conv_lhs => rw [← List.take_append_drop (8 * k) l]
  rw [pack_append _ (by omega), List.take_append_of_le_length (by omega), List.take_of_length_le (by omega)]

/-- The bytes of a word, most significant first, are the packing of its 64 bits. -/
theorem pack_word (w : Word) : pack (bitsOf w 64) = beBytes w := by
  have byte : ∀ k, bitsOf (w >>> k) 8 = bitsOf ((w.extractLsb' k 8).setWidth 64) 8 := fun k =>
    bitsOf_congr fun i hi => by
      simp only [BitVec.getLsbD_ushiftRight, BitVec.getLsbD_setWidth, BitVec.getLsbD_extractLsb']
      simp [hi, show i < 64 by omega]
  have chunk : ∀ n, pack (bitsOf w (8 + n)) = w.extractLsb' n 8 :: pack (bitsOf w n) := fun n => by
    rw [bitsOf_add, pack_append _ (by simp), byte, pack_byte]
    rfl
  show pack (bitsOf w (8 + (8 + (8 + (8 + (8 + (8 + (8 + (8 + 0))))))))) = beBytes w
  rw [chunk, chunk, chunk, chunk, chunk, chunk, chunk, chunk]
  rfl

/-- Zeros after a sequence leave the bytes of its packing in front. -/
theorem packFrom_zeros : ∀ (r : List Bool) (acc c n : Nat), c < 8 →
    (packFrom acc c (r ++ List.replicate n false)).take (packFrom acc c r).length = packFrom acc c r := by
  intro r
  induction r with
  | nil =>
    intro acc c n hc
    by_cases h0 : c = 0
    · simp [packFrom, h0]
    · induction n generalizing acc c with
      | zero => simp [List.take_of_length_le]
      | succ n ih =>
        simp only [packFrom, h0, if_false, List.length_singleton, List.nil_append, List.replicate_succ] at ih ⊢
        by_cases h7 : c = 7
        · simp [h7]
        · simp only [h7, if_false]
          have := ih (acc * 2) (c + 1) (by omega) (by omega)
          rw [if_neg (by omega)] at this
          simp only [Bool.toNat_false, Nat.add_zero] at this ⊢
          rw [List.length_singleton] at this
          rw [this, Nat.mul_assoc, ← Nat.pow_succ', show (8 - (c + 1)).succ = 8 - c by omega]
  | cons x r ih =>
    intro acc c n hc
    by_cases h7 : c = 7
    · simp only [List.cons_append, packFrom, h7, if_true, List.length_cons, List.take_succ_cons]
      rw [ih _ _ _ (by omega)]
    · simp only [List.cons_append, packFrom, h7, if_false]
      exact ih _ _ _ (by omega)

theorem pack_zeros (l : List Bool) (n : Nat) : (pack (l ++ List.replicate n false)).take (pack l).length = pack l :=
  packFrom_zeros l 0 0 n (by omega)

/-- Padding a sequence to whole bytes does not change its bytes. -/
theorem pack_padded (l : List Bool) : pack (l ++ List.replicate ((8 - l.length % 8) % 8) false) = pack l := by
  have h := pack_zeros l ((8 - l.length % 8) % 8)
  rwa [List.take_of_length_le] at h
  rw [pack_length, pack_length, List.length_append, List.length_replicate]
  unfold bytesFor
  omega

/-! ### `bytesBits` -/

@[simp] theorem bytesBits_nil : bytesBits [] = [] := rfl

theorem bytesBits_cons (b : Byte) (l : List Byte) : bytesBits (b :: l) = bitsOf (b.setWidth 64) 8 ++ bytesBits l := rfl

theorem bytesBits_append (a b : List Byte) : bytesBits (a ++ b) = bytesBits a ++ bytesBits b := List.flatMap_append ..

@[simp] theorem bytesBits_length (l : List Byte) : (bytesBits l).length = 8 * l.length := by
  induction l with
  | nil => rfl
  | cons b r ih => rw [bytesBits_cons, List.length_append, bitsOf_length, ih, List.length_cons]; omega

/-- Packing the bits of bytes gives the bytes. -/
theorem pack_bytesBits (l : List Byte) : pack (bytesBits l) = l := by
  induction l with
  | nil => rfl
  | cons b r ih => rw [bytesBits_cons, pack_append _ (by simp), pack_byte, ih]; rfl

/-! ### `bitsNat` -/

theorem bitsNat_cons (b : Bool) (l : List Bool) : bitsNat (b :: l) = b.toNat * 2 ^ l.length + bitsNat l := by
  have gen : ∀ (l : List Bool) (acc : Nat),
      l.foldl (fun acc b => 2 * acc + b.toNat) acc = acc * 2 ^ l.length + bitsNat l := by
    intro l
    induction l with
    | nil => intro acc; simp [bitsNat]
    | cons x r ih =>
      intro acc
      simp only [bitsNat, List.foldl_cons, List.length_cons]
      rw [ih, ih (2 * 0 + x.toNat), Nat.pow_succ]
      ring
  rw [bitsNat, List.foldl_cons, gen]
  simp

theorem bitsNat_append (a b : List Bool) : bitsNat (a ++ b) = bitsNat a * 2 ^ b.length + bitsNat b := by
  induction a with
  | nil => simp [bitsNat]
  | cons x r ih =>
    rw [List.cons_append, bitsNat_cons, bitsNat_cons, ih, List.length_append, Nat.pow_add]
    ring

theorem bitsNat_lt (l : List Bool) : bitsNat l < 2 ^ l.length := by
  induction l with
  | nil => simp [bitsNat]
  | cons x r ih =>
    rw [bitsNat_cons, List.length_cons, Nat.pow_succ]
    cases x <;> simp <;> omega

/-- The number the low `n` bits of a value write. -/
theorem bitsNat_bitsOf (v : Word) : ∀ n, bitsNat (bitsOf v n) = v.toNat % 2 ^ n
  | 0 => by simp [bitsOf, bitsNat, Nat.mod_one]
  | n + 1 => by
    rw [bitsOf, bitsNat_cons, bitsNat_bitsOf v n, bitsOf_length, BitVec.getLsbD, Nat.mod_pow_succ, Nat.toNat_testBit]
    ring

end Sys2Proof.Machine
end

