-- ==== Sys2Proof/Laws/Mem.lean ====
section
/-!
SUPPORT. What the accesses to MEM can do, and the frame of a rule on MEM: the canonical form stays and only named addresses
change.
-/

namespace Sys2Proof.Machine

variable {U : Type}

/-! ### One access -/

/-- An access goes through at an address of MEM that the port answers. -/
theorem Env.access_eq_ok {e : Env} {a : Nat} {x : Unit} : e.access a = .ok x ↔ a < 2 ^ 32 ∧ e.busFails a = false := by
  unfold Env.access Config.memSize
  split
  · simp; omega
  · split
    · simp_all
    · simp_all

theorem Env.busFails_nil {e : Env} (h : e.busErr = []) (a : Nat) : e.busFails a = false := by simp [Env.busFails, h]

theorem Env.isRaced_nil {e : Env} (h : e.raced = [] ∧ e.dirtied = []) (a : Nat) : e.isRaced a = false := by
  simp [Env.isRaced, h.1, h.2]

theorem Env.access_of {e : Env} {a : Nat} (h : e.busErr = []) (ha : a < 2 ^ 32) : e.access a = .ok () :=
  Env.access_eq_ok.mpr ⟨ha, Env.busFails_nil h a⟩

/-- Everything `memRead` can do: it answers the byte, or at a raced address an arbitrary one. -/
theorem memRead_eq_ok {a : Nat} {t u : U × Env} {b : Byte} :
    memRead a t = .ok b u ↔ (a < 2 ^ 32 ∧ t.2.busFails a = false) ∧
      ((t.2.isRaced a = false ∧ b = Memory.read t.2.mem a ∧ u = t) ∨
        (t.2.isRaced a = true ∧ b = Config.freeByte t.2.drawn ∧ u = (t.1, t.2.draw))) := by
  rw [← Env.access_eq_ok (x := ())]
  unfold memRead freeByte
  cases h : t.2.access a <;> cases hr : t.2.isRaced a <;> simp [eq_comm]

theorem memRead_eq_error {a : Nat} {t u : U × Env} {x : Abort} :
    memRead a t = .error x u ↔ t.2.access a = .error x ∧ u = t := by
  unfold memRead freeByte
  cases h : t.2.access a <;> cases hr : t.2.isRaced a <;> simp [eq_comm]

theorem memRead_of {a : Nat} {t : U × Env} (h : t.2.quiet) (ha : a < 2 ^ 32) :
    memRead a t = .ok (Memory.read t.2.mem a) t :=
  memRead_eq_ok.mpr ⟨⟨ha, Env.busFails_nil h.1 a⟩, .inl ⟨Env.isRaced_nil h.2 a, rfl, rfl⟩⟩

/-- Everything `memWrite` can do. -/
theorem memWrite_eq_ok {a : Nat} {v : Byte} {t u : U × Env} :
    memWrite a v t = .ok () u ↔
      (a < 2 ^ 32 ∧ t.2.busFails a = false) ∧ u = (t.1, { t.2 with mem := Memory.write t.2.mem a v }) := by
  rw [← Env.access_eq_ok (x := ())]
  unfold memWrite
  cases h : t.2.access a <;> simp [eq_comm]

theorem memWrite_eq_error {a : Nat} {v : Byte} {t u : U × Env} {x : Abort} :
    memWrite a v t = .error x u ↔ t.2.access a = .error x ∧ u = t := by
  unfold memWrite
  cases h : t.2.access a <;> simp [eq_comm]

theorem memWrite_of {a : Nat} {v : Byte} {t : U × Env} (h : t.2.busErr = []) (ha : a < 2 ^ 32) :
    memWrite a v t = .ok () (t.1, { t.2 with mem := Memory.write t.2.mem a v }) :=
  memWrite_eq_ok.mpr ⟨⟨ha, Env.busFails_nil h a⟩, rfl⟩

/-! ### Runs of accesses -/

theorem memBytes_succ (m : List Host.Cell) (a n : Nat) : memBytes m a (n + 1) = Memory.read m a :: memBytes m (a + 1) n := by
  simp only [memBytes, List.range_succ_eq_map, List.map_cons, List.map_map]
  refine congrArg₂ List.cons rfl (List.map_congr_left fun i _ => ?_)
  show Memory.read m (a + (i + 1)) = Memory.read m (a + 1 + i)
  rw [Nat.add_assoc, Nat.add_comm 1 i]

@[simp] theorem memBytes_length (m : List Host.Cell) (a n : Nat) : (memBytes m a n).length = n := by simp [memBytes]

/-- `memReadBytes` reads the bytes of MEM and changes nothing. -/
theorem memReadBytes_of {t : U × Env} (h : t.2.quiet) :
    ∀ {n a : Nat}, a + n ≤ 2 ^ 32 → memReadBytes a n t = .ok (memBytes t.2.mem a n) t
  | 0, _, _ => rfl
  | n + 1, a, ha => by
    rw [memReadBytes, Cmd.bind_of_ok _ (memRead_of h (by omega)), Cmd.bind_of_ok _ (memReadBytes_of h (by omega))]
    rw [memBytes_succ]
    rfl

/-- The bytes of MEM from an address on, the last one apart. -/
theorem memBytes_succ_last (m : List Host.Cell) (a n : Nat) :
    memBytes m a (n + 1) = memBytes m a n ++ [Memory.read m (a + n)] := by
  simp [memBytes, List.range_succ]

/-- `memReadDown` reads the same bytes as `memReadBytes`, and changes nothing. -/
theorem memReadDown_of {t : U × Env} (h : t.2.quiet) :
    ∀ {n a : Nat} (after : List Byte), a + n ≤ 2 ^ 32 → memReadDown a n after t = .ok (memBytes t.2.mem a n ++ after) t
  | 0, _, _, _ => rfl
  | n + 1, a, after, ha => by
    rw [memReadDown, Cmd.bind_of_ok _ (memRead_of h (by omega)), memReadDown_of h _ (by omega), memBytes_succ_last,
      List.append_assoc]
    rfl

/-- MEM after a list of bytes is stored from an address on. -/
def Memory.writeAll (m : List Host.Cell) (a : Nat) : List Byte → List Host.Cell
  | [] => m
  | b :: r => Memory.writeAll (Memory.write m a b) (a + 1) r

theorem Memory.read_writeAll (l : List Byte) (m : List Host.Cell) (a c : Nat) :
    Memory.read (Memory.writeAll m a l) c = if a ≤ c ∧ c < a + l.length then l.getD (c - a) 0 else Memory.read m c := by
  induction l generalizing m a with
  | nil =>
    rw [if_neg (by simp)]
    rfl
  | cons b r ih =>
    simp only [Memory.writeAll, ih, Memory.read_write, List.length_cons]
    by_cases h1 : a + 1 ≤ c ∧ c < a + 1 + r.length
    · have : c - a = (c - (a + 1)) + 1 := by omega
      rw [if_pos h1, if_pos (by omega), this]
      rfl
    · by_cases h2 : c = a
      · subst h2
        rw [if_neg h1, if_pos rfl, if_pos (by omega), Nat.sub_self]
        rfl
      · rw [if_neg h1, if_neg h2, if_neg (by omega)]

theorem memWriteBytes_of (l : List Byte) {a : Nat} {t : U × Env} (h : t.2.busErr = []) (ha : a + l.length ≤ 2 ^ 32) :
    memWriteBytes a l t = .ok () (t.1, { t.2 with mem := Memory.writeAll t.2.mem a l }) := by
  induction l generalizing a t with
  | nil => rfl
  | cons b r ih =>
    rw [List.length_cons] at ha
    rw [memWriteBytes, Cmd.bind_of_ok _ (memWrite_of h (by omega)), ih (by exact h) (by omega)]
    rfl

/-! ### The frame on MEM -/

/-- From one MEM to another the canonical form stays, and only addresses of `P` change. -/
def Memory.Within (P : Nat → Prop) (m m' : List Host.Cell) : Prop :=
  (Memory.wf m = true → Memory.wf m' = true) ∧ ∀ a, ¬P a → Memory.read m' a = Memory.read m a

variable {P Q : Nat → Prop}

@[simp] theorem Memory.Within.refl (m : List Host.Cell) : Memory.Within P m m := ⟨id, fun _ _ => rfl⟩

theorem Memory.Within.trans {m1 m2 m3 : List Host.Cell} (h : Memory.Within P m1 m2) (h' : Memory.Within P m2 m3) :
    Memory.Within P m1 m3 := ⟨h'.1 ∘ h.1, fun a ha => (h'.2 a ha).trans (h.2 a ha)⟩

theorem Memory.Within.mono {m m' : List Host.Cell} (h : Memory.Within P m m') (hpq : ∀ a, P a → Q a) :
    Memory.Within Q m m' := ⟨h.1, fun a ha => h.2 a (fun hp => ha (hpq a hp))⟩

theorem Memory.Within.write (m : List Host.Cell) {a : Nat} (b : Byte) (ha : a < 2 ^ 32) (hp : P a) :
    Memory.Within P m (Memory.write m a b) :=
  ⟨fun h => Memory.wf_write a b h ha, fun _ hc => Memory.read_write_other m b (fun he => hc (he ▸ hp))⟩

/-- The host's side with only MEM changed, within `P`, and arbitrary bytes read. -/
def Env.Within (P : Nat → Prop) (e e' : Env) : Prop :=
  e' = { e with mem := e'.mem, drawn := e'.drawn } ∧ Memory.Within P e.mem e'.mem

@[simp] theorem Env.Within.refl (e : Env) : Env.Within P e e := ⟨rfl, Memory.Within.refl _⟩

theorem Env.Within.trans {e1 e2 e3 : Env} (h : Env.Within P e1 e2) (h' : Env.Within P e2 e3) : Env.Within P e1 e3 := by
  refine ⟨?_, h.2.trans h'.2⟩
  rw [h'.1, h.1]

/-- A relation that lets arbitrary bytes be read, and else nothing happen. -/
def LetsDraw (R : U × Env → U × Env → Prop) : Prop := ∀ t d, R t (t.1, { t.2 with drawn := d })

theorem LetsDraw.refl {R : U × Env → U × Env → Prop} (h : LetsDraw R) (t : U × Env) : R t t := h t t.2.drawn

/-- An arbitrary byte changes the counter of such bytes only. -/
theorem freeByte_keeps {R : U × Env → U × Env → Prop} (hd : LetsDraw R) : (freeByte : Cmd (U × Env) Byte).Keeps R :=
  fun t => hd t (t.2.drawn + 1)

/-- Reading changes nothing but the counter of arbitrary bytes. -/
theorem memRead_keeps {R : U × Env → U × Env → Prop} (hd : LetsDraw R) (a : Nat) : (memRead a).Keeps R :=
  Cmd.Keeps.intro
    (fun s _ t h => by
      obtain ⟨-, ⟨-, -, rfl⟩ | ⟨-, -, rfl⟩⟩ := memRead_eq_ok.mp h
      · exact hd.refl t
      · exact hd s _)
    (fun s _ t h => by rw [(memRead_eq_error.mp h).2]; exact hd.refl s)

theorem memReadBytes_keeps {R : U × Env → U × Env → Prop} (hd : LetsDraw R) (ht : ∀ a b c, R a b → R b c → R a c) :
    ∀ (n a : Nat), (memReadBytes a n).Keeps R
  | 0, _ => Cmd.Keeps.pure hd.refl _
  | n + 1, a =>
    Cmd.Keeps.bind ht (memRead_keeps hd a) fun _ =>
      Cmd.Keeps.bind ht (memReadBytes_keeps hd ht n (a + 1)) fun _ => Cmd.Keeps.pure hd.refl _

theorem memReadDown_keeps {R : U × Env → U × Env → Prop} (hd : LetsDraw R) (ht : ∀ a b c, R a b → R b c → R a c) (a : Nat) :
    ∀ (n : Nat) (after : List Byte), (memReadDown a n after).Keeps R
  | 0, _ => Cmd.Keeps.pure hd.refl _
  | n + 1, _ => Cmd.Keeps.bind ht (memRead_keeps hd _) fun _ => memReadDown_keeps hd ht a n _

theorem memReadBE4_keeps {R : U × Env → U × Env → Prop} (hd : LetsDraw R) (ht : ∀ a b c, R a b → R b c → R a c)
    (a : Nat) : (memReadBE4 a).Keeps R :=
  Cmd.Keeps.bind ht (memRead_keeps hd _) fun _ => Cmd.Keeps.bind ht (memRead_keeps hd _) fun _ =>
    Cmd.Keeps.bind ht (memRead_keeps hd _) fun _ => Cmd.Keeps.bind ht (memRead_keeps hd _) fun _ =>
      Cmd.Keeps.pure hd.refl _

/-- The frame of a piece of a rule that uses MEM: its own part may change, the host's side only in MEM within `P`. -/
def OnlyMem (P : Nat → Prop) (t u : U × Env) : Prop := Env.Within P t.2 u.2

theorem OnlyMem.refl (t : U × Env) : OnlyMem P t t := Env.Within.refl t.2
theorem OnlyMem.draws : LetsDraw (OnlyMem P : U × Env → U × Env → Prop) := fun _ _ => ⟨rfl, Memory.Within.refl _⟩
theorem OnlyMem.trans (a b c : U × Env) (h : OnlyMem P a b) (h' : OnlyMem P b c) : OnlyMem P a c := Env.Within.trans h h'

/-- A write changes its address only. -/
theorem memWrite_keeps {a : Nat} (v : Byte) (hp : P a) : (memWrite a v : Cmd (U × Env) Unit).Keeps (OnlyMem P) :=
  Cmd.Keeps.intro
    (fun s _ t h => by
      obtain ⟨⟨ha, -⟩, rfl⟩ := memWrite_eq_ok.mp h
      exact ⟨rfl, Memory.Within.write _ v ha hp⟩)
    (fun s _ t h => by rw [(memWrite_eq_error.mp h).2]; exact Env.Within.refl _)

theorem memWriteBytes_keeps (l : List Byte) {a : Nat} (hp : ∀ c, a ≤ c → c < a + l.length → P c) :
    (memWriteBytes a l : Cmd (U × Env) Unit).Keeps (OnlyMem P) := by
  induction l generalizing a with
  | nil => exact Cmd.Keeps.pure OnlyMem.refl _
  | cons b r ih =>
    rw [List.length_cons] at hp
    exact Cmd.Keeps.bind OnlyMem.trans (memWrite_keeps b (hp a (le_refl a) (by omega)))
      fun _ => ih fun c h1 h2 => hp c (by omega) (by omega)

/-- Bytes left unspecified are those of their window. -/
theorem unspecBytes_within (draw base : Nat) : ∀ (n : Nat) (m : List Host.Cell),
    Memory.Within (fun a => base ≤ a ∧ a < base + n) m (unspecBytes draw base n m)
  | 0, m => Memory.Within.refl m
  | n + 1, m => by
    rw [unspecBytes]
    refine Memory.Within.trans ?_ ((unspecBytes_within draw base n _).mono fun a h => ⟨h.1, by omega⟩)
    split
    · exact Memory.Within.write m _ (by assumption) ⟨by omega, by omega⟩
    · exact Memory.Within.refl m

/-- A window left unspecified: the rest of MEM, the ports and every unit stay. -/
theorem State.spoilWindow_env (base len : BitVec 32) (s : State) :
    Env.Within (inWindow base len) s.env (s.spoilWindow base len).env :=
  ⟨rfl, unspecBytes_within _ _ _ _⟩

theorem State.spoilWindow_eq (base len : BitVec 32) (s : State) :
    s.spoilWindow base len = s.withEnv (s.spoilWindow base len).env := rfl

/-! ### A command abandoned -/

/-- A read of MEM when a command has come to an address. -/
theorem Memory.read_cut (n : Nat) (m m' : List Host.Cell) (a : Nat) :
    Memory.read (Memory.cut n m m') a = if a < n then Memory.read m' a else Memory.read m a := by
  have low : ∀ r : List Host.Cell, a < n →
      Store.get Memory.blank (m'.filter (fun c => decide (c.1 < n)) ++ r) a = Store.get Memory.blank (m' ++ r) a := by
    intro r h
    induction m' with
    | nil => rfl
    | cons c l ih =>
      obtain ⟨j, v⟩ := c
      by_cases hj : j < n
      · simp only [List.filter_cons, hj, decide_true, if_true, List.cons_append, Store.get, ih]
      · simp only [List.filter_cons, hj, decide_false, Bool.false_eq_true, if_false, List.cons_append, Store.get, ih,
          show j ≠ a by omega]
  have none : ∀ l : List Host.Cell, (∀ c ∈ l, c.1 ≠ a) → ∀ r : List Host.Cell,
      Store.get Memory.blank (l ++ r) a = Store.get Memory.blank r a := by
    intro l hl r
    induction l with
    | nil => rfl
    | cons c l ih =>
      rw [List.cons_append, Store.get, if_neg (hl c List.mem_cons_self), ih fun c hc => hl c (List.mem_cons_of_mem _ hc)]
  have high : n ≤ a → Store.get Memory.blank (m.filter (fun c => decide (n ≤ c.1))) a = Store.get Memory.blank m a := by
    intro h
    induction m with
    | nil => rfl
    | cons c l ih =>
      obtain ⟨j, v⟩ := c
      by_cases hj : n ≤ j
      · simp only [List.filter_cons, hj, decide_true, if_true, Store.get, ih]
      · simp only [List.filter_cons, hj, decide_false, Bool.false_eq_true, if_false, Store.get, ih, show j ≠ a by omega]
  have tail : a < n → ∀ l : List Host.Cell,
      Store.get Memory.blank (l ++ m.filter (fun c => decide (n ≤ c.1))) a = Store.get Memory.blank l a := by
    intro h l
    induction l with
    | nil =>
      have := none (m.filter (fun c => decide (n ≤ c.1)))
        (fun c hc => by have := (List.mem_filter.mp hc).2; simp at this; omega) []
      rw [List.append_nil] at this
      exact this
    | cons c l ih =>
      obtain ⟨j, v⟩ := c
      simp only [List.cons_append, Store.get, ih]
  unfold Memory.read Memory.cut
  by_cases h : a < n
  · rw [if_pos h, low _ h, tail h]
  · rw [if_neg h, none _ (fun c hc => by have := (List.mem_filter.mp hc).2; simp at this; omega), high (by omega)]

/-- MEM when a command has come to an address has the canonical form. -/
theorem Memory.wf_cut (n : Nat) {m m' : List Host.Cell} (h : Memory.wf m = true) (h' : Memory.wf m' = true) :
    Memory.wf (Memory.cut n m m') = true := by
  have filter : ∀ (p : Host.Cell → Bool) (l : List Host.Cell) (b : Nat), Store.rising b l = true →
      Store.rising b (l.filter p) = true := by
    intro p l
    induction l with
    | nil => intro b _; rfl
    | cons c l ih =>
      obtain ⟨j, v⟩ := c
      intro b hb
      simp only [Store.rising, Bool.and_eq_true, decide_eq_true_eq] at hb
      rw [List.filter_cons]
      split
      · simp only [Store.rising, Bool.and_eq_true, decide_eq_true_eq]
        exact ⟨hb.1, ih _ hb.2⟩
      · exact ih _ (Store.rising_mono (by omega) hb.2)
  have high : ∀ (l : List Host.Cell) (b : Nat), Store.rising b l = true → (∀ c ∈ l, n ≤ c.1) → Store.rising n l = true := by
    intro l b hb hl
    cases l with
    | nil => rfl
    | cons c l =>
      obtain ⟨j, v⟩ := c
      simp only [Store.rising, Bool.and_eq_true, decide_eq_true_eq] at hb ⊢
      exact ⟨hl _ List.mem_cons_self, hb.2⟩
  have join : ∀ (l r : List Host.Cell) (b : Nat), b ≤ n → Store.rising b l = true → (∀ c ∈ l, c.1 < n) →
      Store.rising n r = true → Store.rising b (l ++ r) = true := by
    intro l r
    induction l with
    | nil => intro b hb _ _ hr; exact Store.rising_mono hb hr
    | cons c l ih =>
      obtain ⟨j, v⟩ := c
      intro b hb hl hn hr
      simp only [List.cons_append, Store.rising, Bool.and_eq_true, decide_eq_true_eq] at hl ⊢
      have := hn (j, v) List.mem_cons_self
      exact ⟨hl.1, ih _ this hl.2 (fun c hc => hn c (List.mem_cons_of_mem _ hc)) hr⟩
  unfold Memory.wf at h h' ⊢
  rw [Store.wf_iff] at h h' ⊢
  refine ⟨join _ _ 0 (Nat.zero_le n) (filter _ _ _ h'.1) (fun c hc => by have := (List.mem_filter.mp hc).2; simpa using this)
    (high _ 0 (filter _ _ _ h.1) fun c hc => by have := (List.mem_filter.mp hc).2; simpa using this), fun c hc => ?_⟩
  unfold Memory.cut at hc
  rcases List.mem_append.mp hc with hc | hc
  · exact h'.2 c (List.mem_filter.mp hc).1
  · exact h.2 c (List.mem_filter.mp hc).1

/-- MEM right after reset has the canonical form. -/
theorem Memory.wf_reset : Memory.wf State.reset.env.mem = true := rfl

end Sys2Proof.Machine
end

