-- ==== Sys2Proof/Laws/Reader.lean ====
section
/-!
SUPPORT. What the bit reader's operations can do: their frame, and what a read does when nothing fails.
-/

namespace Sys2Proof.Machine

/-! ### The frame -/

/-- The frame of every piece of a rule over the reader: what it is bound to stays, and of the host's side only the SRC port
changes, and arbitrary bytes may be read. -/
structure ReaderFrame (t u : BitReader × Env) : Prop where
  isOpen : u.1.isOpen = t.1.isOpen
  kind : u.1.kind = t.1.kind
  base : u.1.base = t.1.base
  len : u.1.len = t.1.len
  env : Env.OnlyRead t.2 u.2

theorem Env.OnlyRead.refl (e : Env) : Env.OnlyRead e e := ⟨rfl, id⟩

theorem Env.OnlyRead.trans {e1 e2 e3 : Env} (h : Env.OnlyRead e1 e2) (h' : Env.OnlyRead e2 e3) : Env.OnlyRead e1 e3 :=
  ⟨by rw [h'.1, h.1], h'.2 ∘ h.2⟩

theorem ReaderFrame.refl (t : BitReader × Env) : ReaderFrame t t := ⟨rfl, rfl, rfl, rfl, Env.OnlyRead.refl _⟩

theorem ReaderFrame.trans (a b c : BitReader × Env) (h : ReaderFrame a b) (h' : ReaderFrame b c) : ReaderFrame a c where
  isOpen := h'.isOpen.trans h.isOpen
  kind := h'.kind.trans h.kind
  base := h'.base.trans h.base
  len := h'.len.trans h.len
  env := h.env.trans h'.env

/-- Everything `srcGet` can do. -/
theorem srcGet_run (r : BitReader) (e : Env) :
    srcGet (r, e) =
      match r.kind with
      | .port =>
        if e.srcEnd then .ok none (r, e)
        else
          match e.src with
          | [] => .ok none (r, { e with srcEnd := true })
          | .byte b :: rest => .ok (some b) ({ r with fetched := r.fetched + 1 }, { e with src := rest })
          | .failure :: rest => .error (.raise (errOf .ioError 2 0 true)) (r, { e with src := rest })
      | .window =>
        if r.fetched < r.len.toNat then
          match e.access (r.base.toNat + r.fetched) with
          | .ok _ =>
            if e.isRaced (r.base.toNat + r.fetched) then
              .ok (some (Config.freeByte e.drawn)) ({ r with fetched := r.fetched + 1 }, e.draw)
            else .ok (some (Memory.read e.mem (r.base.toNat + r.fetched))) ({ r with fetched := r.fetched + 1 }, e)
          | .error x => .error x (r, e)
        else .ok none (r, e) := by
  unfold srcGet
  rw [Cmd.get_bind]
  obtain ⟨op, k, ba, le, co, fe, cu, av, bu, po⟩ := r
  rcases e with ⟨m, be, rc, dy, si, sa, sr, en, dr⟩
  cases k with
  | port =>
    cases en
    · rcases sr with _ | ⟨x, r⟩
      · rfl
      · cases x <;> rfl
    · rfl
  | window =>
    by_cases hc : fe < le.toNat
    · simp only [hc, if_true]
      rw [Cmd.bind_run, memRead, freeByte]
      cases Env.access ⟨m, be, rc, dy, si, sa, sr, en, dr⟩ (ba.toNat + fe) with
      | error x => rfl
      | ok x => cases Env.isRaced ⟨m, be, rc, dy, si, sa, sr, en, dr⟩ (ba.toNat + fe) <;> rfl
    · simp only [hc, if_false, Cmd.pure_run]

theorem srcGet_keeps : srcGet.Keeps ReaderFrame := by
  rintro ⟨r, e⟩
  unfold Cmd.final
  rw [srcGet_run]
  obtain ⟨op, k, ba, le, co, fe, cu, av, bu, po⟩ := r
  rcases e with ⟨m, be, rc, dy, si, sa, sr, en, dr⟩
  cases k with
  | port =>
    cases en
    · rcases sr with _ | ⟨x, r⟩
      · exact ⟨rfl, rfl, rfl, rfl, rfl, fun _ => rfl⟩
      · cases x <;> exact ⟨rfl, rfl, rfl, rfl, rfl, id⟩
    · exact ReaderFrame.refl _
  | window =>
    by_cases hc : fe < le.toNat
    · simp only [hc, if_true]
      cases Env.access ⟨m, be, rc, dy, si, sa, sr, en, dr⟩ (ba.toNat + fe) with
      | error x => exact ReaderFrame.refl _
      | ok x =>
        cases Env.isRaced ⟨m, be, rc, dy, si, sa, sr, en, dr⟩ (ba.toNat + fe) <;> exact ⟨rfl, rfl, rfl, rfl, rfl, id⟩
    · simp only [hc, if_false]
      exact ReaderFrame.refl _

theorem fetch_keeps : ∀ k, (fetch k).Keeps ReaderFrame
  | 0 => Cmd.Keeps.pure ReaderFrame.refl _
  | k + 1 => Cmd.Keeps.bind ReaderFrame.trans srcGet_keeps fun x => by
      cases x with
      | none => exact Cmd.Keeps.pure ReaderFrame.refl _
      | some b =>
        exact Cmd.Keeps.bind ReaderFrame.trans (fetch_keeps k) fun _ => Cmd.Keeps.pure ReaderFrame.refl _

theorem fill_keeps (bufsz need : Nat) : (fill bufsz need).Keeps ReaderFrame :=
  Cmd.Keeps.bind ReaderFrame.trans (Cmd.Keeps.get ReaderFrame.refl) fun _ =>
    Cmd.Keeps.ite
      (fun _ => Cmd.Keeps.bind ReaderFrame.trans (fetch_keeps bufsz) fun _ =>
        Cmd.Keeps.of_modify fun _ => ⟨rfl, rfl, rfl, rfl, Env.OnlyRead.refl _⟩)
      (fun _ => Cmd.Keeps.pure ReaderFrame.refl _)

theorem BitReader.take_bound (r : BitReader) (len : Nat) :
    (r.take len).2.isOpen = r.isOpen ∧ (r.take len).2.kind = r.kind ∧ (r.take len).2.base = r.base ∧
      (r.take len).2.len = r.len ∧ (r.take len).2.fetched = r.fetched ∧ (r.take len).2.count = r.count + len := by
  unfold BitReader.take
  split <;> exact ⟨rfl, rfl, rfl, rfl, rfl, rfl⟩

theorem readBits_keeps (bufsz len : Nat) : (readBits bufsz len).Keeps ReaderFrame := by
  refine Cmd.Keeps.bind ReaderFrame.trans (Cmd.Keeps.get ReaderFrame.refl) fun _ =>
    Cmd.Keeps.bind ReaderFrame.trans (Cmd.Keeps.check ReaderFrame.refl _ _ _ _) fun _ =>
      Cmd.Keeps.bind ReaderFrame.trans (fill_keeps bufsz len) fun _ => Cmd.Keeps.get_bind fun s => ?_
  obtain ⟨h1, h2, h3, h4, -, -⟩ := BitReader.take_bound s.1 len
  show ReaderFrame s (((check _ _ _ _ >>= _ : Cmd (BitReader × Env) Word)).final s)
  refine Cmd.Keeps.at_bind ReaderFrame.trans (Cmd.Keeps.check ReaderFrame.refl _ _ _ _ _) fun _ t h => ?_
  have ht : t = s := by
    rw [check_run] at h
    split at h <;> cases h
    rfl
  subst ht
  exact ⟨h1, h2, h3, h4, Env.OnlyRead.refl _⟩

theorem moreBits_keeps (bufsz : Nat) : (moreBits bufsz).Keeps ReaderFrame :=
  Cmd.Keeps.bind ReaderFrame.trans (Cmd.Keeps.get ReaderFrame.refl) fun _ =>
    Cmd.Keeps.ite
      (fun _ => Cmd.Keeps.bind ReaderFrame.trans (fill_keeps bufsz 1) fun _ =>
        Cmd.Keeps.bind ReaderFrame.trans (Cmd.Keeps.get ReaderFrame.refl) fun _ => Cmd.Keeps.pure ReaderFrame.refl _)
      (fun _ => Cmd.Keeps.pure ReaderFrame.refl _)

/-! ### When nothing fails -/

theorem Env.Took.refl (r : BitReader) (e : Env) : Env.Took r 0 e e := by
  refine ⟨?_, id, .inl⟩
  split <;> rfl

theorem Env.Took.trans {r r' : BitReader} {n m : Nat} {e e1 e2 : Env} (hk : r'.kind = r.kind) (h : Env.Took r n e e1)
    (h' : Env.Took r' m e1 e2) : Env.Took r (n + m) e e2 := by
  obtain ⟨a1, a2, a3⟩ := h
  obtain ⟨b1, b2, b3⟩ := h'
  rw [hk] at b1 b3
  refine ⟨?_, b2 ∘ a2, fun hz => ?_⟩
  · rw [b1, a1]
    split <;> simp
  · rcases b3 hz with h1 | h1
    · rcases a3 h1 with h2 | ⟨h2, h3⟩
      · exact .inl h2
      · refine .inr ⟨h2, ?_⟩
        rw [b1]
        simp [h2, h3]
    · exact .inr h1

theorem Env.Took.neverFails {r : BitReader} {n : Nat} {e e' : Env} (h : Env.Took r n e e') (he : e.neverFails) :
    e'.neverFails := by
  rw [h.1]
  refine ⟨he.1, he.2.1, fun a ha => ?_⟩
  simp only at ha
  split at ha
  · exact he.2.2 a (List.mem_of_mem_drop ha)
  · exact he.2.2 a ha

/-- A byte taken: the source is at its end and answers none, which a port has then reported, or it answers its first byte. -/
theorem srcGet_of {r : BitReader} {e : Env} (he : e.neverFails) (hfit : r.kind = .window → fits r.base r.len) :
    (∃ e', srcGet (r, e) = .ok none (r, e') ∧ Env.Took r 0 e e' ∧ sourceBytes r e = [] ∧ sourceBytes r e' = [] ∧
      (r.kind = .port → e'.srcEnd = true)) ∨
    ∃ b e', srcGet (r, e) = .ok (some b) ({ r with fetched := r.fetched + 1 }, e') ∧ Env.Took r 1 e e' ∧
      sourceBytes r e = b :: sourceBytes { r with fetched := r.fetched + 1 } e' ∧
      (r.kind = .window → r.fetched < r.len.toNat) := by
  rw [srcGet_run]
  obtain ⟨op, k, ba, le, co, fe, cu, av, bu, po⟩ := r
  cases k with
  | port =>
    rcases e with ⟨m, be, rc, dy, si, sa, sr, en, dr⟩
    cases en with
    | true => exact .inl ⟨_, rfl, Env.Took.refl _ _, rfl, rfl, fun _ => rfl⟩
    | false =>
      rcases sr with _ | ⟨x, rest⟩
      · exact .inl ⟨_, rfl, ⟨rfl, fun _ => rfl, fun _ => .inr ⟨rfl, rfl⟩⟩, rfl, rfl, fun _ => rfl⟩
      · cases x with
        | byte b => exact .inr ⟨b, _, rfl, ⟨rfl, id, .inl⟩, rfl, fun h => by cases h⟩
        | failure => exact absurd rfl (he.2.2 _ List.mem_cons_self)
  | window =>
    by_cases hc : fe < le.toNat
    · have h2 : ba.toNat + le.toNat ≤ 2 ^ 32 := hfit rfl
      simp only [hc, if_true, Env.access_of he.1.1 (show ba.toNat + fe < 2 ^ 32 by omega), Env.isRaced_nil he.1.2,
        Bool.false_eq_true, if_false]
      refine .inr ⟨_, e, rfl, ⟨rfl, id, .inl⟩, ?_, fun _ => trivial⟩
      show memBytes e.mem (ba.toNat + fe) (le.toNat - fe) = _ :: memBytes e.mem (ba.toNat + (fe + 1)) (le.toNat - (fe + 1))
      rw [show le.toNat - fe = (le.toNat - (fe + 1)) + 1 by omega, memBytes_succ]
      rfl
    · simp only [hc, if_false]
      have h0 : memBytes e.mem (ba.toNat + fe) (le.toNat - fe) = [] := by
        rw [show le.toNat - fe = 0 by omega]
        rfl
      exact .inl ⟨e, rfl, Env.Took.refl _ _, h0, h0, fun h => by cases h⟩

/-- At most `k` bytes taken, fewer only at the end of the source, which a port has then reported. -/
theorem fetch_of : ∀ (k : Nat) {r : BitReader} {e : Env}, e.neverFails → (r.kind = .window → fits r.base r.len) →
    (r.kind = .window → r.fetched ≤ r.len.toNat) →
    ∃ l e', fetch k (r, e) = .ok l ({ r with fetched := r.fetched + l.length }, e') ∧ Env.Took r l.length e e' ∧
      sourceBytes r e = l ++ sourceBytes { r with fetched := r.fetched + l.length } e' ∧
      l.length = min k (sourceBytes r e).length ∧ (r.kind = .window → r.fetched + l.length ≤ r.len.toNat) ∧
      (r.kind = .port → l.length < k → e'.srcEnd = true)
  | 0, r, e, _, _, hf => ⟨[], e, rfl, Env.Took.refl r e, rfl, by simp, hf, fun _ h => by simp at h⟩
  | k + 1, r, e, he, hfit, hf => by
    rcases srcGet_of he hfit with ⟨e', h1, h2, h0, h3, h4⟩ | ⟨b, e', h1, ht, h2, h3⟩
    · refine ⟨[], e', ?_, h2, ?_, by rw [h0]; simp, hf, fun hp _ => h4 hp⟩
      · unfold fetch
        rw [Cmd.bind_of_ok _ h1]
        rfl
      · exact h0.trans h3.symm
    · obtain ⟨l, e2, h4, ht2, h5, h6, h7, h8⟩ := fetch_of k (r := { r with fetched := r.fetched + 1 }) (e := e')
        (ht.neverFails he) hfit (fun h => h3 h)
      have hcount : r.fetched + 1 + l.length = r.fetched + (b :: l).length := by rw [List.length_cons]; omega
      simp only [hcount] at h4 h5 h7
      refine ⟨b :: l, e2, ?_, ?_, ?_, ?_, h7, fun hp hl => h8 hp ?_⟩
      · unfold fetch
        rw [Cmd.bind_of_ok _ h1]
        simp only
        rw [Cmd.bind_of_ok _ h4]
        rfl
      · have := ht.trans rfl ht2
        rwa [Nat.add_comm] at this
      · rw [h2, List.cons_append, ← h5]
      · rw [h2, List.length_cons, List.length_cons, h6]
        omega
      · rw [List.length_cons] at hl
        omega

/-- The bits a reader has on hand. -/
def BitReader.hand (r : BitReader) : List Bool := bitsOf r.cur r.avail ++ bytesBits (r.buf.drop r.pos)

theorem BitReader.hand_length (r : BitReader) : r.hand.length = r.onHand := by
  rw [BitReader.hand, List.length_append, bitsOf_length, bytesBits_length, List.length_drop]
  rfl

theorem remainingBits_eq (r : BitReader) (e : Env) : remainingBits r e = r.hand ++ bytesBits (sourceBytes r e) := rfl

/-- Filling the buffer: what remains is the same, and enough of it is on hand when there is enough. -/
theorem fill_of {bufsz need : Nat} (hb : 8 ≤ bufsz) (hneed : need ≤ 64) {r : BitReader} {e : Env}
    (h : ReaderOk bufsz r) (he : e.neverFails) :
    ∃ u n e', fill bufsz need (r, e) = .ok () (u, e') ∧ Env.Took r n e e' ∧ ReaderOk bufsz u ∧ u.isOpen = r.isOpen ∧ u.kind = r.kind ∧
      u.base = r.base ∧ u.len = r.len ∧ u.count = r.count ∧ u.fetched = r.fetched + n ∧
      remainingBits u e' = remainingBits r e ∧ min need (remainingBits r e).length ≤ u.onHand ∧
      (r.kind = .port → u.onHand < need → e'.srcEnd = true) := by
  have hrem : (remainingBits r e).length = r.onHand + 8 * (sourceBytes r e).length := by
    rw [remainingBits_eq, List.length_append, BitReader.hand_length, bytesBits_length]
  unfold fill
  rw [Cmd.get_bind]
  by_cases hn : r.onHand < need
  · simp only [hn, if_true]
    obtain ⟨l, e', h1, ht, h2, h3, h4, h5⟩ := fetch_of bufsz he h.window h.fetched_le
    rw [Cmd.bind_of_ok _ h1]
    have hpos := h.pos_le
    have htie := h.tie
    have hon : BitReader.onHand
        { r with fetched := r.fetched + l.length, buf := r.buf.drop r.pos ++ l, pos := 0 } = r.onHand + 8 * l.length := by
      unfold BitReader.onHand BitReader.max
      simp only [List.length_append, List.length_drop]
      omega
    refine ⟨{ r with fetched := r.fetched + l.length, buf := r.buf.drop r.pos ++ l, pos := 0 }, l.length, e', rfl, ht,
      ⟨?_, ?_, h.avail_le, Nat.zero_le _, h4, h.window⟩, rfl, rfl, rfl, rfl, rfl, rfl, ?_, ?_, fun hp hl => h5 hp ?_⟩
    · rw [hon]
      show 8 * (r.fetched + l.length) = r.count + _
      omega
    · rw [hon]
      omega
    · have hs : sourceBytes { r with fetched := r.fetched + l.length, buf := r.buf.drop r.pos ++ l, pos := 0 }
          e' = sourceBytes { r with fetched := r.fetched + l.length } e' := rfl
      rw [remainingBits_eq, remainingBits_eq, hs, h2, bytesBits_append]
      simp only [BitReader.hand, List.drop_zero, bytesBits_append, List.append_assoc]
    · rw [hon]
      omega
    · rw [hon] at hl
      omega
  · simp only [hn, if_false]
    exact ⟨r, 0, e, rfl, Env.Took.refl r e, h, rfl, rfl, rfl, rfl, rfl, rfl, rfl, by omega, fun _ hl => absurd hl hn⟩

theorem beNat_append_singleton (l : List Byte) (b : Byte) : beNat (l ++ [b]) = beNat l * 256 + b.toNat := by
  simp [beNat]

/-- The number of a byte sequence is that of its bits. -/
theorem bitsNat_bytesBits (l : List Byte) : bitsNat (bytesBits l) = beNat l := by
  induction l using List.reverseRecOn with
  | nil => rfl
  | append_singleton l b ih =>
    rw [bytesBits_append, bytesBits_cons, bytesBits_nil, List.append_nil, bitsNat_append, bitsNat_bitsOf, bitsOf_length, ih,
      beNat_append_singleton]
    have := b.isLt
    simp only [BitVec.toNat_setWidth]
    omega

/-- A bit sequence of at most 64 bits is the bits of its number. -/
theorem bitsOf_bitsNat : ∀ {l : List Bool}, l.length ≤ 64 → bitsOf (BitVec.ofNat 64 (bitsNat l)) l.length = l
  | [], _ => rfl
  | b :: r, h => by
    rw [List.length_cons] at h
    have hr := bitsOf_bitsNat (l := r) (by omega)
    have hlt := bitsNat_lt r
    rw [List.length_cons, bitsOf]
    congr 1
    · rw [BitVec.getLsbD_ofNat, bitsNat_cons, Nat.testBit, Nat.shiftRight_eq_div_pow, Nat.add_comm, Nat.add_mul_div_right _ _
        (Nat.two_pow_pos _), Nat.div_eq_of_lt hlt]
      rw [decide_eq_true (show r.length < 64 by omega)]
      cases b <;> simp
    · conv_rhs => rw [← hr]
      refine bitsOf_congr fun i hi => ?_
      rw [BitVec.getLsbD_ofNat, BitVec.getLsbD_ofNat, bitsNat_cons, Nat.mul_comm, Nat.testBit_two_pow_mul_add _ hlt]
      simp [hi]

/-- The first bits of a sequence of at most 64. -/
theorem bitsNat_take {l : List Bool} {n : Nat} (_h : n ≤ l.length) : bitsNat (l.take n) = bitsNat l / 2 ^ (l.length - n) := by
  have := bitsNat_append (l.take n) (l.drop n)
  rw [List.take_append_drop, List.length_drop] at this
  have hlt := bitsNat_lt (l.drop n)
  rw [List.length_drop] at hlt
  rw [this, Nat.mul_comm, Nat.mul_add_div (Nat.two_pow_pos _), Nat.div_eq_of_lt hlt, Nat.add_zero]

theorem bitsOf_drop (v : Word) {n k : Nat} (h : k ≤ n) : (bitsOf v n).drop k = bitsOf v (n - k) := by
  obtain ⟨m, rfl⟩ := Nat.exists_eq_add_of_le h
  rw [bitsOf_add, List.drop_append_of_le_length (by simp), List.drop_eq_nil_of_le (by simp)]
  simp

/-- A read of bits on hand: it answers the first of them and leaves the others. -/
theorem BitReader.take_of {bufsz : Nat} {r : BitReader} (h : ReaderOk bufsz r) {len : Nat} (hlen : len ≤ 64)
    (hon : len ≤ r.onHand) :
    (r.take len).1 = BitVec.ofNat 64 (bitsNat (r.hand.take len)) ∧ (r.take len).2.hand = r.hand.drop len ∧
      ReaderOk bufsz (r.take len).2 := by
  have hav := h.avail_le
  have hpos := h.pos_le
  have htie := h.tie
  have hahead := h.ahead
  unfold BitReader.onHand at hon htie hahead
  have hmax : r.max = r.buf.length := rfl
  unfold BitReader.take
  by_cases hc : len ≤ r.avail
  · simp only [hc, if_true]
    refine ⟨?_, ?_, ⟨?_, ?_, by show r.avail - len ≤ 64; omega, hpos, h.fetched_le, h.window⟩⟩
    · rw [BitReader.hand, List.take_append_of_le_length (by simpa using hc), bitsNat_take (by simpa using hc),
        bitsNat_bitsOf, bitsOf_length]
      congr 1
      have : 2 ^ r.avail = 2 ^ (r.avail - len) * 2 ^ len := by rw [← Nat.pow_add]; congr 1; omega
      rw [this, Nat.mod_mul_right_div_self]
    · rw [BitReader.hand, BitReader.hand, List.drop_append_of_le_length (by simpa using hc), bitsOf_drop _ hc]
    · show 8 * r.fetched = r.count + len + (r.avail - len + 8 * (r.max - r.pos))
      omega
    · show r.avail - len + 8 * (r.max - r.pos) < _
      omega
  · simp only [hc, if_false]
    have hb : ((r.buf.drop r.pos).take 8).length = min 8 (r.max - r.pos) := by
      rw [List.length_take, List.length_drop]
      rfl
    generalize hbytes : (r.buf.drop r.pos).take 8 = bytes at hb ⊢
    have hsplit : r.buf.drop r.pos = bytes ++ r.buf.drop (r.pos + bytes.length) := by
      conv_lhs => rw [← List.take_append_drop 8 (r.buf.drop r.pos), hbytes, List.drop_drop]
      by_cases h8 : 8 ≤ r.max - r.pos
      · rw [show bytes.length = 8 by omega]
      · rw [List.drop_eq_nil_of_le (by omega), List.drop_eq_nil_of_le (by omega)]
    have hl8 : (bytesBits bytes).length ≤ 64 := by rw [bytesBits_length]; omega
    have hnext := bitsOf_bitsNat hl8
    rw [bitsNat_bytesBits, bytesBits_length] at hnext
    have hneed : len - r.avail ≤ 8 * bytes.length := by omega
    have hdrop : (bytesBits bytes).drop (len - r.avail) =
        bitsOf (BitVec.ofNat 64 (beNat bytes)) (8 * bytes.length - (len - r.avail)) := by
      conv_lhs => rw [← hnext]
      rw [bitsOf_drop _ hneed]
    refine ⟨?_, ?_, ⟨?_, ?_, ?_, ?_, h.fetched_le, h.window⟩⟩
    · rw [BitReader.hand, hsplit, bytesBits_append, List.take_append, bitsOf_length, List.take_of_length_le (by simp; omega),
        List.take_append_of_le_length (by rw [bytesBits_length]; omega), bitsNat_append, bitsNat_bitsOf,
        bitsNat_take (by rw [bytesBits_length]; omega), List.length_take, bytesBits_length, bitsNat_bytesBits,
        Nat.min_eq_left hneed]
      have hlt := bitsNat_lt ((bytesBits bytes).take (len - r.avail))
      rw [bitsNat_take (by rw [bytesBits_length]; omega), List.length_take, bytesBits_length, bitsNat_bytesBits,
        Nat.min_eq_left hneed] at hlt
      rw [Nat.mod_eq_of_lt hlt]
    · show bitsOf (BitVec.ofNat 64 (beNat bytes)) (8 * bytes.length - (len - r.avail)) ++
        bytesBits (r.buf.drop (r.pos + bytes.length)) = r.hand.drop len
      rw [BitReader.hand, hsplit, bytesBits_append, List.drop_append, bitsOf_length,
        List.drop_eq_nil_of_le (as := bitsOf r.cur r.avail) (by rw [bitsOf_length]; omega), List.nil_append, List.drop_append_of_le_length (by rw [bytesBits_length]; omega), hdrop]
    · show 8 * r.fetched = r.count + len + (8 * bytes.length - (len - r.avail) + 8 * (r.max - (r.pos + bytes.length)))
      omega
    · show 8 * bytes.length - (len - r.avail) + 8 * (r.max - (r.pos + bytes.length)) < _
      omega
    · show 8 * bytes.length - (len - r.avail) ≤ 64
      omega
    · show r.pos + bytes.length ≤ r.max
      omega

/-- What was taken from the source, as the claims state it. -/
theorem Fetched.intro {b r : BitReader} {e e' : Env} {n : Nat} (ht : Env.Took b n e e') (ho : r.isOpen = b.isOpen) (hk : r.kind = b.kind)
    (hb : r.base = b.base) (hl : r.len = b.len) (hf : r.fetched = b.fetched + n) : Fetched b e r e' :=
  ⟨by omega, ho, hk, hb, hl, by rwa [hf, Nat.add_sub_cancel_left]⟩

/-- A read of bits that remain: what `readBits` answers when nothing fails. -/
theorem readBits_of {bufsz len : Nat} (hb : 8 ≤ bufsz) (hlen : len ≤ 64) {r : BitReader} {e : Env} (hopen : r.isOpen = true)
    (h : ReaderOk bufsz r) (he : e.neverFails) (hrem : len ≤ (remainingBits r e).length) :
    ∃ u n e', readBits bufsz len (r, e) = .ok (BitVec.ofNat 64 (bitsNat ((remainingBits r e).take len))) (u, e') ∧
      Env.Took r n e e' ∧ ReaderOk bufsz u ∧ u.isOpen = r.isOpen ∧ u.kind = r.kind ∧ u.base = r.base ∧ u.len = r.len ∧ u.count = r.count + len ∧
      u.fetched = r.fetched + n ∧ remainingBits u e' = (remainingBits r e).drop len := by
  obtain ⟨u, n, e', h1, ht, h2, h3, h4, h5, h6, h7, h8, h9, h10, -⟩ := fill_of hb hlen h he
  rw [Nat.min_eq_left hrem] at h10
  obtain ⟨t1, t2, t3⟩ := u.take_of h2 hlen h10
  obtain ⟨b1, b2, b3, b4, b5, b6⟩ := u.take_bound len
  have hhand : len ≤ u.hand.length := by rw [BitReader.hand_length]; exact h10
  have hsrc : sourceBytes (u.take len).2 e' = sourceBytes u e' := by
    unfold sourceBytes
    rw [b2, b3, b4, b5]
  refine ⟨(u.take len).2, n, e', ?_, ht, t3, b1.trans h3, b2.trans h4, b3.trans h5, b4.trans h6, by rw [b6, h7], b5.trans h8, ?_⟩
  · unfold readBits
    rw [Cmd.get_bind]
    simp only [hopen, Bool.not_true, Bool.false_and, check_bind, Bool.false_eq_true, if_false]
    rw [Cmd.bind_of_ok _ h1, Cmd.get_bind]
    simp only [show ¬(u.onHand < len) by omega, decide_false, check_bind, Bool.false_eq_true, if_false, Cmd.set_bind,
      Cmd.pure_run]
    rw [t1, ← h9, remainingBits_eq, List.take_append_of_le_length hhand]
  · rw [← h9, remainingBits_eq, remainingBits_eq, t2, hsrc, List.drop_append_of_le_length hhand]

/-- A read of more bits than remain on an open reader: it raises `EndOfStream` and consumes nothing. -/
theorem readBits_short {bufsz len : Nat} (hb : 8 ≤ bufsz) (hlen : len ≤ 64) {r : BitReader} {e : Env}
    (hopen : r.isOpen = true) (h : ReaderOk bufsz r) (he : e.neverFails) (hrem : (remainingBits r e).length < len) :
    ∃ u n e', readBits bufsz len (r, e) = .error (.raise (errOf .endOfStream 2 0 false)) (u, e') ∧ Env.Took r n e e' ∧
      u.isOpen = r.isOpen ∧ u.kind = r.kind ∧ u.base = r.base ∧ u.len = r.len ∧ u.count = r.count ∧
      u.fetched = r.fetched + n ∧ remainingBits u e' = remainingBits r e := by
  obtain ⟨u, n, e', h1, ht, h2, h3, h4, h5, h6, h7, h8, h9, h10, -⟩ := fill_of hb hlen h he
  have hon : u.onHand < len := by
    rw [← h9, remainingBits_eq, List.length_append, BitReader.hand_length] at hrem
    omega
  refine ⟨u, n, e', ?_, ht, h3, h4, h5, h6, h7, h8, h9⟩
  unfold readBits
  rw [Cmd.get_bind]
  simp only [hopen, Bool.not_true, Bool.false_and, check_bind, Bool.false_eq_true, if_false]
  rw [Cmd.bind_of_ok _ h1, Cmd.get_bind]
  simp only [hon, decide_true, check_bind, if_true]

end Sys2Proof.Machine
end

