-- ==== Sys2Proof/Laws/Writer.lean ====
section
/-!
SUPPORT. What the bit writer's operations can do: their frame, and what delivering bytes does when nothing fails.
-/

namespace Sys2Proof.Machine

/-! ### The frame -/

/-- The addresses a writer may store to. -/
def BitWriter.stores (w : BitWriter) (a : Nat) : Prop := w.kind = .window ∧ inWindow w.base w.cap a

/-- The frame of every piece of a rule over the writer: what it is bound to stays, and of the host's side only the sink and the
bytes of its own window change. -/
structure WriterFrame (t u : BitWriter × Env) : Prop where
  kind : u.1.kind = t.1.kind
  base : u.1.base = t.1.base
  cap : u.1.cap = t.1.cap
  busErr : u.2.busErr = t.2.busErr
  raced : u.2.raced = t.2.raced
  dirtied : u.2.dirtied = t.2.dirtied
  src : u.2.src = t.2.src
  srcEnd : u.2.srcEnd = t.2.srcEnd
  drawn : u.2.drawn = t.2.drawn
  mem : Memory.Within t.1.stores t.2.mem u.2.mem

theorem WriterFrame.refl (t : BitWriter × Env) : WriterFrame t t :=
  ⟨rfl, rfl, rfl, rfl, rfl, rfl, rfl, rfl, rfl, Memory.Within.refl _⟩

theorem WriterFrame.trans (a b c : BitWriter × Env) (h : WriterFrame a b) (h' : WriterFrame b c) : WriterFrame a c where
  kind := h'.kind.trans h.kind
  base := h'.base.trans h.base
  cap := h'.cap.trans h.cap
  busErr := h'.busErr.trans h.busErr
  raced := h'.raced.trans h.raced
  dirtied := h'.dirtied.trans h.dirtied
  src := h'.src.trans h.src
  srcEnd := h'.srcEnd.trans h.srcEnd
  drawn := h'.drawn.trans h.drawn
  mem := h.mem.trans (h'.mem.mono fun a ha => ⟨h.kind ▸ ha.1, by rw [← h.base, ← h.cap]; exact ha.2⟩)

/-- Everything `sinkPut` can do. -/
theorem sinkPut_run (b : Byte) (w : BitWriter) (e : Env) :
    sinkPut b (w, e) =
      match w.kind with
      | .port =>
        match e.sinkAns with
        | false :: rest => .error (.raise (errOf .ioError 2 0 true)) (w, { e with sinkAns := rest })
        | _ => .ok () ({ w with sent := w.sent + 1 }, { e with sink := b :: e.sink, sinkAns := e.sinkAns.tail })
      | .window =>
        if w.cap.toNat ≤ w.sent then .error (.raise (errOf .bufferTooSmall 1 (w.sent + 1) true)) (w, e)
        else
          match e.access (w.base.toNat + w.sent) with
          | .ok _ =>
            .ok () ({ w with sent := w.sent + 1 }, { e with mem := Memory.write e.mem (w.base.toNat + w.sent) b })
          | .error x => .error x (w, e) := by
  unfold sinkPut
  rw [Cmd.get_bind]
  obtain ⟨op, k, ba, ca, bi, co, se, cu, av, bu⟩ := w
  cases k with
  | port =>
    rcases hs : e.sinkAns with _ | ⟨x, r⟩
    · simp [hs]
    · cases x <;> simp [hs]
  | window =>
    by_cases hc : ca.toNat ≤ se
    · simp [hc]
    · simp only [hc, decide_false, checkMid_bind, if_false, Bool.false_eq_true]
      rw [Cmd.bind_run, memWrite]
      cases e.access (ba.toNat + se) <;> rfl

theorem sinkPut_keeps (b : Byte) : (sinkPut b).Keeps WriterFrame := by
  rintro ⟨w, e⟩
  unfold Cmd.final
  rw [sinkPut_run]
  obtain ⟨op, k, ba, ca, bi, co, se, cu, av, bu⟩ := w
  cases k with
  | port =>
    rcases e with ⟨m, be, rc, dy, si, sa, sr, en, dr⟩
    rcases sa with _ | ⟨x, r⟩
    · exact ⟨rfl, rfl, rfl, rfl, rfl, rfl, rfl, rfl, rfl, Memory.Within.refl _⟩
    · cases x <;> exact ⟨rfl, rfl, rfl, rfl, rfl, rfl, rfl, rfl, rfl, Memory.Within.refl _⟩
  | window =>
    by_cases hc : ca.toNat ≤ se
    · simp only [hc, if_true]
      exact WriterFrame.refl _
    · simp only [hc, if_false]
      cases ha : e.access (ba.toNat + se) with
      | error x => exact WriterFrame.refl _
      | ok x =>
        have h := (Env.access_eq_ok.mp ha).1
        exact ⟨rfl, rfl, rfl, rfl, rfl, rfl, rfl, rfl, rfl, Memory.Within.write _ b h ⟨rfl, Nat.le_add_right _ _,
          Nat.add_lt_add_left (Nat.lt_of_not_le hc) _⟩⟩

theorem deliver_keeps : ∀ l : List Byte, (deliver l).Keeps WriterFrame
  | [] => Cmd.Keeps.pure WriterFrame.refl _
  | b :: r => Cmd.Keeps.bind WriterFrame.trans (sinkPut_keeps b) fun _ => deliver_keeps r

/-- Bits pushed leave what the writer is bound to alone. -/
theorem BitWriter.push_bound (w : BitWriter) (value : Word) (len : Nat) :
    (w.push value len).kind = w.kind ∧ (w.push value len).base = w.base ∧ (w.push value len).cap = w.cap ∧
      (w.push value len).sent = w.sent ∧ (w.push value len).isOpen = w.isOpen := by
  unfold BitWriter.push
  split <;> exact ⟨rfl, rfl, rfl, rfl, rfl⟩

theorem spill_keeps (bufsz : Nat) (value : Word) (len : Nat) : (spill bufsz value len).Keeps WriterFrame := by
  refine Cmd.Keeps.bind WriterFrame.trans (Cmd.Keeps.of_modify fun s => ?_) fun _ =>
    Cmd.Keeps.bind WriterFrame.trans (Cmd.Keeps.get WriterFrame.refl) fun t => ?_
  · obtain ⟨h1, h2, h3, -, -⟩ := BitWriter.push_bound s.1 value len
    exact ⟨h1, h2, h3, rfl, rfl, rfl, rfl, rfl, rfl, Memory.Within.refl _⟩
  · exact Cmd.Keeps.ite
      (fun _ => Cmd.Keeps.bind WriterFrame.trans (deliver_keeps _) fun _ =>
        Cmd.Keeps.of_modify fun s => ⟨rfl, rfl, rfl, rfl, rfl, rfl, rfl, rfl, rfl, Memory.Within.refl _⟩)
      (fun _ => Cmd.Keeps.pure WriterFrame.refl _)

theorem writeBits_keeps (bufsz : Nat) (value : Word) (len : Nat) : (writeBits bufsz value len).Keeps WriterFrame :=
  Cmd.Keeps.bind WriterFrame.trans (Cmd.Keeps.get WriterFrame.refl) fun _ =>
    Cmd.Keeps.bind WriterFrame.trans (Cmd.Keeps.check WriterFrame.refl _ _ _ _) fun _ =>
      Cmd.Keeps.bind WriterFrame.trans (Cmd.Keeps.check WriterFrame.refl _ _ _ _) fun _ => spill_keeps bufsz value len

theorem writeFields_keeps (bufsz : Nat) : ∀ l : List (Word × Nat), (writeFields bufsz l).Keeps WriterFrame
  | [] => Cmd.Keeps.pure WriterFrame.refl _
  | f :: r =>
    Cmd.Keeps.bind WriterFrame.trans (writeBits_keeps bufsz f.1 f.2) fun _ => writeFields_keeps bufsz r

/-- Fields written one list after the other are written as one list. -/
theorem writeFields_append (bufsz : Nat) (k l : List (Word × Nat)) :
    writeFields bufsz (k ++ l) = (do writeFields bufsz k; writeFields bufsz l) := by
  induction k with
  | nil => rfl
  | cons f r ih =>
    funext t
    rw [List.cons_append, writeFields, writeFields, ih]
    simp only [Cmd.bind_run]
    cases writeBits bufsz f.1 f.2 t <;> rfl

theorem closeWriter_keeps : closeWriter.Keeps WriterFrame := by
  refine Cmd.Keeps.get_bind fun s => ?_
  obtain ⟨w, e⟩ := s
  refine Cmd.Keeps.at_bind WriterFrame.trans (Cmd.Keeps.check WriterFrame.refl _ _ _ _ _) fun _ t h => ?_
  have ht : t = (w, e) := by
    rw [check_run] at h
    split at h <;> cases h
    rfl
  subst ht
  refine Cmd.Keeps.at_bind WriterFrame.trans ⟨rfl, rfl, rfl, rfl, rfl, rfl, rfl, rfl, rfl, Memory.Within.refl _⟩ fun _ t _ => ?_
  refine Cmd.Keeps.at_bind WriterFrame.trans (deliver_keeps _ _) fun _ u _ => ?_
  exact ⟨rfl, rfl, rfl, rfl, rfl, rfl, rfl, rfl, rfl, Memory.Within.refl _⟩

/-! ### When nothing fails -/

/-- A host side whose bytes have been stored to a window, or taken by the SINK port. -/
def Env.delivered (e : Env) (w : BitWriter) (l : List Byte) : Env :=
  match w.kind with
  | .port => { e with sink := l.reverse ++ e.sink, sinkAns := e.sinkAns.drop l.length }
  | .window => { e with mem := Memory.writeAll e.mem (w.base.toNat + w.sent) l }

theorem Env.delivered_neverFails {e : Env} (w : BitWriter) (l : List Byte) (h : e.neverFails) :
    (e.delivered w l).neverFails := by
  unfold Env.delivered
  split
  · exact ⟨h.1, fun a ha => h.2.1 a (List.mem_of_mem_drop ha), h.2.2⟩
  · exact h

theorem Env.delivered_busErr (e : Env) (w : BitWriter) (l : List Byte) : (e.delivered w l).busErr = e.busErr := by
  unfold Env.delivered
  split <;> rfl

theorem Env.delivered_src (e : Env) (w : BitWriter) (l : List Byte) : (e.delivered w l).src = e.src := by
  unfold Env.delivered
  split <;> rfl

theorem Env.delivered_srcEnd (e : Env) (w : BitWriter) (l : List Byte) : (e.delivered w l).srcEnd = e.srcEnd := by
  unfold Env.delivered
  split <;> rfl

theorem Env.delivered_raced (e : Env) (w : BitWriter) (l : List Byte) : (e.delivered w l).raced = e.raced := by
  unfold Env.delivered
  split <;> rfl

theorem Env.delivered_dirtied (e : Env) (w : BitWriter) (l : List Byte) : (e.delivered w l).dirtied = e.dirtied := by
  unfold Env.delivered
  split <;> rfl

theorem Env.delivered_drawn (e : Env) (w : BitWriter) (l : List Byte) : (e.delivered w l).drawn = e.drawn := by
  unfold Env.delivered
  split <;> rfl

/-- A byte that fits is delivered. -/
theorem sinkPut_of (b : Byte) {w : BitWriter} {e : Env} (he : e.neverFails) (hroom : w.kind = .window → w.sent < w.cap.toNat)
    (hfit : w.kind = .window → fits w.base w.cap) :
    sinkPut b (w, e) = .ok () ({ w with sent := w.sent + 1 }, e.delivered w [b]) := by
  rw [sinkPut_run]
  obtain ⟨op, k, ba, ca, bi, co, se, cu, av, bu⟩ := w
  cases k with
  | port =>
    rcases e with ⟨m, be, rc, dy, si, sa, sr, en, dr⟩
    rcases sa with _ | ⟨x, r⟩
    · rfl
    · have : x = true := he.2.1 x List.mem_cons_self
      subst this
      rfl
  | window =>
    have h1 : se < ca.toNat := hroom rfl
    have h2 : ba.toNat + ca.toNat ≤ 2 ^ 32 := hfit rfl
    simp only [show ¬ca.toNat ≤ se by omega, if_false, Env.access_of he.1.1 (show ba.toNat + se < 2 ^ 32 by omega)]
    rfl

/-- Delivering bytes one after the other is delivering them all. -/
theorem Env.delivered_cons (e : Env) (w : BitWriter) (b : Byte) (l : List Byte) :
    (e.delivered w [b]).delivered { w with sent := w.sent + 1 } l = e.delivered w (b :: l) := by
  obtain ⟨op, k, ba, ca, bi, co, se, cu, av, bu⟩ := w
  cases k with
  | port => simp [Env.delivered]
  | window => simp [Env.delivered, Memory.writeAll, Nat.add_assoc]

/-- Bytes that fit are delivered. -/
theorem deliver_of (l : List Byte) {w : BitWriter} {e : Env} (he : e.neverFails)
    (hroom : w.kind = .window → w.sent + l.length ≤ w.cap.toNat) (hfit : w.kind = .window → fits w.base w.cap) :
    deliver l (w, e) = .ok () ({ w with sent := w.sent + l.length }, e.delivered w l) := by
  induction l generalizing w e with
  | nil =>
    obtain ⟨op, k, ba, ca, bi, co, se, cu, av, bu⟩ := w
    cases k <;> rfl
  | cons b r ih =>
    rw [List.length_cons] at hroom ⊢
    have h := ih (w := { w with sent := w.sent + 1 }) (Env.delivered_neverFails w [b] he)
      (fun h => by have := hroom h; show w.sent + 1 + r.length ≤ w.cap.toNat; omega) hfit
    rw [Env.delivered_cons] at h
    rw [deliver, Cmd.bind_of_ok _ (sinkPut_of b he (fun h => by have := hroom h; omega) hfit), h, Nat.add_assoc,
      Nat.add_comm 1]

/-! ### Bits appended -/

/-- A word holds a bit sequence left-aligned exactly when it does so bit by bit. -/
theorem leftAligned_iff {x : Word} {l : List Bool} {free : Nat} (h : l.length + free = 64) :
    bitsOf x 64 = l ++ List.replicate free false ↔ ∀ i < 64, x.getLsbD (63 - i) = l.getD i false := by
  have get : ∀ i < 64, (l ++ List.replicate free false)[i]? = some (l.getD i false) := fun i hi => by
    by_cases hl : i < l.length
    · rw [List.getElem?_append_left hl, List.getD_eq_getElem?_getD, List.getElem?_eq_getElem hl]
      rfl
    · rw [List.getElem?_append_right (by omega), List.getElem?_replicate, if_pos (by omega), List.getD_eq_getElem?_getD,
        List.getElem?_eq_none (by omega)]
      rfl
  have bit : ∀ i < 64, (bitsOf x 64)[i]? = some (x.getLsbD (63 - i)) := fun i hi => by
    rw [List.getElem?_eq_getElem (by simpa using hi), bitsOf_getElem]
  constructor
  · intro e i hi
    have := congrArg (fun l => l[i]?) e
    rw [bit i hi, get i hi] at this
    exact Option.some.inj this
  · intro e
    refine List.ext_getElem? fun i => ?_
    by_cases hi : i < 64
    · rw [bit i hi, get i hi, e i hi]
    · rw [List.getElem?_eq_none (by simpa using hi), List.getElem?_eq_none (by simp; omega)]

/-- The value kept of an operand: its low `len` bits. -/
theorem lowBits_getLsbD (value : Word) {len : Nat} (_h : len ≤ 64) (i : Nat) :
    (BitVec.ofNat 64 (value.toNat % 2 ^ len)).getLsbD i = (decide (i < len) && value.getLsbD i) := by
  rw [BitVec.getLsbD_ofNat, Nat.testBit_mod_two_pow, ← BitVec.getLsbD]
  by_cases hi : i < 64
  · simp [hi]
  · simp [BitVec.getLsbD_of_ge value i (by omega)]

theorem bitsOf_getD (v : Word) (n i : Nat) : (bitsOf v n).getD i false = (decide (i < n) && v.getLsbD (n - 1 - i)) := by
  by_cases h : i < n
  · rw [List.getD_eq_getElem?_getD, List.getElem?_eq_getElem (by simpa using h), bitsOf_getElem]
    simp [h]
  · rw [List.getD_eq_getElem?_getD, List.getElem?_eq_none (by simp; omega)]
    simp [h]

theorem getD_append (a b : List Bool) (i : Nat) :
    (a ++ b).getD i false = if i < a.length then a.getD i false else b.getD (i - a.length) false := by
  simp only [List.getD_eq_getElem?_getD]
  split
  · rw [List.getElem?_append_left (by assumption)]
  · rw [List.getElem?_append_right (by omega)]

theorem getD_ge {l : List Bool} {i : Nat} (h : l.length ≤ i) : l.getD i false = false := by
  rw [List.getD_eq_getElem?_getD, List.getElem?_eq_none h]
  rfl

/-- The bits of a stream not yet in whole words. -/
theorem WriterOk.rest_length {bufsz : Nat} {w : BitWriter} (h : WriterOk bufsz w) :
    (w.bits.drop (8 * (w.sent + w.pos))).length = 64 - w.avail := by
  have := h.count_eq
  have := h.tie
  rw [List.length_drop]
  omega

theorem WriterOk.cur_bit {bufsz : Nat} {w : BitWriter} (h : WriterOk bufsz w) {i : Nat} (hi : i < 64) :
    w.cur.getLsbD (63 - i) = (w.bits.drop (8 * (w.sent + w.pos))).getD i false :=
  (leftAligned_iff (by rw [h.rest_length]; have := h.avail_le; omega)).mp h.cur_eq i hi

/-- Appending bits keeps the invariants of the writer, its buffer possibly full. -/
theorem WriterOk.push {bufsz : Nat} {w : BitWriter} (h : WriterOk bufsz w) (value : Word) {len : Nat} (hlen : len ≤ 64)
    (hroom : w.hasRoom len) : WriterOk (bufsz + 8) (w.push value len) := by
  have hr := h.rest_length
  have h1 := h.avail_ge
  have h2 := h.avail_le
  have htie := h.tie
  have hcount := h.count_eq
  have hbits : ∀ x : BitWriter, x.bits = w.bits ++ bitsOf value len → x.count = w.count + len → x.count = x.bits.length :=
    fun x hx hc => by rw [hx, hc, List.length_append, bitsOf_length, hcount]
  have hk : 8 * (w.sent + w.pos) ≤ w.bits.length := by omega
  unfold BitWriter.push
  by_cases hlt : len < w.avail
  · simp only [hlt, if_true]
    have hdrop : (w.bits ++ bitsOf value len).drop (8 * (w.sent + w.pos)) =
        w.bits.drop (8 * (w.sent + w.pos)) ++ bitsOf value len := List.drop_append_of_le_length hk
    have htake : (w.bits ++ bitsOf value len).take (8 * (w.sent + w.pos)) = w.bits.take (8 * (w.sent + w.pos)) :=
      List.take_append_of_le_length hk
    exact
      { count_eq := hbits _ rfl rfl
        avail_ge := by show 1 ≤ w.avail - len; omega
        avail_le := by show w.avail - len ≤ 64; omega
        tie := by show w.count + len = 8 * (w.sent + w.pos) + (64 - (w.avail - len)); omega
        cur_eq := by
          show bitsOf _ 64 = (w.bits ++ bitsOf value len).drop (8 * (w.sent + w.pos)) ++ List.replicate (w.avail - len) false
          rw [hdrop, leftAligned_iff (by rw [List.length_append, hr, bitsOf_length]; omega)]
          intro i hi
          rw [BitVec.getLsbD_or, BitVec.getLsbD_shiftLeft, lowBits_getLsbD _ hlen, h.cur_bit hi, getD_append, hr,
            bitsOf_getD]
          by_cases c1 : i < 64 - w.avail
          · simp only [c1, if_true, show ¬(63 - i - (w.avail - len) < len) by omega, decide_false, Bool.false_and,
              Bool.and_false, Bool.or_false]
          · rw [if_neg c1, getD_ge (by omega), Bool.false_or]
            by_cases c2 : i < 64 - w.avail + len
            · simp only [show 63 - i < 64 by omega, show ¬(63 - i < w.avail - len) by omega,
                show 63 - i - (w.avail - len) < len by omega, show i - (64 - w.avail) < len by omega, decide_true,
                decide_false, Bool.not_false, Bool.true_and]
              congr 1
              omega
            · simp only [show 63 - i < w.avail - len by omega, show ¬(i - (64 - w.avail) < len) by omega, decide_true,
                decide_false, Bool.not_true, Bool.false_and, Bool.and_false]
        buf_eq := by
          show w.buf = (pack ((w.bits ++ bitsOf value len).take (8 * (w.sent + w.pos)))).drop w.sent
          rw [htake]
          exact h.buf_eq
        pos_mod := h.pos_mod
        pos_lt := Nat.lt_of_lt_of_le h.pos_lt (Nat.le_add_right _ _)
        cap_ge := hroom
        window := h.window }
  · simp only [hlt, if_false]
    have hbeB : ∀ x : Word, (beBytes x).length = 8 := fun _ => rfl
    have hpos : ∀ x : Word, (w.buf ++ beBytes x).length = w.pos + 8 := fun x => by
      rw [List.length_append, hbeB]; rfl
    have hcut : ∀ x : Word, 8 * (w.sent + (w.buf ++ beBytes x).length) = 8 * (w.sent + w.pos) + 64 := fun x => by
      rw [hpos]; omega
    have hsplit : (w.bits ++ bitsOf value len).take (8 * (w.sent + w.pos) + 64) =
        w.bits.take (8 * (w.sent + w.pos)) ++ (w.bits.drop (8 * (w.sent + w.pos)) ++ (bitsOf value len).take w.avail) := by
      rw [List.take_append, List.take_of_length_le (by omega), ← List.append_assoc, List.take_append_drop,
        show 8 * (w.sent + w.pos) + 64 - w.bits.length = w.avail by omega]
    have hrest : (w.bits ++ bitsOf value len).drop (8 * (w.sent + w.pos) + 64) = (bitsOf value len).drop w.avail := by
      rw [List.drop_append, List.drop_eq_nil_of_le (by omega), List.nil_append,
        show 8 * (w.sent + w.pos) + 64 - w.bits.length = w.avail by omega]
    have hword : bitsOf (w.cur ||| (BitVec.ofNat 64 (value.toNat % 2 ^ len) >>> (len - w.avail))) 64 =
        w.bits.drop (8 * (w.sent + w.pos)) ++ (bitsOf value len).take w.avail := by
      have := (leftAligned_iff (x := w.cur ||| (BitVec.ofNat 64 (value.toNat % 2 ^ len) >>> (len - w.avail)))
        (l := w.bits.drop (8 * (w.sent + w.pos)) ++ (bitsOf value len).take w.avail) (free := 0)
        (by rw [List.length_append, hr, List.length_take, bitsOf_length]; omega)).mpr ?_
      · rw [this, List.replicate_zero, List.append_nil]
      · intro i hi
        rw [BitVec.getLsbD_or, BitVec.getLsbD_ushiftRight, lowBits_getLsbD _ hlen, h.cur_bit hi, getD_append, hr]
        by_cases c1 : i < 64 - w.avail
        · simp only [c1, if_true, show ¬(len - w.avail + (63 - i) < len) by omega, decide_false, Bool.false_and,
            Bool.or_false]
        · rw [if_neg c1, getD_ge (by omega), Bool.false_or, List.getD_eq_getElem?_getD, List.getElem?_take,
            if_pos (by omega), ← List.getD_eq_getElem?_getD, bitsOf_getD]
          simp only [show len - w.avail + (63 - i) < len by omega, show i - (64 - w.avail) < len by omega, decide_true,
            Bool.true_and]
          congr 1
          omega
    exact
      { count_eq := hbits _ rfl rfl
        avail_ge := by show 1 ≤ 64 - (len - w.avail); omega
        avail_le := by show 64 - (len - w.avail) ≤ 64; omega
        tie := by
          show w.count + len = 8 * (w.sent + (w.buf ++ beBytes _).length) + (64 - (64 - (len - w.avail)))
          rw [hcut]
          omega
        cur_eq := by
          show bitsOf (if len - w.avail = 0 then 0 else _) 64 =
            (w.bits ++ bitsOf value len).drop (8 * (w.sent + (w.buf ++ beBytes _).length)) ++
              List.replicate (64 - (len - w.avail)) false
          rw [hcut, hrest, leftAligned_iff (by rw [List.length_drop, bitsOf_length]; omega)]
          intro i hi
          rw [List.getD_eq_getElem?_getD, List.getElem?_drop, ← List.getD_eq_getElem?_getD, bitsOf_getD]
          split
          · simp only [show ¬(w.avail + i < len) by omega, decide_false, Bool.false_and]
            exact BitVec.getLsbD_zero
          · rw [BitVec.getLsbD_shiftLeft, lowBits_getLsbD _ hlen]
            by_cases c : w.avail + i < len
            · simp only [show 63 - i < 64 by omega, show ¬(63 - i < 64 - (len - w.avail)) by omega,
                show 63 - i - (64 - (len - w.avail)) < len by omega, c, decide_true, decide_false, Bool.not_false,
                Bool.true_and]
              congr 1
              omega
            · simp only [show 63 - i < 64 - (len - w.avail) by omega, c, decide_true, decide_false, Bool.not_true,
                Bool.false_and, Bool.and_false]
        buf_eq := by
          show w.buf ++ beBytes _ =
            (pack ((w.bits ++ bitsOf value len).take (8 * (w.sent + (w.buf ++ beBytes _).length)))).drop w.sent
          have hl : (w.bits.take (8 * (w.sent + w.pos))).length = 8 * (w.sent + w.pos) := by rw [List.length_take]; omega
          rw [hcut, hsplit, pack_append _ (by omega), ← hword, pack_word, List.drop_append_of_le_length
            (by rw [pack_length, hl, bytesFor]; omega), ← h.buf_eq]
        pos_mod := by
          show (w.buf ++ beBytes _).length % 8 = 0
          have := h.pos_mod
          rw [hpos]
          omega
        pos_lt := by
          show (w.buf ++ beBytes _).length < bufsz + 8
          have := h.pos_lt
          rw [hpos]
          omega
        cap_ge := hroom
        window := h.window }

/-- Handing the whole buffer to the sink keeps the invariants. -/
theorem WriterOk.emptied {n m : Nat} {w : BitWriter} (h : WriterOk n w) (hm : 0 < m) :
    WriterOk m { w with sent := w.sent + w.pos, buf := [] } where
  count_eq := h.count_eq
  avail_ge := h.avail_ge
  avail_le := h.avail_le
  tie := h.tie
  cur_eq := h.cur_eq
  buf_eq := by
    show [] = (pack (w.bits.take (8 * (w.sent + w.pos)))).drop (w.sent + w.pos)
    rw [List.drop_eq_nil_of_le]
    rw [pack_length, List.length_take, bytesFor]
    omega
  pos_mod := rfl
  pos_lt := hm
  cap_ge := h.cap_ge
  window := h.window

/-- A write that the writer accepts: what `writeBits` answers when nothing fails. -/
theorem writeBits_of {bufsz : Nat} (hb : 0 < bufsz ∧ bufsz % 8 = 0) {w : BitWriter} {e : Env} (hopen : w.isOpen = true)
    (h : WriterOk bufsz w) (he : e.neverFails) (value : Word) {len : Nat} (hlen : len ≤ 64) (hroom : w.hasRoom len) :
    ∃ l u, writeBits bufsz value len (w, e) = .ok () (u, e.delivered w l) ∧ WriterOk bufsz u ∧ u.isOpen = true ∧
      u.kind = w.kind ∧ u.base = w.base ∧ u.cap = w.cap ∧ u.bits = w.bits ++ bitsOf value len ∧
      u.sent = w.sent + l.length ∧ l = ((pack u.bits).take u.sent).drop w.sent := by
  have hp := h.push value hlen hroom
  obtain ⟨hkind, hbase, hcap, hsent, hop⟩ := BitWriter.push_bound w value len
  have hbits : (w.push value len).bits = w.bits ++ bitsOf value len := by
    unfold BitWriter.push
    split <;> rfl
  have hcheck : (decide (w.kind = .window) && decide (w.cap.toNat < bytesFor (w.count + len))) = false := by
    simp only [Bool.and_eq_false_iff, decide_eq_false_iff_not, Nat.not_lt]
    by_cases hk : w.kind = .window
    · exact .inr (hroom hk)
    · exact .inl hk
  have run : writeBits bufsz value len (w, e) = spill bufsz value len (w, e) := by
    unfold writeBits
    rw [Cmd.get_bind]
    simp only [hopen, Bool.not_true, check_bind, hcheck, Bool.false_eq_true, if_false]
  rw [run]
  unfold spill
  rw [Cmd.modify_bind, Cmd.get_bind]
  by_cases hfull : (w.push value len).pos = bufsz
  · have hlenp : (w.push value len).buf.length = (w.push value len).pos := rfl
    have hpk : (w.push value len).buf.length + w.sent ≤ bytesFor (w.push value len).count := by
      have := hp.tie
      rw [hsent] at this
      rw [hlenp, bytesFor]
      omega
    have hdel := deliver_of (w.push value len).buf (w := w.push value len) (e := e) he
      (fun hk => by have := hp.cap_ge hk; rw [hsent]; omega) hp.window
    have hsame : e.delivered (w.push value len) (w.push value len).buf = e.delivered w (w.push value len).buf := by
      unfold Env.delivered
      rw [hkind, hbase, hsent]
    refine ⟨(w.push value len).buf, { w.push value len with
      sent := (w.push value len).sent + (w.push value len).pos, buf := [] }, ?_, hp.emptied hb.1, hop.trans hopen, hkind,
      hbase, hcap, hbits, by show _ + _ = _ + _; rw [hsent]; rfl, ?_⟩
    · simp only [hfull, if_true]
      rw [Cmd.bind_of_ok _ hdel, hsame]
      simp only [Cmd.modify_run]
      rw [hlenp, hfull]
    · show _ = ((pack (w.push value len).bits).take ((w.push value len).sent + (w.push value len).pos)).drop w.sent
      rw [pack_take (by have := hp.tie; have := hp.count_eq; omega), ← hsent, ← hp.buf_eq]
  · refine ⟨[], w.push value len, ?_, ?_, hop.trans hopen, hkind, hbase, hcap, hbits, by rw [hsent]; rfl, ?_⟩
    · simp only [hfull, if_false, Cmd.pure_run]
      congr 2
      unfold Env.delivered
      cases w.kind <;> rfl
    · have := hp.pos_lt
      have := hp.pos_mod
      exact { hp with pos_lt := by omega }
    · rw [hsent, List.drop_eq_nil_of_le]
      rw [List.length_take]
      omega

/-- What was delivered, as the claims state it. -/
theorem Delivered.intro {b w : BitWriter} {e : Env} {l : List Byte} (hk : w.kind = b.kind) (hb : w.base = b.base)
    (hc : w.cap = b.cap) (hs : w.sent = b.sent + l.length) (hl : l = ((pack w.bits).take w.sent).drop b.sent) :
    Delivered b e w (e.delivered b l) := by
  refine ⟨by omega, hk, hb, hc, Env.delivered_busErr e b l, Env.delivered_raced e b l,
    Env.delivered_dirtied e b l, Env.delivered_src e b l, Env.delivered_srcEnd e b l,
    Env.delivered_drawn e b l, fun h => ?_, fun h => ?_⟩
  · unfold Env.delivered
    rw [h, ← hl]
    exact ⟨rfl, rfl, rfl⟩
  · unfold Env.delivered
    rw [h, ← hl, hs]
    refine ⟨rfl, rfl, fun a => ?_⟩
    show Memory.read (Memory.writeAll e.mem (b.base.toNat + b.sent) l) a = _
    rw [Memory.read_writeAll, Nat.add_assoc b.base.toNat]

/-- What is left of a stream, its last byte padded, is what `BW_CLOSE` delivers. -/
theorem WriterOk.pending_eq {bufsz : Nat} {w : BitWriter} (h : WriterOk bufsz w) :
    w.pending = (pack w.bits).drop w.sent := by
  have hr := h.rest_length
  have hk : 8 * (w.sent + w.pos) ≤ w.bits.length := by have := h.tie; have := h.count_eq; omega
  have hl : (w.bits.take (8 * (w.sent + w.pos))).length = 8 * (w.sent + w.pos) := by rw [List.length_take]; omega
  have hlast : (beBytes w.cur).take (bytesFor (64 - w.avail)) = pack (w.bits.drop (8 * (w.sent + w.pos))) := by
    have hpl := pack_length (w.bits.drop (8 * (w.sent + w.pos)))
    rw [← pack_word, h.cur_eq, ← hr]
    generalize w.bits.drop (8 * (w.sent + w.pos)) = r at hr hpl ⊢
    rw [show w.avail = 64 - r.length by have := h.avail_le; omega]
    have hfin := pack_zeros r (64 - r.length)
    rw [hpl] at hfin
    rw [hfin]
  unfold BitWriter.pending
  rw [hlast, h.buf_eq]
  conv_rhs => rw [← List.take_append_drop (8 * (w.sent + w.pos)) w.bits]
  rw [pack_append _ (by omega), List.drop_append_of_le_length (by rw [pack_length, hl, bytesFor]; omega)]

/-- An open writer with nothing failing is closed: what `closeWriter` answers. -/
theorem closeWriter_of {bufsz : Nat} {w : BitWriter} {e : Env} (hopen : w.isOpen = true) (h : WriterOk bufsz w)
    (he : e.neverFails) :
    ∃ u, closeWriter (w, e) = .ok (BitVec.ofNat 64 u.count) (u, e.delivered w w.pending) ∧
      u.bits = w.bits ++ List.replicate ((8 - w.count % 8) % 8) false ∧ u.count = 8 * bytesFor w.count ∧
      u.sent = u.count / 8 ∧ u.isOpen = false ∧ u.kind = w.kind ∧ u.base = w.base ∧ u.cap = w.cap ∧
      u.sent = w.sent + w.pending.length ∧ w.pending = ((pack u.bits).take u.sent).drop w.sent := by
  have hc := h.count_eq
  have htie := h.tie
  have hplen : w.sent + w.pending.length = bytesFor w.count := by
    rw [h.pending_eq, List.length_drop, pack_length, ← hc]
    unfold bytesFor
    omega
  have hpad : w.count + (8 - w.count % 8) % 8 = 8 * bytesFor w.count := by
    unfold bytesFor
    omega
  have hdel := deliver_of w.pending
    (w := { w with bits := w.bits ++ List.replicate ((8 - w.count % 8) % 8) false,
                   count := w.count + (8 - w.count % 8) % 8 }) (e := e) he
    (fun hk => by have := h.cap_ge hk; show w.sent + _ ≤ w.cap.toNat; omega) h.window
  refine ⟨{ w with
      bits := w.bits ++ List.replicate ((8 - w.count % 8) % 8) false, count := w.count + (8 - w.count % 8) % 8,
      sent := w.sent + w.pending.length, isOpen := false, cur := 0, avail := 64, buf := [] },
    ?_, rfl, hpad, ?_, rfl, rfl, rfl, rfl, rfl, ?_⟩
  · unfold closeWriter
    rw [Cmd.get_bind]
    simp only [hopen] at hdel ⊢
    simp only [Bool.not_true, check_bind, Bool.false_eq_true, if_false, Cmd.modify_bind]
    rw [Cmd.bind_of_ok _ hdel]
    rfl
  · show w.sent + w.pending.length = (w.count + (8 - w.count % 8) % 8) / 8
    omega
  · show w.pending = ((pack (w.bits ++ List.replicate ((8 - w.count % 8) % 8) false)).take
      (w.sent + w.pending.length)).drop w.sent
    rw [hplen, hc, pack_padded, List.take_of_length_le (by rw [pack_length]), ← h.pending_eq]

end Sys2Proof.Machine
end

