-- ==== Sys2Proof/Laws/Coder.lean ====
section
/-!
SUPPORT. What the per-bit steps of the binary coder can do: their frames, and what a step does when nothing fails.
-/

namespace Sys2Proof.Machine

/-! ### Pieces over one unit, seen from the whole state -/

/-- A piece over the writer keeps the frame of the writer and touches nothing else. -/
theorem onWriter_keeps {α : Type} {x : Cmd (BitWriter × Env) α} (h : x.Keeps WriterFrame) :
    (onWriter x).Keeps fun s t => WriterFrame (s.bw, s.env) (t.bw, t.env) ∧ t = { s with bw := t.bw, env := t.env } :=
  h.zoom fun _ _ h => ⟨h, rfl⟩

/-- A piece over the reader keeps the frame of the reader and touches nothing else. -/
theorem onReader_keeps {α : Type} {x : Cmd (BitReader × Env) α} (h : x.Keeps ReaderFrame) :
    (onReader x).Keeps fun s t => ReaderFrame (s.br, s.env) (t.br, t.env) ∧ t = { s with br := t.br, env := t.env } :=
  h.zoom fun _ _ h => ⟨h, rfl⟩

/-- A piece over the predictors touches nothing else. -/
theorem onPreds_keeps {α : Type} (x : Cmd Preds α) :
    (onPreds x).Keeps fun s t => t = { s with pr := t.pr, apm := t.apm, ext := t.ext } :=
  Cmd.Keeps.zoom (Q := fun _ _ => True) (fun _ => trivial) fun _ _ _ => rfl

theorem onWriter_of {α : Type} {x : Cmd (BitWriter × Env) α} {s : State} {a : α} {u : BitWriter × Env}
    (h : x (s.bw, s.env) = .ok a u) : onWriter x s = .ok a ((s.withBw u.1).withEnv u.2) := zoom_of_ok h

theorem onReader_of {α : Type} {x : Cmd (BitReader × Env) α} {s : State} {a : α} {u : BitReader × Env}
    (h : x (s.br, s.env) = .ok a u) : onReader x s = .ok a ((s.withBr u.1).withEnv u.2) := zoom_of_ok h

/-! ### The frames of the coder -/

/-- The frame of the encoder's steps: the interval, the predictors and the writer may change, nothing else. -/
def EncoderFrame (s t : State) : Prop :=
  WriterFrame (s.bw, s.env) (t.bw, t.env) ∧
    t = { s with be := { s.be with iv := t.be.iv }, pr := t.pr, apm := t.apm, ext := t.ext, bw := t.bw, env := t.env }

theorem EncoderFrame.refl (s : State) : EncoderFrame s s := ⟨WriterFrame.refl _, rfl⟩

theorem EncoderFrame.trans (a b c : State) (h : EncoderFrame a b) (h' : EncoderFrame b c) : EncoderFrame a c := by
  refine ⟨WriterFrame.trans _ _ _ h.1 h'.1, ?_⟩
  rw [h'.2, h.2]

/-- The frame of the decoder's steps: the interval, the code window, the predictors and the reader may change, nothing else. -/
def DecoderFrame (s t : State) : Prop :=
  ReaderFrame (s.br, s.env) (t.br, t.env) ∧
    t = { s with
      be := { s.be with iv := t.be.iv, current := t.be.current }, pr := t.pr, apm := t.apm, ext := t.ext, br := t.br
      env := t.env }

theorem DecoderFrame.refl (s : State) : DecoderFrame s s := ⟨ReaderFrame.refl _, rfl⟩

theorem DecoderFrame.trans (a b c : State) (h : DecoderFrame a b) (h' : DecoderFrame b c) : DecoderFrame a c := by
  refine ⟨ReaderFrame.trans _ _ _ h.1 h'.1, ?_⟩
  rw [h'.2, h.2]

theorem EncoderFrame.of_preds {s t : State} (h : t = { s with pr := t.pr, apm := t.apm, ext := t.ext }) : EncoderFrame s t := by
  rw [h]
  exact ⟨WriterFrame.refl _, rfl⟩

theorem DecoderFrame.of_preds {s t : State} (h : t = { s with pr := t.pr, apm := t.apm, ext := t.ext }) : DecoderFrame s t := by
  rw [h]
  exact ⟨ReaderFrame.refl _, rfl⟩

theorem EncoderFrame.of_writer {s t : State}
    (h : WriterFrame (s.bw, s.env) (t.bw, t.env) ∧ t = { s with bw := t.bw, env := t.env }) : EncoderFrame s t := by
  obtain ⟨h1, h2⟩ := h
  generalize t.bw = w at h1 h2
  generalize t.env = e at h1 h2
  subst h2
  exact ⟨h1, rfl⟩

theorem DecoderFrame.of_reader {s t : State}
    (h : ReaderFrame (s.br, s.env) (t.br, t.env) ∧ t = { s with br := t.br, env := t.env }) : DecoderFrame s t := by
  obtain ⟨h1, h2⟩ := h
  generalize t.br = r at h1 h2
  generalize t.env = e at h1 h2
  subst h2
  exact ⟨h1, rfl⟩

theorem setInterval_keepsEnc (iv : Interval) : (setInterval iv).Keeps EncoderFrame :=
  Cmd.Keeps.of_modify fun _ => ⟨WriterFrame.refl _, rfl⟩

theorem setInterval_keepsDec (iv : Interval) : (setInterval iv).Keeps DecoderFrame :=
  Cmd.Keeps.of_modify fun _ => ⟨ReaderFrame.refl _, rfl⟩

theorem renormEnc_keeps : renormEnc.Keeps EncoderFrame := by
  unfold renormEnc
  refine Cmd.Keeps.bind EncoderFrame.trans (Cmd.Keeps.get EncoderFrame.refl) fun s => ?_
  refine Cmd.Keeps.ite (fun _ => ?_) (fun _ => Cmd.Keeps.pure EncoderFrame.refl _)
  exact Cmd.Keeps.bind EncoderFrame.trans ((onWriter_keeps (writeBits_keeps _ _ _)).mono EncoderFrame.of_writer)
    fun _ => setInterval_keepsEnc _

theorem renormDec_keeps : renormDec.Keeps DecoderFrame := by
  unfold renormDec
  refine Cmd.Keeps.bind DecoderFrame.trans (Cmd.Keeps.get DecoderFrame.refl) fun s => ?_
  refine Cmd.Keeps.ite (fun _ => ?_) (fun _ => Cmd.Keeps.pure DecoderFrame.refl _)
  refine Cmd.Keeps.bind DecoderFrame.trans (setInterval_keepsDec _) fun _ => ?_
  refine Cmd.Keeps.bind DecoderFrame.trans ((onReader_keeps (readBits_keeps _ _)).mono DecoderFrame.of_reader).midway fun x => ?_
  exact Cmd.Keeps.of_modify fun _ => ⟨ReaderFrame.refl _, rfl⟩

theorem encodeStep_keeps (bit : Bool) : (encodeStep bit).Keeps EncoderFrame := by
  unfold encodeStep
  refine Cmd.Keeps.bind EncoderFrame.trans (Cmd.Keeps.get EncoderFrame.refl) fun _ => ?_
  refine Cmd.Keeps.bind EncoderFrame.trans ((onPreds_keeps _).mono EncoderFrame.of_preds) fun _ => ?_
  refine Cmd.Keeps.bind EncoderFrame.trans (setInterval_keepsEnc _) fun _ => ?_
  exact Cmd.Keeps.bind EncoderFrame.trans ((onPreds_keeps _).mono EncoderFrame.of_preds) fun _ => renormEnc_keeps

theorem decodeStep_keeps : decodeStep.Keeps DecoderFrame := by
  unfold decodeStep
  refine Cmd.Keeps.bind DecoderFrame.trans (Cmd.Keeps.get DecoderFrame.refl) fun _ => ?_
  refine Cmd.Keeps.bind DecoderFrame.trans ((onPreds_keeps _).mono DecoderFrame.of_preds) fun _ => ?_
  refine Cmd.Keeps.bind DecoderFrame.trans (setInterval_keepsDec _) fun _ => ?_
  refine Cmd.Keeps.bind DecoderFrame.trans ((onPreds_keeps _).mono DecoderFrame.of_preds) fun _ => ?_
  exact Cmd.Keeps.bind DecoderFrame.trans renormDec_keeps fun _ => Cmd.Keeps.pure DecoderFrame.refl _

theorem decodeBit_keeps : decodeBit.Keeps DecoderFrame := decodeStep_keeps.reverting DecoderFrame.refl

/-- A bit coded: the frame of the encoder. -/
theorem encodeBit_frame {bit : Bool} {s t : State} (h : encodeBit bit s = .ok () t) : EncoderFrame s t :=
  (encodeStep_keeps bit).of_ok (reverting_eq_ok.mp h)

theorem encodeBits_frame : ∀ {l : List Bool} {s t : State}, encodeBits l s = .ok () t → EncoderFrame s t
  | [], s, _, h => by cases h; exact EncoderFrame.refl s
  | _ :: _, _, _, h => by
    obtain ⟨_, u, h1, h2⟩ := Cmd.bind_eq_ok.mp h
    exact EncoderFrame.trans _ _ _ (encodeBit_frame h1) (encodeBits_frame h2)

/-- The frame of the encoder's steps with a check that fails: the coder may be anything. -/
def LooseFrame (s t : State) : Prop :=
  WriterFrame (s.bw, s.env) (t.bw, t.env) ∧
    t = { s with be := t.be, pr := t.pr, apm := t.apm, ext := t.ext, bw := t.bw, env := t.env, draws := t.draws }

theorem LooseFrame.refl (s : State) : LooseFrame s s := ⟨WriterFrame.refl _, rfl⟩

theorem LooseFrame.trans (a b c : State) (h : LooseFrame a b) (h' : LooseFrame b c) : LooseFrame a c := by
  refine ⟨WriterFrame.trans _ _ _ h.1 h'.1, ?_⟩
  rw [h'.2, h.2]

theorem LooseFrame.of_encoder {s t : State} (h : EncoderFrame s t) : LooseFrame s t := by
  refine ⟨h.1, ?_⟩
  conv_lhs => rw [h.2]
  rw [h.2]

theorem encodeBit_keeps (bit : Bool) : (encodeBit bit).Keeps LooseFrame :=
  ((encodeStep_keeps bit).mono LooseFrame.of_encoder).reverting fun _ => ⟨WriterFrame.refl _, rfl⟩

theorem encodeBits_keeps : ∀ l : List Bool, (encodeBits l).Keeps LooseFrame
  | [] => Cmd.Keeps.pure LooseFrame.refl _
  | b :: r => Cmd.Keeps.bind LooseFrame.trans (encodeBit_keeps b) fun _ => encodeBits_keeps r

theorem decodeBits_keeps : ∀ (n : Nat) (acc : Word), (decodeBits n acc).Keeps DecoderFrame
  | 0, _ => Cmd.Keeps.pure DecoderFrame.refl _
  | n + 1, _ => Cmd.Keeps.bind DecoderFrame.trans decodeBit_keeps fun _ => decodeBits_keeps n _

/-! ### A step when nothing fails -/

theorem Interval.settled_iff (iv : Interval) : iv.settled = true ↔ (iv.low ^^^ iv.high) &&& 0x00FFFFFFFF000000#64 = 0 := by
  rw [Interval.settled, decide_eq_true_eq]
  rfl

/-- The coder plays no part in an update of a predictor. -/
theorem State.predUpdated_withBe (s : State) (i : Fin 2) (bit : Bool) (b : Coder) :
    (s.withBe b).predUpdated i bit = (s.predUpdated i bit).withBe b := by
  cases hk : s.pr[i].kind with
  | none => rw [State.predUpdated_none hk, State.predUpdated_none (s := s.withBe b) hk]
  | fixed => rw [State.predUpdated_fixed hk, State.predUpdated_fixed (s := s.withBe b) hk]
  | localModel => rw [State.predUpdated_local hk, State.predUpdated_local (s := s.withBe b) hk]; rfl
  | refined => rw [State.predUpdated_refined hk, State.predUpdated_refined (s := s.withBe b) hk]; rfl
  | external => rw [State.predUpdated_external hk, State.predUpdated_external (s := s.withBe b) hk]; rfl

/-- The steps of a bit coded with a usable predictor: the interval narrows, the predictor learns the bit, then the coder
renormalises. -/
theorem encodeStep_of {s : State} (bit : Bool) (h : s.predReady s.be.pslot) :
    encodeStep bit s = renormEnc
      ((s.predUpdated s.be.pslot bit).withBe { s.be with iv := s.be.iv.narrow (s.prob s.be.pslot) bit }) := by
  have hr : (s.withBe { s.be with iv := s.be.iv.narrow (s.prob s.be.pslot) bit }).predReady s.be.pslot := h
  have hu := onPreds_predUpdate_of hr bit
  rw [State.predUpdated_withBe] at hu
  unfold encodeStep
  rw [Cmd.get_bind, Cmd.bind_of_ok _ (onPreds_predGet_of h.1), setInterval, Cmd.modify_bind, Cmd.bind_of_ok _ hu]

/-- The steps of a bit decoded with a usable predictor. -/
theorem decodeStep_of {s : State} (h : s.predReady s.be.pslot) :
    let bit := s.be.iv.decide (s.prob s.be.pslot) s.be.current
    decodeStep s = (renormDec >>= fun _ => pure bit : Cmd State Bool)
      ((s.predUpdated s.be.pslot bit).withBe { s.be with iv := s.be.iv.narrow (s.prob s.be.pslot) bit }) := by
  intro bit
  have hr : (s.withBe { s.be with iv := s.be.iv.narrow (s.prob s.be.pslot) bit }).predReady s.be.pslot := h
  have hu := onPreds_predUpdate_of hr bit
  rw [State.predUpdated_withBe] at hu
  unfold decodeStep
  rw [Cmd.get_bind, Cmd.bind_of_ok _ (onPreds_predGet_of h.1), setInterval, Cmd.modify_bind, Cmd.bind_of_ok _ hu]

/-- A bit coded when its renormalisation goes through. -/
theorem encodeBit_of {s t : State} {bit : Bool} (h : s.predReady s.be.pslot)
    (hr : renormEnc ((s.predUpdated s.be.pslot bit).withBe { s.be with iv := s.be.iv.narrow (s.prob s.be.pslot) bit }) =
      .ok () t) : encodeBit bit s = .ok () t :=
  reverting_of_ok ((encodeStep_of bit h).trans hr)

/-- A bit decoded when its renormalisation goes through. -/
theorem decodeBit_of {s t : State} (h : s.predReady s.be.pslot) :
    let bit := s.be.iv.decide (s.prob s.be.pslot) s.be.current
    renormDec ((s.predUpdated s.be.pslot bit).withBe { s.be with iv := s.be.iv.narrow (s.prob s.be.pslot) bit }) = .ok () t →
      decodeBit s = .ok bit t := by
  intro bit hr
  exact reverting_of_ok ((decodeStep_of h).trans (Cmd.bind_of_ok _ hr))

/-- No renormalisation when bits 55..24 of the bounds differ. -/
theorem renormEnc_open {s : State} (h : s.be.iv.settled = false) : renormEnc s = .ok () s := by
  unfold renormEnc
  rw [Cmd.get_bind]
  simp only [h, Bool.false_eq_true, if_false, Cmd.pure_run]

theorem renormDec_open {s : State} (h : s.be.iv.settled = false) : renormDec s = .ok () s := by
  unfold renormDec
  rw [Cmd.get_bind]
  simp only [h, Bool.false_eq_true, if_false, Cmd.pure_run]

/-- A renormalisation of the encoder when the write of its group goes through. -/
theorem renormEnc_of {s : State} (h : s.be.iv.settled = true) {w : BitWriter} {e : Env}
    (hw : writeBits s.par.bufsz s.be.iv.group 32 (s.bw, s.env) = .ok () (w, e)) :
    renormEnc s = .ok () (((s.withBw w).withEnv e).withBe { s.be with iv := s.be.iv.shift }) := by
  unfold renormEnc
  rw [Cmd.get_bind]
  simp only [h, if_true]
  rw [Cmd.bind_of_ok _ (onWriter_of hw)]
  rfl

/-- A renormalisation of the decoder when its read goes through. -/
theorem renormDec_of {s : State} (h : s.be.iv.settled = true) {x : Word} {r : BitReader} {e : Env}
    (hr : readBits s.par.bufsz 32 (s.br, s.env) = .ok x (r, e)) :
    renormDec s = .ok () (((s.withBr r).withEnv e).withBe
      { s.be with iv := s.be.iv.shift, current := (s.be.current <<< 32) ||| x }) := by
  unfold renormDec
  rw [Cmd.get_bind]
  simp only [h, if_true]
  rw [setInterval, Cmd.modify_bind]
  have hx := onReader_of (s := s.withBe { s.be with iv := s.be.iv.shift }) (x := readBits s.par.bufsz 32) (a := x)
    (u := (r, e)) (by rw [State.withBe_br, State.withBe_env]; exact hr)
  rw [Cmd.bind_of_ok _ (midway_eq_ok.mpr hx), Cmd.modify_run]
  simp only [State.withBe, State.withBr, State.withEnv]

end Sys2Proof.Machine
end

