-- ==== Sys2Proof/Laws/Ans.lean ====
section
/-!
SUPPORT. The frame of ANS decoding over any reader: it keeps what reading a field keeps.
-/

namespace Sys2Proof.Machine

variable {σ : Type} {R : σ → σ → Prop} {rb : Nat → Cmd σ Word}

theorem readTableEntries_keeps (hr : ∀ s, R s s) (ht : ∀ a b c, R a b → R b c → R a c) (hb : ∀ n, (rb n).Keeps R) (lr : Nat) :
    ∀ k, (readTableEntries rb lr k).Keeps R
  | 0 => Cmd.Keeps.pure hr _
  | k + 1 => by
    unfold readTableEntries
    refine Cmd.Keeps.bind ht (hb 1) fun _ => Cmd.Keeps.ite (fun _ => ?_) (fun _ => ?_)
    · exact Cmd.Keeps.bind ht (readTableEntries_keeps hr ht hb lr k) fun _ => Cmd.Keeps.pure hr _
    · exact Cmd.Keeps.bind ht (hb lr) fun _ =>
        Cmd.Keeps.bind ht (readTableEntries_keeps hr ht hb lr k) fun _ => Cmd.Keeps.pure hr _

theorem readTable_keeps (hr : ∀ s, R s s) (ht : ∀ a b c, R a b → R b c → R a c) (hb : ∀ n, (rb n).Keeps R) (lr : Nat) :
    (readTable rb lr).Keeps R := by
  unfold readTable
  exact Cmd.Keeps.bind ht (readTableEntries_keeps hr ht hb lr 256) fun _ =>
    Cmd.Keeps.bind ht (Cmd.Keeps.checkMid hr _ _ _ _) fun _ => Cmd.Keeps.pure hr _

theorem readTables_keeps (hr : ∀ s, R s s) (ht : ∀ a b c, R a b → R b c → R a c) (hb : ∀ n, (rb n).Keeps R) (lr : Nat) :
    ∀ k, (readTables rb lr k).Keeps R
  | 0 => Cmd.Keeps.pure hr _
  | k + 1 => by
    unfold readTables
    refine Cmd.Keeps.bind ht (hb 1) fun _ => Cmd.Keeps.ite (fun _ => ?_) (fun _ => ?_)
    · exact Cmd.Keeps.bind ht (readTables_keeps hr ht hb lr k) fun _ => Cmd.Keeps.pure hr _
    · exact Cmd.Keeps.bind ht (readTable_keeps hr ht hb lr) fun _ =>
        Cmd.Keeps.bind ht (readTables_keeps hr ht hb lr k) fun _ => Cmd.Keeps.pure hr _

theorem ansRefill_keeps (hr : ∀ s, R s s) (ht : ∀ a b c, R a b → R b c → R a c) (hb : ∀ n, (rb n).Keeps R) :
    ∀ k x, (ansRefill rb k x).Keeps R
  | 0, _ => Cmd.Keeps.pure hr _
  | k + 1, x => by
    unfold ansRefill
    exact Cmd.Keeps.ite (fun _ => Cmd.Keeps.bind ht (hb 8) fun _ => ansRefill_keeps hr ht hb k _) (fun _ => Cmd.Keeps.pure hr _)

theorem ansSymbols_keeps (hr : ∀ s, R s s) (ht : ∀ a b c, R a b → R b c → R a c) (hb : ∀ n, (rb n).Keeps R) (order1 : Bool)
    (lr : Nat) (tables : List (Option (List Nat))) : ∀ k x prev, (ansSymbols rb order1 lr tables k x prev).Keeps R
  | 0, _, _ => by
    unfold ansSymbols
    exact Cmd.Keeps.bind ht (Cmd.Keeps.checkMid hr _ _ _ _) fun _ => Cmd.Keeps.pure hr _
  | k + 1, x, prev => by
    unfold ansSymbols
    cases tables.getD (if order1 then prev else 0) none with
    | none => exact Cmd.Keeps.raiseMid hr _ _ _
    | some f =>
      exact Cmd.Keeps.bind ht (ansRefill_keeps hr ht hb 4 _) fun _ =>
        Cmd.Keeps.bind ht (ansSymbols_keeps hr ht hb order1 lr tables k _ _) fun _ => Cmd.Keeps.pure hr _

/-- `AnsDecode` keeps every relation that a read of the stream keeps. -/
theorem ansDecode_keeps (hr : ∀ s, R s s) (ht : ∀ a b c, R a b → R b c → R a c) (hb : ∀ n, (rb n).Keeps R) (order1 : Bool)
    (n : Nat) : (ansDecode rb order1 n).Keeps R := by
  unfold ansDecode
  refine Cmd.Keeps.ite (fun _ => Cmd.Keeps.pure hr _) fun _ => Cmd.Keeps.bind ht (hb 4) fun t => Cmd.Keeps.midway ?_
  unfold ansDecodeRest
  refine Cmd.Keeps.bind ht (Cmd.Keeps.checkMid hr _ _ _ _) fun _ => ?_
  have rest : ∀ (lr : Nat) (tables : List (Option (List Nat))), (do
      let x ← rb 32
      checkMid (decide (x.toNat < Config.ansL) || decide (256 * Config.ansL ≤ x.toNat)) .invalidData 3
      ansSymbols rb order1 lr tables n x.toNat 0 : Cmd σ (List Byte)).Keeps R := fun lr tables =>
    Cmd.Keeps.bind ht (hb 32) fun x => Cmd.Keeps.bind ht (Cmd.Keeps.checkMid hr _ _ _ _) fun _ =>
      ansSymbols_keeps hr ht hb order1 lr tables n _ 0
  refine Cmd.Keeps.ite (fun _ => Cmd.Keeps.bind ht (readTables_keeps hr ht hb _ 256) fun tables => rest _ tables)
    (fun _ => Cmd.Keeps.bind ht (readTable_keeps hr ht hb _) fun f => ?_)
  exact Cmd.Keeps.bind ht (Cmd.Keeps.pure hr _) fun tables => rest _ tables

end Sys2Proof.Machine
end

