-- ==== Sys2Proof/Laws/MatchFinder.lean ====
section
/-!
SUPPORT. What the operations of the match finder can do: reads change nothing, an insertion changes one counter and one slot,
a search inserts its position and nothing else.
-/

namespace Sys2Proof.Machine

/-! ### An insertion -/

@[simp] theorem Rolz.insert_ready (z : Rolz) (k : Nat) (r : BitVec 32) : (z.insert k r).ready = z.ready := rfl
@[simp] theorem Rolz.insert_backend (z : Rolz) (k : Nat) (r : BitVec 32) : (z.insert k r).backend = z.backend := rfl
@[simp] theorem Rolz.insert_lpc (z : Rolz) (k : Nat) (r : BitVec 32) : (z.insert k r).lpc = z.lpc := rfl
@[simp] theorem Rolz.insert_posChecks (z : Rolz) (k : Nat) (r : BitVec 32) : (z.insert k r).posChecks = z.posChecks := rfl
@[simp] theorem Rolz.insert_cvalid (z : Rolz) (k : Nat) (r : BitVec 32) : (z.insert k r).cvalid = z.cvalid := rfl
@[simp] theorem Rolz.insert_cbase (z : Rolz) (k : Nat) (r : BitVec 32) : (z.insert k r).cbase = z.cbase := rfl
@[simp] theorem Rolz.insert_csize (z : Rolz) (k : Nat) (r : BitVec 32) : (z.insert k r).csize = z.csize := rfl
@[simp] theorem Rolz.insert_clen (z : Rolz) (k : Nat) (r : BitVec 32) : (z.insert k r).clen = z.clen := rfl

/-- The counter of the key goes up by one, no other counter changes. -/
theorem Rolz.insert_counter (z : Rolz) (k x : Nat) (r : BitVec 32) :
    (z.insert k r).counter x = if x = k then z.counter k + 1 else z.counter x := Store.get_set ..

/-- The record goes to the slot its new counter selects, no other slot changes. -/
theorem Rolz.insert_slot (z : Rolz) (k x : Nat) (r : BitVec 32) :
    (z.insert k r).slot x = if x = z.ringIndex k (z.counter k + 1) then r else z.slot x := Store.get_set ..

/-- A listed record is one listed before, or the inserted one. -/
theorem Rolz.insert_mem {z : Rolz} {k : Nat} {r : BitVec 32} {e : Nat × BitVec 32} (h : e ∈ (z.insert k r).matchRing) :
    e.2 = r ∨ e ∈ z.matchRing := by
  unfold Rolz.insert Store.set at h
  simp only at h
  split at h
  · exact .inr (Store.erase_subset _ _ _ h)
  · rcases Store.mem_insert h with rfl | h
    · exact .inl rfl
    · exact .inr (Store.erase_subset _ _ _ h)

/-! ### Frames -/

/-- The frame of a search or an insertion: only counters and slots change, and arbitrary bytes may be read. -/
def RingFrame (t u : Rolz × Env) : Prop :=
  u = ({ t.1 with counters := u.1.counters, matchRing := u.1.matchRing }, { t.2 with drawn := u.2.drawn })

theorem RingFrame.refl (t : Rolz × Env) : RingFrame t t := rfl

theorem RingFrame.draws : LetsDraw RingFrame := fun _ _ => rfl

theorem RingFrame.trans (a b c : Rolz × Env) (h : RingFrame a b) (h' : RingFrame b c) : RingFrame a c := by
  unfold RingFrame at *
  rw [h', h]

variable {R : Rolz × Env → Rolz × Env → Prop}

theorem bufByte_keeps (hd : LetsDraw R) (p : Nat) : (bufByte p).Keeps R :=
  Cmd.Keeps.get_bind fun s => memRead_keeps hd _ s

theorem matchByte_keeps (hd : LetsDraw R) (i : Nat) : (matchByte i).Keeps R := by
  unfold matchByte
  exact Cmd.Keeps.get_bind fun s =>
    Cmd.Keeps.ite (R := R) (fun _ => bufByte_keeps hd i) (fun _ => freeByte_keeps hd) s

theorem bufBytes_keeps (hd : LetsDraw R) (ht : ∀ a b c, R a b → R b c → R a c) (p n : Nat) : (bufBytes p n).Keeps R :=
  Cmd.Keeps.get_bind fun s => memReadBytes_keeps hd ht n _ s

theorem keyAt_keeps (hd : LetsDraw R) (ht : ∀ a b c, R a b → R b c → R a c) (p : Nat) : (keyAt p).Keeps R :=
  Cmd.Keeps.bind ht (bufByte_keeps hd _) fun _ => Cmd.Keeps.bind ht (bufByte_keeps hd _) fun _ => Cmd.Keeps.pure hd.refl _

theorem hashAt_keeps (hd : LetsDraw R) (ht : ∀ a b c, R a b → R b c → R a c) (p : Nat) : (hashAt p).Keeps R :=
  Cmd.Keeps.bind ht (bufByte_keeps hd _) fun _ => Cmd.Keeps.bind ht (bufByte_keeps hd _) fun _ =>
    Cmd.Keeps.bind ht (bufByte_keeps hd _) fun _ => Cmd.Keeps.pure hd.refl _

theorem extendMatch_keeps (hd : LetsDraw R) (ht : ∀ a b c, R a b → R b c → R a c) (r p maxm : Nat) :
    ∀ k n, (extendMatch r p maxm k n).Keeps R
  | 0, _ => Cmd.Keeps.pure hd.refl _
  | k + 1, n => by
    unfold extendMatch
    refine Cmd.Keeps.ite (fun _ => ?_) (fun _ => Cmd.Keeps.pure hd.refl _)
    refine Cmd.Keeps.bind ht (matchByte_keeps hd _) fun _ => Cmd.Keeps.bind ht (matchByte_keeps hd _) fun _ => ?_
    exact Cmd.Keeps.ite (fun _ => extendMatch_keeps hd ht r p maxm k (n + 1)) (fun _ => Cmd.Keeps.pure hd.refl _)

/-- A search only reads. -/
theorem searchRing_keeps (hd : LetsDraw R) (ht : ∀ a b c, R a b → R b c → R a c) (key : Nat) (h c : BitVec 32)
    (p maxm : Nat) : ∀ k j best, (searchRing key h c p maxm k j best).Keeps R
  | 0, _, _ => Cmd.Keeps.pure hd.refl _
  | k + 1, j, best => by
    unfold searchRing
    refine Cmd.Keeps.bind ht (Cmd.Keeps.get hd.refl) fun t => Cmd.Keeps.ite (fun _ => Cmd.Keeps.pure hd.refl _) fun _ => ?_
    refine Cmd.Keeps.ite (fun _ => searchRing_keeps hd ht key h c p maxm k _ _) fun _ => ?_
    refine Cmd.Keeps.bind ht (matchByte_keeps hd _) fun _ => Cmd.Keeps.bind ht (matchByte_keeps hd _) fun _ => ?_
    refine Cmd.Keeps.ite (fun _ => searchRing_keeps hd ht key h c p maxm k _ _) fun _ => ?_
    exact Cmd.Keeps.bind ht (extendMatch_keeps hd ht _ _ _ _ _) fun _ => searchRing_keeps hd ht key h c p maxm k _ _

/-- An update of the unit that inserts a record. -/
theorem setInsert_keeps (k : Nat) (r : BitVec 32) : (setRolz fun z => z.insert k r).Keeps RingFrame :=
  Cmd.Keeps.of_modify fun _ => rfl

theorem insertAt_keeps (p : Nat) : (insertAt p).Keeps RingFrame := by
  unfold insertAt
  exact Cmd.Keeps.bind RingFrame.trans (keyAt_keeps RingFrame.draws RingFrame.trans p) fun k =>
    Cmd.Keeps.bind RingFrame.trans (hashAt_keeps RingFrame.draws RingFrame.trans p) fun h => setInsert_keeps k _

theorem insertDec_keeps (p : Nat) : (insertDec p).Keeps RingFrame := by
  unfold insertDec
  exact Cmd.Keeps.bind RingFrame.trans (keyAt_keeps RingFrame.draws RingFrame.trans p) fun k => setInsert_keeps k _

theorem forPositions_keeps (hr : ∀ t, R t t) (ht : ∀ a b c, R a b → R b c → R a c) {f : Nat → Cmd (Rolz × Env) Unit}
    (hf : ∀ p, (f p).Keeps R) : ∀ n p, (forPositions f p n).Keeps R
  | 0, _ => Cmd.Keeps.pure hr _
  | n + 1, p => Cmd.Keeps.bind ht (hf p) fun _ => forPositions_keeps hr ht hf n (p + 1)

/-- `FindMatch` changes counters and slots only. -/
theorem findMatch_keeps (p : Nat) : (findMatch p).Keeps RingFrame := by
  unfold findMatch
  refine Cmd.Keeps.bind RingFrame.trans (keyAt_keeps RingFrame.draws RingFrame.trans p) fun k => ?_
  refine Cmd.Keeps.bind RingFrame.trans (hashAt_keeps RingFrame.draws RingFrame.trans p) fun h => ?_
  refine Cmd.Keeps.bind RingFrame.trans (Cmd.Keeps.get RingFrame.refl) fun t => ?_
  refine Cmd.Keeps.bind RingFrame.trans (searchRing_keeps RingFrame.draws RingFrame.trans _ _ _ _ _ _ _ _) fun best => ?_
  exact Cmd.Keeps.bind RingFrame.trans (insertAt_keeps p) fun _ => Cmd.Keeps.pure RingFrame.refl _

theorem nextMatch_keeps (p : Nat) : (if p < 2 then pure none else findMatch p : Cmd (Rolz × Env) (Option Match)).Keeps RingFrame :=
  Cmd.Keeps.ite (fun _ => Cmd.Keeps.pure RingFrame.refl _) (fun _ => findMatch_keeps p)

theorem lookup_keeps (hd : LetsDraw R) (ht : ∀ a b c, R a b → R b c → R a c) (p idx : Nat) : (lookup p idx).Keeps R := by
  unfold lookup
  exact Cmd.Keeps.bind ht (keyAt_keeps hd ht p) fun k => Cmd.Keeps.bind ht (Cmd.Keeps.get hd.refl) fun t =>
    Cmd.Keeps.bind ht (Cmd.Keeps.checkMid hd.refl _ _ _ _) fun _ => Cmd.Keeps.pure hd.refl _

/-! ### When MEM does not fail and nothing races -/

variable {z : Rolz} {e : Env}

theorem bufByte_of (h : e.quiet) {p : Nat} (hp : z.cbase.toNat + p < 2 ^ 32) : bufByte p (z, e) = .ok (z.buf e p) (z, e) :=
  memRead_of (t := (z, e)) h hp

theorem keyAt_of (h : e.quiet) {p : Nat} (hp : z.cbase.toNat + p < 2 ^ 32) : keyAt p (z, e) = .ok (z.key e p) (z, e) := by
  unfold keyAt
  rw [Cmd.bind_of_ok _ (bufByte_of h (by omega)), Cmd.bind_of_ok _ (bufByte_of h (by omega))]
  rfl

theorem hashAt_of (h : e.quiet) {p : Nat} (hp : z.cbase.toNat + p + 2 < 2 ^ 32) :
    hashAt p (z, e) = .ok (z.hash e p) (z, e) := by
  unfold hashAt
  rw [Cmd.bind_of_ok _ (bufByte_of h (by omega)), Cmd.bind_of_ok _ (bufByte_of h (by omega)),
    Cmd.bind_of_ok _ (bufByte_of h (by omega))]
  rfl

theorem insertAt_of (h : e.quiet) {p : Nat} (hp : z.cbase.toNat + p + 2 < 2 ^ 32) :
    insertAt p (z, e) = .ok () (z.insert (z.key e p) (z.hash e p ||| BitVec.ofNat 32 p), e) := by
  unfold insertAt
  rw [Cmd.bind_of_ok _ (keyAt_of h (by omega)), Cmd.bind_of_ok _ (hashAt_of h hp)]
  rfl

/-- A byte of a comparison: of the chunk's window as it is, behind it an arbitrary one. -/
theorem matchByte_of (h : e.quiet) (hz : z.chunkFits) (i : Nat) :
    ∃ b d, matchByte i (z, e) = .ok b (z, { e with drawn := d }) ∧
      (i < z.clen.toNat → b = z.buf e i ∧ d = e.drawn) := by
  unfold matchByte
  rw [Cmd.get_bind]
  by_cases hi : i < z.clen.toNat
  · simp only [hi, if_true]
    exact ⟨z.buf e i, e.drawn, bufByte_of h (by have := hz.2; omega), fun _ => ⟨rfl, rfl⟩⟩
  · simp only [hi, if_false]
    exact ⟨Config.freeByte e.drawn, e.drawn + 1, rfl, fun hc => absurd hc id⟩

/-- A comparison ends within its bound. -/
theorem extendMatch_of (hz : z.chunkFits) (r p maxm : Nat) : ∀ (k n : Nat) {e : Env}, e.quiet → n ≤ maxm →
    ∃ m d, extendMatch r p maxm k n (z, e) = .ok m (z, { e with drawn := d }) ∧ n ≤ m ∧ m ≤ maxm
  | 0, n, e, _, hn => ⟨n, e.drawn, rfl, le_refl n, hn⟩
  | k + 1, n, e, h, hn => by
    unfold extendMatch
    by_cases hm : n < maxm
    · simp only [hm, if_true]
      obtain ⟨a, d1, h1, -⟩ := matchByte_of h hz (r + n)
      obtain ⟨b, d2, h2, -⟩ := matchByte_of (e := { e with drawn := d1 }) h hz (p + n)
      rw [Cmd.bind_of_ok _ h1, Cmd.bind_of_ok _ h2]
      by_cases hab : a = b
      · simp only [hab, if_true]
        obtain ⟨m, d3, h3, h4, h5⟩ := extendMatch_of hz r p maxm k (n + 1) (e := { e with drawn := d2 }) h hm
        exact ⟨m, d3, h3, by omega, h5⟩
      · simp only [hab, if_false]
        exact ⟨n, d2, rfl, le_refl n, hn⟩
    · simp only [hm, if_false]
      exact ⟨n, e.drawn, rfl, le_refl n, hn⟩

/-- A search ends: with the candidate it had, or a longer one within the bound. -/
theorem searchRing_of (hz : z.chunkFits) (key : Nat) (hash c : BitVec 32) (p maxm : Nat) (hmax : 1 ≤ maxm) :
    ∀ (k j : Nat) (best : Best) {e : Env}, e.quiet →
    ∃ x d, searchRing key hash c p maxm k j best (z, e) = .ok x (z, { e with drawn := d }) ∧
      (x = best ∨ (best.len < x.len ∧ x.len ≤ maxm ∧ ∃ i, x.idx = some i ∧ j ≤ i ∧ i < j + k))
  | 0, _, best, e, _ => ⟨best, e.drawn, rfl, .inl rfl⟩
  | k + 1, j, best, e, h => by
    have later : ∀ {x : Best} {b : Best}, (x = b ∨ (b.len < x.len ∧ x.len ≤ maxm ∧ ∃ i, x.idx = some i ∧ j + 1 ≤ i ∧ i < j + 1 + k)) →
        (b = best ∨ (best.len < b.len ∧ b.len ≤ maxm ∧ b.idx = some j)) →
        (x = best ∨ (best.len < x.len ∧ x.len ≤ maxm ∧ ∃ i, x.idx = some i ∧ j ≤ i ∧ i < j + (k + 1))) := by
      intro x b hx hb
      rcases hx with rfl | ⟨h1, h2, i, h3, h4, h5⟩
      · rcases hb with rfl | ⟨h6, h7, h8⟩
        · exact .inl rfl
        · exact .inr ⟨h6, h7, j, h8, le_refl j, by omega⟩
      · rcases hb with rfl | ⟨h6, -, -⟩
        · exact .inr ⟨h1, h2, i, h3, by omega, by omega⟩
        · exact .inr ⟨by omega, h2, i, h3, by omega, by omega⟩
    unfold searchRing
    rw [Cmd.get_bind]
    simp only
    split
    · exact ⟨best, e.drawn, rfl, .inl rfl⟩
    · split
      · obtain ⟨x, d, h1, h2⟩ := searchRing_of hz key hash c p maxm hmax k (j + 1) best h
        exact ⟨x, d, h1, later h2 (.inl rfl)⟩
      · obtain ⟨a, d1, h1, -⟩ := matchByte_of h hz
          (recordPos (z.slot (z.ringIndex key (c - BitVec.ofNat 32 j))))
        obtain ⟨b, d2, h2, -⟩ := matchByte_of (e := { e with drawn := d1 }) h hz p
        rw [Cmd.bind_of_ok _ h1, Cmd.bind_of_ok _ h2]
        split
        · obtain ⟨x, d, h3, h4⟩ := searchRing_of hz key hash c p maxm hmax k (j + 1) best (e := { e with drawn := d2 }) h
          exact ⟨x, d, h3, later h4 (.inl rfl)⟩
        · obtain ⟨n, d3, h3, -, h5⟩ := extendMatch_of hz
            (recordPos (z.slot (z.ringIndex key (c - BitVec.ofNat 32 j)))) p maxm (Config.maxMatch - 1) 1
            (e := { e with drawn := d2 }) h hmax
          rw [Cmd.bind_of_ok _ h3]
          obtain ⟨x, d, h6, h7⟩ := searchRing_of hz key hash c p maxm hmax k (j + 1)
            (if best.len < n then { len := n, idx := some j } else best) (e := { e with drawn := d3 }) h
          refine ⟨x, d, h6, later h7 ?_⟩
          split
          · exact .inr ⟨by assumption, h5, rfl⟩
          · exact .inl rfl

/-- `FindMatch` on a position of the chunk, asked in any order: it answers none or a match within its bounds, and inserts the
position. -/
theorem findMatch_of (h : e.quiet) (hz : z.chunkFits) {p : Nat} (hp : p < z.csize.toNat) :
    ∃ x d, findMatch p (z, e) =
        .ok x (z.insert (z.key e p) (z.hash e p ||| BitVec.ofNat 32 p), { e with drawn := d }) ∧
      ∀ m, x = some m → 3 ≤ m.len ∧ m.len ≤ min 258 (z.csize.toNat - p) ∧ m.idx < z.posChecks := by
  have hfit : z.cbase.toNat + z.csize.toNat + 4 ≤ 2 ^ 32 := by have := hz.1; have := hz.2; omega
  unfold findMatch
  rw [Cmd.bind_of_ok _ (keyAt_of h (by omega)), Cmd.bind_of_ok _ (hashAt_of h (by omega)), Cmd.get_bind]
  obtain ⟨x, d, h1, h2⟩ := searchRing_of hz (z.key e p) (z.hash e p) (z.counter (z.key e p)) p
    (min Config.maxMatch (z.csize.toNat - p)) (by unfold Config.maxMatch; omega) z.posChecks 0
    { len := Config.minMatch - 1, idx := none } h
  simp only
  rw [Cmd.bind_of_ok _ h1, Cmd.bind_of_ok _ (insertAt_of (e := { e with drawn := d }) h (by omega))]
  refine ⟨x.idx.map fun j => { idx := j, len := x.len }, d, rfl, fun m hm => ?_⟩
  rcases h2 with rfl | ⟨h3, h4, i, h5, -, h7⟩
  · cases hm
  · rw [h5] at hm
    cases hm
    unfold Config.maxMatch at h4
    have : (2 : Nat) < x.len := h3
    exact ⟨this, h4, by simpa using h7⟩

end Sys2Proof.Machine
end

