-- ==== Sys2Proof/Laws/PerInstr.lean ====
section
/-!
SUPPORT. Per-instruction statements: the opcode field of a command's word is its row's opcode, whatever its operands
(30_encoding.md R101, R105).
-/

namespace Sys2Proof

/-- The opcode field of the word of five fields. -/
theorem fieldOpcode_commandWord (opcode a : BitVec 8) (b : BitVec 16) (c : BitVec 32) (v : Word) :
    fieldOpcode (commandWord opcode a b c v) = opcode := by
  unfold fieldOpcode commandWord
  refine BitVec.eq_of_getLsbD_eq fun i hi => ?_
  simp only [BitVec.getLsbD_extractLsb', BitVec.getLsbD_append, hi, decide_true, Bool.true_and,
    show ¬120 + i < 64 by omega, if_false, show ¬120 + i - 64 < 32 by omega, show ¬120 + i - 64 - 32 < 16 by omega,
    show ¬120 + i - 64 - 32 - 16 < 8 by omega]
  congr 1
  omega

/-- The opcode field of the encoding. -/
def Laws.OpcodeField.Statement (i : Instr) : Prop := fieldOpcode (encode i) = i.opcode

theorem Laws.OpcodeField.nop : Laws.OpcodeField.Statement (.nop) :=
  fieldOpcode_commandWord ..

theorem Laws.OpcodeField.reset : Laws.OpcodeField.Statement (.reset) :=
  fieldOpcode_commandWord ..

theorem Laws.OpcodeField.csrr (idx : BitVec 8) : Laws.OpcodeField.Statement (.csrr idx) :=
  fieldOpcode_commandWord ..

theorem Laws.OpcodeField.csrw (idx : BitVec 8) (value : Word) : Laws.OpcodeField.Statement (.csrw idx value) :=
  fieldOpcode_commandWord ..

theorem Laws.OpcodeField.bwOpen (kind : BitVec 8) : Laws.OpcodeField.Statement (.bwOpen kind) :=
  fieldOpcode_commandWord ..

theorem Laws.OpcodeField.bwBit (bit : Bool) : Laws.OpcodeField.Statement (.bwBit bit) :=
  fieldOpcode_commandWord ..

theorem Laws.OpcodeField.bwBits (len : BitVec 8) (value : Word) : Laws.OpcodeField.Statement (.bwBits len value) :=
  fieldOpcode_commandWord ..

theorem Laws.OpcodeField.bwClose : Laws.OpcodeField.Statement (.bwClose) :=
  fieldOpcode_commandWord ..

theorem Laws.OpcodeField.brOpen (kind : BitVec 8) : Laws.OpcodeField.Statement (.brOpen kind) :=
  fieldOpcode_commandWord ..

theorem Laws.OpcodeField.brBit : Laws.OpcodeField.Statement (.brBit) :=
  fieldOpcode_commandWord ..

theorem Laws.OpcodeField.brBits (len : BitVec 8) : Laws.OpcodeField.Statement (.brBits len) :=
  fieldOpcode_commandWord ..

theorem Laws.OpcodeField.brMore : Laws.OpcodeField.Statement (.brMore) :=
  fieldOpcode_commandWord ..

theorem Laws.OpcodeField.brClose : Laws.OpcodeField.Statement (.brClose) :=
  fieldOpcode_commandWord ..

theorem Laws.OpcodeField.brRead : Laws.OpcodeField.Statement (.brRead) :=
  fieldOpcode_commandWord ..

theorem Laws.OpcodeField.apmInit (slot : BitVec 4) (variant : BitVec 2) (rate : BitVec 4) (n : BitVec 32) : Laws.OpcodeField.Statement (.apmInit slot variant rate n) :=
  fieldOpcode_commandWord ..

theorem Laws.OpcodeField.apmGet (slot : BitVec 4) (bit : Bool) (pr : Prob12) (ctx : BitVec 32) : Laws.OpcodeField.Statement (.apmGet slot bit pr ctx) :=
  fieldOpcode_commandWord ..

theorem Laws.OpcodeField.prInit (slot : BitVec 4) (kind : BitVec 8) (arg : BitVec 32) : Laws.OpcodeField.Statement (.prInit slot kind arg) :=
  fieldOpcode_commandWord ..

theorem Laws.OpcodeField.prGet (slot : BitVec 4) : Laws.OpcodeField.Statement (.prGet slot) :=
  fieldOpcode_commandWord ..

theorem Laws.OpcodeField.prUpdate (slot : BitVec 4) (bit : Bool) : Laws.OpcodeField.Statement (.prUpdate slot bit) :=
  fieldOpcode_commandWord ..

theorem Laws.OpcodeField.prSetctx (slot : BitVec 4) (byte : Byte) : Laws.OpcodeField.Statement (.prSetctx slot byte) :=
  fieldOpcode_commandWord ..

theorem Laws.OpcodeField.beEncInit (pslot : BitVec 4) : Laws.OpcodeField.Statement (.beEncInit pslot) :=
  fieldOpcode_commandWord ..

theorem Laws.OpcodeField.beEncBit (bit : Bool) : Laws.OpcodeField.Statement (.beEncBit bit) :=
  fieldOpcode_commandWord ..

theorem Laws.OpcodeField.beEncBits (n : BitVec 8) (value : Word) : Laws.OpcodeField.Statement (.beEncBits n value) :=
  fieldOpcode_commandWord ..

theorem Laws.OpcodeField.beEncDispose : Laws.OpcodeField.Statement (.beEncDispose) :=
  fieldOpcode_commandWord ..

theorem Laws.OpcodeField.beDecInit (pslot : BitVec 4) : Laws.OpcodeField.Statement (.beDecInit pslot) :=
  fieldOpcode_commandWord ..

theorem Laws.OpcodeField.beDecBit : Laws.OpcodeField.Statement (.beDecBit) :=
  fieldOpcode_commandWord ..

theorem Laws.OpcodeField.beDecBits (n : BitVec 8) : Laws.OpcodeField.Statement (.beDecBits n) :=
  fieldOpcode_commandWord ..

theorem Laws.OpcodeField.beDecDispose : Laws.OpcodeField.Statement (.beDecDispose) :=
  fieldOpcode_commandWord ..

theorem Laws.OpcodeField.beSetpred (pslot : BitVec 4) : Laws.OpcodeField.Statement (.beSetpred pslot) :=
  fieldOpcode_commandWord ..

theorem Laws.OpcodeField.ansEnc (order : BitVec 8) (n : BitVec 32) (off : BitVec 32) : Laws.OpcodeField.Statement (.ansEnc order n off) :=
  fieldOpcode_commandWord ..

theorem Laws.OpcodeField.ansDec (order : BitVec 8) (n : BitVec 32) (off : BitVec 32) : Laws.OpcodeField.Statement (.ansDec order n off) :=
  fieldOpcode_commandWord ..

theorem Laws.OpcodeField.rzInit (backend : BitVec 8) (lpc : BitVec 8) : Laws.OpcodeField.Statement (.rzInit backend lpc) :=
  fieldOpcode_commandWord ..

theorem Laws.OpcodeField.rzFwd : Laws.OpcodeField.Statement (.rzFwd) :=
  fieldOpcode_commandWord ..

theorem Laws.OpcodeField.rzInv : Laws.OpcodeField.Statement (.rzInv) :=
  fieldOpcode_commandWord ..

theorem Laws.OpcodeField.rzChunk (newblock : Bool) (start : BitVec 32) (size : BitVec 32) : Laws.OpcodeField.Statement (.rzChunk newblock start size) :=
  fieldOpcode_commandWord ..

theorem Laws.OpcodeField.rzFind (p : BitVec 32) : Laws.OpcodeField.Statement (.rzFind p) :=
  fieldOpcode_commandWord ..

theorem Laws.OpcodeField.rzEmitlen (l : BitVec 32) (m : BitVec 16) : Laws.OpcodeField.Statement (.rzEmitlen l m) :=
  fieldOpcode_commandWord ..

theorem Laws.OpcodeField.rzReadlen (packed : Word) : Laws.OpcodeField.Statement (.rzReadlen packed) :=
  fieldOpcode_commandWord ..

end Sys2Proof
end

