-- ==== Sys2Proof/Laws/Rolz.lean ====
section
/-!
SUPPORT. The frames of the ROLZ block operations: what of the unit an encoded or decoded block leaves alone, and which bytes of
MEM it may store.
-/

namespace Sys2Proof.Machine

/-! ### The frame of a block -/

/-- The frame of every piece of a block command: the configuration of the unit stays, MEM changes within `P` only, and of the
host's side nothing else does. -/
structure BlockFrame (P : Nat → Prop) (t u : Rolz × Env) : Prop where
  ready : u.1.ready = t.1.ready
  backend : u.1.backend = t.1.backend
  lpc : u.1.lpc = t.1.lpc
  env : Env.Within P t.2 u.2

variable {P : Nat → Prop}

theorem BlockFrame.draws : LetsDraw (BlockFrame P) := fun _ _ => ⟨rfl, rfl, rfl, rfl, Memory.Within.refl _⟩

theorem BlockFrame.refl (t : Rolz × Env) : BlockFrame P t t := ⟨rfl, rfl, rfl, Env.Within.refl _⟩

theorem BlockFrame.trans (a b c : Rolz × Env) (h : BlockFrame P a b) (h' : BlockFrame P b c) : BlockFrame P a c :=
  ⟨h'.ready.trans h.ready, h'.backend.trans h.backend, h'.lpc.trans h.lpc, h.env.trans h'.env⟩

theorem BlockFrame.of_ring {t u : Rolz × Env} (h : RingFrame t u) : BlockFrame P t u := by
  unfold RingFrame at h
  rw [h]
  exact ⟨rfl, rfl, rfl, rfl, Memory.Within.refl _⟩

theorem openChunk_keeps (base len : BitVec 32) (start size : Nat) : (openChunk base len start size).Keeps (BlockFrame P) :=
  Cmd.Keeps.of_modify fun _ => ⟨rfl, rfl, rfl, Env.Within.refl _⟩

theorem endBlock_keeps : endBlock.Keeps (BlockFrame P) :=
  Cmd.Keeps.of_modify fun _ => ⟨rfl, rfl, rfl, Env.Within.refl _⟩

/-- A write to MEM inside a block command. -/
theorem memWrite_block {a : Nat} (v : Byte) (hp : P a) : (memWrite a v : Cmd (Rolz × Env) Unit).Keeps (BlockFrame P) :=
  Cmd.Keeps.intro
    (fun s _ t h => by
      obtain ⟨⟨ha, -⟩, rfl⟩ := memWrite_eq_ok.mp h
      exact ⟨rfl, rfl, rfl, rfl, Memory.Within.write _ v ha hp⟩)
    (fun s _ t h => by rw [(memWrite_eq_error.mp h).2]; exact BlockFrame.refl _)

theorem memWriteBytes_block (l : List Byte) {a : Nat} (hp : ∀ c, a ≤ c → c < a + l.length → P c) :
    (memWriteBytes a l : Cmd (Rolz × Env) Unit).Keeps (BlockFrame P) := by
  induction l generalizing a with
  | nil => exact Cmd.Keeps.pure BlockFrame.refl _
  | cons b r ih =>
    rw [List.length_cons] at hp
    exact Cmd.Keeps.bind BlockFrame.trans (memWrite_block b (hp a (le_refl a) (by omega)))
      fun _ => ih fun c h1 h2 => hp c (by omega) (by omega)

/-! ### Encoding -/

/-- The bytes of the DST window. -/
def Windows.dst (w : Windows) (a : Nat) : Prop := inWindow w.dstBase w.dstCap a

variable {w : Windows}

theorem emitByte_keeps (o : Nat) (b : Byte) : (emitByte w o b).Keeps (BlockFrame w.dst) := by
  unfold emitByte
  refine Cmd.Keeps.checkMid_then BlockFrame.refl fun h => ?_
  rw [decide_eq_false_iff_not] at h
  exact Cmd.Keeps.bind BlockFrame.trans (memWrite_block b ⟨Nat.le_add_right _ _, by omega⟩)
    fun _ => Cmd.Keeps.pure BlockFrame.refl _

theorem emitBytes_keeps : ∀ (l : List Byte) (o : Nat), (emitBytes w o l).Keeps (BlockFrame w.dst)
  | [], _ => Cmd.Keeps.pure BlockFrame.refl _
  | b :: r, o => Cmd.Keeps.bind BlockFrame.trans (emitByte_keeps o b) fun _ => emitBytes_keeps r _

theorem parseEnd_keeps (size first : Nat) : (parseEnd size first).Keeps (BlockFrame P) := by
  unfold parseEnd
  exact Cmd.Keeps.bind BlockFrame.trans (bufBytes_keeps BlockFrame.draws BlockFrame.trans _ _)
    fun _ => Cmd.Keeps.pure BlockFrame.refl _

theorem parseChunk_keeps (size : Nat) : ∀ k p first, (parseChunk size k p first).Keeps (BlockFrame P)
  | 0, _, first => parseEnd_keeps size first
  | k + 1, p, first => by
    unfold parseChunk
    refine Cmd.Keeps.ite (fun _ => parseEnd_keeps size first) fun _ => ?_
    refine Cmd.Keeps.bind BlockFrame.trans ((nextMatch_keeps p).mono BlockFrame.of_ring) fun x => ?_
    cases x with
    | none => exact parseChunk_keeps size k (p + 1) first
    | some m =>
      refine Cmd.Keeps.bind BlockFrame.trans (bufBytes_keeps BlockFrame.draws BlockFrame.trans _ _) fun _ => ?_
      refine Cmd.Keeps.bind BlockFrame.trans
        ((forPositions_keeps RingFrame.refl RingFrame.trans insertAt_keeps _ _).mono BlockFrame.of_ring) fun _ => ?_
      exact Cmd.Keeps.bind BlockFrame.trans (parseChunk_keeps size k _ _) fun _ => Cmd.Keeps.pure BlockFrame.refl _

theorem encodeChunk1_keeps (lr start size o : Nat) : (encodeChunk1 w lr start size o).Keeps (BlockFrame w.dst) :=
  Cmd.Keeps.bind BlockFrame.trans (openChunk_keeps _ _ _ _) fun _ =>
    Cmd.Keeps.bind BlockFrame.trans (parseChunk_keeps size size 0 0) fun _ => emitBytes_keeps _ o

theorem encodeChunks1_keeps (lr : Nat) : ∀ l o, (encodeChunks1 w lr l o).Keeps (BlockFrame w.dst)
  | [], _ => Cmd.Keeps.pure BlockFrame.refl _
  | _ :: r, _ => Cmd.Keeps.bind BlockFrame.trans (encodeChunk1_keeps lr _ _ _) fun _ => encodeChunks1_keeps lr r _

theorem encodeBit2_keeps (m : LocalModel) (iv : Interval) (o : Nat) (bit : Bool) :
    (encodeBit2 w m iv o bit).Keeps (BlockFrame w.dst) :=
  Cmd.Keeps.ite
    (fun _ => Cmd.Keeps.bind BlockFrame.trans (emitBytes_keeps _ _) fun _ => Cmd.Keeps.pure BlockFrame.refl _)
    (fun _ => Cmd.Keeps.pure BlockFrame.refl _)

theorem encodeBits2_keeps : ∀ (l : List Bool) (m : LocalModel) (iv : Interval) (o : Nat),
    (encodeBits2 w m iv o l).Keeps (BlockFrame w.dst)
  | [], _, _, _ => Cmd.Keeps.pure BlockFrame.refl _
  | b :: r, m, iv, o =>
    Cmd.Keeps.bind BlockFrame.trans (encodeBit2_keeps m iv o b) fun _ => encodeBits2_keeps r _ _ _

theorem encodeSymbol_keeps (c : Enc2) (sym : Nat) : (encodeSymbol w c sym).Keeps (BlockFrame w.dst) :=
  Cmd.Keeps.bind BlockFrame.trans (encodeBits2_keeps _ _ _ _) fun _ => Cmd.Keeps.pure BlockFrame.refl _

theorem encodeIndex_keeps (c : Enc2) (prev : Byte) (lpc idx : Nat) : (encodeIndex w c prev lpc idx).Keeps (BlockFrame w.dst) :=
  Cmd.Keeps.bind BlockFrame.trans (encodeBits2_keeps _ _ _ _) fun _ => Cmd.Keeps.pure BlockFrame.refl _

theorem encodeChunk2_keeps (size : Nat) : ∀ k p c, (encodeChunk2 w size k p c).Keeps (BlockFrame w.dst)
  | 0, _, _ => Cmd.Keeps.pure BlockFrame.refl _
  | k + 1, p, c => by
    unfold encodeChunk2
    refine Cmd.Keeps.ite (fun _ => Cmd.Keeps.pure BlockFrame.refl _) fun _ => ?_
    refine Cmd.Keeps.bind BlockFrame.trans ((nextMatch_keeps p).mono BlockFrame.of_ring) fun x => ?_
    cases x with
    | none =>
      exact Cmd.Keeps.bind BlockFrame.trans (bufByte_keeps BlockFrame.draws _) fun _ =>
        Cmd.Keeps.bind BlockFrame.trans (encodeSymbol_keeps _ _) fun _ =>
          Cmd.Keeps.bind BlockFrame.trans (bufByte_keeps BlockFrame.draws _) fun _ => encodeChunk2_keeps size k _ _
    | some m =>
      refine Cmd.Keeps.bind BlockFrame.trans (encodeSymbol_keeps _ _) fun _ => ?_
      refine Cmd.Keeps.bind BlockFrame.trans (bufByte_keeps BlockFrame.draws _) fun _ => ?_
      refine Cmd.Keeps.bind BlockFrame.trans (Cmd.Keeps.get BlockFrame.refl) fun _ => ?_
      refine Cmd.Keeps.bind BlockFrame.trans (encodeIndex_keeps _ _ _ _) fun _ => ?_
      exact Cmd.Keeps.bind BlockFrame.trans
        ((forPositions_keeps RingFrame.refl RingFrame.trans insertAt_keeps _ _).mono BlockFrame.of_ring) fun _ =>
          encodeChunk2_keeps size k _ _

theorem encodeChunks2_keeps : ∀ l c, (encodeChunks2 w l c).Keeps (BlockFrame w.dst)
  | [], _ => Cmd.Keeps.pure BlockFrame.refl _
  | _ :: r, _ => Cmd.Keeps.bind BlockFrame.trans (openChunk_keeps _ _ _ _) fun _ =>
      Cmd.Keeps.bind BlockFrame.trans (encodeChunk2_keeps _ _ _ _) fun _ => encodeChunks2_keeps r _

theorem encodeBlock2_keeps (srcEnd o : Nat) : (encodeBlock2 w srcEnd o).Keeps (BlockFrame w.dst) :=
  Cmd.Keeps.bind BlockFrame.trans (Cmd.Keeps.get BlockFrame.refl) fun _ =>
    Cmd.Keeps.bind BlockFrame.trans (encodeChunks2_keeps _ _) fun _ => emitBytes_keeps _ _

theorem emitTail_keeps : ∀ n src o, (emitTail w src o n).Keeps (BlockFrame w.dst)
  | 0, _, _ => Cmd.Keeps.pure BlockFrame.refl _
  | n + 1, _, _ => Cmd.Keeps.bind BlockFrame.trans (memRead_keeps BlockFrame.draws _) fun _ =>
      Cmd.Keeps.bind BlockFrame.trans (emitByte_keeps _ _) fun _ => emitTail_keeps n _ _

/-- `RZ_FWD` stores to its DST window only, and keeps the configuration of the unit. -/
theorem encodeBlock_keeps (lr : Nat) : (encodeBlock w lr).Keeps (BlockFrame w.dst) := by
  unfold encodeBlock
  refine Cmd.Keeps.bind BlockFrame.trans (Cmd.Keeps.of_modify fun _ => ⟨rfl, rfl, rfl, Env.Within.refl _⟩) fun _ => ?_
  refine Cmd.Keeps.ite
    (fun _ => Cmd.Keeps.bind BlockFrame.trans endBlock_keeps fun _ => Cmd.Keeps.pure BlockFrame.refl _) fun _ => ?_
  refine Cmd.Keeps.checkMid_then BlockFrame.refl fun h => ?_
  rw [decide_eq_false_iff_not] at h
  have hlen : (beBytes4 w.srcLen).length = 4 := rfl
  refine Cmd.Keeps.bind BlockFrame.trans
    (memWriteBytes_block _ fun c h1 h2 => ⟨h1, by rw [hlen] at h2; omega⟩) fun _ => ?_
  refine Cmd.Keeps.bind BlockFrame.trans (Cmd.Keeps.bind BlockFrame.trans (Cmd.Keeps.get BlockFrame.refl) fun t =>
    Cmd.Keeps.ite (fun _ => encodeChunks1_keeps lr _ _) fun _ =>
      Cmd.Keeps.ite (fun _ => encodeBlock2_keeps _ _) (fun _ => Cmd.Keeps.pure BlockFrame.refl _)) fun _ => ?_
  exact Cmd.Keeps.bind BlockFrame.trans (emitTail_keeps _ _ _) fun _ =>
    Cmd.Keeps.bind BlockFrame.trans endBlock_keeps fun _ => Cmd.Keeps.pure BlockFrame.refl _

/-! ### Decoding -/

/-- The bytes of a chunk of `n` bytes from `b` on. -/
def inChunk (b n a : Nat) : Prop := b ≤ a ∧ a < b + n

/-- The frame of the pieces that rebuild a chunk whose window begins at address `b`. -/
def ChunkFrame (b n : Nat) (t u : Rolz × Env) : Prop :=
  t.1.cbase.toNat = b → u.1.cbase = t.1.cbase ∧ BlockFrame (inChunk b n) t u

variable {b n : Nat}

theorem ChunkFrame.refl (t : Rolz × Env) : ChunkFrame b n t t := fun _ => ⟨rfl, BlockFrame.refl t⟩

theorem ChunkFrame.draws : LetsDraw (ChunkFrame b n) := fun t d _ => ⟨rfl, BlockFrame.draws t d⟩

theorem ChunkFrame.trans (x y z : Rolz × Env) (h : ChunkFrame b n x y) (h' : ChunkFrame b n y z) : ChunkFrame b n x z :=
  fun hb => by
    obtain ⟨h1, h2⟩ := h hb
    obtain ⟨h3, h4⟩ := h' (by rw [h1]; exact hb)
    exact ⟨h3.trans h1, BlockFrame.trans _ _ _ h2 h4⟩

theorem ChunkFrame.of_ring {t u : Rolz × Env} (h : RingFrame t u) : ChunkFrame b n t u := fun _ =>
  ⟨by unfold RingFrame at h; rw [h], BlockFrame.of_ring h⟩

theorem setBuf_keeps {p : Nat} (hp : p < n) (v : Byte) : (setBuf p v).Keeps (ChunkFrame b n) :=
  Cmd.Keeps.get_bind fun s hb => by
    obtain ⟨z, e⟩ := s
    have hz : z.cbase.toNat = b := hb
    refine (Cmd.Keeps.intro (fun s a t h => ?_) (fun s x t h => ?_) :
      Cmd.Keeps (fun t u => u.1 = t.1 ∧ BlockFrame (inChunk b n) t u) (memWrite (z.cbase.toNat + p) v)) (z, e) |>.imp
        (fun h => by rw [h]) id
    · obtain ⟨⟨ha, -⟩, rfl⟩ := memWrite_eq_ok.mp h
      exact ⟨rfl, rfl, rfl, rfl, rfl, Memory.Within.write _ v ha ⟨by omega, by omega⟩⟩
    · rw [(memWrite_eq_error.mp h).2]
      exact ⟨rfl, BlockFrame.refl _⟩

theorem insertLiteral_keeps (p : Nat) : (insertLiteral p).Keeps (ChunkFrame b n) :=
  Cmd.Keeps.ite (fun _ => (insertDec_keeps p).mono ChunkFrame.of_ring) (fun _ => Cmd.Keeps.pure ChunkFrame.refl _)

theorem copyBytes_keeps : ∀ k {r p : Nat}, p + k ≤ n → (copyBytes r p k).Keeps (ChunkFrame b n)
  | 0, _, _, _ => Cmd.Keeps.pure ChunkFrame.refl _
  | k + 1, _, _, h => Cmd.Keeps.bind ChunkFrame.trans (bufByte_keeps ChunkFrame.draws _) fun _ =>
      Cmd.Keeps.bind ChunkFrame.trans (setBuf_keeps (by omega) _) fun _ => copyBytes_keeps k (by omega)

theorem copyMatch_keeps {p mlen : Nat} (idx : Nat) (h : p + mlen ≤ n) : (copyMatch p idx mlen).Keeps (ChunkFrame b n) := by
  unfold copyMatch
  refine Cmd.Keeps.bind ChunkFrame.trans (lookup_keeps ChunkFrame.draws ChunkFrame.trans _ _) fun r => ?_
  refine Cmd.Keeps.bind ChunkFrame.trans (copyBytes_keeps mlen h) fun _ => ?_
  exact (forPositions_keeps RingFrame.refl RingFrame.trans insertDec_keeps _ _).mono ChunkFrame.of_ring

theorem copyLiterals_keeps : ∀ (l : List Byte) {p : Nat}, p + l.length ≤ n → (copyLiterals p l).Keeps (ChunkFrame b n)
  | [], _, _ => Cmd.Keeps.pure ChunkFrame.refl _
  | _ :: r, p, h => by
    rw [List.length_cons] at h
    exact Cmd.Keeps.bind ChunkFrame.trans (setBuf_keeps (by omega) _) fun _ =>
      Cmd.Keeps.bind ChunkFrame.trans (insertLiteral_keeps p) fun _ => copyLiterals_keeps r (by omega)

theorem rebuildChunk_keeps : ∀ k p t, (rebuildChunk n k p t).Keeps (ChunkFrame b n)
  | 0, _, _ => Cmd.Keeps.raiseMid ChunkFrame.refl _ _ _
  | k + 1, p, t => by
    unfold rebuildChunk
    cases readLengths t.len with
    | none => exact Cmd.Keeps.raiseMid ChunkFrame.refl _ _ _
    | some x =>
      obtain ⟨l, m, len⟩ := x
      refine Cmd.Keeps.checkMid_then ChunkFrame.refl fun h => ?_
      simp only [Bool.or_eq_false_iff, decide_eq_false_iff_not] at h
      refine Cmd.Keeps.bind ChunkFrame.trans (copyLiterals_keeps _ (by rw [List.length_take]; omega)) fun _ => ?_
      refine Cmd.Keeps.ite (fun _ => ?_) fun _ => ?_
      · exact Cmd.Keeps.checkMid_then ChunkFrame.refl fun _ => Cmd.Keeps.checkMid ChunkFrame.refl _ _ _ _
      · refine Cmd.Keeps.checkMid_then ChunkFrame.refl fun h2 => ?_
        simp only [Bool.or_eq_false_iff, decide_eq_false_iff_not] at h2
        refine Cmd.Keeps.bind ChunkFrame.trans (Cmd.Keeps.get ChunkFrame.refl) fun s => ?_
        cases t.idx with
        | nil => exact Cmd.Keeps.raiseMid ChunkFrame.refl _ _ _
        | cons i idx =>
          refine Cmd.Keeps.checkMid_then ChunkFrame.refl fun _ => ?_
          exact Cmd.Keeps.bind ChunkFrame.trans (copyMatch_keeps _ (by omega)) fun _ => rebuildChunk_keeps k _ _

/-- Reading a private source changes nothing but the reader and the counter of arbitrary bytes. -/
def SameEnv (t u : BitSource × Env) : Prop := u.2 = { t.2 with drawn := u.2.drawn }

theorem SameEnv.draws : LetsDraw SameEnv := fun _ _ => rfl
theorem SameEnv.refl (t : BitSource × Env) : SameEnv t t := rfl
theorem SameEnv.trans (x y z : BitSource × Env) (h : SameEnv x y) (h' : SameEnv y z) : SameEnv x z := by
  unfold SameEnv at *
  rw [h', h]

theorem sourceBits_keeps : ∀ k acc, (sourceBits k acc).Keeps SameEnv
  | 0, _ => Cmd.Keeps.pure SameEnv.refl _
  | k + 1, _ => Cmd.Keeps.bind SameEnv.trans (Cmd.Keeps.get SameEnv.refl) fun _ =>
      Cmd.Keeps.bind SameEnv.trans (memRead_keeps SameEnv.draws _) fun _ =>
        Cmd.Keeps.bind SameEnv.trans (Cmd.Keeps.of_modify fun _ => rfl) fun _ => sourceBits_keeps k _

theorem readSource_keeps (len : Nat) : (readSource len).Keeps SameEnv :=
  Cmd.Keeps.bind SameEnv.trans (Cmd.Keeps.get SameEnv.refl) fun _ =>
    Cmd.Keeps.bind SameEnv.trans (Cmd.Keeps.checkMid SameEnv.refl _ _ _ _) fun _ =>
      Cmd.Keeps.bind SameEnv.trans (sourceBits_keeps len 0) fun _ => Cmd.Keeps.pure SameEnv.refl _

theorem readStreams_keeps (size : Nat) : (readStreams size).Keeps SameEnv := by
  have ans := fun (o : Bool) (k : Nat) => ansDecode_keeps SameEnv.refl SameEnv.trans readSource_keeps o k
  unfold readStreams
  refine Cmd.Keeps.bind SameEnv.trans (readSource_keeps 32) fun _ => Cmd.Keeps.bind SameEnv.trans (readSource_keeps 32) fun _ => ?_
  refine Cmd.Keeps.bind SameEnv.trans (readSource_keeps 32) fun _ => ?_
  refine Cmd.Keeps.bind SameEnv.trans (Cmd.Keeps.checkMid SameEnv.refl _ _ _ _) fun _ => ?_
  exact Cmd.Keeps.bind SameEnv.trans (ans _ _) fun _ => Cmd.Keeps.bind SameEnv.trans (ans _ _) fun _ =>
    Cmd.Keeps.bind SameEnv.trans (ans _ _) fun _ => Cmd.Keeps.pure SameEnv.refl _

variable {R : Rolz × Env → Rolz × Env → Prop}

/-- What reads a private source inside the unit's rule changes nothing of the unit or MEM. -/
theorem withSource_keeps {α : Type} (hd : LetsDraw R) (r : BitSource) {x : Cmd (BitSource × Env) α} (h : x.Keeps SameEnv) :
    (withSource r x).Keeps R := by
  refine Cmd.Keeps.intro (fun t y u hx => ?_) (fun t y u hx => ?_)
  · unfold withSource at hx
    cases hy : x (r, t.2) with
    | ok a v =>
      simp only [hy, EStateM.Result.ok.injEq] at hx
      have hs : v.2 = { t.2 with drawn := v.2.drawn } := h.of_ok hy
      rw [← hx.2, hs]
      exact hd t _
    | error e v => simp [hy] at hx
  · unfold withSource at hx
    cases hy : x (r, t.2) with
    | ok a v => simp [hy] at hx
    | error e v =>
      simp only [hy, EStateM.Result.error.injEq] at hx
      have hs : v.2 = { t.2 with drawn := v.2.drawn } := h.of_error hy
      rw [← hx.2, hs]
      exact hd t _

theorem decodeBit2_keeps (hd : LetsDraw R) (ht : ∀ a b c, R a b → R b c → R a c) (m : LocalModel) (c : Dec2) :
    (decodeBit2 m c).Keeps R :=
  Cmd.Keeps.ite
    (fun _ => Cmd.Keeps.bind ht (withSource_keeps hd _ (readSource_keeps 32)) fun _ => Cmd.Keeps.pure hd.refl _)
    (fun _ => Cmd.Keeps.pure hd.refl _)

theorem decodeBits2_keeps (hd : LetsDraw R) (ht : ∀ a b c, R a b → R b c → R a c) :
    ∀ k (m : LocalModel) (c : Dec2) acc, (decodeBits2 m c k acc).Keeps R
  | 0, _, _, _ => Cmd.Keeps.pure hd.refl _
  | k + 1, m, c, _ => Cmd.Keeps.bind ht (decodeBit2_keeps hd ht m c) fun _ => decodeBits2_keeps hd ht k _ _ _

theorem decodeChunk2_keeps : ∀ k p c, (decodeChunk2 n k p c).Keeps (ChunkFrame b n)
  | 0, _, _ => Cmd.Keeps.pure ChunkFrame.refl _
  | k + 1, p, c => by
    unfold decodeChunk2
    refine Cmd.Keeps.ite (fun _ => Cmd.Keeps.pure ChunkFrame.refl _) fun hp => ?_
    refine Cmd.Keeps.bind ChunkFrame.trans (decodeBits2_keeps ChunkFrame.draws ChunkFrame.trans 9 _ _ _) fun x => ?_
    refine Cmd.Keeps.ite (fun _ => ?_) fun _ => ?_
    · exact Cmd.Keeps.bind ChunkFrame.trans (setBuf_keeps (by omega) _) fun _ =>
        Cmd.Keeps.bind ChunkFrame.trans (insertLiteral_keeps p) fun _ => decodeChunk2_keeps k _ _
    · refine Cmd.Keeps.checkMid_then ChunkFrame.refl fun h => ?_
      simp only [Bool.or_eq_false_iff, decide_eq_false_iff_not] at h
      refine Cmd.Keeps.bind ChunkFrame.trans (bufByte_keeps ChunkFrame.draws _) fun _ => ?_
      refine Cmd.Keeps.bind ChunkFrame.trans (Cmd.Keeps.get ChunkFrame.refl) fun _ => ?_
      refine Cmd.Keeps.bind ChunkFrame.trans (decodeBits2_keeps ChunkFrame.draws ChunkFrame.trans _ _ _ _) fun _ => ?_
      exact Cmd.Keeps.bind ChunkFrame.trans (copyMatch_keeps _ (by omega)) fun _ => decodeChunk2_keeps k _ _

/-- A chunk that opens at `start` of the DST window and fits it: what rebuilds it stores to the DST window. -/
theorem openChunk_then {α : Type} {start size : Nat} {x : Cmd (Rolz × Env) α} (hfit : windowFits w.dstBase w.dstCap = true)
    (hin : start + size ≤ w.dstCap.toNat) (hlt : start < w.dstCap.toNat)
    (hx : x.Keeps (ChunkFrame (w.dstBase.toNat + start) size)) :
    (openChunk w.dstBase w.dstCap start size >>= fun _ => x).Keeps (BlockFrame w.dst) := by
  intro t
  have hfit : w.dstBase.toNat + w.dstCap.toNat ≤ 2 ^ 32 := of_decide_eq_true hfit
  have hbase : (BitVec.ofNat 32 (w.dstBase.toNat + start)).toNat = w.dstBase.toNat + start := by
    rw [BitVec.toNat_ofNat]
    exact Nat.mod_eq_of_lt (by omega)
  refine Cmd.Keeps.at_bind BlockFrame.trans (openChunk_keeps _ _ _ _ t) fun _ u hu => ?_
  have hz : u.1.cbase.toNat = w.dstBase.toNat + start := by
    have : u = ({ t.1 with
      matchRing := [], cbase := BitVec.ofNat 32 (w.dstBase.toNat + start), csize := BitVec.ofNat 32 size,
      clen := BitVec.ofNat 32 (w.dstCap.toNat - start) }, t.2) := by
      unfold openChunk setRolz at hu
      rw [Cmd.modify_run] at hu
      cases hu
      rfl
    rw [this]
    exact hbase
  obtain ⟨-, h⟩ := hx u hz
  exact ⟨h.ready, h.backend, h.lpc, h.env.1, h.env.2.mono fun a ha => ⟨by have := ha.1; omega, by have := ha.2; omega⟩⟩

/-- Every chunk of a block lies in its payload and begins before its end. -/
theorem chunksOf_mem {n : Nat} {c : Nat × Nat} (h : c ∈ chunksOf n) : c.1 + c.2 ≤ n ∧ c.1 < n ∧ c.2 ≤ 2 ^ 26 := by
  unfold chunksOf Config.chunkSize at h
  rw [List.mem_map] at h
  obtain ⟨i, hi, rfl⟩ := h
  rw [List.mem_range] at hi
  simp only
  omega

theorem decodeChunk1_keeps (hfit : windowFits w.dstBase w.dstCap = true) {start size : Nat}
    (hin : start + size ≤ w.dstCap.toNat) (hlt : start < w.dstCap.toNat) (sp pend : Nat) :
    (decodeChunk1 w start size sp pend).Keeps (BlockFrame w.dst) := by
  unfold decodeChunk1
  refine openChunk_then hfit hin hlt ?_
  refine Cmd.Keeps.bind ChunkFrame.trans (withSource_keeps ChunkFrame.draws _ (readStreams_keeps size)) fun x => ?_
  exact Cmd.Keeps.bind ChunkFrame.trans (rebuildChunk_keeps _ _ _) fun _ => Cmd.Keeps.pure ChunkFrame.refl _

theorem decodeChunks1_keeps (hfit : windowFits w.dstBase w.dstCap = true) (pend : Nat) : ∀ (l : List (Nat × Nat)) (sp : Nat),
    (∀ c ∈ l, c.1 + c.2 ≤ w.dstCap.toNat ∧ c.1 < w.dstCap.toNat) → (decodeChunks1 w pend l sp).Keeps (BlockFrame w.dst)
  | [], _, _ => Cmd.Keeps.pure BlockFrame.refl _
  | c :: r, _, h =>
    Cmd.Keeps.bind BlockFrame.trans (decodeChunk1_keeps hfit (h c List.mem_cons_self).1 (h c List.mem_cons_self).2 _ _)
      fun _ => decodeChunks1_keeps hfit pend r _ fun c hc => h c (List.mem_cons_of_mem _ hc)

theorem decodeChunks2_keeps (hfit : windowFits w.dstBase w.dstCap = true) : ∀ (l : List (Nat × Nat)) (d : Dec2),
    (∀ c ∈ l, c.1 + c.2 ≤ w.dstCap.toNat ∧ c.1 < w.dstCap.toNat) → (decodeChunks2 w l d).Keeps (BlockFrame w.dst)
  | [], _, _ => Cmd.Keeps.pure BlockFrame.refl _
  | c :: r, d, h => by
    have hfirst := openChunk_then hfit (h c List.mem_cons_self).1 (h c List.mem_cons_self).2
      (decodeChunk2_keeps (b := w.dstBase.toNat + c.1) (n := c.2) c.2 0 d)
    have hrest := fun d' => decodeChunks2_keeps hfit r d' fun c hc => h c (List.mem_cons_of_mem _ hc)
    have := Cmd.Keeps.bind BlockFrame.trans hfirst hrest
    rwa [Cmd.bind_assoc] at this

theorem decodeBlock2_keeps (hfit : windowFits w.dstBase w.dstCap = true) {srcEnd : Nat} (h : srcEnd ≤ w.dstCap.toNat)
    (sp pend : Nat) : (decodeBlock2 w srcEnd sp pend).Keeps (BlockFrame w.dst) := by
  unfold decodeBlock2
  refine Cmd.Keeps.bind BlockFrame.trans (Cmd.Keeps.get BlockFrame.refl) fun t => ?_
  refine Cmd.Keeps.bind BlockFrame.trans (withSource_keeps BlockFrame.draws _ (readSource_keeps 64)) fun x => ?_
  refine Cmd.Keeps.bind BlockFrame.trans (decodeChunks2_keeps hfit _ _ fun c hc => ?_) fun _ =>
    Cmd.Keeps.pure BlockFrame.refl _
  have := chunksOf_mem hc
  exact ⟨by omega, by omega⟩

theorem copyTail_keeps : ∀ (k src dst : Nat), w.dstBase.toNat ≤ dst → dst + k ≤ w.dstBase.toNat + w.dstCap.toNat →
    (copyTail src dst k).Keeps (BlockFrame w.dst)
  | 0, _, _, _, _ => Cmd.Keeps.pure BlockFrame.refl _
  | k + 1, _, _, h1, h2 => Cmd.Keeps.bind BlockFrame.trans (memRead_keeps BlockFrame.draws _) fun _ =>
      Cmd.Keeps.bind BlockFrame.trans (memWrite_block _ ⟨h1, by omega⟩) fun _ => copyTail_keeps k _ _ (by omega) (by omega)

/-- `RZ_INV` stores to its DST window only, and keeps the configuration of the unit. -/
theorem decodeBlock_keeps (hfit : windowFits w.dstBase w.dstCap = true) : (decodeBlock w).Keeps (BlockFrame w.dst) := by
  unfold decodeBlock
  refine Cmd.Keeps.bind BlockFrame.trans (Cmd.Keeps.of_modify fun _ => ⟨rfl, rfl, rfl, Env.Within.refl _⟩) fun _ => ?_
  refine Cmd.Keeps.ite
    (fun _ => Cmd.Keeps.bind BlockFrame.trans endBlock_keeps fun _ => Cmd.Keeps.pure BlockFrame.refl _) fun _ => ?_
  refine Cmd.Keeps.checkMid_then BlockFrame.refl fun _ => ?_
  refine Cmd.Keeps.bind BlockFrame.trans (memReadBE4_keeps BlockFrame.draws BlockFrame.trans _) fun n => ?_
  refine Cmd.Keeps.checkMid_then BlockFrame.refl fun _ => Cmd.Keeps.check_then BlockFrame.refl fun hcap => ?_
  rw [decide_eq_false_iff_not] at hcap
  refine Cmd.Keeps.checkMid_then BlockFrame.refl fun _ => ?_
  refine Cmd.Keeps.bind BlockFrame.trans (Cmd.Keeps.bind BlockFrame.trans (Cmd.Keeps.get BlockFrame.refl) fun t =>
    Cmd.Keeps.ite (fun _ => decodeChunks1_keeps hfit _ _ _ fun c hc => ?_) fun _ =>
      Cmd.Keeps.ite (fun _ => decodeBlock2_keeps hfit (by omega) _ _) (fun _ => Cmd.Keeps.pure BlockFrame.refl _)) fun _ => ?_
  · have := chunksOf_mem hc
    exact ⟨by omega, by omega⟩
  · refine Cmd.Keeps.checkMid_then BlockFrame.refl fun _ => ?_
    have htail : tailOf n ≤ n := Nat.min_le_right _ _
    refine Cmd.Keeps.bind BlockFrame.trans (copyTail_keeps _ _ _ (by omega) (by omega)) fun _ => ?_
    exact Cmd.Keeps.bind BlockFrame.trans endBlock_keeps fun _ => Cmd.Keeps.pure BlockFrame.refl _

end Sys2Proof.Machine
end

