-- ==== Sys2Proof/Laws/Run.lean ====
section
/-!
SUPPORT. How a command ends, in the words of the claims: a rule that answers a value completes it, a rule that raises before
any change fails it, a faulted KZE refuses it.
-/

namespace Sys2Proof.Machine

/-- `ERRINFO` as the claims write it. -/
theorem errInfo_eq (op : Byte) (kind : ErrKind) (sub : Byte) (detail : Nat) (mid : Bool) :
    errInfo op (errOf kind sub detail mid) = errorWord op sub.toNat detail := by
  unfold errInfo errOf errorWord
  refine BitVec.eq_of_toNat_eq ?_
  have h1 := op.isLt
  have h2 := sub.isLt
  have h3 : detail % 2 ^ 48 < 2 ^ 48 := Nat.mod_lt _ (Nat.two_pow_pos _)
  simp only [BitVec.toNat_append, BitVec.toNat_ofNat]
  rw [← Nat.shiftLeft_add_eq_or_of_lt (by omega), ← Nat.shiftLeft_add_eq_or_of_lt (by omega)]
  simp only [Nat.shiftLeft_eq]
  omega

variable {op : Byte} {spoil : State → State} {body : Cmd State Word} {s t : State}

/-- A rule that answers a value completes the command. -/
theorem command_completes {v : Word} (h : s.live) (hb : body s = .ok v t) :
    command op spoil body s = .next (t.completed v) := command_of_ok h hb

/-- A rule that raises by a check fails the command, on the state it had reached. -/
theorem command_fails {kind : ErrKind} {sub : Byte} {detail : Nat} (h : s.live)
    (hb : body s = .error (.raise (errOf kind sub detail false)) t) :
    command op spoil body s = .next (t.failed op kind sub.toNat detail) := by
  rw [command_of_raise h hb]
  show Host.Outcome.next (takeError op (errOf kind sub detail false) t) = _
  unfold takeError State.failed
  rw [errInfo_eq]
  rfl

/-- A faulted KZE refuses the command. -/
theorem command_refused (h : ¬s.live) : command op spoil body s = .next s.refused :=
  command_faulted op spoil body (by simpa [State.live] using h)

end Sys2Proof.Machine
end

