-- ==== Sys2Proof/Tests/Slice0.lean ====
section
/-!
SUPPORT. The model's own tests: ill-formed operands refused, words written out from the encoding rules, one step of each
command against the vectors of 95_test_vectors.md, and for every statement a state that meets its hypotheses.
-/

section

set_option Elab.async false

namespace Sys2Proof.Tests

open Sys2Proof Sys2Proof.Machine

/-! ### Ill-formed operands: one for each check of `Instr.wellFormed` -/

theorem test_illformed_csrr : (Instr.csrr 0x10).wellFormed = false := by decide
theorem test_illformed_csrw_index : (Instr.csrw 0x04 0).wellFormed = false := by decide
theorem test_illformed_csrw_width : (Instr.csrw 0x05 0x100000000).wellFormed = false := by decide
theorem test_illformed_csrw_range_low : (Instr.csrw 0x0B 7).wellFormed = false := by decide
theorem test_illformed_csrw_range_high : (Instr.csrw 0x0B 17).wellFormed = false := by decide
theorem test_illformed_bwOpen : (Instr.bwOpen 2).wellFormed = false := by decide
theorem test_illformed_bwBits : (Instr.bwBits 65 0).wellFormed = false := by decide
theorem test_illformed_brOpen : (Instr.brOpen 2).wellFormed = false := by decide
theorem test_illformed_brBits : (Instr.brBits 65).wellFormed = false := by decide
theorem test_illformed_apmInit_variant : (Instr.apmInit 0 3 7 1).wellFormed = false := by decide
theorem test_illformed_apmInit_contexts : (Instr.apmInit 0 2 7 0).wellFormed = false := by decide
theorem test_illformed_prInit_slot : (Instr.prInit 2 0 0).wellFormed = false := by decide
theorem test_illformed_prInit_kind : (Instr.prInit 0 4 0).wellFormed = false := by decide
theorem test_illformed_prInit_fixed : (Instr.prInit 0 0 4096).wellFormed = false := by decide
theorem test_illformed_prInit_local : (Instr.prInit 0 1 0).wellFormed = false := by decide
theorem test_illformed_prInit_local_size : (Instr.prInit 0 1 10).wellFormed = false := by decide
theorem test_illformed_prInit_refined : (Instr.prInit 0 2 0x12).wellFormed = false := by decide
theorem test_illformed_prInit_external : (Instr.prInit 0 3 1).wellFormed = false := by decide
theorem test_illformed_prGet : (Instr.prGet 2).wellFormed = false := by decide
theorem test_illformed_prUpdate : (Instr.prUpdate 2 true).wellFormed = false := by decide
theorem test_illformed_prSetctx : (Instr.prSetctx 2 0).wellFormed = false := by decide
theorem test_illformed_beEncInit : (Instr.beEncInit 2).wellFormed = false := by decide
theorem test_illformed_beEncBits : (Instr.beEncBits 65 0).wellFormed = false := by decide
theorem test_illformed_beDecInit : (Instr.beDecInit 2).wellFormed = false := by decide
theorem test_illformed_beDecBits : (Instr.beDecBits 65).wellFormed = false := by decide
theorem test_illformed_beSetpred : (Instr.beSetpred 2).wellFormed = false := by decide
theorem test_illformed_ansEnc : (Instr.ansEnc 2 0 0).wellFormed = false := by decide
theorem test_illformed_ansDec : (Instr.ansDec 2 0 0).wellFormed = false := by decide
theorem test_illformed_rzInit_backend : (Instr.rzInit 3 4).wellFormed = false := by decide
theorem test_illformed_rzInit_checks : (Instr.rzInit 1 9).wellFormed = false := by decide
theorem test_illformed_rzChunk : (Instr.rzChunk true 0 0x4000001).wellFormed = false := by decide
theorem test_illformed_rzFind : (Instr.rzFind 1).wellFormed = false := by decide
theorem test_illformed_rzEmitlen_literals : (Instr.rzEmitlen 0x1000001F 0).wellFormed = false := by decide
theorem test_illformed_rzEmitlen_match : (Instr.rzEmitlen 0 263).wellFormed = false := by decide
theorem test_illformed_rzReadlen : (Instr.rzReadlen 8).wellFormed = false := by decide

/-! ### Words written out from the fields of 30_encoding.md R101, R105, R111 -/

theorem test_decode_nop : decodeTableWord 128 0x00000000_00000000_0000000000000000 = some .nop := by decide +kernel
theorem test_decode_reset : decodeTableWord 128 0x01000000_00000000_0000000000000000 = some .reset := by decide +kernel
theorem test_decode_csrr : decodeTableWord 128 0x020F0000_00000000_0000000000000000 = some (.csrr 15) := by decide +kernel
theorem test_decode_csrw :
    decodeTableWord 128 0x03060000_00000000_0000000000000400 = some (.csrw 6 1024) := by decide +kernel
theorem test_decode_bwOpen : decodeTableWord 128 0x10010000_00000000_0000000000000000 = some (.bwOpen 1) := by decide +kernel
theorem test_decode_bwBit : decodeTableWord 128 0x11010000_00000000_0000000000000000 = some (.bwBit true) := by decide +kernel
theorem test_decode_bwBits :
    decodeTableWord 128 0x120C0000_00000000_0000000000000ABC = some (.bwBits 12 0xABC) := by decide +kernel
theorem test_decode_bwClose : decodeTableWord 128 0x13000000_00000000_0000000000000000 = some .bwClose := by decide +kernel
theorem test_decode_brOpen : decodeTableWord 128 0x20010000_00000000_0000000000000000 = some (.brOpen 1) := by decide +kernel
theorem test_decode_brBit : decodeTableWord 128 0x21000000_00000000_0000000000000000 = some .brBit := by decide +kernel
theorem test_decode_brBits : decodeTableWord 128 0x22100000_00000000_0000000000000000 = some (.brBits 16) := by decide +kernel
theorem test_decode_brMore : decodeTableWord 128 0x23000000_00000000_0000000000000000 = some .brMore := by decide +kernel
theorem test_decode_brClose : decodeTableWord 128 0x24000000_00000000_0000000000000000 = some .brClose := by decide +kernel
theorem test_decode_brRead : decodeTableWord 128 0x25000000_00000000_0000000000000000 = some .brRead := by decide +kernel
theorem test_decode_apmInit :
    decodeTableWord 128 0x30020207_00000100_0000000000000000 = some (.apmInit 2 2 7 256) := by decide +kernel
theorem test_decode_apmGet :
    decodeTableWord 128 0x31820800_00000003_0000000000000000 = some (.apmGet 2 true 2048 3) := by decide +kernel
theorem test_decode_prInit :
    decodeTableWord 128 0x40010001_00000008_0000000000000000 = some (.prInit 1 1 8) := by decide +kernel
theorem test_decode_prGet : decodeTableWord 128 0x41010000_00000000_0000000000000000 = some (.prGet 1) := by decide +kernel
theorem test_decode_prUpdate :
    decodeTableWord 128 0x42810000_00000000_0000000000000000 = some (.prUpdate 1 true) := by decide +kernel
theorem test_decode_prSetctx :
    decodeTableWord 128 0x43010041_00000000_0000000000000000 = some (.prSetctx 1 0x41) := by decide +kernel
theorem test_decode_beEncInit :
    decodeTableWord 128 0x50010000_00000000_0000000000000000 = some (.beEncInit 1) := by decide +kernel
theorem test_decode_beEncBit :
    decodeTableWord 128 0x51010000_00000000_0000000000000000 = some (.beEncBit true) := by decide +kernel
theorem test_decode_beEncBits :
    decodeTableWord 128 0x52080000_00000000_0000000000000041 = some (.beEncBits 8 0x41) := by decide +kernel
theorem test_decode_beEncDispose :
    decodeTableWord 128 0x53000000_00000000_0000000000000000 = some .beEncDispose := by decide +kernel
theorem test_decode_beDecInit :
    decodeTableWord 128 0x54010000_00000000_0000000000000000 = some (.beDecInit 1) := by decide +kernel
theorem test_decode_beDecBit : decodeTableWord 128 0x55000000_00000000_0000000000000000 = some .beDecBit := by decide +kernel
theorem test_decode_beDecBits :
    decodeTableWord 128 0x56080000_00000000_0000000000000000 = some (.beDecBits 8) := by decide +kernel
theorem test_decode_beDecDispose :
    decodeTableWord 128 0x57000000_00000000_0000000000000000 = some .beDecDispose := by decide +kernel
theorem test_decode_beSetpred :
    decodeTableWord 128 0x58010000_00000000_0000000000000000 = some (.beSetpred 1) := by decide +kernel
theorem test_decode_ansEnc :
    decodeTableWord 128 0x60010000_00000064_0000000000000010 = some (.ansEnc 1 100 16) := by decide +kernel
theorem test_decode_ansDec :
    decodeTableWord 128 0x61010000_00000064_0000000000000010 = some (.ansDec 1 100 16) := by decide +kernel
theorem test_decode_rzInit :
    decodeTableWord 128 0x70020005_00000000_0000000000000000 = some (.rzInit 2 5) := by decide +kernel
theorem test_decode_rzFwd : decodeTableWord 128 0x71000000_00000000_0000000000000000 = some .rzFwd := by decide +kernel
theorem test_decode_rzInv : decodeTableWord 128 0x72000000_00000000_0000000000000000 = some .rzInv := by decide +kernel
theorem test_decode_rzChunk :
    decodeTableWord 128 0x73010000_00000010_0000000000000400 = some (.rzChunk true 16 1024) := by decide +kernel
theorem test_decode_rzFind :
    decodeTableWord 128 0x74000000_00000005_0000000000000000 = some (.rzFind 5) := by decide +kernel
theorem test_decode_rzEmitlen :
    decodeTableWord 128 0x75000007_0000001E_0000000000000000 = some (.rzEmitlen 30 7) := by decide +kernel
theorem test_decode_rzReadlen :
    decodeTableWord 128 0x76000000_00000000_00000000007FF802 = some (.rzReadlen 0x7FF802) := by decide +kernel

/-- 30_encoding.md R106, R107: an undefined opcode and a reserved bit are no command. -/
theorem test_decode_refuses : decodeTableWord 128 0x04000000_00000000_0000000000000000 = none ∧
    decodeTableWord 128 1 = none ∧ decodeTableWord 128 0x31100800_00000000_0000000000000000 = none := by decide +kernel

/-! ### One step of each command (95_test_vectors.md) -/

/-- The response to a command. -/
def answer : Host.Outcome State Fault Refusal → Option (Nat × Nat)
  | .next t => t.resp.map fun r => (r.code.toNat, r.value.toNat)
  | _ => none

/-- The state after a command, the state before it if there is none. -/
def after (i : Instr) (s : State) : State :=
  match exec i s with
  | .next t => t
  | _ => s

/-- The reset state with these bytes in MEM from an address on. -/
def withMem (a : Nat) (l : List Byte) : State :=
  { State.reset with env := { State.reset.env with mem := Memory.writeAll [] a l } }

/-- With the SRC and DST windows set. -/
def windows (sb sl db dc : BitVec 32) (s : State) : State :=
  { s with win := { srcBase := sb, srcLen := sl, dstBase := db, dstCap := dc } }

/-- With a fresh writer open on the SINK port. -/
def writing (s : State) : State := { s with bw := { BitWriter.reset with isOpen := true } }

/-- With a fresh writer open on a window. -/
def writingTo (base cap : BitVec 32) (s : State) : State :=
  { s with bw := { BitWriter.reset with isOpen := true, kind := .window, base := base, cap := cap } }

/-- With a fresh reader open on the SRC port, which delivers these bytes. -/
def reading (l : List Byte) (s : State) : State :=
  { s with br := { BitReader.reset with isOpen := true }, env := { s.env with src := l.map .byte } }

/-- With predictor slot 0 FIXED. -/
def fixed (v : Prob12) (s : State) : State := { s with pr := s.pr.set 0 { PredSlot.reset with kind := .fixed, value := v } }

/-- With a local model of a size in predictor slot 0. -/
def localSlot (k : Nat) (s : State) : State :=
  { s with pr := s.pr.set 0 { PredSlot.reset with kind := .localModel, model := { LocalModel.reset with logSize := k } } }

/-- With APM slot 0 a fresh Linear map. -/
def linear (rate : BitVec 4) (n : Nat) (s : State) : State :=
  { s with apm := s.apm.set 0 { valid := true, variant := .linear, rate := rate, n := n, data := [] } }

/-- With predictor slot 0 REFINED through APM slot 0. -/
def refined (k : Nat) (s : State) : State :=
  { s with pr := s.pr.set 0 { PredSlot.reset with kind := .refined, model := { LocalModel.reset with logSize := k } } }

/-- With the coder in a mode on slot 0 and an interval. -/
def coding (m : CoderMode) (low high current : Word) (s : State) : State :=
  { s with be := { mode := m, pslot := 0, iv := { low := low, high := high }, current := current } }

/-- With the ROLZ unit configured. -/
def rolz (backend : BitVec 2) (lpc : BitVec 4) (s : State) : State :=
  { s with rz := { Rolz.reset with ready := true, backend := backend, lpc := lpc } }

/-- With a chunk set, four bytes before the end of its window. -/
def chunk (base size : BitVec 32) (s : State) : State :=
  { s with rz := { s.rz with cvalid := true, cbase := base, csize := size, clen := size + 4 } }

/-- In the faulted state. -/
def faulted (s : State) : State := { s with latch := { err := true, code := 5, info := 0x0112 } }

/-- `abcabcabcabcabcd` at 0 (2.7). -/
def abc : State := withMem 0 [0x61, 0x62, 0x63, 0x61, 0x62, 0x63, 0x61, 0x62, 0x63, 0x61, 0x62, 0x63, 0x61, 0x62, 0x63, 0x64]

/-- The 8 bytes that decode to 1, 0 under FIXED 2048 (2.5). -/
def twoBits : List Byte := [0x00, 0x3F, 0xFF, 0xFF, 0xFF, 0xFF, 0xFF, 0xF9]

theorem test_nop : answer (exec (.nop) State.reset) = some (0, 0) := by decide +kernel
theorem test_reset : answer (exec (.reset) (faulted State.reset)) = some (0, 0) := by decide +kernel
theorem test_step_nop : answer (step (State.reset.withFetchWord 128 0)) = some (0, 0) := by decide +kernel
theorem test_step_bad_opcode : answer (step (State.reset.withFetchWord 128 0x04000000_00000000_0000000000000000)) = some (7, 4) := by decide +kernel
theorem test_csrr_id : answer (exec (.csrr 0) State.reset) = some (0, 0x4B4E5A4900000007) := by decide +kernel
theorem test_csrr_reserved : answer (exec (.csrr 0x10) State.reset) = some (1, 0x0802) := by decide +kernel
theorem test_csrw_logRange : answer (exec (.csrw 0x0B 16) State.reset) = some (0, 0) := by decide +kernel
theorem test_csrw_illegal : answer (exec (.csrw 0x0B 20) State.reset) = some (1, 0x0803) := by decide +kernel
theorem test_bwOpen : (after (.bwOpen 1) (windows 0 0 0x1000 16 State.reset)).bw =
    { BitWriter.reset with isOpen := true, kind := .window, base := 0x1000, cap := 16 } := by decide +kernel
theorem test_bwBit : (after (.bwBit true) (writing State.reset)).bw.cur = 0x8000000000000000 := by decide +kernel
theorem test_bwBits : (after (.bwBits 4 0xFD) (writing State.reset)).bw.bits = [true, true, false, true] := by decide +kernel
theorem test_bwBits_window_full : 
    answer (exec (.bwBits 9 0) (writingTo 0 1 State.reset)) = some (2, 0x020112) := by decide +kernel
theorem test_bwClose : (after .bwClose { writing State.reset with
      bw := { (writing State.reset).bw with bits := [true, false, true], count := 3, cur := 5#64 <<< 61, avail := 61 } }).env.sink
    = [0xA0] := by decide +kernel
theorem test_bwClose_closed : answer (exec (.bwClose) State.reset) = some (5, 0x0113) := by decide +kernel
theorem test_brOpen : answer (exec (.brOpen 1) (windows 0 2 0 0 State.reset)) = some (0, 0) := by decide +kernel
theorem test_brBit : answer (exec (.brBit) (reading [0xAB, 0xCD] State.reset)) = some (0, 1) := by decide +kernel
theorem test_brBits : 
    answer (exec (.brBits 12) (reading [0xAB, 0xCD] State.reset)) = some (0, 0xABC) := by decide +kernel
theorem test_brBits_short : 
    answer (exec (.brBits 17) (reading [0xAB, 0xCD] State.reset)) = some (6, 0x0222) := by decide +kernel
theorem test_brMore : answer (exec (.brMore) (reading [0xAB] State.reset)) = some (0, 1) := by decide +kernel
/-- R78: at the end of the port, and again when the host would then add a byte. -/
theorem test_brMore_end :
    let s := after .brMore (reading [] State.reset)
    answer (exec .brMore (reading [] State.reset)) = some (0, 0) ∧
      answer (exec .brMore { s with env := { s.env with src := [.byte 0xAB] } }) = some (0, 0) := by decide +kernel
theorem test_brClose : answer (exec (.brClose) (reading [0xAB] State.reset)) = some (0, 0) := by decide +kernel
theorem test_brRead : answer (exec (.brRead) State.reset) = some (0, 0) := by decide +kernel
theorem test_apmInit : answer (exec (.apmInit 0 2 7 2) State.reset) = some (0, 0) := by decide +kernel
theorem test_apmInit_variant : answer (exec (.apmInit 0 3 7 1) State.reset) = some (1, 0x0230) := by decide +kernel
/-- 2.3, vectors 1 and 2. -/
theorem test_apmGet : 
    answer (exec (.apmGet 0 false 2048 0) (linear 7 2 State.reset)) = some (0, 2032) := by decide +kernel
theorem test_apmGet_top : 
    answer (exec (.apmGet 0 true 4095 0) (linear 7 2 State.reset)) = some (0, 4095) := by decide +kernel
theorem test_prInit : answer (exec (.prInit 0 1 9) State.reset) = some (0, 0) := by decide +kernel
theorem test_prInit_logSize : answer (exec (.prInit 0 1 10) State.reset) = some (1, 0x0240) := by decide +kernel
theorem test_prGet : answer (exec (.prGet 0) (localSlot 9 State.reset)) = some (0, 2048) := by decide +kernel
theorem test_prUpdate : (after (.prUpdate 0 true) (localSlot 9 State.reset)).pr[0].model = { logSize := 9, probs := [(1, 33791)], c1 := 3, ctx := 0 } := by decide +kernel
/-- 2.4, vector 7. -/
theorem test_prUpdate_refined : ((after (.prUpdate 0 true) (refined 2 (linear 7 4 State.reset))).pr[0].latched,
      (after (.prUpdate 0 true) (refined 2 (linear 7 4 State.reset))).apm[0].data) = (2064, [(227, 33024), (228, 34040)]) := by decide +kernel
theorem test_prSetctx : (after (.prSetctx 0 0x41) (localSlot 9 State.reset)).pr[0].model.ctx = 33280 := by decide +kernel
theorem test_beEncInit : (after (.beEncInit 0) (writing (fixed 2048 State.reset))).be.mode = .enc := by decide +kernel
/-- 2.5, vector 4: a bit the predictor says never comes costs a group. -/
theorem test_beEncBit_group : (after (.beEncBit true) (coding .enc 0 0x00FFFFFFFFFFFFFF 0 (writing (fixed 0 State.reset)))).bw.count = 32 := by decide +kernel
theorem test_beEncBits : (after (.beEncBits 8 0x41) (coding .enc 0 0x00FFFFFFFFFFFFFF 0 (writing (localSlot 8 State.reset)))).be.iv =
    { low := 0x00BDFFFFFFFFFFF6, high := 0x00BEFFFFFFFFFFF6 } := by decide +kernel
theorem test_beEncDispose : (after .beEncDispose (coding .enc 0x003FFFFFFFFFFFF9 0x007FFFFFFFFFFFF8 0 (writing State.reset))).bw.buf = twoBits ∨
    (after .beEncDispose (coding .enc 0x003FFFFFFFFFFFF9 0x007FFFFFFFFFFFF8 0 (writing State.reset))).bw.cur = 0x003FFFFFFFFFFFF9 := by decide +kernel
theorem test_beDecInit : (after (.beDecInit 0) (reading twoBits (fixed 2048 State.reset))).be.current = 0x003FFFFFFFFFFFF9 := by decide +kernel
theorem test_beDecBit : 
    answer (exec (.beDecBit) (coding .dec 0 0x00FFFFFFFFFFFFFF 0x003FFFFFFFFFFFF9 (fixed 2048 State.reset))) = some (0, 1) := by decide +kernel
theorem test_beDecBits : 
    answer (exec (.beDecBits 8) (coding .dec 0 0x00FFFFFFFFFFFFFF 0x00BDFFFFFFFFFFF6 (localSlot 8 State.reset))) = some (0, 0x41) := by decide +kernel
theorem test_beDecDispose : 
    answer (exec (.beDecDispose) (coding .dec 0 0x00FFFFFFFFFFFFFF 0 State.reset)) = some (0, 0) := by decide +kernel
theorem test_beSetpred : answer (exec (.beSetpred 0) State.reset) = some (1, 0x0358) := by decide +kernel
/-- 2.6, vectors 1 and 3. -/
theorem test_ansEnc : 
    answer (exec (.ansEnc 0 3 0) (writing (windows 0 3 0 0 { withMem 0 [0x61, 0x61, 0x62] with logRange := 8 }))) = some (0, 308) := by decide +kernel
theorem test_ansEnc_order1 : 
    answer (exec (.ansEnc 1 3 0) (writing (windows 0 3 0 0 { withMem 0 [0x61, 0x61, 0x62] with logRange := 8 }))) = some (0, 828) := by decide +kernel
theorem test_ansDec : (after (.ansDec 0 3 0) (windows 0 0 0x500 3 (reading
      (List.replicate 12 0 ++ [0x06, 0xAA, 0xA8] ++ List.replicate 20 0 ++ [0x36, 0x00, 0x31, 0xF0]) State.reset))).env.mem =
    [(0x500, 0x61), (0x501, 0x61), (0x502, 0x62)] := by decide +kernel
theorem test_rzInit : (after (.rzInit 2 4) State.reset).rz.cfgWord = 0x204 := by decide +kernel
theorem test_rzChunk : (after (.rzChunk true 0 12) (windows 0 16 0 0 (rolz 1 4 abc))).rz.csize = 12 := by decide +kernel
theorem test_rzChunk_long : 
    answer (exec (.rzChunk true 0 13) (windows 0 16 0 0 (rolz 1 4 abc))) = some (1, 0x0273) := by decide +kernel
/-- R297, R300: position 5 asked after position 8 of 2.7's data: the comparison goes on into the bytes behind the chunk. -/
theorem test_rzFind_behind : answer (exec (.rzFind 5) { chunk 0 12 (rolz 1 4 abc) with
      rz := { (chunk 0 12 (rolz 1 4 abc)).rz with counters := [(0x6261, 1)], matchRing := [(0x62611, 0xAC000008)] } })
    = some (0, 0x0700) := by decide +kernel
/-- R300: a position asked after a later one, in a chunk at the top of MEM, still answers and is inserted (log entry 15). -/
theorem test_rzFind_outOfOrder :
    let z : Rolz := { Rolz.reset with
      ready := true, lpc := 4, cvalid := true, cbase := 0xFFFFFFF0, csize := 12, clen := 16, counters := [(0, 1)], matchRing := [(1, 11)] }
    ∃ x d, findMatch 2 (z, State.reset.env) = .ok x (z.insert 0 2, { State.reset.env with drawn := d }) := by
  obtain ⟨x, d, h, -⟩ := findMatch_of (p := 2) (e := State.reset.env)
    (z := { Rolz.reset with
      ready := true, lpc := 4, cvalid := true, cbase := 0xFFFFFFF0, csize := 12, clen := 16, counters := [(0, 1)], matchRing := [(1, 11)] })
    (by decide) (by decide) (by decide)
  exact ⟨x, d, h⟩
/-- R90: a read of a byte the host writes meanwhile is arbitrary, one of any other byte is not. -/
theorem test_raced_read :
    let s := windows 0 2 0 0 { withMem 0 [0xAB, 0xCD] with env := { (withMem 0 [0xAB, 0xCD]).env with raced := [(1, 1)] } }
    (after .brMore (after (.brOpen 1) s)).br.buf = [0xAB, Config.freeByte 0] ∧
      (after .brMore (after (.brOpen 1) s)).env.drawn = 1 := ⟨rfl, rfl⟩
/-- R90: a byte the host stores in the window of an open reader races until the reader is closed. -/
theorem test_stored_in_open_window :
    let s := hostStore 1 0xEE (after (.brOpen 1) (windows 0 2 0 0 (withMem 0 [0xAB, 0xCD])))
    (after .brMore s).br.buf = [0xAB, Config.freeByte 0] ∧ (after .brClose s).env.dirtied = [] := ⟨rfl, rfl⟩
/-- R398, C15: a REFINED predictor whose APM slot has become too small fails the bit, and only the coder may have changed. -/
theorem test_beEncBit_refused :
    let s := coding .enc 0 0x00FFFFFFFFFFFFFF 0 (writing (refined 2 (linear 7 3 State.reset)))
    let t := after (.beEncBit true) s
    t.latch = { err := true, code := 1, info := 0x0351 } ∧ (t.pr, t.apm, t.bw, t.env) = (s.pr, s.apm, s.bw, s.env) :=
  ⟨rfl, rfl⟩
/-- R420: the pin during `BW_CLOSE`, after its byte was handed to the SINK, and before. -/
theorem test_rst_during :
    let s := writing State.reset
    let w := { s with bw := { s.bw with bits := [true, false, true], count := 3, cur := 5#64 <<< 61, avail := 61 } }
    (match step { w with inbox := [.rstDuring (encode .bwClose) { gets := 0, puts := 1, below := 0 }] } with
      | .next t => decide (t = { State.reset with env := { State.reset.env with sink := [0xA0] } })
      | _ => false) = true ∧
    (match step { w with inbox := [.rstDuring (encode .bwClose) { gets := 0, puts := 0, below := 0 }] } with
      | .next t => decide (t = State.reset)
      | _ => false) = true := by decide +kernel
/-- R420: the pin during an `RZ_FWD` that would run out of room: the size it has stored stays. -/
theorem test_rst_during_failing :
    let s := windows 0 1 0x100 4 (rolz 1 4 (withMem 0 [0x41]))
    (match step { s with inbox := [.rstDuring (encode .rzFwd) { gets := 0, puts := 0, below := 0x200 }] } with
      | .next t => decide (t = { State.reset with env := { State.reset.env with mem := [(0, 0x41), (0x103, 1)] } })
      | _ => false) = true := by decide +kernel
theorem test_rzEmitlen : 
    answer (exec (.rzEmitlen (0x10000000 + 30) 262) State.reset) = some (0, 0x7FFFFFFFFFFF06) := by decide +kernel
theorem test_rzReadlen : 
    answer (exec (.rzReadlen 0x008081F804) State.reset) = some (0, 0x0000401F00000004) := by decide +kernel
/-- 2.9 (c). -/
theorem test_rzFwd_stored : (after .rzFwd (windows 0 1 0x100 16 (rolz 1 4 (withMem 0 [0x41])))).env.mem = [(0, 0x41), (0x103, 1), (0x104, 0x41)] := by decide +kernel
/-- 2.10, the first row. -/
theorem test_rzFwd : (after .rzFwd (windows 0 5 0x100 64 (rolz 2 4 (withMem 0 [0x41, 0x42, 0x43, 0x44, 0x45])))).env.mem =
    Memory.writeAll (Memory.writeAll [] 0 [0x41, 0x42, 0x43, 0x44, 0x45]) 0x103
      [5, 0x00, 0x5E, 0xFF, 0xFF, 0xFF, 0xFF, 0xFF, 0xEE, 0x42, 0x43, 0x44, 0x45] := by decide +kernel
theorem test_rzInv : 
    answer (exec (.rzInv) (windows 0 16 0x100 5 (rolz 2 4
    (withMem 3 [5, 0x00, 0x5E, 0xFF, 0xFF, 0xFF, 0xFF, 0xFF, 0xEE, 0x42, 0x43, 0x44, 0x45])))) = some (0, 5) := by decide +kernel
theorem test_rzInv_short : 
    answer (exec (.rzInv) (windows 0 3 0x100 5 (rolz 1 4 State.reset))) = some (3, 0x1072) := by decide +kernel

/-! ### Witnesses: for each statement a state and operands that meet its hypotheses, clause by clause at the boundaries -/

/-- An outcome is this next state. -/
def isNext (o : Host.Outcome State Fault Refusal) (t : State) : Bool :=
  match o with
  | .next u => decide (u = t)
  | _ => false

theorem eq_of_isNext {o : Host.Outcome State Fault Refusal} {t : State} (h : isNext o t = true) : o = .next t := by
  unfold isNext at h
  split at h
  · rw [of_decide_eq_true h]
  · cases h

/-- The same state with the counter and the response another state had. -/
def uncounted (t s : State) : State := { t with cmdCnt := s.cmdCnt, resp := s.resp }

/-- With these words presented. -/
def presents (w : CmdWord) (s : State) : State := { s with inbox := [.command w] }

theorem writerOk_of {bufsz : Nat} {w : BitWriter}
    (h : w.count = w.bits.length ∧ 1 ≤ w.avail ∧ w.avail ≤ 64 ∧ w.count = 8 * (w.sent + w.pos) + (64 - w.avail) ∧
      bitsOf w.cur 64 = w.bits.drop (8 * (w.sent + w.pos)) ++ List.replicate w.avail false ∧
      w.buf = (pack (w.bits.take (8 * (w.sent + w.pos)))).drop w.sent ∧ w.pos % 8 = 0 ∧ w.pos < bufsz ∧
      (w.kind = .window → bytesFor w.count ≤ w.cap.toNat) ∧ (w.kind = .window → fits w.base w.cap)) :
    WriterOk bufsz w :=
  ⟨h.1, h.2.1, h.2.2.1, h.2.2.2.1, h.2.2.2.2.1, h.2.2.2.2.2.1, h.2.2.2.2.2.2.1, h.2.2.2.2.2.2.2.1, h.2.2.2.2.2.2.2.2.1,
    h.2.2.2.2.2.2.2.2.2⟩

theorem readerOk_of {bufsz : Nat} {r : BitReader}
    (h : 8 * r.fetched = r.count + r.onHand ∧ r.onHand < 8 * bufsz + 64 ∧ r.avail ≤ 64 ∧ r.pos ≤ r.max ∧
      (r.kind = .window → r.fetched ≤ r.len.toNat) ∧ (r.kind = .window → fits r.base r.len)) : ReaderOk bufsz r :=
  ⟨h.1, h.2.1, h.2.2.1, h.2.2.2.1, h.2.2.2.2.1, h.2.2.2.2.2⟩

theorem opcode_encode (i : Instr) : fieldOpcode (encode i) = i.opcode := by cases i <;> exact fieldOpcode_commandWord ..

/-- A writer on a window with three bits written. -/
def threeBits (cap : BitVec 32) : State :=
  { writingTo 0 cap State.reset with
    bw := { (writingTo 0 cap State.reset).bw with bits := [true, false, true], count := 3, cur := 5#64 <<< 61, avail := 61 } }

/-- A reader with 63 bits left, the first of them in hand. -/
def sixtyThree : State :=
  { reading [1, 2, 3, 4, 5, 6, 7] (fixed 2048 State.reset) with
    br := { BitReader.reset with isOpen := true, count := 1, fetched := 1, cur := 0x55, avail := 7 } }

theorem witness_encodeOfDecode :
    decode 0x7600000000000000FFFFFFFFFFFFFFFF#128 = .ok (.rzReadlen 0xFFFFFFFFFFFFFFFF) := rfl

theorem witness_stepRuns : (presents 0 State.reset).inbox = .command 0 :: [] ∧ decode 0 = .ok .nop := ⟨rfl, rfl⟩

theorem witness_stepRuns_idle : State.reset.inbox = [] ∧ decode (BitVec.ofNat 128 0) = .ok .nop := ⟨rfl, rfl⟩

theorem witness_undefinedOpcode :
    ∀ op ∈ [0x04, 0x0F, 0x14, 0x1F, 0x26, 0x2F, 0x32, 0x3F, 0x44, 0x4F, 0x59, 0x5F, 0x62, 0x6F, 0x77, 0xFF],
      let w := BitVec.ofNat 128 (op * 2 ^ 120)
      (presents w State.reset).inbox = .command w :: [] ∧ (presents w State.reset).live ∧ (fieldOpcode w).toNat = op :=
  by decide +kernel

theorem witness_reservedBit (w : CmdWord) (hw : w = 1#128 ∨ w = 0x11020000000000000000000000000000#128) :
    (presents w State.reset).inbox = .command w :: [] ∧ (presents w State.reset).live ∧
      (∃ i : Instr, i.opcode = fieldOpcode w) ∧ ∀ i : Instr, encode i ≠ w := by
  refine ⟨rfl, rfl, ?_, fun i h => ?_⟩
  · rcases hw with rfl | rfl
    · exact ⟨.nop, by decide⟩
    · exact ⟨.bwBit true, by decide⟩
  · have ho := opcode_encode i
    rw [h] at ho
    rcases hw with rfl | rfl <;> cases i <;>
      first
        | exact absurd ho (by decide)
        | exact absurd h (by decide)
        | exact absurd ho (by simp only [Instr.opcode]; decide)
        | (rename_i b; cases b <;> exact absurd h (by decide))

theorem witness_faultedAccepts :
    (presents 1 (faulted State.reset)).inbox = .command 1 :: [] ∧ (faulted State.reset).latch.err = true ∧
      fieldOpcode 1 = 0x00 ∧ fieldOpcode (encode .reset) = 0x01 ∧ (0x0F#8).toNat ≤ 0x0F := by decide +kernel

theorem witness_faultedRefuses :
    let w := encode (.csrr 0x10)
    fieldOpcode w ≠ 0x00 ∧ fieldOpcode w ≠ 0x01 ∧ ∀ idx : BitVec 8, idx.toNat ≤ 0x0F → w ≠ encode (.csrr idx) :=
  by decide +kernel

theorem witness_resetPin : ({ State.reset with inbox := [.rstPin] } : State).inbox = .rstPin :: [] := rfl

theorem witness_hostSteps :
    ({ State.reset with inbox := [.memWrite 0xFFFFFFFF 1] } : State).inbox = .memWrite 0xFFFFFFFF 1 :: [] ∧
      ({ State.reset with inbox := [.ports [.byte 1] [] [] [(0, 1)]] } : State).inbox = .ports [.byte 1] [] [] [(0, 1)] :: [] :=
  ⟨rfl, rfl⟩

/-- A command whose byte is stored before the pin abandons it. -/
theorem witness_resetDuring :
    let p : Progress := { gets := 0, puts := 0, below := 1 }
    let s := { threeBits 1 with inbox := [.rstDuring (encode .bwClose) p] }
    s.inbox = .rstDuring (encode .bwClose) p :: [] ∧ s.live ∧ decode (encode .bwClose) = .ok .bwClose ∧
      ∃ v t, ruleOf .bwClose (s.withInbox []) = .ok v t := ⟨rfl, by decide +kernel, by decide +kernel, _, _, rfl⟩

/-- A block that runs out of room after its size is stored. -/
theorem witness_resetDuring_failing :
    let p : Progress := { gets := 0, puts := 0, below := 0x104 }
    let s := { windows 0 1 0x100 4 (rolz 1 4 (withMem 0 [0x41])) with inbox := [.rstDuring (encode .rzFwd) p] }
    s.inbox = .rstDuring (encode .rzFwd) p :: [] ∧ s.live ∧ decode (encode .rzFwd) = .ok .rzFwd ∧
      ∃ e t, ruleOf .rzFwd (s.withInbox []) = .error (.raise e) t :=
  ⟨rfl, by decide +kernel, by decide +kernel, _, _, rfl⟩

theorem witness_resetDuring_faulted :
    let p : Progress := { gets := 0, puts := 0, below := 0 }
    let s := { faulted State.reset with inbox := [.rstDuring 0 p] }
    s.inbox = .rstDuring 0 p :: [] ∧ s.latch.err = true ∧ State.reset.live ∧ Instr.nop ≠ .reset := by decide +kernel

theorem witness_csrr_reserved : 0x0F < (0x10#8).toNat ∧ 0x0F < (0xFF#8).toNat := by decide +kernel

theorem witness_csrw :
    State.reset.live ∧ (0#64).toNat < 2 ^ 32 ∧ (0xFFFFFFFF#64).toNat < 2 ^ 32 ∧ 8 ≤ (8#64).toNat ∧ (8#64).toNat ≤ 16 ∧
      8 ≤ (16#64).toNat ∧ (16#64).toNat ≤ 16 := by decide +kernel

theorem witness_csrw_illegal :
    State.reset.live ∧
    (¬(5 ≤ (0x04#8).toNat ∧ (0x04#8).toNat ≤ 8 ∧ (0#64).toNat < 2 ^ 32) ∧
      ¬((0x04#8).toNat = 0x0B ∧ 8 ≤ (0#64).toNat ∧ (0#64).toNat ≤ 16)) ∧
    (¬(5 ≤ (0x05#8).toNat ∧ (0x05#8).toNat ≤ 8 ∧ (0x100000000#64).toNat < 2 ^ 32) ∧
      ¬((0x05#8).toNat = 0x0B ∧ 8 ≤ (0x100000000#64).toNat ∧ (0x100000000#64).toNat ≤ 16)) ∧
    (¬(5 ≤ (0x08#8).toNat ∧ (0x08#8).toNat ≤ 8 ∧ (0x100000000#64).toNat < 2 ^ 32) ∧
      ¬((0x08#8).toNat = 0x0B ∧ 8 ≤ (0x100000000#64).toNat ∧ (0x100000000#64).toNat ≤ 16)) ∧
    (¬(5 ≤ (0x09#8).toNat ∧ (0x09#8).toNat ≤ 8 ∧ (0#64).toNat < 2 ^ 32) ∧
      ¬((0x09#8).toNat = 0x0B ∧ 8 ≤ (0#64).toNat ∧ (0#64).toNat ≤ 16)) ∧
    (¬(5 ≤ (0x0B#8).toNat ∧ (0x0B#8).toNat ≤ 8 ∧ (7#64).toNat < 2 ^ 32) ∧
      ¬((0x0B#8).toNat = 0x0B ∧ 8 ≤ (7#64).toNat ∧ (7#64).toNat ≤ 16)) ∧
    (¬(5 ≤ (0x0B#8).toNat ∧ (0x0B#8).toNat ≤ 8 ∧ (17#64).toNat < 2 ^ 32) ∧
      ¬((0x0B#8).toNat = 0x0B ∧ 8 ≤ (17#64).toNat ∧ (17#64).toNat ≤ 16)) ∧
    (¬(5 ≤ (0x0C#8).toNat ∧ (0x0C#8).toNat ≤ 8 ∧ (8#64).toNat < 2 ^ 32) ∧
      ¬((0x0C#8).toNat = 0x0B ∧ 8 ≤ (8#64).toNat ∧ (8#64).toNat ≤ 16)) := by decide +kernel

theorem witness_bwOpen_kind : State.reset.live ∧ 1 < (2#8).toNat := by decide +kernel

theorem witness_bwOpen_again :
    (writing State.reset).live ∧ (1#8).toNat ≤ 1 ∧ (writing State.reset).bw.isOpen = true := by decide +kernel

theorem witness_bwOpen_window :
    State.reset.live ∧ State.reset.bw.isOpen = false ∧ (0#8).toNat = 0 ∧ (1#8).toNat = 1 ∧ fits 1 0xFFFFFFFF ∧ ¬fits 2 0xFFFFFFFF ∧
      (windows 0 0 2 0xFFFFFFFF State.reset).bw.isOpen = false := by decide +kernel

theorem witness_writing_ok : WriterOk 8192 (writing State.reset).bw := writerOk_of (by decide +kernel)

theorem witness_writingTo_ok : WriterOk 8192 (writingTo 0xFFFFFFF8 8 State.reset).bw :=
  writerOk_of (by decide +kernel)

theorem witness_threeBits_ok : WriterOk 8192 (threeBits 1).bw := writerOk_of (by decide +kernel)

theorem witness_bwBits :
    let s := writingTo 0xFFFFFFF8 8 State.reset
    s.live ∧ s.par.ok = true ∧ s.bw.isOpen = true ∧ WriterOk s.par.bufsz s.bw ∧ s.env.neverFails ∧ (64#8).toNat ≤ 64 ∧
      s.bw.hasRoom (64#8).toNat ∧ s.bw.hasRoom 1 :=
  ⟨rfl, rfl, rfl, witness_writingTo_ok, by decide, by decide, by decide, by decide⟩

theorem witness_writeChecks :
    State.reset.live ∧ 64 < (65#8).toNat ∧ State.reset.bw.isOpen = false ∧ (64#8).toNat ≤ 64 ∧
      (coding .enc 0 0 0 State.reset).be.mode = .enc ∧ (coding .enc 0 0 0 State.reset).bw.isOpen = false ∧
      (1#8).toNat ≤ 1 ∧ fits State.reset.win.srcBase State.reset.win.srcLen ∧
      (0#32).toNat + (0#32).toNat ≤ State.reset.win.srcLen.toNat := by decide +kernel

theorem witness_writeChecks_full :
    (writingTo 0 7 State.reset).live ∧ (writingTo 0 7 State.reset).bw.isOpen = true ∧ (57#8).toNat ≤ 64 ∧
      ¬(writingTo 0 7 State.reset).bw.hasRoom (57#8).toNat ∧ (writingTo 0 0 State.reset).bw.isOpen = true ∧
      ¬(writingTo 0 0 State.reset).bw.hasRoom 1 := by decide +kernel

theorem witness_bwClose :
    let s := threeBits 1
    s.live ∧ s.par.ok = true ∧ s.bw.isOpen = true ∧ WriterOk s.par.bufsz s.bw ∧ s.env.neverFails :=
  ⟨rfl, rfl, rfl, witness_threeBits_ok, by decide⟩

theorem witness_brOpen :
    State.reset.live ∧ 1 < (2#8).toNat ∧ (1#8).toNat ≤ 1 ∧ (reading [] State.reset).br.isOpen = true ∧
      State.reset.br.isOpen = false ∧ fits 1 0xFFFFFFFF ∧ ¬fits 2 0xFFFFFFFF := by decide +kernel

theorem witness_reading_ok : ReaderOk 8192 (reading twoBits State.reset).br := readerOk_of (by decide +kernel)

theorem witness_brBits :
    let s := reading twoBits State.reset
    s.live ∧ s.par.ok = true ∧ s.br.isOpen = true ∧ ReaderOk s.par.bufsz s.br ∧ s.env.neverFails ∧ (64#8).toNat ≤ 64 ∧
      (64#8).toNat ≤ (remainingBits s.br s.env).length ∧ 1 ≤ (remainingBits s.br s.env).length :=
  ⟨rfl, rfl, rfl, witness_reading_ok, by decide, by decide, by decide +kernel, by decide +kernel⟩

theorem witness_readsPastEnd_closed :
    State.reset.live ∧ 64 < (65#8).toNat ∧ State.reset.br.isOpen = false ∧ 1 ≤ (1#8).toNat ∧ 1 ≤ (64#8).toNat ∧
      (64#8).toNat ≤ 64 := by decide +kernel

theorem witness_readsPastEnd :
    let s := sixtyThree
    s.live ∧ s.par.ok = true ∧ s.br.isOpen = true ∧ ReaderOk s.par.bufsz s.br ∧ s.env.neverFails ∧ (64#8).toNat ≤ 64 ∧
      (remainingBits s.br s.env).length < (64#8).toNat :=
  ⟨rfl, rfl, rfl, readerOk_of (by decide +kernel), by decide, by decide, by decide +kernel⟩

/-- Also for `BR_MORE` at the end of the source. -/
theorem witness_readsPastEnd_empty :
    let s := reading [] State.reset
    s.live ∧ s.par.ok = true ∧ s.br.isOpen = true ∧ ReaderOk s.par.bufsz s.br ∧ s.env.neverFails ∧
      remainingBits s.br s.env = [] := ⟨rfl, rfl, rfl, readerOk_of (by decide +kernel), by decide, rfl⟩

theorem witness_apmInit_illegal :
    State.reset.live ∧ State.reset.par.napm ≤ (4#4).toNat ∧ (3#2) = 3 ∧ (0#32).toNat = 0 ∧
      State.reset.par.apmMaxN < (65537#32).toNat := by decide +kernel

theorem witness_apmInit :
    State.reset.live ∧ (3#4).toNat < State.reset.par.napm ∧ (∀ v ∈ [0#2, 1#2, 2#2], v ≠ 3) ∧ 1 ≤ (1#32).toNat ∧
      (65536#32).toNat ≤ State.reset.par.apmMaxN := by decide +kernel

theorem witness_apmGet_illegal :
    State.reset.live ∧ State.reset.par.napm ≤ (4#4).toNat ∧ (3#4).toNat < State.reset.par.napm ∧
      State.reset.apm[(3#4).toFin].valid = false ∧ (linear 7 2 State.reset).apm[(0#4).toFin].valid = true ∧
      (linear 7 2 State.reset).apm[(0#4).toFin].n ≤ (2#32).toNat := by decide +kernel

theorem witness_apmGet :
    (linear 7 2 State.reset).live ∧ (0#4).toNat < (linear 7 2 State.reset).par.napm ∧
      (linear 7 2 State.reset).apm[(0#4).toFin].valid = true ∧ (1#32).toNat < (linear 7 2 State.reset).apm[(0#4).toFin].n :=
  by decide +kernel

theorem witness_prInit :
    let s := linear 7 512 State.reset
    let k := ((9#32).extractLsb' 0 4).toNat
    let a : BitVec 4 := (9#32).extractLsb' 8 4
    s.live ∧ (4095#32).toNat < 4096 ∧ 1 ≤ (1#32).toNat ∧ (9#32).toNat ≤ 9 ∧ (9#32).toNat = 256 * a.toNat + k ∧ 1 ≤ k ∧
      k ≤ 9 ∧ a.toNat < s.par.napm ∧ s.apm[a.toFin].valid = true ∧ 2 ^ k ≤ s.apm[a.toFin].n ∧
      ∀ i : Fin 2, s.pr[1 - i].kind ≠ .external := by decide +kernel

theorem witness_prInitRefuses :
    State.reset.live ∧ 1 < (2#4).toNat ∧ 3 < (4#8).toNat ∧ 4096 ≤ (4096#32).toNat ∧ 16 ≤ (16#32).toNat ∧
      (10#32).toNat < 16 ∧ 9 < (10#32).toNat ∧ (0#32).toNat = 0 ∧ (1#32) ≠ 0 ∧
      (0x12#32).toNat ≠ 256 * ((0x12#32).extractLsb' 8 4).toNat + ((0x12#32).extractLsb' 0 4).toNat :=
  by decide +kernel

theorem witness_prInitRefuses_refined :
    let s := linear 7 3 State.reset
    (0x000#32).toNat = 256 * ((0x000#32).extractLsb' 8 4).toNat + ((0x000#32).extractLsb' 0 4).toNat ∧
      (0x00A#32).toNat = 256 * ((0x00A#32).extractLsb' 8 4).toNat + ((0x00A#32).extractLsb' 0 4).toNat ∧
      (0x402#32).toNat = 256 * ((0x402#32).extractLsb' 8 4).toNat + ((0x402#32).extractLsb' 0 4).toNat ∧
      s.live ∧ s.par.napm ≤ (4#4).toNat ∧ (1#4).toNat < s.par.napm ∧ s.apm[(1#4).toFin].valid = false ∧
      s.apm[(0#4).toFin].valid = true ∧ s.apm[(0#4).toFin].n < 2 ^ 2 := by decide +kernel

theorem witness_prInitRefuses_external :
    let s := { State.reset with pr := State.reset.pr.set 0 { PredSlot.reset with kind := .external } }
    s.live ∧ s.pr[1 - (1 : Fin 2)].kind = .external := by decide +kernel

theorem witness_prGetAndUpdate :
    State.reset.live ∧ 1 < (2#4).toNat ∧ (∀ i : Fin 2, State.reset.pr[i].kind = .none) ∧
      (refined 2 State.reset).pr[(0 : Fin 2)].kind = .refined ∧ ¬(refined 2 State.reset).predReady 0 ∧
      (refined 2 State.reset).pr[(0 : Fin 2)].kind ≠ .none ∧ (refined 2 (linear 7 4 State.reset)).predReady 0 ∧
      (localSlot 9 State.reset).predReady 0 ∧ (fixed 2048 State.reset).predReady 0 := by decide +kernel

theorem witness_prSetctx :
    State.reset.live ∧ (localSlot 9 State.reset).pr[(0 : Fin 2)].kind = .localModel ∧
      (refined 2 State.reset).pr[(0 : Fin 2)].kind = .refined ∧ (fixed 2048 State.reset).pr[(0 : Fin 2)].kind = .fixed ∧
      State.reset.pr[(1 : Fin 2)].kind = .none := by decide +kernel

theorem witness_beEncInit :
    (fixed 2048 State.reset).live ∧ (fixed 2048 State.reset).bw.isOpen = false ∧
      (writing (fixed 2048 State.reset)).pr[(0 : Fin 2)].kind ≠ .none ∧ (writing (fixed 2048 State.reset)).bw.isOpen = true :=
  by decide +kernel

/-- The initial interval, and one whose bounds differ in one bit of the middle. -/
theorem witness_coderOk :
    CoderOk { low := 0, high := 0x00FFFFFFFFFFFFFF } ∧ CoderOk { low := 0x00FFFFFFFEFFFFFF, high := 0x00FFFFFFFFFFFFFF } :=
  by decide +kernel

theorem witness_beEncBit :
    let s := coding .enc 0 0x00FFFFFFFFFFFFFF 0 (writing (fixed 2048 State.reset))
    State.reset.be.mode ≠ .enc ∧ s.live ∧ s.be.mode = .enc ∧ s.bw.isOpen = true ∧ s.predReady s.be.pslot ∧
      ((s.be.iv.narrow (s.prob s.be.pslot) true).low ^^^ (s.be.iv.narrow (s.prob s.be.pslot) true).high) &&&
        0x00FFFFFFFF000000#64 ≠ 0 := by decide +kernel

theorem witness_beEncBit_group :
    let s := coding .enc 0 0x00FFFFFFFFFFFFFF 0 (writingTo 0xFFFFFFF8 8 (fixed 0 State.reset))
    (s.live ∧ s.be.mode = .enc ∧ s.bw.isOpen = true ∧ s.predReady s.be.pslot ∧
      ((s.be.iv.narrow (s.prob s.be.pslot) true).low ^^^ (s.be.iv.narrow (s.prob s.be.pslot) true).high) &&&
        0x00FFFFFFFF000000#64 = 0 ∧ s.par.ok = true ∧ s.env.neverFails ∧ s.bw.hasRoom 32) ∧ WriterOk s.par.bufsz s.bw :=
  ⟨by decide +kernel, witness_writingTo_ok⟩

theorem witness_beEncBits :
    let s := coding .enc 0 0x00FFFFFFFFFFFFFF 0 (writing (fixed 0 State.reset))
    (State.reset.live ∧ 64 < (65#8).toNat) ∧ State.reset.be.mode ≠ .enc ∧ (s.live ∧ (64#8).toNat ≤ 64 ∧ s.be.mode = .enc ∧ s.bw.isOpen = true ∧
      s.predReady s.be.pslot ∧ s.par.ok = true ∧ s.env.neverFails ∧ s.bw.hasRoom (32 * (64#8).toNat)) ∧
      WriterOk s.par.bufsz s.bw := ⟨by decide, by decide, by decide +kernel, witness_writing_ok⟩

theorem witness_beEncBits_inTurn :
    let s := coding .enc 0 0x00FFFFFFFFFFFFFF 0 (writing (fixed 2048 State.reset))
    let u := uncounted (after (.beEncBit true) s) s
    let t := uncounted (after (.beEncBits 7 0xC1) u) u
    ((7#8).toNat < 64 ∧ s.live ∧ s.be.mode = .enc ∧ s.bw.isOpen = true ∧ (0xC1#64).getLsbD (7#8).toNat = true ∧ u.live ∧
      u.resp = s.resp ∧ t.live) ∧
      exec (.beEncBit true) s = .next (u.completed 0) ∧ exec (.beEncBits 7 0xC1) u = .next (t.completed 0) :=
  ⟨by decide +kernel, eq_of_isNext (by decide +kernel), eq_of_isNext (by decide +kernel)⟩

theorem witness_beEncDispose :
    let s := coding .enc 0 0x00FFFFFFFFFFFFFF 0 (writingTo 0xFFFFFFF8 8 State.reset)
    State.reset.be.mode ≠ .enc ∧ (s.live ∧ s.be.mode = .enc ∧ s.bw.isOpen = true ∧ s.par.ok = true ∧ s.env.neverFails ∧
      s.bw.hasRoom 64) ∧ WriterOk s.par.bufsz s.bw := ⟨by decide, by decide +kernel, witness_writingTo_ok⟩

theorem witness_beDecInit_illegal :
    (fixed 2048 State.reset).live ∧ 1 < (2#4).toNat ∧ (fixed 2048 State.reset).pr[(1 : Fin 2)].kind = .none ∧
      (fixed 2048 State.reset).pr[(0 : Fin 2)].kind ≠ .none ∧ (fixed 2048 State.reset).br.isOpen = false :=
  by decide +kernel

theorem witness_beDecInit :
    let s := reading twoBits (fixed 2048 State.reset)
    (s.live ∧ s.pr[(0 : Fin 2)].kind ≠ .none ∧ s.br.isOpen = true ∧ s.par.ok = true ∧ s.env.neverFails ∧
      64 ≤ (remainingBits s.br s.env).length) ∧ ReaderOk s.par.bufsz s.br := ⟨by decide +kernel, witness_reading_ok⟩

theorem witness_beDecInit_short :
    let s := sixtyThree
    (s.live ∧ s.pr[(0 : Fin 2)].kind ≠ .none ∧ s.br.isOpen = true ∧ s.par.ok = true ∧ s.env.neverFails ∧
      (remainingBits s.br s.env).length < 64) ∧ ReaderOk s.par.bufsz s.br :=
  ⟨by decide +kernel, readerOk_of (by decide +kernel)⟩

theorem witness_beDecBit :
    let s := coding .dec 0 0x00FFFFFFFFFFFFFF 0x003FFFFFFFFFFFF9 (fixed 2048 State.reset)
    let iv := s.be.iv.narrow (s.prob s.be.pslot) (decide (s.be.current ≤ s.be.iv.low + s.be.iv.split (s.prob s.be.pslot)))
    State.reset.be.mode ≠ .dec ∧ s.live ∧ s.be.mode = .dec ∧ s.predReady s.be.pslot ∧
      (iv.low ^^^ iv.high) &&& 0x00FFFFFFFF000000#64 ≠ 0 := by decide +kernel

theorem witness_beDecBit_group :
    let s := coding .dec 0 0x00FFFFFFFFFFFFFF 0 (reading [1, 2, 3, 4] (fixed 0 State.reset))
    let iv := s.be.iv.narrow (s.prob s.be.pslot) (decide (s.be.current ≤ s.be.iv.low + s.be.iv.split (s.prob s.be.pslot)))
    (s.live ∧ s.be.mode = .dec ∧ s.predReady s.be.pslot ∧ (iv.low ^^^ iv.high) &&& 0x00FFFFFFFF000000#64 = 0 ∧
      s.br.isOpen = true ∧ s.par.ok = true ∧ s.env.neverFails ∧ 32 ≤ (remainingBits s.br s.env).length) ∧
      ReaderOk s.par.bufsz s.br := ⟨by decide +kernel, readerOk_of (by decide +kernel)⟩

theorem witness_beDecBits :
    let s := coding .dec 0 0x00FFFFFFFFFFFFFF 0 (reading (List.replicate 256 0) (fixed 0 State.reset))
    (State.reset.live ∧ 64 < (65#8).toNat) ∧ State.reset.be.mode ≠ .dec ∧ (s.live ∧ (64#8).toNat ≤ 64 ∧ s.be.mode = .dec ∧
      s.predReady s.be.pslot ∧ s.par.ok = true ∧ s.br.isOpen = true ∧ s.env.neverFails ∧
      32 * (64#8).toNat ≤ (remainingBits s.br s.env).length) ∧ ReaderOk s.par.bufsz s.br :=
  ⟨by decide, by decide, by decide +kernel, readerOk_of (by decide +kernel)⟩

theorem witness_beDecBits_inTurn :
    let s := coding .dec 0 0x00FFFFFFFFFFFFFF 0x003FFFFFFFFFFFF9 (fixed 2048 State.reset)
    let u := uncounted (after .beDecBit s) s
    let t := uncounted (after (.beDecBits 1) u) u
    ((1#8).toNat < 64 ∧ s.live ∧ s.be.mode = .dec ∧ u.live ∧ u.resp = s.resp ∧ t.live) ∧
      exec .beDecBit s = .next (u.completed 1) ∧ exec (.beDecBits 1) u = .next (t.completed 0) :=
  ⟨by decide +kernel, eq_of_isNext (by decide +kernel), eq_of_isNext (by decide +kernel)⟩

theorem witness_beDecDisposeAndSetpred :
    let s := coding .dec 0 0x00FFFFFFFFFFFFFF 0 (fixed 2048 State.reset)
    State.reset.live ∧ State.reset.be.mode = .idle ∧ State.reset.be.mode ≠ .dec ∧ s.live ∧ s.be.mode = .dec ∧
      s.be.mode ≠ .idle ∧ 1 < (2#4).toNat ∧ s.pr[(1 : Fin 2)].kind = .none ∧ s.pr[(0 : Fin 2)].kind ≠ .none :=
  by decide +kernel

/-- Also the bounds of `LR` in the round trip. -/
theorem witness_ansTables :
    let count := List.replicate 255 0 ++ [1]
    count.length = 256 ∧ count.sum ≠ 0 ∧ 8 ≤ 8 ∧ 16 ≤ 16 := by decide +kernel

theorem witness_ansEnc_illegal :
    State.reset.live ∧ (writingTo 0 8 State.reset).live ∧ 1 < (2#8).toNat ∧ (1#8).toNat ≤ 1 ∧ ¬fits 2 0xFFFFFFFF ∧ fits 0 3 ∧ (3#32).toNat < (1#32).toNat + (3#32).toNat ∧
      (writingTo 0 8 State.reset).bw.isOpen = true ∧ (writingTo 0 8 State.reset).bw.kind = .window ∧
      overlap (writingTo 0 8 State.reset).bw.base (writingTo 0 8 State.reset).bw.cap 7 3 := by decide +kernel

theorem witness_ansEnc :
    let s := writingTo 0x100 104 (windows 0 3 0 0 { withMem 0 [0x61, 0x61, 0x62] with logRange := 8 })
    let d := memBytes s.env.mem (s.win.srcBase.toNat + (0#32).toNat) (3#32).toNat
    let run := fieldBits (ansFields (decide ((1#8).toNat = 1)) s.logRange.toNat d)
    (s.live ∧ (1#8).toNat ≤ 1 ∧ fits s.win.srcBase s.win.srcLen ∧ (0#32).toNat + (3#32).toNat ≤ s.win.srcLen.toNat ∧
      s.bw.isOpen = true ∧ (s.bw.kind = .window → ¬overlap s.bw.base s.bw.cap s.win.srcBase s.win.srcLen) ∧
      s.par.ok = true ∧ s.env.neverFails ∧ s.bw.hasRoom run.length) ∧ WriterOk s.par.bufsz s.bw :=
  ⟨by decide +kernel, writerOk_of (by decide +kernel)⟩

theorem witness_ansDec_illegal :
    let s := windows 0 0 7 3 { State.reset with
      br := { BitReader.reset with isOpen := true, kind := .window, base := 0, len := 8 } }
    1 < (2#8).toNat ∧ ¬fits 2 0xFFFFFFFF ∧ s.live ∧ fits s.win.dstBase s.win.dstCap ∧
      s.win.dstCap.toNat < (1#32).toNat + (3#32).toNat ∧ (0#32).toNat + (3#32).toNat ≤ s.win.dstCap.toNat ∧
      State.reset.br.isOpen = false ∧ s.br.isOpen = true ∧ s.br.kind = .window ∧
      overlap s.br.base s.br.len s.win.dstBase s.win.dstCap := by decide +kernel

theorem witness_ansDec :
    let s := windows 0 0 0xFFFFFFFF 1 (reading ([0x4F, 0xFF, 0x80] ++ List.replicate 32 0 ++ [0x80, 0, 0]) State.reset)
    (s.live ∧ (0#8).toNat ≤ 1 ∧ fits s.win.dstBase s.win.dstCap ∧ (0#32).toNat + (1#32).toNat ≤ s.win.dstCap.toNat ∧
      s.br.isOpen = true ∧ (s.br.kind = .window → ¬overlap s.br.base s.br.len s.win.dstBase s.win.dstCap) ∧
      s.par.ok = true ∧ s.env.neverFails ∧ ([0] : List Byte).length = (1#32).toNat ∧
      remainingBits s.br s.env = fieldBits (ansFields (decide ((0#8).toNat = 1)) 12 [0]) ++ []) ∧
      ReaderOk s.par.bufsz s.br := ⟨by decide +kernel, readerOk_of (by decide +kernel)⟩

theorem witness_rzInit :
    State.reset.live ∧ (3#8 ≠ 1 ∧ 3#8 ≠ 2) ∧ (1#8).toNat < 2 ∧ 8 < (9#8).toNat ∧ 2 ≤ (2#8).toNat ∧ (8#8).toNat ≤ 8 :=
  by decide +kernel

theorem witness_rzChunk :
    let s := windows 0 16 0 0 (rolz 1 4 abc)
    State.reset.rz.ready = false ∧ ¬fits 2 0xFFFFFFFF ∧ s.live ∧ s.rz.ready = true ∧ fits s.win.srcBase s.win.srcLen ∧
      2 ^ 26 < (0x4000001#32).toNat ∧ s.win.srcLen.toNat < (0#32).toNat + (13#32).toNat + 4 ∧ (12#32).toNat ≤ 2 ^ 26 ∧
      (0#32).toNat + (12#32).toNat + 4 ≤ s.win.srcLen.toNat := by decide +kernel

theorem witness_rzFind :
    let s := { chunk 0 12 (rolz 1 4 abc) with
      rz := { (chunk 0 12 (rolz 1 4 abc)).rz with counters := [(0x6261, 1)], matchRing := [(0x62611, 0xAC000002)] } }
    State.reset.rz.ready = false ∧ (rolz 1 4 abc).rz.cvalid = false ∧ (1#32).toNat < 2 ∧ s.rz.csize.toNat ≤ (12#32).toNat ∧
      s.live ∧ s.rz.ready = true ∧ s.rz.cvalid = true ∧ 2 ≤ (5#32).toNat ∧ (11#32).toNat < s.rz.csize.toNat ∧
      s.rz.chunkFits ∧ s.rz.ringsBefore (5#32).toNat ∧ s.rz.ringsBefore (11#32).toNat ∧
      (chunk 0 12 (rolz 1 4 abc)).rz.ringsBefore (2#32).toNat ∧ s.env.quiet := by decide +kernel

theorem witness_rzFind_outOfOrder :
    let s := { chunk 0xFFFFFFF0 12 (rolz 1 4 State.reset) with
      rz := { (chunk 0xFFFFFFF0 12 (rolz 1 4 State.reset)).rz with counters := [(0, 1)], matchRing := [(1, 11)] } }
    s.live ∧ s.rz.ready = true ∧ s.rz.cvalid = true ∧ 2 ≤ (2#32).toNat ∧ (2#32).toNat < s.rz.csize.toNat ∧ s.rz.chunkFits ∧
      s.env.quiet ∧ ¬s.rz.ringsBefore (2#32).toNat := by decide +kernel

theorem witness_lengthCode :
    State.reset.live ∧ 2 ^ 28 + 30 < (0x1000001F#32).toNat ∧ 262 < (263#16).toNat ∧ (0x1000001E#32).toNat ≤ 2 ^ 28 + 30 ∧
      (262#16).toNat ≤ 262 := by decide +kernel

theorem witness_rzReadlen :
    State.reset.live ∧ 7 < (8#64).toNat % 256 ∧ (0#64).toNat % 256 ≤ 7 ∧ readLengths [] = none ∧
      (0x7FF802#64).toNat % 256 = 2 ∧
      readLengths ((List.range 2).map fun i => BitVec.ofNat 8 ((0x7FF802#64).toNat / 2 ^ (8 + 8 * i))) = some (158, 0, []) :=
  by decide +kernel

theorem witness_storedBlocks :
    let s := windows 0 4 0x100 8 (rolz 1 4 (withMem 0 [0x41, 0x42, 0x43, 0x44]))
    let u := windows 0 8 0x100 4 (rolz 2 5 (withMem 3 [4, 0x41, 0x42, 0x43, 0x44]))
    let e := windows 0 0 0 0 (rolz 1 4 State.reset)
    (s.live ∧ s.rz.ready = true ∧ s.rz.backend = 1 ∧ fits s.win.srcBase s.win.srcLen ∧ fits s.win.dstBase s.win.dstCap ∧
      ¬overlap s.win.srcBase s.win.srcLen s.win.dstBase s.win.dstCap ∧ s.env.quiet ∧ s.win.srcLen.toNat = 4 ∧
      4 + 4 ≤ s.win.dstCap.toNat) ∧
    (u.live ∧ u.rz.ready = true ∧ u.rz.backend = 2 ∧ fits u.win.srcBase u.win.srcLen ∧ fits u.win.dstBase u.win.dstCap ∧
      ¬overlap u.win.srcBase u.win.srcLen u.win.dstBase u.win.dstCap ∧ u.env.quiet ∧ u.win.srcLen.toNat = 4 + 4 ∧
      4 ≤ u.win.dstCap.toNat ∧ Memory.read u.env.mem 0 = 0 ∧ Memory.read u.env.mem 1 = 0 ∧ Memory.read u.env.mem 2 = 0 ∧
      Memory.read u.env.mem 3 = BitVec.ofNat 8 4) ∧
    e.live ∧ e.rz.ready = true ∧ e.rz.backend = 1 ∧ fits e.win.srcBase e.win.srcLen ∧ fits e.win.dstBase e.win.dstCap ∧
      ¬overlap e.win.srcBase e.win.srcLen e.win.dstBase e.win.dstCap ∧ e.env.quiet ∧ e.win.srcLen.toNat = 0 :=
  by decide +kernel

theorem witness_rzFwd :
    ∀ s ∈ [windows 0 0x8000000 0x8000000 0x80100000 (rolz 1 8 State.reset), windows 0 0 0 0x100000 (rolz 1 2 State.reset),
        windows 0 5 0x100 196 (rolz 2 4 State.reset)],
      s.live ∧ s.rz.ready = true ∧ (s.rz.backend = 1 ∨ s.rz.backend = 2) ∧ fits s.win.srcBase s.win.srcLen ∧
        fits s.win.dstBase s.win.dstCap ∧ ¬overlap s.win.srcBase s.win.srcLen s.win.dstBase s.win.dstCap ∧
        s.win.srcLen.toNat ≤ 2 ^ 27 ∧ s.env.quiet ∧
        (s.rz.backend = 1 → 8 ≤ s.logRange.toNat ∧ s.logRange.toNat ≤ 16) ∧
        (s.rz.backend = 1 → 16 * s.win.srcLen.toNat + 2 ^ 20 ≤ s.win.dstCap.toNat) ∧
        (s.rz.backend = 2 → 36 * s.win.srcLen.toNat + 16 ≤ s.win.dstCap.toNat) := by decide +kernel

theorem witness_blockChecks :
    let s := windows 0 0x8000001 0x8000001 0 (rolz 1 4 State.reset)
    State.reset.live ∧ State.reset.rz.ready = false ∧ ¬fits 2 0xFFFFFFFF ∧ s.live ∧ s.rz.ready = true ∧
      fits s.win.srcBase s.win.srcLen ∧ fits s.win.dstBase s.win.dstCap ∧
      ¬overlap s.win.srcBase s.win.srcLen s.win.dstBase s.win.dstCap ∧ 2 ^ 27 < s.win.srcLen.toNat ∧ overlap 0 8 7 1 :=
  by decide +kernel

/-- A block that does not fit, also by one byte at the largest size: only the counters, cleared before, have changed. -/
theorem witness_blockChecks_capacity :
    let s := windows 0 4 0x100 4 { rolz 2 4 (withMem 3 [5]) with
      rz := { (rolz 2 4 State.reset).rz with counters := [(1, 1)] } }
    let t := windows 0 4 0x100 0x7FFFFFF (rolz 1 4 (withMem 0 [8]))
    (s.live ∧ s.rz.ready = true ∧ fits s.win.srcBase s.win.srcLen ∧ fits s.win.dstBase s.win.dstCap ∧
      ¬overlap s.win.srcBase s.win.srcLen s.win.dstBase s.win.dstCap ∧ s.env.quiet ∧ 4 ≤ s.win.srcLen.toNat ∧
      memBytes s.env.mem s.win.srcBase.toNat 4 = beBytes4 (BitVec.ofNat 32 5) ∧ 5 ≤ 2 ^ 27 ∧ s.win.dstCap.toNat < 5) ∧
      memBytes t.env.mem t.win.srcBase.toNat 4 = beBytes4 (BitVec.ofNat 32 (2 ^ 27)) ∧ t.win.dstCap.toNat < 2 ^ 27 ∧
      exec .rzInv s = .next
        (({ s with rz := { s.rz with counters := [] } } : State).failed 0x72 .bufferTooSmall 2) :=
  ⟨by decide +kernel, by decide +kernel, by decide, eq_of_isNext (by decide +kernel)⟩

theorem witness_rzRoundTrip_coded :
    let s := windows 0 5 0x100 64 (rolz 2 4 (withMem 0 [0x41, 0x42, 0x43, 0x44, 0x45]))
    let t := uncounted (after .rzFwd s) s
    let u := windows 0x100 16 0x200 5 t
    (s.live ∧ s.rz.backend = 2 ∧ 2 ≤ s.rz.lpc.toNat ∧ s.rz.lpc.toNat ≤ 8 ∧ 8 ≤ s.logRange.toNat ∧ s.logRange.toNat ≤ 16 ∧
      s.env.quiet ∧ t.live ∧ u.live ∧ u.rz.ready = true ∧ u.rz.backend = s.rz.backend ∧ u.rz.lpc = s.rz.lpc ∧
      u.env.quiet ∧ fits u.win.srcBase u.win.srcLen ∧ fits u.win.dstBase u.win.dstCap ∧
      ¬overlap u.win.srcBase u.win.srcLen u.win.dstBase u.win.dstCap ∧ u.win.srcLen.toNat = (16#64).toNat ∧
      s.win.srcLen.toNat ≤ u.win.dstCap.toNat ∧ memBytes u.env.mem u.win.srcBase.toNat (16#64).toNat =
        memBytes t.env.mem s.win.dstBase.toNat (16#64).toNat) ∧ exec .rzFwd s = .next (t.completed 16) :=
  ⟨by decide +kernel, eq_of_isNext (by decide +kernel)⟩

theorem witness_rzRoundTrip_coded1 :
    let s := windows 0 5 0x100 256 (rolz 1 4 (withMem 0 [0x41, 0x42, 0x43, 0x44, 0x45]))
    let t := uncounted (after .rzFwd s) s
    let u := windows 0x100 128 0x200 5 t
    (s.live ∧ s.rz.backend = 1 ∧ 2 ≤ s.rz.lpc.toNat ∧ s.rz.lpc.toNat ≤ 8 ∧ 8 ≤ s.logRange.toNat ∧ s.logRange.toNat ≤ 16 ∧
      s.env.quiet ∧ t.live ∧ u.live ∧ u.rz.ready = true ∧ u.rz.backend = s.rz.backend ∧ u.rz.lpc = s.rz.lpc ∧
      u.env.quiet ∧ fits u.win.srcBase u.win.srcLen ∧ fits u.win.dstBase u.win.dstCap ∧
      ¬overlap u.win.srcBase u.win.srcLen u.win.dstBase u.win.dstCap ∧ u.win.srcLen.toNat = (128#64).toNat ∧
      s.win.srcLen.toNat ≤ u.win.dstCap.toNat ∧ memBytes u.env.mem u.win.srcBase.toNat (128#64).toNat =
        memBytes t.env.mem s.win.dstBase.toNat (128#64).toNat) ∧ exec .rzFwd s = .next (t.completed 128) :=
  ⟨by decide +kernel, eq_of_isNext (by decide +kernel)⟩

/-- A step with every invariant of the state before it. -/
theorem witness_step :
    let s := presents (encode .bwClose) (threeBits 1)
    (Memory.wf s.env.mem = true ∧ s.par.ok = true ∧ s.live ∧ CoderOk s.be.iv) ∧ WriterOk s.par.bufsz s.bw ∧
      step s = .next (after .bwClose (threeBits 1)) ∧ (after .bwClose (threeBits 1)).live :=
  ⟨by decide +kernel, witness_threeBits_ok, eq_of_isNext (by decide +kernel), by decide +kernel⟩

theorem witness_step_reader :
    let s := presents (encode .brMore) (reading twoBits State.reset)
    (s.par.ok = true ∧ s.live ∧ s.br.isOpen = true) ∧ ReaderOk s.par.bufsz s.br ∧
      step s = .next (after .brMore (reading twoBits State.reset)) ∧
      (after .brMore (reading twoBits State.reset)).live ∧ (after .brMore (reading twoBits State.reset)).br.isOpen = true :=
  ⟨by decide +kernel, witness_reading_ok, eq_of_isNext (by decide +kernel), by decide +kernel, by decide +kernel⟩

theorem witness_step_srcEnd :
    let s := { reading [0xAB] State.reset with inbox := [.rstPin], env := { (reading [0xAB] State.reset).env with srcEnd := true } }
    s.env.srcEnd = true ∧ ∃ t, step s = .next t := ⟨rfl, _, rfl⟩

/-- A command that changes a byte of MEM. -/
theorem witness_exec_stores :
    exec .bwClose (threeBits 1) = .next (after .bwClose (threeBits 1)) ∧
      Memory.read (after .bwClose (threeBits 1)).env.mem 0 ≠ Memory.read (threeBits 1).env.mem 0 :=
  ⟨eq_of_isNext (by decide +kernel), by decide +kernel⟩

theorem witness_exec_fails :
    exec .bwClose State.reset = .next (State.reset.failed 0x13 .ioError 1) ∧ Instr.bwClose ≠ .reset ∧
      exec .bwClose (faulted State.reset) = .next (faulted State.reset).refused :=
  ⟨eq_of_isNext (by decide +kernel), by decide, eq_of_isNext (by decide +kernel)⟩

theorem witness_registersLegal :
    (LatchOk State.reset.latch ∧ ConfigOk State.reset) ∧ (LatchOk (faulted State.reset).latch ∧ ConfigOk (faulted State.reset)) ∧
      ConfigOk (rolz 2 8 State.reset) ∧ step State.reset = .next State.reset ∧
      step (faulted State.reset) = .next (faulted State.reset) := by
  unfold LatchOk ConfigOk
  exact ⟨by decide, by decide, by decide, rfl, rfl⟩

theorem witness_windowsOk : WindowsOk (chunk 0 12 (rolz 1 4 abc)) ∧ WindowsOk (threeBits 1) ∧
    WindowsOk (chunk 0xFFFFFFF0 12 (rolz 1 4 State.reset)) ∧ step (threeBits 1) = .next (threeBits 1) := by
  unfold WindowsOk
  exact ⟨by decide +kernel, by decide +kernel, by decide +kernel, rfl⟩

end Sys2Proof.Tests

end
end

section
/-!
SUPPORT. What the rule of every command leaves unchanged, however it ends, and what the execution of a command is made of.
-/

namespace Sys2Proof.Machine

variable {σ α β : Type}

/-! ### The state a piece of a rule ends with -/

@[simp] theorem Cmd.final_pure (a : α) (s : σ) : Cmd.final (pure a) s = s := rfl

@[simp] theorem Cmd.final_raise (k : ErrKind) (b : Byte) (d : Nat) (s : σ) :
    Cmd.final (raise k b d : Cmd σ α) s = s := rfl

@[simp] theorem Cmd.final_get_bind (f : σ → Cmd σ β) (s : σ) : Cmd.final (get >>= f) s = (f s).final s := rfl

@[simp] theorem Cmd.final_set_bind (t : σ) (f : PUnit → Cmd σ β) (s : σ) :
    Cmd.final (set t >>= f) s = (f ⟨⟩).final t := rfl

@[simp] theorem Cmd.final_modify_bind (g : σ → σ) (f : PUnit → Cmd σ β) (s : σ) :
    Cmd.final (modify g >>= f) s = (f ⟨⟩).final (g s) := rfl

@[simp] theorem Cmd.final_check_bind (bad : Bool) (k : ErrKind) (b : Byte) (d : Nat) (f : Unit → Cmd σ β) (s : σ) :
    Cmd.final (check bad k b d >>= f) s = if bad then s else (f ()).final s := by
  cases bad <;> rfl

/-- A piece that only computes a value from what another one ended with ends where that one does. -/
theorem Cmd.Keeps.bind_pure {R : σ → σ → Prop} {x : Cmd σ α} (h : x.Keeps R) (f : α → β) :
    (x >>= fun a => (Pure.pure (f a) : Cmd σ β)).Keeps R := by
  refine Cmd.Keeps.intro (fun s b t hx => ?_) (fun s e t hx => ?_)
  · obtain ⟨a, u, h1, h2⟩ := Cmd.bind_eq_ok.mp hx
    cases h2
    exact h.of_ok h1
  · rcases Cmd.bind_eq_error.mp hx with h1 | ⟨a, u, -, h2⟩
    · exact h.of_error h1
    · cases h2

/-! ### What a rule leaves unchanged -/

/-- The frame of the rule of a command: what the command does not touch, the error latch and the command counter;
`LOGRANGE` may only get a legal value (10_state.md R47). -/
structure RuleFrame (i : Instr) (s t : State) : Prop where
  untouched : Untouched i s t
  latch : t.latch = s.latch
  cmdCnt : t.cmdCnt = s.cmdCnt
  logRange : t.logRange = s.logRange ∨ 8 ≤ t.logRange.toNat ∧ t.logRange.toNat ≤ 16

variable {i : Instr}

theorem Untouched.refl (hi : i ≠ .reset) (s : State) : Untouched i s s := by
  cases i <;> simp_all [Untouched, Env.OnlyRead]

theorem RuleFrame.refl (hi : i ≠ .reset) (s : State) : RuleFrame i s s := ⟨Untouched.refl hi s, rfl, rfl, .inl rfl⟩

/-- A check in front of a piece: when it fails nothing has changed. -/
theorem RuleFrame.check_then (hi : i ≠ .reset) {c : Bool} {k : ErrKind} {b : Byte} {d : Nat} {f : Unit → Cmd State β}
    (h : (f ()).Keeps (RuleFrame i)) : (check c k b d >>= f).Keeps (RuleFrame i) :=
  Cmd.Keeps.check_then (RuleFrame.refl hi) fun _ => h

/-! ### The system commands -/

theorem csrrBody_keeps (idx : BitVec 8) : (csrrBody idx).Keeps (RuleFrame (.csrr idx)) := by
  intro s
  unfold csrrBody
  rw [Cmd.final_get_bind]
  cases readCsr s idx <;> exact RuleFrame.refl (by simp) s

/-- A CSR written: one of the window CSRs, or `LOGRANGE` with a legal value. -/
theorem writeCsr_eq_some {s t : State} {idx : BitVec 8} {v : Word} (h : writeCsr s idx v = some t) :
    t = s.withWin t.win ∨ ∃ x : BitVec 5, t = s.withLogRange x ∧ 8 ≤ x.toNat ∧ x.toNat ≤ 16 := by
  unfold writeCsr at h
  simp only at h
  split at h
  case h_5 =>
    split at h
    · next hv =>
      refine .inr ⟨v.setWidth 5, (Option.some.inj h).symm, ?_⟩
      rw [BitVec.toNat_setWidth]
      omega
    · cases h
  case h_6 => cases h
  all_goals
    split at h
    · cases h
      exact .inl rfl
    · cases h

theorem csrwBody_keeps (idx : BitVec 8) (v : Word) : (csrwBody idx v).Keeps (RuleFrame (.csrw idx v)) := by
  intro s
  unfold csrwBody
  rw [Cmd.final_get_bind]
  cases h : writeCsr s idx v with
  | none => exact RuleFrame.refl (by simp) s
  | some t =>
    simp only [Cmd.final_set_bind, Cmd.final_pure]
    rcases writeCsr_eq_some h with ht | ⟨x, ht, hx⟩ <;> rw [ht]
    · exact ⟨by simp [Untouched], rfl, rfl, .inl rfl⟩
    · exact ⟨by simp [Untouched], rfl, rfl, .inr hx⟩

/-! ### The streams -/

theorem bwOpenBody_keeps (kind : BitVec 8) : (bwOpenBody kind).Keeps (RuleFrame (.bwOpen kind)) := by
  intro s
  unfold bwOpenBody
  rw [Cmd.final_get_bind]
  cases streamKind kind with
  | none => exact RuleFrame.refl (by simp) s
  | some k =>
    cases k <;> simp only [Cmd.final_check_bind, Cmd.final_set_bind, Cmd.final_pure] <;> split_ifs <;>
      exact ⟨by simp [Untouched], rfl, rfl, .inl rfl⟩

theorem brOpenBody_keeps (kind : BitVec 8) : (brOpenBody kind).Keeps (RuleFrame (.brOpen kind)) := by
  intro s
  unfold brOpenBody
  rw [Cmd.final_get_bind]
  cases streamKind kind with
  | none => exact RuleFrame.refl (by simp) s
  | some k =>
    cases k <;> simp only [Cmd.final_check_bind, Cmd.final_set_bind, Cmd.final_pure] <;> split_ifs <;>
      exact ⟨by simp [Untouched], rfl, rfl, .inl rfl⟩

/-- The host's side when a writer has used it: the SRC port, what fails and what races stay. -/
structure Env.OnlyWritten (e e' : Env) : Prop where
  src : e'.src = e.src
  srcEnd : e'.srcEnd = e.srcEnd
  busErr : e'.busErr = e.busErr
  raced : e'.raced = e.raced
  dirtied : e'.dirtied = e.dirtied

theorem Env.OnlyWritten.refl (e : Env) : Env.OnlyWritten e e := ⟨rfl, rfl, rfl, rfl, rfl⟩

theorem Env.OnlyWritten.trans {a b c : Env} (h : Env.OnlyWritten a b) (h' : Env.OnlyWritten b c) : Env.OnlyWritten a c :=
  ⟨h'.src.trans h.src, h'.srcEnd.trans h.srcEnd, h'.busErr.trans h.busErr, h'.raced.trans h.raced,
    h'.dirtied.trans h.dirtied⟩

theorem WriterFrame.onlyWritten {t u : BitWriter × Env} (h : WriterFrame t u) : Env.OnlyWritten t.2 u.2 :=
  ⟨h.src, h.srcEnd, h.busErr, h.raced, h.dirtied⟩

/-- Only the writer and the ports it uses have changed. -/
def WriterOnly (s t : State) : Prop := ∃ w e, t = (s.withBw w).withEnv e ∧ Env.OnlyWritten s.env e

theorem WriterOnly.refl (s : State) : WriterOnly s s := ⟨s.bw, s.env, rfl, Env.OnlyWritten.refl _⟩

theorem WriterOnly.trans (a b c : State) (h : WriterOnly a b) (h' : WriterOnly b c) : WriterOnly a c := by
  obtain ⟨w, e, rfl, h⟩ := h
  obtain ⟨w', e', rfl, h'⟩ := h'
  exact ⟨w', e', rfl, h.trans h'⟩

theorem onWriter_writerOnly {x : Cmd (BitWriter × Env) α} (h : x.Keeps WriterFrame) : (onWriter x).Keeps WriterOnly :=
  (onWriter_keeps h).mono fun {_ t} h => ⟨t.bw, t.env, h.2, h.1.onlyWritten⟩

/-- The commands whose rule uses the writer alone. -/
theorem WriterOnly.ruleFrame {s t : State} (h : WriterOnly s t) (bit : Bool) (len order : BitVec 8) (v : Word)
    (n off : BitVec 32) :
    RuleFrame (.bwBit bit) s t ∧ RuleFrame (.bwBits len v) s t ∧ RuleFrame (.ansEnc order n off) s t := by
  obtain ⟨w, e, rfl, h⟩ := h
  have hu : Untouched (.bwBit bit) s ((s.withBw w).withEnv e) := by
    simp [Untouched, h.src, h.srcEnd, h.busErr, h.raced, h.dirtied]
  exact ⟨⟨hu, rfl, rfl, .inl rfl⟩, ⟨hu, rfl, rfl, .inl rfl⟩, ⟨hu, rfl, rfl, .inl rfl⟩⟩

theorem bwBitBody_keeps (bit : Bool) : (bwBitBody bit).Keeps WriterOnly :=
  Cmd.Keeps.get_bind fun s => (onWriter_writerOnly (writeBits_keeps _ _ _)).bind_pure _ s

theorem bwBitsBody_keeps (len : BitVec 8) (v : Word) : (bwBitsBody len v).Keeps WriterOnly :=
  Cmd.Keeps.check_then WriterOnly.refl fun _ =>
    Cmd.Keeps.get_bind fun s => (onWriter_writerOnly (writeBits_keeps _ _ _)).bind_pure _ s

theorem onMem_writerOnly {x : Cmd (Unit × Env) α} (h : x.Keeps fun t u => Env.OnlyWritten t.2 u.2) :
    (onMem x).Keeps WriterOnly :=
  h.zoom fun s t h => ⟨s.bw, t.2, rfl, h⟩

theorem ansEncBody_keeps (order : BitVec 8) (n off : BitVec 32) : (ansEncBody order n off).Keeps WriterOnly := by
  have hd : LetsDraw fun t u : Unit × Env => Env.OnlyWritten t.2 u.2 := fun _ _ => ⟨rfl, rfl, rfl, rfl, rfl⟩
  have ht : ∀ a b c : Unit × Env, Env.OnlyWritten a.2 b.2 → Env.OnlyWritten b.2 c.2 → Env.OnlyWritten a.2 c.2 :=
    fun _ _ _ => Env.OnlyWritten.trans
  unfold ansEncBody
  refine Cmd.Keeps.check_then WriterOnly.refl fun _ => Cmd.Keeps.bind WriterOnly.trans (Cmd.Keeps.get WriterOnly.refl) fun s => ?_
  refine Cmd.Keeps.check_then WriterOnly.refl fun _ => Cmd.Keeps.check_then WriterOnly.refl fun _ => ?_
  refine Cmd.Keeps.check_then WriterOnly.refl fun _ => Cmd.Keeps.check_then WriterOnly.refl fun _ => ?_
  refine Cmd.Keeps.ite (fun _ => Cmd.Keeps.pure WriterOnly.refl _) fun _ => ?_
  refine Cmd.Keeps.bind WriterOnly.trans (onWriter_writerOnly (writeBits_keeps _ _ _)) fun _ => ?_
  refine Cmd.Keeps.bind WriterOnly.trans (onMem_writerOnly (memReadBytes_keeps hd ht _ _)) fun _ => ?_
  refine Cmd.Keeps.bind WriterOnly.trans (onWriter_writerOnly (writeFields_keeps _ _)) fun _ => ?_
  refine Cmd.Keeps.bind WriterOnly.trans (onMem_writerOnly (memReadDown_keeps hd ht _ _ _)) fun _ => ?_
  refine Cmd.Keeps.bind WriterOnly.trans (Cmd.Keeps.get WriterOnly.refl) fun _ => ?_
  exact Cmd.Keeps.bind WriterOnly.trans (onWriter_writerOnly (writeFields_keeps _ _)) fun _ =>
    (Cmd.Keeps.get WriterOnly.refl).bind_pure _

/-- Only the reader and the ports it uses have changed. -/
def ReaderOnly (s t : State) : Prop := ∃ r e, t = (s.withBr r).withEnv e ∧ Env.OnlyRead s.env e

theorem ReaderOnly.refl (s : State) : ReaderOnly s s := ⟨s.br, s.env, rfl, Env.OnlyRead.refl _⟩

theorem onReader_readerOnly {x : Cmd (BitReader × Env) α} (h : x.Keeps ReaderFrame) : (onReader x).Keeps ReaderOnly :=
  (onReader_keeps h).mono fun {_ t} h => ⟨t.br, t.env, h.2, h.1.env⟩

/-- The commands whose rule uses the reader alone. -/
theorem ReaderOnly.ruleFrame {s t : State} (h : ReaderOnly s t) (len : BitVec 8) :
    RuleFrame .brBit s t ∧ RuleFrame (.brBits len) s t ∧ RuleFrame .brMore s t := by
  obtain ⟨r, e, rfl, h⟩ := h
  have hu : Untouched .brBit s ((s.withBr r).withEnv e) := by simp [Untouched, h]
  exact ⟨⟨hu, rfl, rfl, .inl rfl⟩, ⟨hu, rfl, rfl, .inl rfl⟩, ⟨hu, rfl, rfl, .inl rfl⟩⟩

theorem brBitBody_keeps : brBitBody.Keeps ReaderOnly :=
  Cmd.Keeps.get_bind fun s => onReader_readerOnly (readBits_keeps _ _) s

theorem brBitsBody_keeps (len : BitVec 8) : (brBitsBody len).Keeps ReaderOnly :=
  Cmd.Keeps.check_then ReaderOnly.refl fun _ => Cmd.Keeps.get_bind fun s => onReader_readerOnly (readBits_keeps _ _) s

theorem brMoreBody_keeps : brMoreBody.Keeps ReaderOnly :=
  Cmd.Keeps.get_bind fun s => onReader_readerOnly (moreBits_keeps _) s

theorem bwCloseBody_keeps : bwCloseBody.Keeps (RuleFrame .bwClose) := by
  have hclose : ∀ {s t : State}, WriterFrame (s.bw, s.env) (t.bw, t.env) ∧ t = { s with bw := t.bw, env := t.env } →
      RuleFrame .bwClose s t ∧ RuleFrame .bwClose s t.release := by
    rintro s t ⟨hw, ht⟩
    have hdrawn : t.env.drawn = s.env.drawn := hw.drawn
    have h : Env.OnlyWritten s.env t.env := hw.onlyWritten
    generalize t.bw = w at ht
    generalize t.env = e at hdrawn h ht
    subst ht
    exact ⟨⟨by simp [Untouched, hdrawn, h.src, h.srcEnd, h.busErr, h.raced, h.dirtied], rfl, rfl, .inl rfl⟩,
      ⟨by simp [Untouched, hdrawn, h.src, h.srcEnd, h.busErr, h.raced, h.dirtied], rfl, rfl, .inl rfl⟩⟩
  refine Cmd.Keeps.intro (fun s v t h => ?_) (fun s e t h => ?_)
  · obtain ⟨n, u, h1, h2⟩ := Cmd.bind_eq_ok.mp h
    cases h2
    exact (hclose ((onWriter_keeps closeWriter_keeps).of_ok h1)).2
  · rcases Cmd.bind_eq_error.mp h with h1 | ⟨n, u, -, h2⟩
    · exact (hclose ((onWriter_keeps closeWriter_keeps).of_error h1)).1
    · cases h2

theorem brCloseBody_keeps : brCloseBody.Keeps (RuleFrame .brClose) := by
  intro s
  unfold brCloseBody
  rw [Cmd.final_get_bind, Cmd.final_set_bind, Cmd.final_pure]
  split_ifs
  · exact ⟨by simp [Untouched], rfl, rfl, .inl rfl⟩
  · exact RuleFrame.refl (by simp) s

theorem brReadBody_keeps : brReadBody.Keeps (RuleFrame .brRead) := fun s => RuleFrame.refl (by simp) s

/-- Only the reader and its port, and MEM, have changed. -/
def DecodeOnly (s t : State) : Prop :=
  ∃ r e, t = (s.withBr r).withEnv e ∧
    e = { s.env with mem := e.mem, src := e.src, srcEnd := e.srcEnd, drawn := e.drawn } ∧
    (s.env.srcEnd = true → e.srcEnd = true)

theorem DecodeOnly.refl (s : State) : DecodeOnly s s := ⟨s.br, s.env, rfl, rfl, id⟩

theorem DecodeOnly.trans (a b c : State) (h : DecodeOnly a b) (h' : DecodeOnly b c) : DecodeOnly a c := by
  obtain ⟨r, e, rfl, he, hend⟩ := h
  obtain ⟨r', e', rfl, he', hend'⟩ := h'
  refine ⟨r', e', rfl, ?_, hend' ∘ hend⟩
  rw [he', State.withEnv_env, he]

theorem DecodeOnly.of_reader {s t : State} (h : ReaderOnly s t) : DecodeOnly s t := by
  obtain ⟨r, e, rfl, he, hend⟩ := h
  exact ⟨r, e, rfl, by rw [he], hend⟩

theorem DecodeOnly.ruleFrame {s t : State} (h : DecodeOnly s t) (order : BitVec 8) (n off : BitVec 32) :
    RuleFrame (.ansDec order n off) s t := by
  obtain ⟨r, e, rfl, he, hend⟩ := h
  exact ⟨by rw [he]; simpa [Untouched] using hend, rfl, rfl, .inl rfl⟩

theorem ansDecBody_keeps (order : BitVec 8) (n off : BitVec 32) : (ansDecBody order n off).Keeps DecodeOnly := by
  have hstore : ∀ (a : Nat) (l : List Byte), (onMem (memWriteBytes a l)).Keeps DecodeOnly := fun a l =>
    (memWriteBytes_keeps (P := fun _ => True) l fun _ _ _ => trivial).zoom fun s t h =>
      ⟨s.br, t.2, rfl, by rw [h.1], by rw [h.1]; exact id⟩
  unfold ansDecBody
  refine Cmd.Keeps.check_then DecodeOnly.refl fun _ => Cmd.Keeps.bind DecodeOnly.trans (Cmd.Keeps.get DecodeOnly.refl) fun s => ?_
  refine Cmd.Keeps.check_then DecodeOnly.refl fun _ => Cmd.Keeps.check_then DecodeOnly.refl fun _ => ?_
  refine Cmd.Keeps.check_then DecodeOnly.refl fun _ => Cmd.Keeps.check_then DecodeOnly.refl fun _ => ?_
  refine Cmd.Keeps.bind DecodeOnly.trans ((onReader_readerOnly (ansDecode_keeps ReaderFrame.refl ReaderFrame.trans
    (readBits_keeps _) _ _)).mono DecodeOnly.of_reader) fun d => ?_
  exact Cmd.Keeps.bind DecodeOnly.trans (hstore _ d).midway fun _ => (Cmd.Keeps.get DecodeOnly.refl).bind_pure _

/-! ### Predictors -/

theorem apmInitBody_keeps (slot : BitVec 4) (variant : BitVec 2) (rate : BitVec 4) (n : BitVec 32) :
    (apmInitBody slot variant rate n).Keeps (RuleFrame (.apmInit slot variant rate n)) := by
  intro s
  unfold apmInitBody
  rw [Cmd.final_get_bind, Cmd.final_check_bind]
  split_ifs
  · exact RuleFrame.refl (by simp) s
  · cases apmVariant variant with
    | none => exact RuleFrame.refl (by simp) s
    | some v =>
      simp only [Cmd.final_check_bind, Cmd.final_set_bind, Cmd.final_pure]
      split_ifs <;> exact ⟨by simp [Untouched], rfl, rfl, .inl rfl⟩

theorem apmGetBody_keeps (slot : BitVec 4) (bit : Bool) (pr : Prob12) (ctx : BitVec 32) :
    (apmGetBody slot bit pr ctx).Keeps (RuleFrame (.apmGet slot bit pr ctx)) := by
  intro s
  unfold apmGetBody
  rw [Cmd.final_get_bind]
  generalize s.apm[apmIdx slot].get bit pr ctx.toNat = x
  obtain ⟨p, a⟩ := x
  simp only [Cmd.final_check_bind, Cmd.final_set_bind, Cmd.final_pure]
  split_ifs <;> exact ⟨by simp [Untouched], rfl, rfl, .inl rfl⟩

theorem prInitBody_keeps (slot : BitVec 4) (kind : BitVec 8) (arg : BitVec 32) :
    (prInitBody slot kind arg).Keeps (RuleFrame (.prInit slot kind arg)) := by
  intro s
  unfold prInitBody
  rw [Cmd.final_get_bind]
  cases predSlot slot with
  | none => exact RuleFrame.refl (by simp) s
  | some i =>
    cases predKind kind with
    | none => exact RuleFrame.refl (by simp) s
    | some k =>
      cases k <;> simp only [checkLogSize, Cmd.final_check_bind, Cmd.final_set_bind, Cmd.final_pure, Cmd.final_raise] <;>
        split_ifs <;> exact ⟨by simp [Untouched], rfl, rfl, .inl rfl⟩

theorem prGetBody_keeps (slot : BitVec 4) : (prGetBody slot).Keeps (RuleFrame (.prGet slot)) := by
  unfold prGetBody
  cases predSlot slot with
  | none => exact fun s => RuleFrame.refl (by simp) s
  | some i =>
    refine Cmd.Keeps.bind_pure (fun s => ?_) _
    unfold Cmd.final
    rw [onPreds_predGet]
    split_ifs <;> exact RuleFrame.refl (by simp) s

theorem prUpdateBody_keeps (slot : BitVec 4) (bit : Bool) : (prUpdateBody slot bit).Keeps (RuleFrame (.prUpdate slot bit)) := by
  unfold prUpdateBody
  cases predSlot slot with
  | none => exact fun s => RuleFrame.refl (by simp) s
  | some i =>
    refine Cmd.Keeps.bind_pure ((onPreds_keeps _).mono fun h => ?_) _
    rw [h]
    exact ⟨by simp [Untouched], rfl, rfl, .inl rfl⟩

theorem prSetctxBody_keeps (slot : BitVec 4) (byte : Byte) :
    (prSetctxBody slot byte).Keeps (RuleFrame (.prSetctx slot byte)) := by
  intro s
  unfold prSetctxBody
  rw [Cmd.final_get_bind]
  cases predSlot slot with
  | none => exact RuleFrame.refl (by simp) s
  | some i =>
    simp only [Cmd.final_check_bind, Cmd.final_set_bind, Cmd.final_pure]
    split_ifs <;> exact ⟨by simp [Untouched], rfl, rfl, .inl rfl⟩

/-! ### The coder -/

/-- Only what the encoder uses has changed: coder, predictors, writer. -/
def EncoderOnly (s t : State) : Prop :=
  ∃ b p a x w e d, t = { s with be := b, pr := p, apm := a, ext := x, bw := w, env := e, draws := d } ∧
    Env.OnlyWritten s.env e

theorem EncoderOnly.refl (s : State) : EncoderOnly s s :=
  ⟨s.be, s.pr, s.apm, s.ext, s.bw, s.env, s.draws, rfl, Env.OnlyWritten.refl _⟩

theorem EncoderOnly.of_frame {s t : State} (h : LooseFrame s t) : EncoderOnly s t :=
  ⟨t.be, t.pr, t.apm, t.ext, t.bw, t.env, t.draws, h.2, h.1.onlyWritten⟩

/-- The commands that code bits. -/
theorem EncoderOnly.ruleFrame {s t : State} (h : EncoderOnly s t) (bit : Bool) (n : BitVec 8) (v : Word) :
    RuleFrame (.beEncBit bit) s t ∧ RuleFrame (.beEncBits n v) s t := by
  obtain ⟨b, p, a, x, w, e, d, rfl, h⟩ := h
  have hu : Untouched (.beEncBit bit) s
      { s with be := b, pr := p, apm := a, ext := x, bw := w, env := e, draws := d } := by
    simp [Untouched, h.src, h.srcEnd, h.busErr, h.raced, h.dirtied]
  exact ⟨⟨hu, rfl, rfl, .inl rfl⟩, ⟨hu, rfl, rfl, .inl rfl⟩⟩

variable {R : State → State → Prop}

theorem checkEncoder_keeps (hr : ∀ s, R s s) : checkEncoder.Keeps R := by
  intro s
  unfold checkEncoder
  rw [Cmd.final_get_bind, Cmd.final_check_bind]
  split_ifs
  · exact hr s
  · exact Cmd.Keeps.check hr _ _ _ _ s

theorem checkDecoder_keeps (hr : ∀ s, R s s) : checkDecoder.Keeps R :=
  Cmd.Keeps.get_bind fun s => Cmd.Keeps.check hr _ _ _ _ s

/-- The checks of a coder command change nothing, so the frame of what follows is the frame of the command. -/
theorem Cmd.Keeps.after_checks (hr : ∀ s, R s s) {x : Cmd State Unit} (hx : x.Keeps fun s t => t = s)
    {f : Unit → Cmd State β} (hf : (f ()).Keeps R) : (x >>= f).Keeps R := by
  refine Cmd.Keeps.intro (fun s b t h => ?_) (fun s e t h => ?_)
  · obtain ⟨_, u, h1, h2⟩ := Cmd.bind_eq_ok.mp h
    cases hx.of_ok h1
    exact hf.of_ok h2
  · rcases Cmd.bind_eq_error.mp h with h1 | ⟨_, u, h1, h2⟩
    · cases hx.of_error h1
      exact hr _
    · cases hx.of_ok h1
      exact hf.of_error h2

theorem beEncInitBody_keeps (slot : BitVec 4) : (beEncInitBody slot).Keeps (RuleFrame (.beEncInit slot)) := by
  intro s
  unfold beEncInitBody
  rw [Cmd.final_get_bind]
  cases predSlot slot with
  | none => exact RuleFrame.refl (by simp) s
  | some i =>
    simp only [Cmd.final_check_bind, Cmd.final_set_bind, Cmd.final_pure]
    split_ifs <;> exact ⟨by simp [Untouched], rfl, rfl, .inl rfl⟩

theorem beEncBitBody_keeps (bit : Bool) : (beEncBitBody bit).Keeps EncoderOnly :=
  Cmd.Keeps.after_checks EncoderOnly.refl (checkEncoder_keeps fun _ => rfl)
    (((encodeBit_keeps bit).mono EncoderOnly.of_frame).bind_pure _)

theorem beEncBitsBody_keeps (n : BitVec 8) (v : Word) : (beEncBitsBody n v).Keeps EncoderOnly :=
  Cmd.Keeps.check_then EncoderOnly.refl fun _ =>
    Cmd.Keeps.after_checks EncoderOnly.refl (checkEncoder_keeps fun _ => rfl)
      (((encodeBits_keeps _).mono EncoderOnly.of_frame).bind_pure _)

theorem beEncDisposeBody_keeps : beEncDisposeBody.Keeps (RuleFrame .beEncDispose) := by
  have hdone : ∀ {s t : State} (b : Coder), WriterOnly s t → RuleFrame .beEncDispose s (t.withBe b) := by
    rintro s t b ⟨w, e, rfl, h⟩
    exact ⟨by simp [Untouched, h.src, h.srcEnd, h.busErr, h.raced, h.dirtied], rfl, rfl, .inl rfl⟩
  refine Cmd.Keeps.after_checks (RuleFrame.refl (by simp)) (checkEncoder_keeps fun _ => rfl) ?_
  refine Cmd.Keeps.get_bind fun s => ?_
  have hw := onWriter_writerOnly (writeBits_keeps s.par.bufsz s.be.iv.low 64)
  refine (Cmd.Keeps.intro (fun s v t h => ?_) (fun s e t h => ?_) : Cmd.Keeps (RuleFrame .beEncDispose) _) s
  · obtain ⟨_, u, h1, h2⟩ := Cmd.bind_eq_ok.mp h
    cases h2
    exact hdone _ (hw.of_ok h1)
  · rcases Cmd.bind_eq_error.mp h with h1 | ⟨_, u, -, h2⟩
    · exact hdone t.be (hw.of_error h1)
    · cases h2

theorem beDecInitBody_keeps (slot : BitVec 4) : (beDecInitBody slot).Keeps (RuleFrame (.beDecInit slot)) := by
  have hdone : ∀ {s t : State} (b : Coder), ReaderOnly s t → RuleFrame (.beDecInit slot) s (t.withBe b) := by
    rintro s t b ⟨r, e, rfl, h⟩
    exact ⟨by simp [Untouched, h], rfl, rfl, .inl rfl⟩
  unfold beDecInitBody
  refine Cmd.Keeps.get_bind fun s => ?_
  cases predSlot slot with
  | none => exact RuleFrame.refl (by simp) s
  | some i =>
    have hx := onReader_readerOnly (readBits_keeps s.par.bufsz 64)
    refine RuleFrame.check_then (by simp) (Cmd.Keeps.intro (fun s v t h => ?_) (fun s e t h => ?_)) s
    · obtain ⟨_, u, h1, h2⟩ := Cmd.bind_eq_ok.mp h
      cases h2
      exact hdone _ (hx.of_ok h1)
    · rcases Cmd.bind_eq_error.mp h with h1 | ⟨_, u, -, h2⟩
      · exact hdone t.be (hx.of_error h1)
      · cases h2

/-- Only what the decoder uses has changed: coder, predictors, reader. -/
def DecoderOnly (s t : State) : Prop :=
  ∃ b p a x r e, t = { s with be := b, pr := p, apm := a, ext := x, br := r, env := e } ∧ Env.OnlyRead s.env e

theorem DecoderOnly.refl (s : State) : DecoderOnly s s := ⟨s.be, s.pr, s.apm, s.ext, s.br, s.env, rfl, Env.OnlyRead.refl _⟩

theorem DecoderOnly.of_frame {s t : State} (h : DecoderFrame s t) : DecoderOnly s t :=
  ⟨{ s.be with iv := t.be.iv, current := t.be.current }, t.pr, t.apm, t.ext, t.br, t.env, h.2, h.1.env⟩

/-- The commands that decode bits. -/
theorem DecoderOnly.ruleFrame {s t : State} (h : DecoderOnly s t) (n : BitVec 8) :
    RuleFrame .beDecBit s t ∧ RuleFrame (.beDecBits n) s t := by
  obtain ⟨b, p, a, x, r, e, rfl, h⟩ := h
  have hu : Untouched .beDecBit s { s with be := b, pr := p, apm := a, ext := x, br := r, env := e } := by
    simp [Untouched, h]
  exact ⟨⟨hu, rfl, rfl, .inl rfl⟩, ⟨hu, rfl, rfl, .inl rfl⟩⟩

theorem beDecBitBody_keeps : beDecBitBody.Keeps DecoderOnly :=
  Cmd.Keeps.after_checks DecoderOnly.refl (checkDecoder_keeps fun _ => rfl)
    ((decodeBit_keeps.mono DecoderOnly.of_frame).bind_pure _)

theorem beDecBitsBody_keeps (n : BitVec 8) : (beDecBitsBody n).Keeps DecoderOnly :=
  Cmd.Keeps.check_then DecoderOnly.refl fun _ =>
    Cmd.Keeps.after_checks DecoderOnly.refl (checkDecoder_keeps fun _ => rfl)
      ((decodeBits_keeps _ _).mono DecoderOnly.of_frame)

theorem beDecDisposeBody_keeps : beDecDisposeBody.Keeps (RuleFrame .beDecDispose) :=
  Cmd.Keeps.after_checks (RuleFrame.refl (by simp)) (checkDecoder_keeps fun _ => rfl)
    fun _ => ⟨by simp only [Untouched, releaseCoder, Cmd.final_modify_bind, Cmd.final_pure, State.withBe, and_self], rfl, rfl,
      .inl rfl⟩

theorem beSetpredBody_keeps (slot : BitVec 4) : (beSetpredBody slot).Keeps (RuleFrame (.beSetpred slot)) := by
  intro s
  unfold beSetpredBody
  rw [Cmd.final_get_bind, Cmd.final_check_bind]
  cases predSlot slot with
  | none => split_ifs <;> exact RuleFrame.refl (by simp) s
  | some i =>
    simp only [Cmd.final_check_bind, Cmd.final_set_bind, Cmd.final_pure]
    split_ifs <;> exact ⟨by simp [Untouched], rfl, rfl, .inl rfl⟩

/-! ### The ROLZ unit -/

theorem rzInitBody_keeps (backend lpc : BitVec 8) : (rzInitBody backend lpc).Keeps (RuleFrame (.rzInit backend lpc)) := by
  intro s
  unfold rzInitBody
  simp only [Cmd.final_check_bind, Cmd.final_modify_bind, Cmd.final_pure]
  split_ifs <;> exact ⟨by simp [Untouched], rfl, rfl, .inl rfl⟩

theorem rzChunkBody_keeps (newblock : Bool) (start size : BitVec 32) :
    (rzChunkBody newblock start size).Keeps (RuleFrame (.rzChunk newblock start size)) := by
  intro s
  unfold rzChunkBody
  rw [Cmd.final_get_bind]
  simp only [Cmd.final_check_bind, Cmd.final_set_bind, Cmd.final_pure]
  split_ifs <;> exact ⟨by simp [Untouched], rfl, rfl, .inl rfl⟩

/-- The ROLZ unit keeps its configuration, which `RZ_INIT` alone sets (10_state.md R48). -/
structure Rolz.SameConfig (z z' : Rolz) : Prop where
  ready : z'.ready = z.ready
  backend : z'.backend = z.backend
  lpc : z'.lpc = z.lpc

theorem Rolz.SameConfig.refl (z : Rolz) : z.SameConfig z := ⟨rfl, rfl, rfl⟩

/-- A search of the match finder: the rings, and the counter of arbitrary bytes. -/
def FindOnly (s t : State) : Prop :=
  ∃ z d, t = (s.withRz z).withEnv { s.env with drawn := d } ∧ s.rz.SameConfig z

theorem rzFindBody_keeps (p : BitVec 32) : (rzFindBody p).Keeps FindOnly := by
  have hr : ∀ s, FindOnly s s := fun s => ⟨s.rz, s.env.drawn, rfl, Rolz.SameConfig.refl _⟩
  have hfind : (onRolz (findMatch p.toNat)).Keeps FindOnly := (findMatch_keeps _).zoom fun s t h => by
    refine ⟨t.1, t.2.drawn, ?_, ?_⟩ <;> rw [h] 
    exact ⟨rfl, rfl, rfl⟩
  exact Cmd.Keeps.get_bind fun s =>
    Cmd.Keeps.check_then hr (fun _ => Cmd.Keeps.check_then hr fun _ => hfind.bind_pure _) s

/-- A block command: the unit but for its configuration, MEM, and the counter of arbitrary bytes. -/
def BlockOnly (s t : State) : Prop :=
  ∃ z m d, t = (s.withRz z).withEnv { s.env with mem := m, drawn := d } ∧ s.rz.SameConfig z

theorem BlockOnly.refl (s : State) : BlockOnly s s := ⟨s.rz, s.env.mem, s.env.drawn, rfl, Rolz.SameConfig.refl _⟩

theorem onRolz_blockOnly {P : Nat → Prop} {x : Cmd (Rolz × Env) α} (h : x.Keeps (BlockFrame P)) :
    (onRolz x).Keeps BlockOnly :=
  h.zoom fun s t h => ⟨t.1, t.2.mem, t.2.drawn, by rw [← h.env.1], h.ready, h.backend, h.lpc⟩

/-- The checks of a block command change nothing, and when they pass the DST window fits MEM. -/
theorem checkBlock_run (s t : State) :
    (∃ e, checkBlock s t = .error (.raise e) t) ∨
      checkBlock s t = .ok () t ∧ windowFits s.win.dstBase s.win.dstCap = true := by
  unfold checkBlock
  rw [check_bind, check_bind, check_run]
  split_ifs with h1 h2 h3
  · exact .inl ⟨_, rfl⟩
  · exact .inl ⟨_, rfl⟩
  · exact .inl ⟨_, rfl⟩
  · simp only [Bool.or_eq_true, Bool.not_eq_true', not_or, Bool.not_eq_false] at h2
    exact .inr ⟨rfl, h2.2⟩

/-- A block command: after its checks, what it does to the unit and MEM. -/
theorem BlockOnly.after_checkBlock {s : State} {x : Cmd State Word}
    (hx : windowFits s.win.dstBase s.win.dstCap = true → x.Keeps BlockOnly) :
    (checkBlock s >>= fun _ => x).Keeps BlockOnly := by
  intro t
  unfold Cmd.final
  rcases checkBlock_run s t with ⟨e, h⟩ | ⟨h, hfit⟩
  · rw [Cmd.bind_of_error _ h]
    exact BlockOnly.refl t
  · rw [Cmd.bind_of_ok _ h]
    exact hx hfit t

theorem rzFwdBody_keeps : rzFwdBody.Keeps BlockOnly :=
  Cmd.Keeps.get_bind fun s => BlockOnly.after_checkBlock
    (fun _ => Cmd.Keeps.check_then BlockOnly.refl fun _ => onRolz_blockOnly (encodeBlock_keeps _)) s

theorem rzInvBody_keeps : rzInvBody.Keeps BlockOnly :=
  Cmd.Keeps.get_bind fun s => BlockOnly.after_checkBlock (fun hfit => onRolz_blockOnly (decodeBlock_keeps hfit)) s

theorem FindOnly.ruleFrame {s t : State} (h : FindOnly s t) (p : BitVec 32) : RuleFrame (.rzFind p) s t := by
  obtain ⟨z, d, rfl, -⟩ := h
  exact ⟨by simp [Untouched], rfl, rfl, .inl rfl⟩

theorem BlockOnly.ruleFrame {s t : State} (h : BlockOnly s t) : RuleFrame .rzFwd s t ∧ RuleFrame .rzInv s t := by
  obtain ⟨z, m, d, rfl, -⟩ := h
  have hu : Untouched .rzFwd s ((s.withRz z).withEnv { s.env with mem := m, drawn := d }) := by simp [Untouched]
  exact ⟨⟨hu, rfl, rfl, .inl rfl⟩, ⟨hu, rfl, rfl, .inl rfl⟩⟩

theorem rzEmitlenBody_keeps (l : BitVec 32) (m : BitVec 16) : (rzEmitlenBody l m).Keeps (RuleFrame (.rzEmitlen l m)) :=
  RuleFrame.check_then (by simp) (Cmd.Keeps.pure (RuleFrame.refl (by simp)) _)

theorem rzReadlenBody_keeps (packed : Word) : (rzReadlenBody packed).Keeps (RuleFrame (.rzReadlen packed)) := by
  refine RuleFrame.check_then (by simp) fun s => ?_
  cases readLengths (unpackBytes packed (packed.extractLsb' 0 8).toNat) <;> exact RuleFrame.refl (by simp) s

/-! ### Every rule, and every command -/

/-- However the rule of a command ends, it keeps what the command does not touch, the latch and the counter. -/
theorem ruleOf_keeps (hi : i ≠ .reset) : (ruleOf i).Keeps (RuleFrame i) := by
  cases i with
  | nop => exact Cmd.Keeps.pure (RuleFrame.refl hi) _
  | reset => exact absurd rfl hi
  | csrr idx => exact csrrBody_keeps idx
  | csrw idx v => exact csrwBody_keeps idx v
  | bwOpen kind => exact bwOpenBody_keeps kind
  | bwBit bit => exact (bwBitBody_keeps bit).mono fun h => (h.ruleFrame bit 0 0 0 0 0).1
  | bwBits len v => exact (bwBitsBody_keeps len v).mono fun h => (h.ruleFrame false len 0 v 0 0).2.1
  | bwClose => exact bwCloseBody_keeps
  | brOpen kind => exact brOpenBody_keeps kind
  | brBit => exact brBitBody_keeps.mono fun h => (h.ruleFrame 0).1
  | brBits len => exact (brBitsBody_keeps len).mono fun h => (h.ruleFrame len).2.1
  | brMore => exact brMoreBody_keeps.mono fun h => (h.ruleFrame 0).2.2
  | brClose => exact brCloseBody_keeps
  | brRead => exact brReadBody_keeps
  | apmInit slot variant rate n => exact apmInitBody_keeps slot variant rate n
  | apmGet slot bit pr ctx => exact apmGetBody_keeps slot bit pr ctx
  | prInit slot kind arg => exact prInitBody_keeps slot kind arg
  | prGet slot => exact prGetBody_keeps slot
  | prUpdate slot bit => exact prUpdateBody_keeps slot bit
  | prSetctx slot byte => exact prSetctxBody_keeps slot byte
  | beEncInit slot => exact beEncInitBody_keeps slot
  | beEncBit bit => exact (beEncBitBody_keeps bit).mono fun h => (h.ruleFrame bit 0 0).1
  | beEncBits n v => exact (beEncBitsBody_keeps n v).mono fun h => (h.ruleFrame false n v).2
  | beEncDispose => exact beEncDisposeBody_keeps
  | beDecInit slot => exact beDecInitBody_keeps slot
  | beDecBit => exact beDecBitBody_keeps.mono fun h => (h.ruleFrame 0).1
  | beDecBits n => exact (beDecBitsBody_keeps n).mono fun h => (h.ruleFrame n).2
  | beDecDispose => exact beDecDisposeBody_keeps
  | beSetpred slot => exact beSetpredBody_keeps slot
  | ansEnc order n off => exact (ansEncBody_keeps order n off).mono fun h => (h.ruleFrame false 0 order 0 n off).2.2
  | ansDec order n off => exact (ansDecBody_keeps order n off).mono fun h => h.ruleFrame order n off
  | rzInit backend lpc => exact rzInitBody_keeps backend lpc
  | rzFwd => exact rzFwdBody_keeps.mono fun h => h.ruleFrame.1
  | rzInv => exact rzInvBody_keeps.mono fun h => h.ruleFrame.2
  | rzChunk newblock start size => exact rzChunkBody_keeps newblock start size
  | rzFind p => exact (rzFindBody_keeps p).mono fun h => h.ruleFrame p
  | rzEmitlen l m => exact rzEmitlenBody_keeps l m
  | rzReadlen packed => exact rzReadlenBody_keeps packed

/-- What an error in the middle of each command leaves unspecified (60_exceptions.md R398; log entry 4). -/
def spoilOf : Instr → State → State
  | .bwBit _ | .bwBits _ _ | .ansEnc _ _ _ => State.spoilWriter
  | .bwClose => State.spoilClose
  | .brBit | .brBits _ | .brMore | .beDecInit _ => State.spoilReader
  | .beEncBit _ | .beEncBits _ _ => State.spoilEncoder
  | .beEncDispose => State.spoilDispose
  | .beDecBit | .beDecBits _ => State.spoilDecoder
  | .ansDec _ _ _ => State.spoilAnsDec
  | .rzFwd | .rzInv => State.spoilBlock
  | .rzFind _ => State.spoilRolz
  | _ => State.spoilNothing

/-- Every command but the three a faulted KZE accepts is its rule under the shared ending of commands. -/
theorem exec_command (s : State) (h0 : i ≠ .nop) (h1 : i ≠ .reset) (h2 : ∀ idx, i ≠ .csrr idx) :
    exec i s = command i.opcode (spoilOf i) (ruleOf i) s := by
  cases i with
  | nop => exact absurd rfl h0
  | reset => exact absurd rfl h1
  | csrr idx => exact absurd rfl (h2 idx)
  | _ => rfl

/-- Outside the faulted state every command but `RESET` is its rule under the shared ending of commands. -/
theorem exec_eq_command (hi : i ≠ .reset) {s : State} (h : s.live) :
    exec i s = command i.opcode (spoilOf i) (ruleOf i) s := by
  cases i with
  | nop => exact (command_of_ok (body := pure 0) h rfl).symm
  | csrr idx => exact if_neg (by rw [h]; exact Bool.false_ne_true)
  | _ => exact exec_command s (by simp) hi (by simp)

/-- A faulted KZE refuses a command, but for `RESET`, and for `NOP` and a read of a CSR, which answer (60_exceptions.md R397). -/
theorem exec_faulted (hi : i ≠ .reset) {s : State} (h : s.latch.err = true) :
    exec i s = .next (refuse s) ∨ ∃ v, exec i s = .next (respond v s) := by
  cases i with
  | nop => exact .inr ⟨0, rfl⟩
  | csrr idx =>
    have hx : exec (.csrr idx) s = match readCsr s idx with
        | some v => .next (respond v s)
        | none => .next (refuse s) := if_pos h
    rw [hx]
    cases readCsr s idx with
    | none => exact .inl rfl
    | some v => exact .inr ⟨v, rfl⟩
  | _ =>
    left
    rw [exec_command s (by simp) hi (by simp)]
    exact command_faulted _ _ _ h

/-! ### What an error in the middle of a command spoils -/

/-- A window left unspecified, and the writer: nothing else changes. -/
theorem State.spoilWriter_eq (s : State) :
    ∃ w m, s.spoilWriter = { s with bw := w, env := { s.env with mem := m } } := by
  unfold State.spoilWriter
  cases s.bw.kind <;> exact ⟨_, _, rfl⟩

theorem State.spoilPredictor_eq (s : State) (k : Fin 2) :
    ∃ p a, s.spoilPredictor k = { s with pr := p, apm := a } := by
  unfold State.spoilPredictor
  simp only
  split <;> exact ⟨_, _, rfl⟩

theorem State.spoilBlock_eq (s : State) : ∃ z m, s.spoilBlock = { s with rz := z, env := { s.env with mem := m } } :=
  ⟨_, _, rfl⟩

/-- What is spoiled is what the command touches. -/
theorem RuleFrame.spoil {s t : State} (h : RuleFrame i s t) : RuleFrame i s (spoilOf i t) := by
  obtain ⟨hu, hl, hc, hr⟩ := h
  cases i with
  | bwBit | bwBits | ansEnc =>
    obtain ⟨w, m, hw⟩ := t.spoilWriter_eq
    show RuleFrame _ s t.spoilWriter
    rw [hw]
    exact ⟨hu, hl, hc, hr⟩
  | bwClose =>
    obtain ⟨w, m, hw⟩ := t.spoilWriter_eq
    show RuleFrame _ s t.spoilClose
    rw [State.spoilClose, hw]
    exact ⟨hu, hl, hc, hr⟩
  | beEncDispose =>
    obtain ⟨w, m, hw⟩ := (t.withBe (Config.unspecCoder t.draws)).spoilWriter_eq
    show RuleFrame _ s t.spoilDispose
    rw [State.spoilDispose, hw]
    exact ⟨hu, hl, hc, hr⟩
  | beEncBit | beEncBits =>
    obtain ⟨w, m, hw⟩ := t.spoilCoder.spoilWriter_eq
    obtain ⟨p, a, hp⟩ := t.spoilPredictor_eq t.be.pslot
    show RuleFrame _ s t.spoilEncoder
    rw [State.spoilEncoder, hw, State.spoilCoder, hp]
    exact ⟨hu, hl, hc, hr⟩
  | beDecBit | beDecBits =>
    obtain ⟨p, a, hp⟩ := t.spoilPredictor_eq t.be.pslot
    show RuleFrame _ s t.spoilDecoder
    rw [State.spoilDecoder, State.spoilCoder, hp]
    exact ⟨hu, hl, hc, hr⟩
  | rzFwd | rzInv =>
    obtain ⟨z, m, hz⟩ := t.spoilBlock_eq
    obtain ⟨hin, hpar, hbw, hbr, hapm, hpr, hbe, hext, hwin, hlr, henv⟩ := hu
    show RuleFrame _ s t.spoilBlock
    rw [hz]
    exact ⟨⟨hin, hpar, hbw, hbr, hapm, hpr, hbe, hext, hwin, hlr, congrArg (fun e : Env => { e with mem := m }) henv⟩,
      hl, hc, hr⟩
  | _ => exact ⟨hu, hl, hc, hr⟩

theorem RuleFrame.drawn {s t : State} (h : RuleFrame i s t) : RuleFrame i s t.drawn := by
  obtain ⟨hu, hl, hc, hr⟩ := h
  cases i <;> exact ⟨hu, hl, hc, hr⟩

/-- Everything a command but `RESET` can do outside the faulted state: its rule answers a value, or an error is taken. -/
theorem exec_live (hi : i ≠ .reset) {s t : State} (hs : s.live) (h : exec i s = .next t) :
    (∃ v u, ruleOf i s = .ok v u ∧ t = respond v u) ∨ ∃ e u, RuleFrame i s u ∧ t = takeError i.opcode e u := by
  rw [exec_eq_command hi hs] at h
  rcases command_cases h with ⟨hf, -⟩ | ⟨-, v, u, hb, hr⟩ | ⟨-, e, u, hb, hr⟩ | ⟨-, f, u, -, hr⟩
  · exact absurd hf (by rw [hs]; exact Bool.false_ne_true)
  · cases hr
    exact .inl ⟨v, u, hb, rfl⟩
  · cases hr
    have hu := (ruleOf_keeps hi).of_error hb
    cases e.mid with
    | true => exact .inr ⟨e, _, hu.spoil.drawn, rfl⟩
    | false => exact .inr ⟨e, _, hu, rfl⟩
  · cases hr

theorem Untouched.respond {s t : State} (h : Untouched i s t) (v : Word) : Untouched i s (respond v t) := by
  cases i <;> exact h

theorem Untouched.takeError {s t : State} (h : Untouched i s t) (op : Byte) (e : Err) :
    Untouched i s (takeError op e t) := by
  cases i <;> exact h

theorem Untouched.refuse {s t : State} (h : Untouched i s t) : Untouched i s (refuse t) := by
  cases i <;> exact h

/-- Settles O54: a rule keeps what its command does not touch, however it ends, and what an error spoils it touches. -/
theorem commandsLeaveOtherUnits : Obligations.CommandsLeaveOtherUnits := by
  intro i s t h
  by_cases hi : i = .reset
  · subst hi
    cases h
    exact ⟨rfl, rfl, rfl, rfl⟩
  · by_cases hs : s.live
    · rcases exec_live hi hs h with ⟨v, u, hb, rfl⟩ | ⟨e, u, hu, rfl⟩
      · exact ((ruleOf_keeps hi).of_ok hb).untouched.respond v
      · exact hu.untouched.takeError _ e
    · rw [Bool.not_eq_false] at hs
      rcases exec_faulted hi hs with hx | ⟨v, hx⟩ <;> rw [hx] at h <;> cases h
      · exact (Untouched.refl hi s).refuse
      · exact (Untouched.refl hi s).respond v

end Sys2Proof.Machine
end

section
/-!
SUPPORT. How a command responds, and everything one step of the machine can do.
-/

namespace Sys2Proof.Machine

/-! ### The response -/

theorem ErrKind.code_range (k : ErrKind) : 1 ≤ k.code.toNat ∧ k.code.toNat ≤ 7 := by
  cases k <;> decide

/-- The low byte of `ERRINFO` is the opcode (60_exceptions.md R396). -/
theorem errInfo_opcode (op : Byte) (e : Err) : (errInfo op e).toNat % 256 = op.toNat := by
  obtain ⟨kind, sub, detail, mid⟩ := e
  have hop := op.isLt
  rw [errInfo, BitVec.toNat_append, ← Nat.shiftLeft_add_eq_or_of_lt hop, Nat.shiftLeft_eq]
  omega

/-- Settles O55: a completed rule responds and is counted, an error is the response and the latch, a faulted KZE refuses. -/
theorem everyCommandResponds : Obligations.EveryCommandResponds := by
  intro i s t h hi
  by_cases hs : s.live
  · rcases exec_live hi hs h with ⟨v, u, hb, rfl⟩ | ⟨e, u, hu, rfl⟩
    · have hu := (ruleOf_keeps hi).of_ok hb
      exact ⟨_, rfl, .inl ⟨rfl, by rw [respond_cmdCnt, hu.cmdCnt], hu.latch⟩⟩
    · obtain ⟨h1, h7⟩ := e.kind.code_range
      exact ⟨_, rfl, .inr (.inl ⟨hs, h1, h7, hu.cmdCnt, rfl, errInfo_opcode _ e⟩)⟩
  · rw [Bool.not_eq_false] at hs
    rcases exec_faulted hi hs with hx | ⟨v, hx⟩ <;> rw [hx] at h <;> cases h
    · exact ⟨_, rfl, .inr (.inr ⟨hs, rfl, rfl, rfl⟩)⟩
    · exact ⟨_, rfl, .inl ⟨rfl, rfl, rfl⟩⟩

/-! ### A step -/

/-- Everything a step can do: nothing but on the host's side and the response port, a command, an error of a word that is no
command, or a reset by the pin. -/
inductive StepCase (s t : State) : Prop
  | host (h : t = { s with inbox := t.inbox, env := t.env, resp := t.resp })
      (hend : s.env.srcEnd = true → t.env.srcEnd = true)
  | command (i : Instr) (rest : List HostInput) (h : exec i (s.withInbox rest) = .next t)
  | illegal (op : Byte) (e : Err) (rest : List HostInput) (h : t = takeError op e (s.withInbox rest))
  | pin (u : State) (hpar : u.par = s.par) (hend : s.env.srcEnd = true → u.env.srcEnd = true) (h : t = u.resetUnits)

theorem Untouched.par {i : Instr} {s t : State} (h : Untouched i s t) : t.par = s.par := h.2.1

theorem Untouched.inbox {i : Instr} {s t : State} (h : Untouched i s t) : t.inbox = s.inbox := h.1

/-- A rule keeps the parameters: that of `RESET` does nothing. -/
theorem ruleOf_par {i : Instr} : (ruleOf i).Keeps fun s t => t.par = s.par := by
  by_cases hi : i = .reset
  · subst hi
    exact fun _ => rfl
  · exact (ruleOf_keeps hi).mono fun h => h.untouched.par

theorem runAbandoned_cases {w : CmdWord} {p : Progress} {s t : State} (h : runAbandoned w p s = .next t) :
    t = pinReset s ∨ ∃ i u, s.live ∧ decode w = .ok i ∧ (ruleOf i).final s = u ∧ t = abandon p s u := by
  unfold runAbandoned at h
  split_ifs at h with hl
  · cases h
    exact .inl rfl
  · rw [Bool.not_eq_true] at hl
    cases hd : decode w with
    | error e =>
      rw [hd] at h
      cases h
      exact .inl rfl
    | ok i =>
      simp only [hd] at h
      refine .inr ⟨i, (ruleOf i).final s, hl, rfl, rfl, ?_⟩
      unfold Cmd.final
      cases hx : ruleOf i s with
      | ok v u =>
        rw [hx] at h
        cases h
        rfl
      | error a u =>
        rw [hx] at h
        cases a with
        | raise e => cases h; rfl
        | fault f => cases h

/-- A step takes the first thing the host does. -/
theorem step_of_inbox {s : State} {x : HostInput} {rest : List HostInput} (h : s.inbox = x :: rest) :
    step s = runInput x (s.withInbox rest) := by
  unfold step takeInput
  rw [h]

theorem step_idle {s : State} (h : s.inbox = []) : step s = .next s := by
  unfold step takeInput
  rw [h]

theorem runWord_of_ok {w : CmdWord} {i : Instr} (h : decode w = .ok i) (s : State) : runWord w s = exec i s := by
  unfold runWord
  rw [h]

theorem runWord_of_error {w : CmdWord} {e : DecodeError} (h : decode w = .error e) (s : State) :
    runWord w s = runIllegal (fieldOpcode w) e s := by
  unfold runWord
  rw [h]

theorem step_cases {s t : State} (h : step s = .next t) : StepCase s t := by
  cases hin : s.inbox with
  | nil =>
    rw [step_idle hin] at h
    cases h
    exact .host rfl id
  | cons x rest =>
    rw [step_of_inbox hin] at h
    cases x with
    | command w =>
      change runWord w _ = _ at h
      cases hd : decode w with
      | ok i =>
        rw [runWord_of_ok hd] at h
        exact .command i rest h
      | error e =>
        rw [runWord_of_error hd] at h
        unfold runIllegal at h
        split_ifs at h with hl h0 h1
        · exact .command .nop rest h
        · exact .command .reset rest h
        · cases h
          exact .host rfl id
        · cases h
          exact .illegal _ _ rest rfl
    | rstPin =>
      cases h
      exact .pin (s.withInbox rest) rfl id rfl
    | rstDuring w p =>
      rcases runAbandoned_cases h with rfl | ⟨i, u, -, -, rfl, rfl⟩
      · exact .pin (s.withInbox rest) rfl id rfl
      · exact .pin (((ruleOf i).final (s.withInbox rest)).withEnv (s.env.cut p ((ruleOf i).final (s.withInbox rest)).env))
          (ruleOf_par (s.withInbox rest)) (fun hend => by simp [Env.cut, hend]) rfl
    | memWrite a b =>
      cases h
      exact .host rfl id
    | ports src sinkAns busErr raced =>
      cases h
      exact .host rfl id

/-- A step that ends outside the faulted state: from outside it, nothing of KZE changed or the rule of a command answered a
value; or a reset, by the pin or by `RESET`. -/
theorem step_live {s t : State} (h : step s = .next t) (ht : t.live) :
    (s.live ∧ t = { s with inbox := t.inbox, env := t.env, resp := t.resp }) ∨
      (∃ i rest v u, i ≠ .reset ∧ s.live ∧ ruleOf i (s.withInbox rest) = .ok v u ∧ t = respond v u) ∨
      ∃ u : State, u.par = s.par ∧ (t = u.resetUnits ∨ t = respond 0 u.resetUnits) := by
  cases step_cases h with
  | host h _ => exact .inl ⟨by rw [h] at ht; exact ht, h⟩
  | command i rest h =>
    by_cases hi : i = .reset
    · subst hi
      cases h
      exact .inr (.inr ⟨s.withInbox rest, rfl, .inr rfl⟩)
    · by_cases hs : (s.withInbox rest).live
      · rcases exec_live hi hs h with ⟨v, u, hb, rfl⟩ | ⟨e, u, -, rfl⟩
        · exact .inr (.inl ⟨i, rest, v, u, hi, hs, hb, rfl⟩)
        · cases ht
      · rw [Bool.not_eq_false] at hs
        rcases exec_faulted hi hs with hx | ⟨v, hx⟩ <;> rw [hx] at h <;> cases h <;> exact absurd ht (by simpa using hs)
  | illegal op e rest h =>
    rw [h] at ht
    cases ht
  | pin u hpar _ h => exact .inr (.inr ⟨u, hpar, .inl h⟩)

/-- The commands whose rule uses the bit writer. -/
def usesWriter : Instr → Bool
  | .reset | .bwOpen _ | .bwBit _ | .bwBits _ _ | .bwClose | .beEncBit _ | .beEncBits _ _ | .beEncDispose
  | .ansEnc _ _ _ => true
  | _ => false

/-- The commands whose rule uses the bit reader. -/
def usesReader : Instr → Bool
  | .reset | .brOpen _ | .brBit | .brBits _ | .brMore | .brClose | .beDecInit _ | .beDecBit | .beDecBits _
  | .ansDec _ _ _ => true
  | _ => false

/-- The commands whose rule uses the binary coder. -/
def usesCoder : Instr → Bool
  | .reset | .beEncInit _ | .beEncBit _ | .beEncBits _ _ | .beEncDispose | .beDecInit _ | .beDecBit | .beDecBits _
  | .beDecDispose | .beSetpred _ => true
  | _ => false

/-- The commands whose rule uses the ROLZ unit. -/
def usesRolz : Instr → Bool
  | .reset | .rzInit _ _ | .rzChunk _ _ _ | .rzFind _ | .rzFwd | .rzInv => true
  | _ => false

/-- A command leaves every unit its rule does not use as it was. -/
theorem Untouched.bw {i : Instr} {s t : State} (h : Untouched i s t) (hi : usesWriter i = false) : t.bw = s.bw := by
  cases i with
  | reset | bwOpen | bwBit | bwBits | bwClose | beEncBit | beEncBits | beEncDispose | ansEnc => cases hi
  | _ => simp only [Untouched] at h; simp only [h]

theorem Untouched.br {i : Instr} {s t : State} (h : Untouched i s t) (hi : usesReader i = false) : t.br = s.br := by
  cases i with
  | reset | brOpen | brBit | brBits | brMore | brClose | beDecInit | beDecBit | beDecBits | ansDec => cases hi
  | _ => simp only [Untouched] at h; simp only [h]

theorem Untouched.be {i : Instr} {s t : State} (h : Untouched i s t) (hi : usesCoder i = false) : t.be = s.be := by
  cases i with
  | reset | beEncInit | beEncBit | beEncBits | beEncDispose | beDecInit | beDecBit | beDecBits | beDecDispose
  | beSetpred => cases hi
  | _ => simp only [Untouched] at h; simp only [h]

theorem Untouched.rz {i : Instr} {s t : State} (h : Untouched i s t) (hi : usesRolz i = false) : t.rz = s.rz := by
  cases i with
  | reset | rzInit | rzChunk | rzFind | rzFwd | rzInv => cases hi
  | _ => simp only [Untouched] at h; simp only [h]

/-- What no command changes of the host's side: which accesses fail and which race; and an end of the SRC port stays. The
states are taken apart to read the equations between host sides field by field. -/
theorem Untouched.env {i : Instr} {s t : State} (h : Untouched i s t) :
    t.env.busErr = s.env.busErr ∧ t.env.raced = s.env.raced ∧ (s.env.srcEnd = true → t.env.srcEnd = true) := by
  obtain ⟨-, -, h⟩ := h
  obtain ⟨_, _, _, _, _, _, _, _, _, _, ⟨⟩, _⟩ := s
  obtain ⟨_, _, _, _, _, _, _, _, _, _, ⟨⟩, _⟩ := t
  cases i <;> simp_all [Env.OnlyRead]

end Sys2Proof.Machine
end

section
/-!
O56: every step keeps the error latch and the configuration registers legal.
-/

namespace Sys2Proof.Machine

variable {i : Instr}

/-- Every rule but that of `RZ_INIT` keeps the configuration of the ROLZ unit. -/
theorem ruleOf_sameConfig (hi : i ≠ .reset) (hz : ∀ b l, i ≠ .rzInit b l) :
    (ruleOf i).Keeps fun s t => s.rz.SameConfig t.rz := by
  cases hu : usesRolz i with
  | false => exact (ruleOf_keeps hi).mono fun h => by rw [h.untouched.rz hu]; exact Rolz.SameConfig.refl _
  | true =>
    cases i with
    | reset => exact absurd rfl hi
    | rzInit b l => exact absurd rfl (hz b l)
    | rzChunk newblock start size =>
      intro s
      unfold ruleOf rzChunkBody
      simp only [Cmd.final_get_bind, Cmd.final_check_bind, Cmd.final_set_bind, Cmd.final_pure]
      split_ifs <;> exact ⟨rfl, rfl, rfl⟩
    | rzFind p => exact (rzFindBody_keeps p).mono fun ⟨_, _, h, hc⟩ => by rw [h]; exact hc
    | rzFwd => exact rzFwdBody_keeps.mono fun ⟨_, _, _, h, hc⟩ => by rw [h]; exact hc
    | rzInv => exact rzInvBody_keeps.mono fun ⟨_, _, _, h, hc⟩ => by rw [h]; exact hc
    | _ => cases hu

/-- `RZCFG` is 0 before `RZ_INIT` and a legal configuration after (10_state.md R48). -/
def Rolz.ConfigLegal (z : Rolz) : Prop :=
  if z.ready then (z.backend = 1 ∨ z.backend = 2) ∧ 2 ≤ z.lpc.toNat ∧ z.lpc.toNat ≤ 8 else z.backend = 0 ∧ z.lpc = 0

theorem Rolz.ConfigLegal.same {z z' : Rolz} (h : z.ConfigLegal) (hs : z.SameConfig z') : z'.ConfigLegal := by
  unfold Rolz.ConfigLegal
  rw [hs.ready, hs.backend, hs.lpc]
  exact h

/-- A completed `RZ_INIT` has set a legal configuration. -/
theorem rzInitBody_legal {backend lpc : BitVec 8} {s t : State} {v : Word} (h : rzInitBody backend lpc s = .ok v t) :
    t.rz.ConfigLegal := by
  unfold rzInitBody at h
  simp only [check_bind, Cmd.modify_bind, Cmd.pure_run] at h
  split_ifs at h with hb hl
  cases h
  simp only [decide_eq_true_eq, Bool.or_eq_true, not_or, not_and_or, not_not, Nat.not_lt] at hb hl
  have hlpc : (lpc.setWidth 4).toNat = lpc.toNat := by
    rw [BitVec.toNat_setWidth]
    omega
  refine ⟨?_, hlpc ▸ hl.1, hlpc ▸ hl.2⟩
  rcases hb with rfl | rfl
  · exact .inl rfl
  · exact .inr rfl

/-- A rule that answers a value leaves a legal configuration. -/
theorem ruleOf_configLegal (hi : i ≠ .reset) {s t : State} {v : Word} (h : ruleOf i s = .ok v t)
    (hs : s.rz.ConfigLegal) : t.rz.ConfigLegal := by
  by_cases hz : ∃ b l, i = .rzInit b l
  · obtain ⟨b, l, rfl⟩ := hz
    exact rzInitBody_legal h
  · exact hs.same ((ruleOf_sameConfig hi fun b l h => hz ⟨b, l, h⟩).of_ok h)

theorem LatchOk.takeError (op : Byte) (e : Err) (s : State) : LatchOk (takeError op e s).latch := by
  unfold LatchOk
  exact e.kind.code_range

theorem LatchOk.clear : LatchOk Latch.clear := ⟨rfl, rfl⟩

theorem ConfigOk.reset (s : State) : ConfigOk s.resetUnits :=
  ⟨show 8 ≤ 12 by decide, show 12 ≤ 16 by decide, fun _ => ⟨rfl, rfl⟩⟩

/-- Settles O56, by the cases of a step: a rule that answers keeps the registers legal, an error writes a legal latch. -/
theorem stepKeepsRegistersLegal : Obligations.StepKeepsRegistersLegal := by
  intro s t hl hc h
  cases step_cases h with
  | host h _ =>
    rw [h]
    exact ⟨hl, hc⟩
  | illegal op e rest h =>
    rw [h]
    exact ⟨LatchOk.takeError op e _, hc.1, hc.2.1, fun hlive => by cases hlive⟩
  | pin u _ _ h =>
    rw [h]
    exact ⟨LatchOk.clear, ConfigOk.reset u⟩
  | command i rest h =>
    by_cases hi : i = .reset
    · subst hi
      cases h
      exact ⟨LatchOk.clear, ConfigOk.reset (s.withInbox rest)⟩
    · have hrange : ∀ {u}, RuleFrame i (s.withInbox rest) u → 8 ≤ u.logRange.toNat ∧ u.logRange.toNat ≤ 16 := by
        intro u hu
        rcases hu.logRange with h | h
        · rw [h]
          exact ⟨hc.1, hc.2.1⟩
        · exact h
      by_cases hs : (s.withInbox rest).live
      · rcases exec_live hi hs h with ⟨v, u, hb, rfl⟩ | ⟨e, u, hu, rfl⟩
        · have hu := (ruleOf_keeps hi).of_ok hb
          refine ⟨by rw [respond_latch, hu.latch]; exact hl, (hrange hu).1, (hrange hu).2, fun _ => ?_⟩
          have hz : (s.withInbox rest).rz.ConfigLegal := hc.2.2 hs
          have hz' : u.rz.ConfigLegal := ruleOf_configLegal hi hb hz
          exact hz'
        · exact ⟨LatchOk.takeError _ e u, (hrange hu).1, (hrange hu).2, fun hlive => by cases hlive⟩
      · rw [Bool.not_eq_false] at hs
        rcases exec_faulted hi hs with hx | ⟨v, hx⟩ <;> rw [hx] at h <;> cases h <;> exact ⟨hl, hc⟩

end Sys2Proof.Machine
end

section
/-!
O59: every step keeps the coder's interval invariants. First what a rule that answers a value maintains, in general, then the
arithmetic of one bit, then the rules of the coder.
-/

namespace Sys2Proof.Machine

variable {σ τ α β : Type}

/-! ### What a piece of a rule maintains when it answers a value -/

/-- Whenever the piece answers a value, the invariant holds after it if it held before it. -/
def Cmd.Maintains (P : σ → Prop) (x : Cmd σ α) : Prop := ∀ s a t, P s → x s = .ok a t → P t

variable {P : σ → Prop}

theorem Cmd.Maintains.of_keeps {R : σ → σ → Prop} {x : Cmd σ α} (h : x.Keeps R) (hp : ∀ s t, R s t → P s → P t) :
    x.Maintains P := fun s _ t hs hx => hp s t (h.of_ok hx) hs

theorem Cmd.Maintains.pure (a : α) : (Pure.pure a : Cmd σ α).Maintains P := fun _ _ _ hs h => by cases h; exact hs

theorem Cmd.Maintains.raise (k : ErrKind) (b : Byte) (d : Nat) : (Machine.raise k b d : Cmd σ α).Maintains P :=
  fun _ _ _ _ h => by cases h

theorem Cmd.Maintains.raiseMid (k : ErrKind) (b : Byte) (d : Nat) : (Machine.raiseMid k b d : Cmd σ α).Maintains P :=
  fun _ _ _ _ h => by cases h

theorem Cmd.Maintains.bind {x : Cmd σ α} {f : α → Cmd σ β} (hx : x.Maintains P) (hf : ∀ a, (f a).Maintains P) :
    (x >>= f).Maintains P := fun s b u hs h => by
  obtain ⟨a, t, h1, h2⟩ := Cmd.bind_eq_ok.mp h
  exact hf a t b u (hx s a t hs h1) h2

theorem Cmd.Maintains.get : (MonadState.get : Cmd σ σ).Maintains P := fun _ _ _ hs h => by cases h; exact hs

theorem Cmd.Maintains.of_modify {f : σ → σ} (h : ∀ s, P s → P (f s)) : (modify f : Cmd σ PUnit).Maintains P :=
  fun s _ _ hs hx => by cases hx; exact h s hs

/-- A piece that reads the state first: the rest may use that the invariant held of what it read. -/
theorem Cmd.Maintains.get_bind {f : σ → Cmd σ β} (h : ∀ s, P s → ∀ b t, f s s = .ok b t → P t) :
    (MonadState.get >>= f).Maintains P := fun s b t hs hx => h s hs b t hx

/-- The rest of a rule after a check may use that the check passed. -/
theorem Cmd.Maintains.check_then {c : Bool} {k : ErrKind} {b : Byte} {d : Nat} {f : Unit → Cmd σ β}
    (h : c = false → (f ()).Maintains P) : (Machine.check c k b d >>= f).Maintains P := by
  cases c with
  | true => exact fun _ _ _ _ hx => by cases hx
  | false => exact h rfl

theorem Cmd.Maintains.checkMid_then {c : Bool} {k : ErrKind} {b : Byte} {d : Nat} {f : Unit → Cmd σ β}
    (h : c = false → (f ()).Maintains P) : (Machine.checkMid c k b d >>= f).Maintains P := by
  cases c with
  | true => exact fun _ _ _ _ hx => by cases hx
  | false => exact h rfl

theorem Cmd.Maintains.ite {c : Prop} [Decidable c] {x y : Cmd σ α} (hx : c → x.Maintains P) (hy : ¬c → y.Maintains P) :
    (if c then x else y).Maintains P := by
  split
  · exact hx ‹_›
  · exact hy ‹_›

theorem Cmd.Maintains.midway {x : Cmd σ α} (h : x.Maintains P) : (Machine.midway x).Maintains P :=
  fun s a t hs hx => h s a t hs (midway_eq_ok.mp hx)

theorem Cmd.Maintains.reverting {f : σ → σ} {x : Cmd σ α} (h : x.Maintains P) : (Machine.reverting f x).Maintains P :=
  fun s a t hs hx => h s a t hs (reverting_eq_ok.mp hx)

theorem Cmd.Maintains.zoom {Q : τ → Prop} {part : σ → τ} {put : τ → σ → σ} {x : Cmd τ α} (h : x.Maintains Q)
    (hpart : ∀ s, P s → Q (part s)) (hput : ∀ s t, P s → Q t → P (put t s)) : (Machine.zoom part put x).Maintains P :=
  fun s a u hs hx => by
    obtain ⟨t, h1, rfl⟩ := zoom_eq_ok.mp hx
    exact hput s t hs (h _ a t (hpart s hs) h1)

/-! ### The arithmetic of one bit (43_binary_coder.md R231 to R236) -/

theorem renormMask_getLsbD : ∀ i < 64, (0x00FFFFFFFF000000#64).getLsbD i = (decide (24 ≤ i) && decide (i < 56)) := by
  decide

/-- The renormalisation test in plain arithmetic: bits 55..24 of the bounds agree. -/
theorem Interval.settled_iff_toNat (iv : Interval) :
    iv.settled = true ↔ iv.low.toNat / 2 ^ 24 % 2 ^ 32 = iv.high.toNat / 2 ^ 24 % 2 ^ 32 := by
  have hbits : iv.low.toNat / 2 ^ 24 % 2 ^ 32 = iv.high.toNat / 2 ^ 24 % 2 ^ 32 ↔
      iv.low.extractLsb' 24 32 = iv.high.extractLsb' 24 32 := by
    rw [← BitVec.toNat_inj, BitVec.extractLsb'_toNat, BitVec.extractLsb'_toNat, Nat.shiftRight_eq_div_pow,
      Nat.shiftRight_eq_div_pow]
  rw [Interval.settled_iff, hbits]
  constructor
  · intro h
    refine BitVec.eq_of_getLsbD_eq fun i hi => ?_
    have hbit := congrArg (fun x => x.getLsbD (24 + i)) h
    rw [BitVec.getLsbD_and, BitVec.getLsbD_xor, renormMask_getLsbD (24 + i) (by omega)] at hbit
    simp only [BitVec.getLsbD_extractLsb', hi, decide_true, Bool.true_and]
    simpa [show 24 + i < 56 by omega] using hbit
  · intro h
    refine BitVec.eq_of_getLsbD_eq fun i hi => ?_
    rw [BitVec.getLsbD_and, BitVec.getLsbD_xor, renormMask_getLsbD i hi]
    by_cases hr : 24 ≤ i ∧ i < 56
    · have hbit := congrArg (fun x => x.getLsbD (i - 24)) h
      simp only [BitVec.getLsbD_extractLsb', show i - 24 < 32 by omega, decide_true, Bool.true_and,
        show 24 + (i - 24) = i by omega] at hbit
      rw [hbit]
      simp
    · have : (Decidable.decide (24 ≤ i) && Decidable.decide (i < 56)) = false := by simpa using hr
      rw [this, Bool.and_false]
      exact BitVec.getLsbD_zero.symm

/-- The invariants of the interval in plain arithmetic. -/
theorem CoderOk_iff (iv : Interval) :
    CoderOk iv ↔ iv.low.toNat < iv.high.toNat ∧ iv.low.toNat / 2 ^ 56 = iv.high.toNat / 2 ^ 56 ∧
      iv.low.toNat / 2 ^ 24 % 2 ^ 32 ≠ iv.high.toNat / 2 ^ 24 % 2 ^ 32 := by
  rw [Ne, ← Interval.settled_iff_toNat, Interval.settled_iff]
  unfold CoderOk
  rw [BitVec.lt_def, ← BitVec.toNat_inj, BitVec.toNat_ushiftRight,
    BitVec.toNat_ushiftRight, Nat.shiftRight_eq_div_pow, Nat.shiftRight_eq_div_pow]

/-- `split` is computed without a wrap. -/
theorem Interval.split_toNat {iv : Interval} (h : CoderOk iv) (p : Prob12) :
    (iv.split p).toNat = (iv.high.toNat - iv.low.toNat) / 16 * p.toNat / 256 := by
  obtain ⟨hlt, htop, -⟩ := (CoderOk_iff iv).mp h
  have hp := p.isLt
  have hdiff : (iv.high - iv.low).toNat = iv.high.toNat - iv.low.toNat :=
    BitVec.toNat_sub_of_le (BitVec.le_def.mpr (Nat.le_of_lt hlt))
  have hprod : (iv.high.toNat - iv.low.toNat) / 16 * p.toNat < 2 ^ 52 * 2 ^ 12 :=
    Nat.mul_lt_mul'' (by omega) hp
  unfold Interval.split
  rw [BitVec.toNat_ushiftRight, BitVec.toNat_mul, BitVec.toNat_ushiftRight, hdiff, BitVec.toNat_setWidth,
    Nat.shiftRight_eq_div_pow, Nat.shiftRight_eq_div_pow, Nat.mod_eq_of_lt (show p.toNat < 2 ^ 64 by omega),
    Nat.mod_eq_of_lt (by omega)]

/-- `split` is less than the width of the interval. -/
theorem Interval.split_lt {iv : Interval} (h : CoderOk iv) (p : Prob12) :
    iv.low.toNat + (iv.split p).toNat < iv.high.toNat := by
  obtain ⟨hlt, -, -⟩ := (CoderOk_iff iv).mp h
  have hp := p.isLt
  have hprod : (iv.high.toNat - iv.low.toNat) / 16 * p.toNat ≤ (iv.high.toNat - iv.low.toNat) / 16 * 4095 :=
    Nat.mul_le_mul_left _ (by omega)
  rw [Interval.split_toNat h]
  omega

/-- The sub-interval of a bit lies in the interval and is not empty. -/
theorem Interval.narrow_within {iv : Interval} (h : CoderOk iv) (p : Prob12) (bit : Bool) :
    iv.low.toNat ≤ (iv.narrow p bit).low.toNat ∧ (iv.narrow p bit).low.toNat ≤ (iv.narrow p bit).high.toNat ∧
      (iv.narrow p bit).high.toNat ≤ iv.high.toNat := by
  have hsplit := Interval.split_lt h p
  have hhigh := iv.high.isLt
  cases bit with
  | true =>
    show iv.low.toNat ≤ iv.low.toNat ∧ iv.low.toNat ≤ (iv.low + iv.split p).toNat ∧ (iv.low + iv.split p).toNat ≤ _
    rw [BitVec.toNat_add, Nat.mod_eq_of_lt (by omega)]
    omega
  | false =>
    show iv.low.toNat ≤ (iv.low + iv.split p + 1).toNat ∧ (iv.low + iv.split p + 1).toNat ≤ iv.high.toNat ∧ _
    have hone : (1 : Word).toNat = 1 := rfl
    have hlow : (iv.low + iv.split p + 1).toNat = iv.low.toNat + (iv.split p).toNat + 1 := by
      rw [BitVec.toNat_add, BitVec.toNat_add, hone]
      omega
    rw [hlow]
    exact ⟨by omega, by omega, Nat.le_refl _⟩

theorem Interval.shift_low (iv : Interval) : iv.shift.low.toNat = iv.low.toNat % 2 ^ 32 * 2 ^ 32 := by
  show (iv.low <<< 32).toNat = _
  rw [BitVec.toNat_shiftLeft, Nat.shiftLeft_eq]
  omega

theorem Interval.shift_high (iv : Interval) : iv.shift.high.toNat = iv.high.toNat % 2 ^ 32 * 2 ^ 32 + (2 ^ 32 - 1) := by
  have hlow : (iv.high <<< 32).toNat = (iv.high.toNat % 2 ^ 32) <<< 32 := by
    rw [BitVec.toNat_shiftLeft, Nat.shiftLeft_eq, Nat.shiftLeft_eq]
    omega
  show ((iv.high <<< 32) ||| 0xFFFFFFFF#64).toNat = _
  rw [BitVec.toNat_or, hlow, ← Nat.shiftLeft_eq]
  exact (Nat.shiftLeft_add_eq_or_of_lt (by decide) _).symm

/-- The interval after a bit and its renormalisation meets the invariants again (43_binary_coder.md R236). -/
theorem CoderOk.narrow {iv : Interval} (h : CoderOk iv) (p : Prob12) (bit : Bool) :
    CoderOk (if (iv.narrow p bit).settled then (iv.narrow p bit).shift else iv.narrow p bit) := by
  obtain ⟨h1, h2, h3⟩ := Interval.narrow_within h p bit
  obtain ⟨-, htop, -⟩ := (CoderOk_iff iv).mp h
  generalize iv.narrow p bit = jv at h1 h2 h3
  have hlow := jv.low.isLt
  have hhigh := jv.high.isLt
  rw [CoderOk_iff]
  split_ifs with hs
  · rw [Interval.settled_iff_toNat] at hs
    rw [Interval.shift_low, Interval.shift_high]
    omega
  · rw [Interval.settled_iff_toNat] at hs
    have hne : jv.low.toNat ≠ jv.high.toNat := fun he => hs (by rw [he])
    exact ⟨by omega, by omega, hs⟩

theorem CoderOk.initial : CoderOk Interval.initial := by
  rw [CoderOk_iff]
  decide

/-! ### The rules of the coder -/

/-- A renormalisation of the encoder that goes through: the interval has shifted when it was settled. -/
theorem renormEnc_iv {s t : State} (h : renormEnc s = .ok () t) :
    t.be.iv = if s.be.iv.settled then s.be.iv.shift else s.be.iv := by
  unfold renormEnc at h
  rw [Cmd.get_bind] at h
  split_ifs at h ⊢ with hs
  · obtain ⟨_, u, -, h2⟩ := Cmd.bind_eq_ok.mp h
    cases h2
    rfl
  · cases h
    rfl

theorem renormDec_iv {s t : State} (h : renormDec s = .ok () t) :
    t.be.iv = if s.be.iv.settled then s.be.iv.shift else s.be.iv := by
  unfold renormDec at h
  rw [Cmd.get_bind] at h
  split_ifs at h ⊢ with hs
  · rw [setInterval, Cmd.modify_bind] at h
    obtain ⟨x, u, h1, h2⟩ := Cmd.bind_eq_ok.mp h
    cases h2
    have hu := (onReader_keeps (readBits_keeps _ 32)).of_ok (midway_eq_ok.mp h1)
    show u.be.iv = _
    rw [hu.2]
    rfl
  · cases h
    rfl

/-- The predictors play no part in the coder. -/
theorem onPreds_be {x : Cmd Preds α} {s t : State} {a : α} (h : onPreds x s = .ok a t) : t.be = s.be := by
  rw [(onPreds_keeps x).of_ok h]

/-- The interval of the host's coder meets its invariants. -/
def IntervalOk (s : State) : Prop := CoderOk s.be.iv

theorem encodeStep_interval (bit : Bool) : (encodeStep bit).Maintains IntervalOk := by
  intro s _ t hs h
  unfold encodeStep at h
  rw [Cmd.get_bind] at h
  obtain ⟨p, u, -, h⟩ := Cmd.bind_eq_ok.mp h
  rw [setInterval, Cmd.modify_bind] at h
  obtain ⟨_, v, h1, h2⟩ := Cmd.bind_eq_ok.mp h
  have hiv := renormEnc_iv h2
  rw [onPreds_be h1] at hiv
  unfold IntervalOk
  rw [hiv]
  exact CoderOk.narrow hs p bit

theorem decodeStep_interval : decodeStep.Maintains IntervalOk := by
  intro s _ t hs h
  unfold decodeStep at h
  rw [Cmd.get_bind] at h
  obtain ⟨p, u, -, h⟩ := Cmd.bind_eq_ok.mp h
  rw [setInterval, Cmd.modify_bind] at h
  obtain ⟨_, v, h1, h⟩ := Cmd.bind_eq_ok.mp h
  obtain ⟨_, w, h2, h3⟩ := Cmd.bind_eq_ok.mp h
  cases h3
  have hiv := renormDec_iv h2
  rw [onPreds_be h1] at hiv
  unfold IntervalOk
  rw [hiv]
  exact CoderOk.narrow hs p _

variable {P : State → Prop}

/-- What every bit coded maintains, a run of them does. -/
theorem encodeBits_maintains (h : ∀ bit, (encodeStep bit).Maintains P) : ∀ l, (encodeBits l).Maintains P
  | [] => Cmd.Maintains.pure _
  | b :: r => (h b).reverting.bind fun _ => encodeBits_maintains h r

theorem decodeBits_maintains (h : decodeStep.Maintains P) : ∀ n acc, (decodeBits n acc).Maintains P
  | 0, _ => Cmd.Maintains.pure _
  | n + 1, _ => h.reverting.bind fun _ => decodeBits_maintains h n _

theorem checkEncoder_maintains : checkEncoder.Maintains P :=
  Cmd.Maintains.of_keeps (checkEncoder_keeps (R := fun s t => t = s) fun _ => rfl) fun _ _ h hs => h ▸ hs

theorem checkDecoder_maintains : checkDecoder.Maintains P :=
  Cmd.Maintains.of_keeps (checkDecoder_keeps (R := fun s t => t = s) fun _ => rfl) fun _ _ h hs => h ▸ hs

theorem beEncBitsBody_maintains (h : ∀ bit, (encodeStep bit).Maintains P) (n : BitVec 8) (v : Word) :
    (beEncBitsBody n v).Maintains P :=
  Cmd.Maintains.check_then fun _ => checkEncoder_maintains.bind fun _ =>
    (encodeBits_maintains h _).bind fun _ => Cmd.Maintains.pure _

theorem beEncBitBody_maintains (h : ∀ bit, (encodeStep bit).Maintains P) (bit : Bool) : (beEncBitBody bit).Maintains P :=
  checkEncoder_maintains.bind fun _ => (h bit).reverting.bind fun _ => Cmd.Maintains.pure _

theorem beDecBitBody_maintains (h : decodeStep.Maintains P) : beDecBitBody.Maintains P :=
  checkDecoder_maintains.bind fun _ => h.reverting.bind fun _ => Cmd.Maintains.pure _

theorem beDecBitsBody_maintains (h : decodeStep.Maintains P) (n : BitVec 8) : (beDecBitsBody n).Maintains P :=
  Cmd.Maintains.check_then fun _ => checkDecoder_maintains.bind fun _ => decodeBits_maintains h _ _

theorem releaseCoder_interval : releaseCoder.Maintains IntervalOk := Cmd.Maintains.of_modify fun _ hs => hs

theorem beEncInitBody_interval (slot : BitVec 4) : (beEncInitBody slot).Maintains IntervalOk := by
  refine Cmd.Maintains.get_bind fun s _ v t h => ?_
  cases hp : predSlot slot with
  | none =>
    rw [hp] at h
    cases h
  | some k =>
    simp only [hp, check_bind, Cmd.set_bind, Cmd.pure_run] at h
    split_ifs at h
    cases h
    exact CoderOk.initial

theorem beDecInitBody_interval (slot : BitVec 4) : (beDecInitBody slot).Maintains IntervalOk := by
  refine Cmd.Maintains.get_bind fun s _ v t h => ?_
  cases hp : predSlot slot with
  | none =>
    rw [hp] at h
    cases h
  | some k =>
    simp only [hp, check_bind] at h
    split_ifs at h
    obtain ⟨x, u, -, h⟩ := Cmd.bind_eq_ok.mp h
    cases h
    exact CoderOk.initial

theorem beSetpredBody_interval (slot : BitVec 4) : (beSetpredBody slot).Maintains IntervalOk := by
  refine Cmd.Maintains.get_bind fun s hs v t h => ?_
  simp only [check_bind] at h
  split_ifs at h
  cases hp : predSlot slot with
  | none =>
    rw [hp] at h
    cases h
  | some k =>
    simp only [hp, check_bind, Cmd.set_bind, Cmd.pure_run] at h
    split_ifs at h
    cases h
    exact hs

theorem beEncDisposeBody_interval : beEncDisposeBody.Maintains IntervalOk :=
  checkEncoder_maintains.bind fun _ => Cmd.Maintains.get.bind fun s =>
    (Cmd.Maintains.of_keeps (onWriter_keeps (writeBits_keeps _ _ _)) fun _ _ h hs => by
      unfold IntervalOk
      rw [h.2]
      exact hs).bind fun _ => releaseCoder_interval.bind fun _ => Cmd.Maintains.pure _

/-- Every rule that answers a value keeps the invariants of the interval. -/
theorem ruleOf_interval {i : Instr} (hi : i ≠ .reset) : (ruleOf i).Maintains IntervalOk := by
  cases hu : usesCoder i with
  | false =>
    refine Cmd.Maintains.of_keeps (ruleOf_keeps hi) fun s t h hs => ?_
    unfold IntervalOk
    rw [h.untouched.be hu]
    exact hs
  | true =>
    cases i with
    | reset => exact absurd rfl hi
    | beEncInit slot => exact beEncInitBody_interval slot
    | beEncBit bit => exact beEncBitBody_maintains encodeStep_interval bit
    | beEncBits n v => exact beEncBitsBody_maintains encodeStep_interval n v
    | beEncDispose => exact beEncDisposeBody_interval
    | beDecInit slot => exact beDecInitBody_interval slot
    | beDecBit => exact beDecBitBody_maintains decodeStep_interval
    | beDecBits n => exact beDecBitsBody_maintains decodeStep_interval n
    | beDecDispose => exact checkDecoder_maintains.bind fun _ => releaseCoder_interval.bind fun _ => Cmd.Maintains.pure _
    | beSetpred slot => exact beSetpredBody_interval slot
    | _ => cases hu

/-- Settles O59: a step that ends outside the faulted state is a rule that answers, a reset, or leaves the coder alone. -/
theorem stepKeepsCoderInterval : Obligations.StepKeepsCoderInterval := by
  intro s t hs h ht
  rcases step_live h ht with ⟨hl, h⟩ | ⟨i, rest, v, u, hi, hl, hb, rfl⟩ | ⟨u, -, rfl | rfl⟩
  · rw [h]
    exact hs hl
  · have hu : IntervalOk u := ruleOf_interval hi (s.withInbox rest) v u (hs hl) hb
    exact hu
  · exact CoderOk.initial
  · exact CoderOk.initial

end Sys2Proof.Machine
end

section
/-!
O57: every step keeps the bit writer's invariants. A piece of a rule that answers a value has delivered all it had to, whatever
the ports answer to others.
-/

namespace Sys2Proof.Machine

variable {α : Type} {bufsz : Nat}

/-! ### The writer by itself -/

/-- A byte the sink has taken. -/
theorem sinkPut_sent {b : Byte} {t u : BitWriter × Env} (h : sinkPut b t = .ok () u) :
    u.1 = { t.1 with sent := t.1.sent + 1 } := by
  obtain ⟨w, e⟩ := t
  rw [sinkPut_run] at h
  split at h
  · split at h
    · cases h
    · cases h
      rfl
  · split at h
    · cases h
    · split at h
      · cases h
        rfl
      · cases h

theorem deliver_sent : ∀ {l : List Byte} {t u : BitWriter × Env}, deliver l t = .ok () u →
    u.1 = { t.1 with sent := t.1.sent + l.length }
  | [], t, u, h => by
    cases h
    rfl
  | b :: r, t, u, h => by
    obtain ⟨_, v, h1, h2⟩ := Cmd.bind_eq_ok.mp h
    rw [deliver_sent h2, sinkPut_sent h1, List.length_cons, Nat.add_assoc, Nat.add_comm 1]

/-- The invariants hold of an empty stream (40_bitstream.md R132, R137). -/
theorem WriterOk.empty (hb : 0 < bufsz) {w : BitWriter} (hbits : w.bits = []) (hcount : w.count = 0) (hsent : w.sent = 0)
    (hcur : w.cur = 0) (havail : w.avail = 64) (hbuf : w.buf = []) (hfit : w.kind = .window → fits w.base w.cap) :
    WriterOk bufsz w := by
  have hpos : w.pos = 0 := by rw [BitWriter.pos, hbuf]; rfl
  exact
    { count_eq := by rw [hcount, hbits]; rfl
      avail_ge := by omega
      avail_le := by omega
      tie := by omega
      cur_eq := by rw [hcur, hbits, havail, List.drop_nil]; decide
      buf_eq := by rw [hbuf, hpos, hbits, hsent]; rfl
      pos_mod := by omega
      pos_lt := by omega
      cap_ge := fun _ => by rw [hcount]; exact Nat.zero_le _
      window := hfit }

/-- Bits accepted keep the invariants, also when the buffer has been handed on. -/
theorem writeBits_writerOk (hb : 0 < bufsz ∧ bufsz % 8 = 0) (value : Word) {len : Nat} (hlen : len ≤ 64) :
    (writeBits bufsz value len).Maintains fun t => WriterOk bufsz t.1 := by
  refine Cmd.Maintains.get_bind fun s hs _ t h => ?_
  obtain ⟨w, e⟩ := s
  simp only [check_bind] at h
  split_ifs at h with hopen hroom
  simp only [Bool.and_eq_true, decide_eq_true_eq, not_and, Nat.not_lt] at hroom
  have hpush := hs.push value hlen hroom
  unfold spill at h
  rw [Cmd.modify_bind, Cmd.get_bind] at h
  simp only at h
  split_ifs at h with hfull
  · obtain ⟨_, u, h1, h2⟩ := Cmd.bind_eq_ok.mp h
    cases h2
    simp only [deliver_sent h1]
    exact hpush.emptied hb.1
  · cases h
    have hfull : (w.push value len).pos ≠ bufsz := hfull
    have hlt : (w.push value len).pos < bufsz + 8 := hpush.pos_lt
    have hmod : (w.push value len).pos % 8 = 0 := hpush.pos_mod
    exact { hpush with pos_lt := show (w.push value len).pos < bufsz by omega }

theorem writeFields_writerOk (hb : 0 < bufsz ∧ bufsz % 8 = 0) : ∀ l : List (Word × Nat), (∀ f ∈ l, f.2 ≤ 64) →
    (writeFields bufsz l).Maintains fun t => WriterOk bufsz t.1
  | [], _ => Cmd.Maintains.pure _
  | f :: r, h => (writeBits_writerOk hb f.1 (h f List.mem_cons_self)).bind fun _ =>
      writeFields_writerOk hb r fun g hg => h g (List.mem_cons_of_mem _ hg)

/-- A closed stream is padded to a whole byte and delivered to its end (40_bitstream.md R135). -/
theorem WriterOk.closed (hb : 0 < bufsz) {w : BitWriter} (hw : WriterOk bufsz w) :
    WriterOk bufsz
      { w with
        isOpen := false, bits := w.bits ++ List.replicate ((8 - w.count % 8) % 8) false,
        count := w.count + (8 - w.count % 8) % 8, sent := w.sent + w.pending.length, cur := 0, avail := 64, buf := [] } := by
  have hcount := hw.count_eq
  have htie := hw.tie
  have hpend : w.sent + w.pending.length = bytesFor w.count := by
    rw [hw.pending_eq, List.length_drop, pack_length, ← hcount]
    unfold bytesFor
    omega
  have hpad : w.count + (8 - w.count % 8) % 8 = 8 * bytesFor w.count := by
    unfold bytesFor
    omega
  have hlen : (w.bits ++ List.replicate ((8 - w.count % 8) % 8) false).length = 8 * (w.sent + w.pending.length) := by
    rw [List.length_append, List.length_replicate, ← hcount, hpad, hpend]
  exact
    { count_eq := by rw [List.length_append, List.length_replicate, ← hcount]
      avail_ge := (by decide : 1 ≤ 64)
      avail_le := Nat.le_refl 64
      tie := show w.count + (8 - w.count % 8) % 8 = 8 * (w.sent + w.pending.length + 0) + (64 - 64) by omega
      cur_eq := by
        show bitsOf 0 64 = List.drop (8 * (w.sent + w.pending.length + 0)) _ ++ List.replicate 64 false
        rw [List.drop_eq_nil_of_le (by rw [hlen]; omega)]
        decide
      buf_eq := by
        show [] = List.drop (w.sent + w.pending.length) (pack (List.take (8 * (w.sent + w.pending.length + 0)) _))
        rw [List.drop_eq_nil_of_le]
        rw [pack_length, List.length_take, hlen]
        unfold bytesFor
        omega
      pos_mod := rfl
      pos_lt := hb
      cap_ge := fun hk => by
        have hcap : bytesFor w.count ≤ w.cap.toNat := hw.cap_ge hk
        show bytesFor (w.count + (8 - w.count % 8) % 8) ≤ w.cap.toNat
        rw [hpad]
        unfold bytesFor at hcap ⊢
        omega
      window := hw.window }

theorem closeWriter_writerOk (hb : 0 < bufsz) : closeWriter.Maintains fun t => WriterOk bufsz t.1 := by
  refine Cmd.Maintains.get_bind fun s hs n t h => ?_
  obtain ⟨w, e⟩ := s
  simp only [check_bind, Cmd.modify_bind] at h
  split_ifs at h
  obtain ⟨_, u, h1, h2⟩ := Cmd.bind_eq_ok.mp h
  cases h2
  have hclosed := WriterOk.closed hb hs
  show WriterOk bufsz { u.1 with isOpen := false, cur := 0, avail := 64, buf := [] }
  rw [deliver_sent h1]
  exact hclosed

/-! ### The fields of an ANS run -/

theorem tableFields_len {lr : Nat} (hlr : lr ≤ 64) : ∀ {l : List Nat}, ∀ f ∈ tableFields lr l, f.2 ≤ 64
  | [], f, hf => by cases hf
  | n :: r, f, hf => by
    unfold tableFields at hf
    split_ifs at hf <;> simp only [List.mem_cons] at hf
    · rcases hf with rfl | hf
      · decide
      · exact tableFields_len hlr f hf
    · rcases hf with rfl | rfl | hf
      · decide
      · exact hlr
      · exact tableFields_len hlr f hf

theorem allTableFields_len {order1 : Bool} {lr : Nat} (hlr : lr ≤ 64) :
    ∀ {l : List (Option (List Nat))}, ∀ f ∈ allTableFields order1 lr l, f.2 ≤ 64
  | [], f, hf => by cases hf
  | x :: r, f, hf => by
    have hbit : ∀ b : Word, f ∈ (if order1 then [(b, 1)] else []) → f.2 ≤ 64 := fun b hb => by
      split_ifs at hb <;> simp only [List.mem_singleton, List.not_mem_nil] at hb
      rw [hb]
      exact (by decide : 1 ≤ 64)
    cases x with
    | none =>
      rcases List.mem_append.mp hf with hf | hf
      · exact hbit 0 hf
      · exact allTableFields_len hlr f hf
    | some g =>
      rcases List.mem_append.mp hf with hf | hf
      · rcases List.mem_append.mp hf with hf | hf
        · exact hbit 1 hf
        · exact tableFields_len hlr f hf
      · exact allTableFields_len hlr f hf

theorem ansCodeFields_len {order1 : Bool} {lr draw : Nat} {counted d : List Byte} :
    ∀ f ∈ ansCodeFields order1 lr draw counted d, f.2 ≤ 64 := by
  intro f hf
  unfold ansCodeFields at hf
  rcases List.mem_cons.mp hf with rfl | hf
  · exact (by decide : 32 ≤ 64)
  · obtain ⟨b, -, rfl⟩ := List.mem_map.mp hf
    exact (by decide : 8 ≤ 64)

/-! ### The rules that use the writer -/

/-- The writer meets its invariants, with a buffer of `bufsz` bytes. -/
structure WriterInv (bufsz : Nat) (s : State) : Prop where
  par : s.par.bufsz = bufsz
  ok : WriterOk bufsz s.bw

theorem onWriter_writerInv {x : Cmd (BitWriter × Env) α} (h : x.Maintains fun t => WriterOk bufsz t.1) :
    (onWriter x).Maintains (WriterInv bufsz) :=
  h.zoom (fun _ hs => hs.ok) fun _ _ hs ht => ⟨hs.par, ht⟩

/-- A piece that leaves the writer and the parameters alone. -/
theorem WriterInv.of_keeps {R : State → State → Prop} {x : Cmd State α} (h : x.Keeps R)
    (hr : ∀ s t, R s t → t.bw = s.bw ∧ t.par = s.par) : x.Maintains (WriterInv bufsz) :=
  Cmd.Maintains.of_keeps h fun s t hst hs => by
    obtain ⟨hbw, hpar⟩ := hr s t hst
    exact ⟨by rw [hpar, hs.par], by rw [hbw]; exact hs.ok⟩

theorem onPreds_writerInv (x : Cmd Preds α) : (onPreds x).Maintains (WriterInv bufsz) :=
  WriterInv.of_keeps (onPreds_keeps x) fun _ _ h => by
    rw [h]
    exact ⟨rfl, rfl⟩

theorem onMem_writerInv (x : Cmd (Unit × Env) α) : (onMem x).Maintains (WriterInv bufsz) :=
  WriterInv.of_keeps (R := fun s t => ∃ e, t = s.withEnv e)
    (Cmd.Keeps.zoom (Q := fun _ _ => True) (fun _ => trivial) fun _ t _ => ⟨t.2, rfl⟩) fun _ _ ⟨_, h⟩ => by
    rw [h]
    exact ⟨rfl, rfl⟩

theorem setInterval_writerInv (iv : Interval) : (setInterval iv).Maintains (WriterInv bufsz) :=
  Cmd.Maintains.of_modify fun _ hs => ⟨hs.par, hs.ok⟩

theorem releaseCoder_writerInv : releaseCoder.Maintains (WriterInv bufsz) :=
  Cmd.Maintains.of_modify fun _ hs => ⟨hs.par, hs.ok⟩

theorem release_writerInv : Cmd.Maintains (WriterInv bufsz) (modify State.release) :=
  Cmd.Maintains.of_modify fun _ hs => ⟨hs.par, hs.ok⟩

section

variable (hb : 0 < bufsz ∧ bufsz % 8 = 0)
include hb

theorem renormEnc_writerInv : renormEnc.Maintains (WriterInv bufsz) := by
  refine Cmd.Maintains.get_bind fun s hs a t h => ?_
  refine Cmd.Maintains.ite (fun _ => ?_) (fun _ => Cmd.Maintains.pure _) s a t hs h
  rw [hs.par]
  exact (onWriter_writerInv (writeBits_writerOk hb _ (by decide))).bind fun _ => setInterval_writerInv _

theorem encodeStep_writerInv (bit : Bool) : (encodeStep bit).Maintains (WriterInv bufsz) :=
  Cmd.Maintains.get.bind fun _ => (onPreds_writerInv _).bind fun _ => (setInterval_writerInv _).bind fun _ =>
    (onPreds_writerInv _).bind fun _ => renormEnc_writerInv hb

/-- A rule that reads the state, then writes one field. -/
theorem writeOne_writerInv {β : Type} (value : State → Word) {len : Nat} (hlen : len ≤ 64) {f : State → Unit → Cmd State β}
    (hf : ∀ s u, (f s u).Maintains (WriterInv bufsz)) :
    (get >>= fun s => onWriter (writeBits s.par.bufsz (value s) len) >>= f s : Cmd State β).Maintains (WriterInv bufsz) := by
  refine Cmd.Maintains.get_bind fun s hs a t h => ?_
  rw [hs.par] at h
  exact ((onWriter_writerInv (writeBits_writerOk hb _ hlen)).bind (hf s)) s a t hs h

theorem bwBitBody_writerInv (bit : Bool) : (bwBitBody bit).Maintains (WriterInv bufsz) :=
  writeOne_writerInv hb (fun _ => (BitVec.ofBool bit).setWidth 64) (len := 1) (by decide) fun _ _ => Cmd.Maintains.pure _

theorem bwBitsBody_writerInv (len : BitVec 8) (v : Word) : (bwBitsBody len v).Maintains (WriterInv bufsz) :=
  Cmd.Maintains.check_then fun hlen => by
    rw [decide_eq_false_iff_not, Nat.not_lt] at hlen
    exact writeOne_writerInv hb (fun _ => v) hlen fun _ _ => Cmd.Maintains.pure _

theorem beEncDisposeBody_writerInv : beEncDisposeBody.Maintains (WriterInv bufsz) :=
  checkEncoder_maintains.bind fun _ => writeOne_writerInv hb (fun s => s.be.iv.low) (by decide) fun _ _ =>
    releaseCoder_writerInv.bind fun _ => Cmd.Maintains.pure _

theorem bwCloseBody_writerInv : bwCloseBody.Maintains (WriterInv bufsz) :=
  (onWriter_writerInv (closeWriter_writerOk hb.1)).bind fun _ => release_writerInv.bind fun _ => Cmd.Maintains.pure _

theorem bwOpenBody_writerInv (kind : BitVec 8) : (bwOpenBody kind).Maintains (WriterInv bufsz) := by
  refine Cmd.Maintains.get_bind fun s hs a t h => ?_
  cases hk : streamKind kind with
  | none =>
    rw [hk] at h
    cases h
  | some k =>
    cases k <;> simp only [hk, check_bind, Cmd.set_bind, Cmd.pure_run] at h
    · split_ifs at h
      cases h
      exact ⟨hs.par, WriterOk.empty hb.1 rfl rfl rfl rfl rfl rfl fun hw => by cases hw⟩
    · split_ifs at h with hopen hfit
      cases h
      rw [Bool.not_eq_true', Bool.not_eq_false] at hfit
      exact ⟨hs.par, WriterOk.empty hb.1 rfl rfl rfl rfl rfl rfl fun _ => of_decide_eq_true hfit⟩

theorem ansEncBody_writerInv (order : BitVec 8) (n off : BitVec 32) : (ansEncBody order n off).Maintains (WriterInv bufsz) := by
  refine Cmd.Maintains.check_then fun _ => Cmd.Maintains.get_bind fun s hs a t h => ?_
  have hlr : s.logRange.toNat ≤ 64 := by
    have := s.logRange.isLt
    omega
  rw [hs.par] at h
  refine Cmd.Maintains.check_then (fun _ => Cmd.Maintains.check_then fun _ => Cmd.Maintains.check_then fun _ =>
    Cmd.Maintains.check_then fun _ => Cmd.Maintains.ite (fun _ => Cmd.Maintains.pure _) fun _ => ?_) s a t hs h
  refine (onWriter_writerInv (writeBits_writerOk hb _ (by decide : 4 ≤ 64))).bind fun _ => ?_
  refine (onMem_writerInv _).bind fun counted => ?_
  refine (onWriter_writerInv (writeFields_writerOk hb _ (allTableFields_len hlr))).bind fun _ => ?_
  refine (onMem_writerInv _).bind fun d => Cmd.Maintains.get.bind fun u => ?_
  refine (onWriter_writerInv (writeFields_writerOk hb _ ansCodeFields_len)).bind fun _ => ?_
  exact Cmd.Maintains.get.bind fun _ => Cmd.Maintains.pure _

/-- Every rule that answers a value keeps the writer's invariants. -/
theorem ruleOf_writerInv {i : Instr} (hi : i ≠ .reset) : (ruleOf i).Maintains (WriterInv bufsz) := by
  cases hu : usesWriter i with
  | false => exact WriterInv.of_keeps (ruleOf_keeps hi) fun _ _ h => ⟨h.untouched.bw hu, h.untouched.par⟩
  | true =>
    cases i with
    | reset => exact absurd rfl hi
    | bwOpen kind => exact bwOpenBody_writerInv hb kind
    | bwBit bit => exact bwBitBody_writerInv hb bit
    | bwBits len v => exact bwBitsBody_writerInv hb len v
    | bwClose => exact bwCloseBody_writerInv hb
    | beEncBit bit => exact beEncBitBody_maintains (encodeStep_writerInv hb) bit
    | beEncBits n v => exact beEncBitsBody_maintains (encodeStep_writerInv hb) n v
    | beEncDispose => exact beEncDisposeBody_writerInv hb
    | ansEnc order n off => exact ansEncBody_writerInv hb order n off
    | _ => cases hu

theorem WriterOk.reset : WriterOk bufsz BitWriter.reset :=
  WriterOk.empty hb.1 rfl rfl rfl rfl rfl rfl fun hw => by cases hw

end

/-- No step changes the parameters. -/
theorem step_par {s t : State} (h : step s = .next t) : t.par = s.par := by
  cases step_cases h with
  | host h _ => rw [h]
  | command i rest h => exact (commandsLeaveOtherUnits i _ t h).par
  | illegal op e rest h => rw [h]; rfl
  | pin u hpar _ h => rw [h]; exact hpar

theorem Params.bufsz_of_ok {p : Config.Params} (h : p.ok = true) : 8 ≤ p.bufsz ∧ p.bufsz % 8 = 0 := by
  simp only [Config.Params.ok, Bool.and_eq_true, decide_eq_true_eq] at h
  omega

/-- Settles O57: a step that ends outside the faulted state is a rule that answers, a reset, or leaves the writer alone. -/
theorem stepKeepsWriterInvariant : Obligations.StepKeepsWriterInvariant := by
  refine ⟨fun s t hpar hs h => ⟨step_par h, fun ht => ?_⟩, fun bufsz w h => ?_⟩
  · have hbuf := Params.bufsz_of_ok hpar
    have hb : 0 < s.par.bufsz ∧ s.par.bufsz % 8 = 0 := ⟨by omega, hbuf.2⟩
    rw [step_par h]
    rcases step_live h ht with ⟨hl, h⟩ | ⟨i, rest, v, u, hi, hl, hr, rfl⟩ | ⟨u, -, rfl | rfl⟩
    · rw [h]
      exact hs hl
    · have hu : WriterInv s.par.bufsz u := ruleOf_writerInv hb hi (s.withInbox rest) v u ⟨rfl, hs hl⟩ hr
      exact hu.ok
    · exact WriterOk.reset hb
    · exact WriterOk.reset hb
  · have htie := h.tie
    have hlt := h.pos_lt
    have hge := h.avail_ge
    have hle := h.avail_le
    omega

end Sys2Proof.Machine
end

section
/-!
O58: every step keeps an open bit reader's invariants. A piece of a rule that answers a value has had its bytes from the source,
or its end; so nothing is asked of the ports here.
-/

namespace Sys2Proof.Machine

variable {α σ : Type} {bufsz : Nat}

/-! ### The reader by itself -/

/-- A byte of the source is counted; of a window it is one of its bytes. -/
theorem srcGet_fetched {t u : BitReader × Env} {x : Option Byte} (h : srcGet t = .ok x u) :
    x = none ∧ u.1 = t.1 ∨
      (∃ b, x = some b) ∧ u.1 = { t.1 with fetched := t.1.fetched + 1 } ∧
        (t.1.kind = .window → t.1.fetched < t.1.len.toNat) := by
  obtain ⟨r, e⟩ := t
  rw [srcGet_run] at h
  split at h
  next hk =>
    split at h
    · cases h
      exact .inl ⟨rfl, rfl⟩
    · split at h <;> cases h
      · exact .inl ⟨rfl, rfl⟩
      · exact .inr ⟨⟨_, rfl⟩, rfl, fun hw => absurd (hk.symm.trans hw) nofun⟩
  next =>
    split at h
    next hlt =>
      split at h
      · split at h <;> cases h <;> exact .inr ⟨⟨_, rfl⟩, rfl, fun _ => hlt⟩
      · cases h
    next =>
      cases h
      exact .inl ⟨rfl, rfl⟩

/-- What a fetch that answers does to the reader: the bytes it answers are counted. -/
theorem fetch_fetched : ∀ {k : Nat} {t u : BitReader × Env} {l : List Byte}, fetch k t = .ok l u →
    (t.1.kind = .window → t.1.fetched ≤ t.1.len.toNat) →
    u.1 = { t.1 with fetched := t.1.fetched + l.length } ∧ l.length ≤ k ∧
      (t.1.kind = .window → t.1.fetched + l.length ≤ t.1.len.toNat)
  | 0, t, u, l, h, hw => by
    cases h
    exact ⟨rfl, Nat.le_refl _, hw⟩
  | k + 1, t, u, l, h, hw => by
    unfold fetch at h
    obtain ⟨x, v, h1, h2⟩ := Cmd.bind_eq_ok.mp h
    rcases srcGet_fetched h1 with ⟨rfl, hv⟩ | ⟨⟨b, rfl⟩, hv, hlt⟩
    · cases h2
      exact ⟨hv, Nat.zero_le _, hw⟩
    · obtain ⟨r, w, h3, h4⟩ := Cmd.bind_eq_ok.mp h2
      cases h4
      obtain ⟨hw', hlen, hfit⟩ := fetch_fetched h3 (by rw [hv]; exact hlt)
      rw [hv] at hw' hfit
      simp only at hfit
      rw [List.length_cons]
      refine ⟨?_, by omega, fun hk => ?_⟩
      · rw [hw', Nat.add_assoc, Nat.add_comm 1]
      · have := hfit hk
        omega

/-- Bytes put into the buffer when fewer than 64 bits are on hand. -/
theorem ReaderOk.filled {r : BitReader} (h : ReaderOk bufsz r) {l : List Byte} (hon : r.onHand < 64) (hlen : l.length ≤ bufsz)
    (hfit : r.kind = .window → r.fetched + l.length ≤ r.len.toNat) :
    ReaderOk bufsz { r with fetched := r.fetched + l.length, buf := r.buf.drop r.pos ++ l, pos := 0 } := by
  have hpos := h.pos_le
  have htie := h.tie
  have hhand : BitReader.onHand { r with fetched := r.fetched + l.length, buf := r.buf.drop r.pos ++ l, pos := 0 } =
      r.onHand + 8 * l.length := by
    unfold BitReader.onHand BitReader.max
    simp only [List.length_append, List.length_drop]
    omega
  exact
    { tie := by
        rw [hhand]
        show 8 * (r.fetched + l.length) = r.count + _
        omega
      ahead := by
        rw [hhand]
        omega
      avail_le := h.avail_le
      pos_le := Nat.zero_le _
      fetched_le := hfit
      window := h.window }

/-- The invariants of a reader, while it is open. -/
def OpenOk (bufsz : Nat) (t : BitReader × Env) : Prop := t.1.isOpen = true → ReaderOk bufsz t.1

theorem fill_openOk {need : Nat} (hneed : need ≤ 64) : (fill bufsz need).Maintains (OpenOk bufsz) := by
  intro s _ t hs h hopen
  obtain ⟨r, e⟩ := s
  have hr : ReaderOk bufsz r := hs (((fill_keeps bufsz need).of_ok h).isOpen.symm.trans hopen)
  unfold fill at h
  rw [Cmd.get_bind] at h
  simp only at h
  split at h
  · obtain ⟨l, u, h1, h2⟩ := Cmd.bind_eq_ok.mp h
    obtain ⟨hu, hlen, hfit⟩ := fetch_fetched h1 hr.fetched_le
    cases h2
    show ReaderOk bufsz { u.1 with buf := r.buf.drop r.pos ++ l, pos := 0 }
    rw [hu]
    exact hr.filled (by omega) hlen hfit
  · cases h
    exact hr

/-- Bits read keep the invariants, whatever the source answers. -/
theorem readBits_openOk {len : Nat} (hlen : len ≤ 64) : (readBits bufsz len).Maintains (OpenOk bufsz) :=
  Cmd.Maintains.get.bind fun _ => Cmd.Maintains.check_then fun _ => (fill_openOk hlen).bind fun _ =>
    Cmd.Maintains.get_bind fun s hs _ t h => by
      obtain ⟨r, e⟩ := s
      simp only [check_bind] at h
      split_ifs at h with hon
      cases h
      intro hopen
      rw [decide_eq_true_eq, Nat.not_lt] at hon
      have hr : ReaderOk bufsz r := hs ((r.take_bound len).1 ▸ hopen)
      exact (r.take_of hr hlen hon).2.2

theorem moreBits_openOk : (moreBits bufsz).Maintains (OpenOk bufsz) :=
  Cmd.Maintains.get.bind fun _ => Cmd.Maintains.ite
    (fun _ => (fill_openOk (by decide)).bind fun _ => Cmd.Maintains.get.bind fun _ => Cmd.Maintains.pure _)
    (fun _ => Cmd.Maintains.pure _)

/-! ### Decoding an ANS run reads at most 64 bits at a time -/

section

variable {P : σ → Prop} {rb : Nat → Cmd σ Word} (hrb : ∀ len, len ≤ 64 → (rb len).Maintains P)
include hrb

theorem readTableEntries_maintains {lr : Nat} (hlr : lr ≤ 64) : ∀ k, (readTableEntries rb lr k).Maintains P
  | 0 => Cmd.Maintains.pure _
  | k + 1 => (hrb 1 (by decide)).bind fun _ => Cmd.Maintains.ite
      (fun _ => (readTableEntries_maintains hlr k).bind fun _ => Cmd.Maintains.pure _)
      (fun _ => (hrb lr hlr).bind fun _ => (readTableEntries_maintains hlr k).bind fun _ => Cmd.Maintains.pure _)

theorem readTable_maintains {lr : Nat} (hlr : lr ≤ 64) : (readTable rb lr).Maintains P :=
  (readTableEntries_maintains hrb hlr 256).bind fun _ => Cmd.Maintains.checkMid_then fun _ => Cmd.Maintains.pure _

theorem readTables_maintains {lr : Nat} (hlr : lr ≤ 64) : ∀ k, (readTables rb lr k).Maintains P
  | 0 => Cmd.Maintains.pure _
  | k + 1 => (hrb 1 (by decide)).bind fun _ => Cmd.Maintains.ite
      (fun _ => (readTables_maintains hlr k).bind fun _ => Cmd.Maintains.pure _)
      (fun _ => (readTable_maintains hrb hlr).bind fun _ => (readTables_maintains hlr k).bind fun _ => Cmd.Maintains.pure _)

theorem ansRefill_maintains : ∀ k x, (ansRefill rb k x).Maintains P
  | 0, _ => Cmd.Maintains.pure _
  | k + 1, _ => Cmd.Maintains.ite (fun _ => (hrb 8 (by decide)).bind fun _ => ansRefill_maintains k _)
      (fun _ => Cmd.Maintains.pure _)

theorem ansSymbols_maintains {order1 : Bool} {lr : Nat} {tables : List (Option (List Nat))} :
    ∀ k x prev, (ansSymbols rb order1 lr tables k x prev).Maintains P
  | 0, _, _ => Cmd.Maintains.checkMid_then fun _ => Cmd.Maintains.pure _
  | k + 1, x, prev => by
    unfold ansSymbols
    split
    · exact Cmd.Maintains.raiseMid _ _ _
    · exact (ansRefill_maintains hrb 4 _).bind fun _ => (ansSymbols_maintains k _ _).bind fun _ => Cmd.Maintains.pure _

theorem ansDecodeRest_maintains (order1 : Bool) (n t : Nat) : (ansDecodeRest rb order1 n t).Maintains P :=
  Cmd.Maintains.checkMid_then fun ht => by
    have hlr : t + 8 ≤ 64 := by
      rw [decide_eq_false_iff_not] at ht
      omega
    have htail : ∀ tables : List (Option (List Nat)), (do
        let x ← rb 32
        checkMid (decide (x.toNat < Config.ansL) || decide (256 * Config.ansL ≤ x.toNat)) .invalidData 3
        ansSymbols rb order1 (t + 8) tables n x.toNat 0 : Cmd σ (List Byte)).Maintains P := fun tables =>
      (hrb 32 (by decide)).bind fun _ => Cmd.Maintains.checkMid_then fun _ => ansSymbols_maintains hrb n _ _
    exact Cmd.Maintains.ite (fun _ => (readTables_maintains hrb hlr 256).bind htail)
      (fun _ => (readTable_maintains hrb hlr).bind fun f => htail [some f])

theorem ansDecode_maintains (order1 : Bool) (n : Nat) : (ansDecode rb order1 n).Maintains P :=
  Cmd.Maintains.ite (fun _ => Cmd.Maintains.pure _)
    (fun _ => (hrb 4 (by decide)).bind fun _ => (ansDecodeRest_maintains hrb order1 n _).midway)

end

/-! ### The rules that use the reader -/

/-- The reader meets its invariants while it is open, with a buffer of `bufsz` bytes. -/
structure ReaderInv (bufsz : Nat) (s : State) : Prop where
  par : s.par.bufsz = bufsz
  ok : s.br.isOpen = true → ReaderOk bufsz s.br

theorem onReader_readerInv {x : Cmd (BitReader × Env) α} (h : x.Maintains (OpenOk bufsz)) :
    (onReader x).Maintains (ReaderInv bufsz) :=
  h.zoom (fun _ hs => hs.ok) fun _ _ hs ht => ⟨hs.par, ht⟩

/-- A piece that leaves the reader and the parameters alone. -/
theorem ReaderInv.of_keeps {R : State → State → Prop} {x : Cmd State α} (h : x.Keeps R)
    (hr : ∀ s t, R s t → t.br = s.br ∧ t.par = s.par) : x.Maintains (ReaderInv bufsz) :=
  Cmd.Maintains.of_keeps h fun s t hst hs => by
    obtain ⟨hbr, hpar⟩ := hr s t hst
    exact ⟨by rw [hpar, hs.par], by rw [hbr]; exact hs.ok⟩

theorem onPreds_readerInv (x : Cmd Preds α) : (onPreds x).Maintains (ReaderInv bufsz) :=
  ReaderInv.of_keeps (onPreds_keeps x) fun _ _ h => by
    rw [h]
    exact ⟨rfl, rfl⟩

theorem onMem_readerInv (x : Cmd (Unit × Env) α) : (onMem x).Maintains (ReaderInv bufsz) :=
  ReaderInv.of_keeps (R := fun s t => ∃ e, t = s.withEnv e)
    (Cmd.Keeps.zoom (Q := fun _ _ => True) (fun _ => trivial) fun _ t _ => ⟨t.2, rfl⟩) fun _ _ ⟨_, h⟩ => by
    rw [h]
    exact ⟨rfl, rfl⟩

theorem setInterval_readerInv (iv : Interval) : (setInterval iv).Maintains (ReaderInv bufsz) :=
  Cmd.Maintains.of_modify fun _ hs => ⟨hs.par, hs.ok⟩

/-- The rest of a rule after it has read the state, whose buffer size it uses. -/
theorem ReaderInv.get_bind {f : State → Cmd State α} (h : ∀ s, s.par.bufsz = bufsz → (f s).Maintains (ReaderInv bufsz)) :
    (get >>= f : Cmd State α).Maintains (ReaderInv bufsz) :=
  Cmd.Maintains.get_bind fun s hs a t hx => h s hs.par s a t hs hx

theorem readBits_readerInv {s : State} (hs : s.par.bufsz = bufsz) {len : Nat} (hlen : len ≤ 64) :
    (onReader (readBits s.par.bufsz len)).Maintains (ReaderInv bufsz) := by
  rw [hs]
  exact onReader_readerInv (readBits_openOk hlen)

theorem renormDec_readerInv : renormDec.Maintains (ReaderInv bufsz) :=
  ReaderInv.get_bind fun _ hs => Cmd.Maintains.ite
    (fun _ => (setInterval_readerInv _).bind fun _ => (readBits_readerInv hs (by decide)).midway.bind fun _ =>
      Cmd.Maintains.of_modify fun _ hs => ⟨hs.par, hs.ok⟩)
    (fun _ => Cmd.Maintains.pure _)

theorem decodeStep_readerInv : decodeStep.Maintains (ReaderInv bufsz) :=
  Cmd.Maintains.get.bind fun _ => (onPreds_readerInv _).bind fun _ => (setInterval_readerInv _).bind fun _ =>
    (onPreds_readerInv _).bind fun _ => renormDec_readerInv.bind fun _ => Cmd.Maintains.pure _

theorem brBitBody_readerInv : brBitBody.Maintains (ReaderInv bufsz) :=
  ReaderInv.get_bind fun _ hs => readBits_readerInv hs (by decide)

theorem brBitsBody_readerInv (len : BitVec 8) : (brBitsBody len).Maintains (ReaderInv bufsz) :=
  Cmd.Maintains.check_then fun hlen => by
    rw [decide_eq_false_iff_not, Nat.not_lt] at hlen
    exact ReaderInv.get_bind fun _ hs => readBits_readerInv hs hlen

theorem brMoreBody_readerInv : brMoreBody.Maintains (ReaderInv bufsz) :=
  ReaderInv.get_bind fun s hs => by
    rw [hs]
    exact onReader_readerInv moreBits_openOk

theorem beDecInitBody_readerInv (slot : BitVec 4) : (beDecInitBody slot).Maintains (ReaderInv bufsz) :=
  ReaderInv.get_bind fun s hs => by
    split
    · exact Cmd.Maintains.raise _ _ _
    · exact Cmd.Maintains.check_then fun _ => (readBits_readerInv hs (by decide)).bind fun _ =>
        (Cmd.Maintains.of_modify fun _ hs => ⟨hs.par, hs.ok⟩).bind fun _ => Cmd.Maintains.pure _

theorem ansDecBody_readerInv (order : BitVec 8) (n off : BitVec 32) : (ansDecBody order n off).Maintains (ReaderInv bufsz) :=
  Cmd.Maintains.check_then fun _ => ReaderInv.get_bind fun s hs => by
    rw [hs]
    refine Cmd.Maintains.check_then fun _ => Cmd.Maintains.check_then fun _ => Cmd.Maintains.check_then fun _ =>
      Cmd.Maintains.check_then fun _ => ?_
    refine (onReader_readerInv (ansDecode_maintains (fun _ => readBits_openOk) _ _)).bind fun _ => ?_
    exact (onMem_readerInv _).midway.bind fun _ => Cmd.Maintains.get.bind fun _ => Cmd.Maintains.pure _

/-- A reader newly opened has fetched and consumed nothing. -/
theorem ReaderOk.opened (hb : 0 < bufsz) {r : BitReader} {k : StreamKind} (hfit : k = .window → fits r.base r.len) :
    ReaderOk bufsz (r.opened k) where
  tie := rfl
  ahead := show 0 < 8 * bufsz + 64 by omega
  avail_le := Nat.zero_le _
  pos_le := Nat.zero_le _
  fetched_le := fun _ => Nat.zero_le _
  window := hfit

theorem brOpenBody_readerInv (hb : 0 < bufsz) (kind : BitVec 8) : (brOpenBody kind).Maintains (ReaderInv bufsz) := by
  refine Cmd.Maintains.get_bind fun s hs a t h => ?_
  cases hk : streamKind kind with
  | none =>
    rw [hk] at h
    cases h
  | some k =>
    cases k <;> simp only [hk, check_bind, Cmd.set_bind, Cmd.pure_run] at h
    · split_ifs at h
      cases h
      exact ⟨hs.par, fun _ => ReaderOk.opened hb fun hw => by cases hw⟩
    · split_ifs at h with hopen hfit
      cases h
      rw [Bool.not_eq_true', Bool.not_eq_false] at hfit
      exact ⟨hs.par, fun _ => ReaderOk.opened hb fun _ => of_decide_eq_true hfit⟩

theorem brCloseBody_readerInv : brCloseBody.Maintains (ReaderInv bufsz) := by
  refine Cmd.Maintains.get_bind fun s hs a t h => ?_
  simp only [Cmd.set_bind, Cmd.pure_run] at h
  split_ifs at h with hopen <;> cases h
  · exact ⟨hs.par, fun h => by cases h⟩
  · exact hs

/-- Every rule that answers a value keeps the invariants of the reader. -/
theorem ruleOf_readerInv (hb : 0 < bufsz) {i : Instr} (hi : i ≠ .reset) : (ruleOf i).Maintains (ReaderInv bufsz) := by
  cases hu : usesReader i with
  | false => exact ReaderInv.of_keeps (ruleOf_keeps hi) fun _ _ h => ⟨h.untouched.br hu, h.untouched.par⟩
  | true =>
    cases i with
    | reset => exact absurd rfl hi
    | brOpen kind => exact brOpenBody_readerInv hb kind
    | brBit => exact brBitBody_readerInv
    | brBits len => exact brBitsBody_readerInv len
    | brMore => exact brMoreBody_readerInv
    | brClose => exact brCloseBody_readerInv
    | beDecInit slot => exact beDecInitBody_readerInv slot
    | beDecBit => exact beDecBitBody_maintains decodeStep_readerInv
    | beDecBits n => exact beDecBitsBody_maintains decodeStep_readerInv n
    | ansDec order n off => exact ansDecBody_readerInv order n off
    | _ => cases hu

/-- An end of the SRC port that has been reported stays. -/
theorem step_srcEnd {s t : State} (h : step s = .next t) (hend : s.env.srcEnd = true) : t.env.srcEnd = true := by
  cases step_cases h with
  | host _ hkeep => exact hkeep hend
  | command i rest h => exact (commandsLeaveOtherUnits i _ t h).env.2.2 hend
  | illegal op e rest h => rw [h]; exact hend
  | pin u _ hkeep h =>
    rw [h]
    exact hkeep hend

/-- Settles O58: a step that ends outside the faulted state is a rule that answers, a reset, or leaves the reader alone. -/
theorem stepKeepsReaderInvariant : Obligations.StepKeepsReaderInvariant := by
  refine ⟨fun s t hpar hs h ht => ?_, fun s t h => step_srcEnd h, fun bufsz r h => ?_⟩
  · have hbuf := Params.bufsz_of_ok hpar
    rw [step_par h]
    rcases step_live h ht with ⟨hl, h⟩ | ⟨i, rest, v, u, hi, hl, hr, rfl⟩ | ⟨u, -, rfl | rfl⟩
    · rw [h]
      exact hs hl
    · have hu : ReaderInv s.par.bufsz u :=
        ruleOf_readerInv (by omega) hi (s.withInbox rest) v u ⟨rfl, hs hl⟩ hr
      exact hu.ok
    · exact fun h => by cases h
    · exact fun h => by cases h
  · have htie := h.tie
    have hahead := h.ahead
    unfold bytesFor
    omega

end Sys2Proof.Machine
end

section
/-!
O4, O10, O51: what the host presents runs, what `CSRR` answers, and the invariants at reset.
-/

namespace Sys2Proof.Machine

variable {s : State}

/-! ### What the host presents -/

/-- Settles O4: each kind of input is one branch of the step. -/
theorem stepRunsPresentedCommand : Obligations.StepRunsPresentedCommand := by
  refine ⟨fun s w rest i hin hd => ?_, fun s hin => step_idle hin, fun s a b rest hin => ?_,
    fun s src sinkAns busErr raced rest hin => step_of_inbox hin, fun s n w i hd => ?_⟩
  · rw [step_of_inbox hin]
    exact runWord_of_ok hd _
  · exact ⟨_, step_of_inbox hin, fun c => Memory.read_write _ _ _ _⟩
  · have hin : (s.withFetchWord n w).inbox = .command (BitVec.ofNat 128 w) :: s.inbox := rfl
    rw [step_of_inbox hin]
    exact runWord_of_ok hd s

/-! ### The CSRs -/

/-- `CSRR` of a CSR of the map, in every state (48_system_commands.md R372, 60_exceptions.md R397). -/
theorem exec_csrr_of_some {idx : BitVec 8} {v : Word} (h : readCsr s idx = some v) :
    exec (.csrr idx) s = .next (s.completed v) := by
  show execCsrr idx s = _
  unfold execCsrr
  split_ifs with hf
  · rw [h]
    rfl
  · rw [Bool.not_eq_true] at hf
    refine command_completes hf ?_
    rw [csrrBody, Cmd.get_bind, h]
    rfl

/-- `CSRR` of a reserved index fails, or is refused. -/
theorem exec_csrr_of_none {idx : BitVec 8} (h : readCsr s idx = none) :
    exec (.csrr idx) s = .next (if s.latch.err then s.refused else s.failed 0x02 .invalidParameter 8) := by
  show execCsrr idx s = _
  unfold execCsrr
  split_ifs with hf
  · rw [h]
    rfl
  · rw [Bool.not_eq_true] at hf
    refine command_fails (sub := 8) hf ?_
    rw [csrrBody, Cmd.get_bind, h]
    rfl

/-- The map ends at 0x0F (10_state.md R26, R50). -/
theorem readCsr_of_reserved {idx : BitVec 8} (h : 0x0F < idx.toNat) : readCsr s idx = none := by
  unfold readCsr
  split
  on_goal 17 => rfl
  all_goals omega

/-- The word of six flags, bit by bit. -/
theorem flagsWord_eq : ∀ rz dec enc br bw err : Bool,
    0#58 ++ BitVec.ofBool rz ++ BitVec.ofBool dec ++ BitVec.ofBool enc ++ BitVec.ofBool br ++ BitVec.ofBool bw ++
        BitVec.ofBool err =
      BitVec.ofNat 64
        (err.toNat + 2 * bw.toNat + 4 * br.toNat + 8 * enc.toNat + 16 * dec.toNat + 32 * rz.toNat) := by
  decide

/-- `RZCFG` in plain arithmetic. -/
theorem Rolz.cfgWord_eq (z : Rolz) : z.cfgWord = BitVec.ofNat 64 (z.lpc.toNat + 2 ^ 8 * z.backend.toNat) := by
  refine BitVec.eq_of_toNat_eq ?_
  have hlpc := z.lpc.isLt
  have hbackend := z.backend.isLt
  rw [cfgWord, BitVec.toNat_append, BitVec.toNat_append, BitVec.toNat_append, BitVec.toNat_ofNat,
    ← Nat.shiftLeft_add_eq_or_of_lt hlpc, ← Nat.shiftLeft_add_eq_or_of_lt (by decide : (0#4).toNat < 2 ^ 4),
    ← Nat.shiftLeft_add_eq_or_of_lt hbackend]
  simp only [Nat.shiftLeft_eq, BitVec.toNat_ofNat]
  omega

/-- Settles O10: `CSRR` answers what the map holds, and the map holds the fields of the state. -/
theorem csrrAnswersEveryCsr : Obligations.CsrrAnswersEveryCsr := by
  intro s
  simp only [BitVec.ofNat_toNat]
  refine ⟨exec_csrr_of_some rfl, ?_, exec_csrr_of_some rfl, exec_csrr_of_some rfl, exec_csrr_of_some rfl,
    exec_csrr_of_some rfl, exec_csrr_of_some rfl, exec_csrr_of_some rfl, exec_csrr_of_some rfl, exec_csrr_of_some rfl,
    exec_csrr_of_some rfl, exec_csrr_of_some rfl, ?_, exec_csrr_of_some rfl, exec_csrr_of_some rfl,
    exec_csrr_of_some rfl, fun idx h => exec_csrr_of_none (readCsr_of_reserved h)⟩
  · exact exec_csrr_of_some (congrArg some (flagsWord_eq _ _ _ _ _ _))
  · exact exec_csrr_of_some (congrArg some s.rz.cfgWord_eq)

/-! ### The invariants at reset -/

theorem WindowsOk.reset (s : State) : WindowsOk s.resetUnits := fun _ =>
  ⟨fun h => Bool.noConfusion h, fun h => Bool.noConfusion h, fun h => Bool.noConfusion h⟩

/-- Settles O51: the reset state has an empty writer, a closed reader, a clear latch and the coder's initial interval. -/
theorem invariantsHoldAtReset : Obligations.InvariantsHoldAtReset :=
  ⟨Memory.wf_reset, by decide, LatchOk.clear, ConfigOk.reset State.reset, WindowsOk.reset State.reset,
    WriterOk.reset (by decide), fun h => Bool.noConfusion h, CoderOk.initial⟩

end Sys2Proof.Machine
end

section
/-!
O8: every reset gives the reset state and leaves the host's side; asserted during a command it leaves of the bytes handed to the
SINK port some first ones. For that, no rule takes back a byte it has handed on.
-/

namespace Sys2Proof.Machine

variable {σ α : Type}

/-! ### Bytes handed to the SINK port stay handed -/

/-- The SINK port has what it had, and perhaps more bytes after it (the list has the last one first). -/
def HandsOn (env : σ → Env) (s t : σ) : Prop := (env s).sink <:+ (env t).sink

theorem HandsOn.refl {env : σ → Env} (s : σ) : HandsOn env s s := List.suffix_refl _

theorem HandsOn.trans {env : σ → Env} (a b c : σ) (h : HandsOn env a b) (h' : HandsOn env b c) : HandsOn env a c :=
  List.IsSuffix.trans h h'

theorem HandsOn.of_eq {env : σ → Env} {s t : σ} (h : (env t).sink = (env s).sink) : HandsOn env s t :=
  ⟨[], h.symm⟩

theorem sinkPut_handsOn (b : Byte) : (sinkPut b).Keeps (HandsOn Prod.snd) := by
  rintro ⟨w, e⟩
  unfold Cmd.final
  rw [sinkPut_run]
  cases w.kind with
  | port =>
    rcases e.sinkAns with _ | ⟨x, r⟩
    · exact List.suffix_cons b e.sink
    · cases x
      · exact HandsOn.of_eq rfl
      · exact List.suffix_cons b e.sink
  | window =>
    by_cases hc : w.cap.toNat ≤ w.sent
    · simp only [hc, if_true]
      exact HandsOn.refl _
    · simp only [hc, if_false]
      cases e.access (w.base.toNat + w.sent) <;> exact HandsOn.of_eq rfl

theorem deliver_handsOn : ∀ l : List Byte, (deliver l).Keeps (HandsOn Prod.snd)
  | [] => Cmd.Keeps.pure HandsOn.refl _
  | b :: r => Cmd.Keeps.bind HandsOn.trans (sinkPut_handsOn b) fun _ => deliver_handsOn r

theorem spill_handsOn (bufsz : Nat) (value : Word) (len : Nat) : (spill bufsz value len).Keeps (HandsOn Prod.snd) :=
  Cmd.Keeps.bind HandsOn.trans (Cmd.Keeps.of_modify fun _ => HandsOn.of_eq rfl) fun _ =>
    Cmd.Keeps.bind HandsOn.trans (Cmd.Keeps.get HandsOn.refl) fun _ => Cmd.Keeps.ite
      (fun _ => Cmd.Keeps.bind HandsOn.trans (deliver_handsOn _) fun _ => Cmd.Keeps.of_modify fun _ => HandsOn.of_eq rfl)
      (fun _ => Cmd.Keeps.pure HandsOn.refl _)

theorem writeBits_handsOn (bufsz : Nat) (value : Word) (len : Nat) : (writeBits bufsz value len).Keeps (HandsOn Prod.snd) :=
  Cmd.Keeps.bind HandsOn.trans (Cmd.Keeps.get HandsOn.refl) fun _ => Cmd.Keeps.check_then HandsOn.refl fun _ =>
    Cmd.Keeps.check_then HandsOn.refl fun _ => spill_handsOn bufsz value len

theorem writeFields_handsOn (bufsz : Nat) : ∀ l : List (Word × Nat), (writeFields bufsz l).Keeps (HandsOn Prod.snd)
  | [] => Cmd.Keeps.pure HandsOn.refl _
  | f :: r => Cmd.Keeps.bind HandsOn.trans (writeBits_handsOn bufsz f.1 f.2) fun _ => writeFields_handsOn bufsz r

theorem closeWriter_handsOn : closeWriter.Keeps (HandsOn Prod.snd) :=
  Cmd.Keeps.bind HandsOn.trans (Cmd.Keeps.get HandsOn.refl) fun _ => Cmd.Keeps.check_then HandsOn.refl fun _ =>
    Cmd.Keeps.bind HandsOn.trans (Cmd.Keeps.of_modify fun _ => HandsOn.of_eq rfl) fun _ =>
      Cmd.Keeps.bind HandsOn.trans (deliver_handsOn _) fun _ =>
        Cmd.Keeps.bind HandsOn.trans (Cmd.Keeps.of_modify fun _ => HandsOn.of_eq rfl) fun _ => Cmd.Keeps.pure HandsOn.refl _

/-! ### The rules that use the writer -/

theorem onWriter_handsOn {x : Cmd (BitWriter × Env) α} (h : x.Keeps (HandsOn Prod.snd)) :
    (onWriter x).Keeps (HandsOn State.env) := h.zoom fun _ _ h => h

theorem onMem_handsOn {x : Cmd (Unit × Env) α} (h : x.Keeps (HandsOn Prod.snd)) : (onMem x).Keeps (HandsOn State.env) :=
  h.zoom fun _ _ h => h

theorem onPreds_handsOn (x : Cmd Preds α) : (onPreds x).Keeps (HandsOn State.env) :=
  (onPreds_keeps x).mono fun h => by
    rw [h]
    exact HandsOn.of_eq rfl

theorem setInterval_handsOn (iv : Interval) : (setInterval iv).Keeps (HandsOn State.env) :=
  Cmd.Keeps.of_modify fun _ => HandsOn.of_eq rfl

theorem renormEnc_handsOn : renormEnc.Keeps (HandsOn State.env) :=
  Cmd.Keeps.bind HandsOn.trans (Cmd.Keeps.get HandsOn.refl) fun _ => Cmd.Keeps.ite
    (fun _ => Cmd.Keeps.bind HandsOn.trans (onWriter_handsOn (writeBits_handsOn _ _ _)) fun _ => setInterval_handsOn _)
    (fun _ => Cmd.Keeps.pure HandsOn.refl _)

theorem encodeBit_handsOn (bit : Bool) : (encodeBit bit).Keeps (HandsOn State.env) :=
  Cmd.Keeps.reverting
    (Cmd.Keeps.bind HandsOn.trans (Cmd.Keeps.get HandsOn.refl) fun _ =>
      Cmd.Keeps.bind HandsOn.trans (onPreds_handsOn _) fun _ =>
        Cmd.Keeps.bind HandsOn.trans (setInterval_handsOn _) fun _ =>
          Cmd.Keeps.bind HandsOn.trans (onPreds_handsOn _) fun _ => renormEnc_handsOn)
    fun _ => HandsOn.of_eq rfl

theorem encodeBits_handsOn : ∀ l : List Bool, (encodeBits l).Keeps (HandsOn State.env)
  | [] => Cmd.Keeps.pure HandsOn.refl _
  | b :: r => Cmd.Keeps.bind HandsOn.trans (encodeBit_handsOn b) fun _ => encodeBits_handsOn r

theorem beEncDisposeBody_handsOn : beEncDisposeBody.Keeps (HandsOn State.env) :=
  Cmd.Keeps.bind HandsOn.trans (checkEncoder_keeps HandsOn.refl) fun _ =>
    Cmd.Keeps.bind HandsOn.trans (Cmd.Keeps.get HandsOn.refl) fun _ =>
      Cmd.Keeps.bind HandsOn.trans (onWriter_handsOn (writeBits_handsOn _ _ _)) fun _ =>
        Cmd.Keeps.bind HandsOn.trans (Cmd.Keeps.of_modify fun _ => HandsOn.of_eq rfl : releaseCoder.Keeps (HandsOn State.env)) fun _ =>
          Cmd.Keeps.pure HandsOn.refl _

theorem bwCloseBody_handsOn : bwCloseBody.Keeps (HandsOn State.env) :=
  Cmd.Keeps.bind HandsOn.trans (onWriter_handsOn closeWriter_handsOn) fun _ =>
    Cmd.Keeps.bind HandsOn.trans (Cmd.Keeps.of_modify fun _ => HandsOn.of_eq rfl) fun _ => Cmd.Keeps.pure HandsOn.refl _

theorem ansEncBody_handsOn (order : BitVec 8) (n off : BitVec 32) : (ansEncBody order n off).Keeps (HandsOn State.env) := by
  have hd : LetsDraw (HandsOn (Prod.snd : Unit × Env → Env)) := fun _ _ => HandsOn.of_eq rfl
  unfold ansEncBody
  refine Cmd.Keeps.check_then HandsOn.refl fun _ => Cmd.Keeps.bind HandsOn.trans (Cmd.Keeps.get HandsOn.refl) fun s => ?_
  refine Cmd.Keeps.check_then HandsOn.refl fun _ => Cmd.Keeps.check_then HandsOn.refl fun _ => ?_
  refine Cmd.Keeps.check_then HandsOn.refl fun _ => Cmd.Keeps.check_then HandsOn.refl fun _ => ?_
  refine Cmd.Keeps.ite (fun _ => Cmd.Keeps.pure HandsOn.refl _) fun _ => ?_
  refine Cmd.Keeps.bind HandsOn.trans (onWriter_handsOn (writeBits_handsOn _ _ _)) fun _ => ?_
  refine Cmd.Keeps.bind HandsOn.trans (onMem_handsOn (memReadBytes_keeps hd HandsOn.trans _ _)) fun _ => ?_
  refine Cmd.Keeps.bind HandsOn.trans (onWriter_handsOn (writeFields_handsOn _ _)) fun _ => ?_
  refine Cmd.Keeps.bind HandsOn.trans (onMem_handsOn (memReadDown_keeps hd HandsOn.trans _ _ _)) fun _ => ?_
  refine Cmd.Keeps.bind HandsOn.trans (Cmd.Keeps.get HandsOn.refl) fun _ => ?_
  refine Cmd.Keeps.bind HandsOn.trans (onWriter_handsOn (writeFields_handsOn _ _)) fun _ => ?_
  exact Cmd.Keeps.bind HandsOn.trans (Cmd.Keeps.get HandsOn.refl) fun _ => Cmd.Keeps.pure HandsOn.refl _

/-- A rule that does not use the writer hands on nothing. The states are taken apart to read the equations between host sides
field by field. -/
theorem Untouched.sink {i : Instr} {s t : State} (h : Untouched i s t) (hi : usesWriter i = false) :
    t.env.sink = s.env.sink := by
  obtain ⟨-, -, h⟩ := h
  obtain ⟨_, _, _, _, _, _, _, _, _, _, ⟨⟩, _⟩ := s
  obtain ⟨_, _, _, _, _, _, _, _, _, _, ⟨⟩, _⟩ := t
  cases i with
  | reset | bwOpen | bwBit | bwBits | bwClose | beEncBit | beEncBits | beEncDispose | ansEnc => cases hi
  | _ => simp_all [Env.OnlyRead]

/-- No rule takes back a byte it has handed on, however it ends. -/
theorem ruleOf_handsOn (i : Instr) : (ruleOf i).Keeps (HandsOn State.env) := by
  cases i with
  | reset => exact Cmd.Keeps.pure HandsOn.refl _
  | bwOpen kind =>
    refine (ruleOf_keeps (i := .bwOpen kind) (by simp)).mono fun h => ?_
    obtain ⟨-, -, -, -, -, -, -, -, -, -, henv⟩ := h.untouched
    exact HandsOn.of_eq (by rw [henv])
  | bwBit bit =>
    exact Cmd.Keeps.get_bind fun s => (onWriter_handsOn (writeBits_handsOn _ _ _)).bind_pure _ s
  | bwBits len v =>
    exact Cmd.Keeps.check_then HandsOn.refl fun _ => Cmd.Keeps.get_bind fun s =>
      (onWriter_handsOn (writeBits_handsOn _ _ _)).bind_pure _ s
  | bwClose => exact bwCloseBody_handsOn
  | beEncBit bit =>
    exact Cmd.Keeps.bind HandsOn.trans (checkEncoder_keeps HandsOn.refl) fun _ => (encodeBit_handsOn bit).bind_pure _
  | beEncBits n v =>
    exact Cmd.Keeps.check_then HandsOn.refl fun _ => Cmd.Keeps.bind HandsOn.trans (checkEncoder_keeps HandsOn.refl) fun _ =>
      (encodeBits_handsOn _).bind_pure _
  | beEncDispose => exact beEncDisposeBody_handsOn
  | ansEnc order n off => exact ansEncBody_handsOn order n off
  | _ => exact (ruleOf_keeps (by simp)).mono fun h => HandsOn.of_eq (h.untouched.sink rfl)

/-! ### A command abandoned -/

/-- What a rule that ends in `t` leaves of the host's side, of the inbox and of the parameters. -/
structure RuleHost (s t : State) : Prop where
  inbox : t.inbox = s.inbox
  par : t.par = s.par
  busErr : t.env.busErr = s.env.busErr
  raced : t.env.raced = s.env.raced
  sink : s.env.sink <:+ t.env.sink

theorem ruleOf_host (i : Instr) : (ruleOf i).Keeps RuleHost := by
  intro s
  have hsink := ruleOf_handsOn i s
  by_cases hi : i = .reset
  · subst hi
    exact ⟨rfl, rfl, rfl, rfl, hsink⟩
  · have hu := (ruleOf_keeps hi s).untouched
    obtain ⟨hbus, hraced, -⟩ := hu.env
    exact ⟨hu.inbox, hu.par, hbus, hraced, hsink⟩

/-- Of the bytes handed on, some first ones are left, at most `p.puts`. -/
theorem Env.cut_sink (p : Progress) {e e' : Env} (h : e.sink <:+ e'.sink) :
    ∃ l, (e.cut p e').sink = l ++ e.sink ∧ l.length ≤ p.puts ∧ (e.cut p e').sink <:+ e'.sink := by
  obtain ⟨put, hput⟩ := h
  have hcut : (e.cut p e').sink = e'.sink.drop (put.length - min p.puts put.length) := by
    unfold Env.cut
    simp only [← hput, List.length_append, Nat.add_sub_cancel]
  refine ⟨put.drop (put.length - min p.puts put.length), ?_, ?_, hcut ▸ List.drop_suffix _ _⟩
  · rw [hcut, ← hput, List.drop_append_of_le_length (Nat.sub_le _ _)]
  · rw [List.length_drop]
    omega

theorem ResetValues.resetUnits (s : State) : ResetValues s.resetUnits := by
  have hcfg : Rolz.reset.cfgWord = 0 := by decide
  refine ⟨rfl, rfl, rfl, rfl, rfl, rfl, rfl, rfl, rfl, rfl, rfl, rfl, ?_, ?_, rfl, rfl, hcfg, rfl, fun _ => rfl, fun _ => rfl⟩
  · exact fun k => congrArg ApmSlot.valid (Vector.getElem_replicate k.isLt)
  · exact fun i => congrArg PredSlot.kind (Vector.getElem_replicate i.isLt)

theorem HostSame.resetUnits (s : State) : HostSame s s.resetUnits := ⟨rfl, rfl, rfl, rfl⟩

/-- Outside the faulted state the pin abandons the rule where it ends, by a value or by an error. -/
theorem runAbandoned_of_rule {s t : State} {w : CmdWord} {i : Instr} (p : Progress) (hs : s.live) (hd : decode w = .ok i)
    (hr : (∃ v, ruleOf i s = .ok v t) ∨ ∃ e, ruleOf i s = .error (.raise e) t) :
    runAbandoned w p s = .next (abandon p s t) := by
  unfold runAbandoned
  rw [if_neg (by rw [hs]; exact Bool.false_ne_true), hd]
  rcases hr with ⟨v, hr⟩ | ⟨e, hr⟩ <;> simp only [hr]

theorem runAbandoned_faulted {s : State} (w : CmdWord) (p : Progress) (hs : s.latch.err = true) :
    runAbandoned w p s = .next (pinReset s) := if_pos hs

/-- Settles O8: every reset ends in `resetUnits`, after the host's side was cut where the rule had come to. -/
theorem resetGivesResetState : Obligations.ResetGivesResetState := by
  refine ⟨⟨ResetValues.resetUnits State.reset, rfl⟩,
    fun s => ⟨s.resetUnits, rfl, ResetValues.resetUnits s, rfl, HostSame.resetUnits s⟩,
    fun s rest hin => ⟨_, step_of_inbox hin, ResetValues.resetUnits _, rfl, rfl, HostSame.resetUnits _⟩,
    fun s w p rest hin hf => ?_, fun s i hs hi => ⟨spoilOf i, exec_eq_command hi hs⟩, fun s t w i p rest hin hs hd hr => ?_⟩
  · have hstep : step s = .next (pinReset (s.withInbox rest)) := by
      rw [step_of_inbox hin]
      exact runAbandoned_faulted w p hf
    exact ⟨_, hstep, ResetValues.resetUnits _, rfl, rfl, HostSame.resetUnits _⟩
  · have hstep : step s = .next (abandon p (s.withInbox rest) t) := by
      rw [step_of_inbox hin]
      exact runAbandoned_of_rule p hs hd hr
    have hhost : RuleHost (s.withInbox rest) t := by
      rcases hr with ⟨v, hr⟩ | ⟨e, hr⟩
      · exact (ruleOf_host i).of_ok hr
      · exact (ruleOf_host i).of_error hr
    refine ⟨_, hstep, ResetValues.resetUnits _, rfl, rfl, hhost.inbox, hhost.par, hhost.busErr, hhost.raced,
      fun a => Memory.read_cut _ _ _ a, ⟨_, rfl, Nat.min_le_left _ _, Nat.min_le_right _ _⟩, ?_, Env.cut_sink p hhost.sink⟩
    show (s.env.srcEnd || (t.env.srcEnd && decide (s.env.src.length - t.env.src.length < p.gets))) = true ↔ _
    rw [Bool.or_eq_true, Bool.and_eq_true, decide_eq_true_eq]

end Sys2Proof.Machine
end

section
/-!
O52, O53: which bytes of MEM a rule and the execution of a command may store to, and MEM's canonical form at every step.
-/

namespace Sys2Proof.Machine

variable {σ α β : Type} {i : Instr}

/-! ### A decoded run is as long as it was asked for -/

theorem ansSymbols_length {rb : Nat → Cmd σ Word} {order1 : Bool} {lr : Nat} {tables : List (Option (List Nat))} :
    ∀ {k x prev : Nat} {s t : σ} {l : List Byte}, ansSymbols rb order1 lr tables k x prev s = .ok l t → l.length = k
  | 0, _, _, _, _, _, h => by
    unfold ansSymbols at h
    obtain ⟨_, _, -, h⟩ := Cmd.bind_eq_ok.mp h
    cases h
    rfl
  | k + 1, _, prev, _, _, _, h => by
    unfold ansSymbols at h
    cases hf : tables.getD (if order1 then prev else 0) none with
    | none =>
      rw [hf] at h
      cases h
    | some f =>
      rw [hf] at h
      obtain ⟨_, _, -, h⟩ := Cmd.bind_eq_ok.mp h
      obtain ⟨r, _, hr, h⟩ := Cmd.bind_eq_ok.mp h
      cases h
      rw [List.length_cons, ansSymbols_length hr]

/-- `AnsDecode` answers exactly the `n` bytes it was asked for (44_ans.md R268). -/
theorem ansDecode_length {rb : Nat → Cmd σ Word} {order1 : Bool} {n : Nat} {s t : σ} {l : List Byte}
    (h : ansDecode rb order1 n s = .ok l t) : l.length = n := by
  have hend : ∀ {tables : List (Option (List Nat))} {lr : Nat} {u : σ}, (do
      let x ← rb 32
      checkMid (decide (x.toNat < Config.ansL) || decide (256 * Config.ansL ≤ x.toNat)) .invalidData 3
      ansSymbols rb order1 lr tables n x.toNat 0 : Cmd σ (List Byte)) u = .ok l t → l.length = n := by
    intro tables lr u h
    obtain ⟨_, _, -, h⟩ := Cmd.bind_eq_ok.mp h
    obtain ⟨_, _, -, h⟩ := Cmd.bind_eq_ok.mp h
    exact ansSymbols_length h
  unfold ansDecode at h
  split_ifs at h with hn
  · cases h
    exact hn.symm
  · obtain ⟨_, _, -, h⟩ := Cmd.bind_eq_ok.mp h
    obtain ⟨_, _, -, h⟩ := Cmd.bind_eq_ok.mp (midway_eq_ok.mp h)
    split_ifs at h
    · obtain ⟨_, _, -, h⟩ := Cmd.bind_eq_ok.mp h
      exact hend h
    · obtain ⟨_, _, -, h⟩ := Cmd.bind_eq_ok.mp h
      exact hend h

/-! ### The rules that store through the writer -/

/-- The frame of a rule over the writer: what the writer is bound to stays, and only bytes of its window change. -/
structure SinkFrame (s t : State) : Prop where
  kind : t.bw.kind = s.bw.kind
  base : t.bw.base = s.bw.base
  cap : t.bw.cap = s.bw.cap
  mem : Memory.Within s.bw.stores s.env.mem t.env.mem

theorem SinkFrame.stores_eq {s t : State} (h : SinkFrame s t) : t.bw.stores = s.bw.stores := by
  funext a
  unfold BitWriter.stores
  rw [h.kind, h.base, h.cap]

theorem SinkFrame.refl (s : State) : SinkFrame s s := ⟨rfl, rfl, rfl, Memory.Within.refl _⟩

theorem SinkFrame.trans (a b c : State) (h : SinkFrame a b) (h' : SinkFrame b c) : SinkFrame a c :=
  ⟨h'.kind.trans h.kind, h'.base.trans h.base, h'.cap.trans h.cap, h.mem.trans (h.stores_eq ▸ h'.mem)⟩

theorem SinkFrame.of_writer {s t : State} (h : WriterFrame (s.bw, s.env) (t.bw, t.env)) : SinkFrame s t :=
  ⟨h.kind, h.base, h.cap, h.mem⟩

theorem onWriter_sinkFrame {x : Cmd (BitWriter × Env) α} (h : x.Keeps WriterFrame) : (onWriter x).Keeps SinkFrame :=
  (onWriter_keeps h).mono fun h => SinkFrame.of_writer h.1

theorem onMem_sinkFrame {x : Cmd (Unit × Env) α} (h : x.Keeps fun t u => u.2.mem = t.2.mem) : (onMem x).Keeps SinkFrame :=
  h.zoom fun _ _ h => ⟨rfl, rfl, rfl, by rw [State.withEnv_env, h]; exact Memory.Within.refl _⟩

theorem bwBitBody_sinkFrame (bit : Bool) : (bwBitBody bit).Keeps SinkFrame :=
  Cmd.Keeps.get_bind fun s => (onWriter_sinkFrame (writeBits_keeps _ _ _)).bind_pure _ s

theorem bwBitsBody_sinkFrame (len : BitVec 8) (v : Word) : (bwBitsBody len v).Keeps SinkFrame :=
  Cmd.Keeps.check_then SinkFrame.refl fun _ =>
    Cmd.Keeps.get_bind fun s => (onWriter_sinkFrame (writeBits_keeps _ _ _)).bind_pure _ s

theorem bwCloseBody_sinkFrame : bwCloseBody.Keeps SinkFrame :=
  Cmd.Keeps.bind SinkFrame.trans (onWriter_sinkFrame closeWriter_keeps) fun n =>
    Cmd.Keeps.bind_pure (Cmd.Keeps.of_modify fun _ => ⟨rfl, rfl, rfl, Memory.Within.refl _⟩) fun _ => n

theorem beEncBitBody_sinkFrame (bit : Bool) : (beEncBitBody bit).Keeps SinkFrame :=
  Cmd.Keeps.bind SinkFrame.trans (checkEncoder_keeps SinkFrame.refl) fun _ =>
    ((encodeBit_keeps bit).mono fun h => SinkFrame.of_writer h.1).bind_pure _

theorem beEncBitsBody_sinkFrame (n : BitVec 8) (v : Word) : (beEncBitsBody n v).Keeps SinkFrame :=
  Cmd.Keeps.check_then SinkFrame.refl fun _ =>
    Cmd.Keeps.bind SinkFrame.trans (checkEncoder_keeps SinkFrame.refl) fun _ =>
      ((encodeBits_keeps _).mono fun h => SinkFrame.of_writer h.1).bind_pure _

theorem beEncDisposeBody_sinkFrame : beEncDisposeBody.Keeps SinkFrame :=
  Cmd.Keeps.bind SinkFrame.trans (checkEncoder_keeps SinkFrame.refl) fun _ =>
    Cmd.Keeps.bind SinkFrame.trans (Cmd.Keeps.get SinkFrame.refl) fun _ =>
      Cmd.Keeps.bind SinkFrame.trans (onWriter_sinkFrame (writeBits_keeps _ _ _)) fun _ =>
        Cmd.Keeps.bind_pure (x := releaseCoder)
          (Cmd.Keeps.of_modify fun _ => ⟨rfl, rfl, rfl, Memory.Within.refl _⟩) fun _ => 0

theorem ansEncBody_sinkFrame (order : BitVec 8) (n off : BitVec 32) : (ansEncBody order n off).Keeps SinkFrame := by
  have hd : LetsDraw fun t u : Unit × Env => u.2.mem = t.2.mem := fun _ _ => rfl
  have ht : ∀ a b c : Unit × Env, b.2.mem = a.2.mem → c.2.mem = b.2.mem → c.2.mem = a.2.mem :=
    fun _ _ _ h h' => h'.trans h
  unfold ansEncBody
  refine Cmd.Keeps.check_then SinkFrame.refl fun _ => Cmd.Keeps.bind SinkFrame.trans (Cmd.Keeps.get SinkFrame.refl) fun s => ?_
  refine Cmd.Keeps.check_then SinkFrame.refl fun _ => Cmd.Keeps.check_then SinkFrame.refl fun _ => ?_
  refine Cmd.Keeps.check_then SinkFrame.refl fun _ => Cmd.Keeps.check_then SinkFrame.refl fun _ => ?_
  refine Cmd.Keeps.ite (fun _ => Cmd.Keeps.pure SinkFrame.refl _) fun _ => ?_
  refine Cmd.Keeps.bind SinkFrame.trans (onWriter_sinkFrame (writeBits_keeps _ _ _)) fun _ => ?_
  refine Cmd.Keeps.bind SinkFrame.trans (onMem_sinkFrame (memReadBytes_keeps hd ht _ _)) fun _ => ?_
  refine Cmd.Keeps.bind SinkFrame.trans (onWriter_sinkFrame (writeFields_keeps _ _)) fun _ => ?_
  refine Cmd.Keeps.bind SinkFrame.trans (onMem_sinkFrame (memReadDown_keeps hd ht _ _ _)) fun _ => ?_
  refine Cmd.Keeps.bind SinkFrame.trans (Cmd.Keeps.get SinkFrame.refl) fun _ => ?_
  exact Cmd.Keeps.bind SinkFrame.trans (onWriter_sinkFrame (writeFields_keeps _ _)) fun _ =>
    (Cmd.Keeps.get SinkFrame.refl).bind_pure _

/-! ### The rules that store to the DST window -/

/-- From one state to another MEM changes within `P` only. -/
def State.Within (P : Nat → Prop) (s t : State) : Prop := Memory.Within P s.env.mem t.env.mem

variable {P : Nat → Prop}

theorem State.Within.refl (s : State) : State.Within P s s := Memory.Within.refl _

theorem State.Within.trans (a b c : State) (h : State.Within P a b) (h' : State.Within P b c) : State.Within P a c :=
  Memory.Within.trans h h'

/-- What reads the stream stores nothing. -/
theorem onReader_within {x : Cmd (BitReader × Env) α} (h : x.Keeps ReaderFrame) : (onReader x).Keeps (State.Within P) :=
  h.zoom fun s t h => by
    obtain ⟨he, -⟩ := h.env
    unfold State.Within
    rw [State.withEnv_env, he]
    exact Memory.Within.refl _

/-- `ANS_DEC` stores the bytes it has decoded, which its check has found to fit. -/
theorem ansDecBody_within (order : BitVec 8) (n off : BitVec 32) :
    (ansDecBody order n off).Keeps fun s t => State.Within s.win.dst s t := by
  refine Cmd.Keeps.check_then (fun _ => State.Within.refl _) fun _ => Cmd.Keeps.get_bind fun s => ?_
  refine (Cmd.Keeps.check_then State.Within.refl fun _ => Cmd.Keeps.check_then State.Within.refl fun hcap =>
    Cmd.Keeps.check_then State.Within.refl fun _ => Cmd.Keeps.check_then State.Within.refl fun _ u => ?_ :
    Cmd.Keeps (State.Within s.win.dst) _) s
  rw [decide_eq_false_iff_not, Nat.not_lt] at hcap
  refine Cmd.Keeps.at_bind State.Within.trans
    (onReader_within (ansDecode_keeps ReaderFrame.refl ReaderFrame.trans (readBits_keeps _) _ _) u) fun d v hd => ?_
  obtain ⟨_, hd, -⟩ := zoom_eq_ok.mp hd
  have hlen : d.length = n.toNat := ansDecode_length hd
  have hstore : (onMem (memWriteBytes (s.win.dstBase.toNat + off.toNat) d)).Keeps (State.Within s.win.dst) :=
    (memWriteBytes_keeps (P := s.win.dst) d fun c h1 h2 => ⟨by omega, by omega⟩).zoom fun _ _ h => h.2
  exact Cmd.Keeps.bind State.Within.trans hstore.midway (fun _ => (Cmd.Keeps.get State.Within.refl).bind_pure _) v

/-- A piece of a block command, seen from the whole state. -/
theorem onRolz_within {x : Cmd (Rolz × Env) α} (h : x.Keeps (BlockFrame P)) : (onRolz x).Keeps (State.Within P) :=
  h.zoom fun _ _ h => h.env.2

/-- The rest of a block command runs on a DST window that fits MEM. -/
theorem Cmd.Keeps.after_checkBlock {R : State → State → Prop} (hr : ∀ s, R s s) {s : State} {x : Cmd State α}
    (hx : windowFits s.win.dstBase s.win.dstCap = true → x.Keeps R) : (checkBlock s >>= fun _ => x).Keeps R := by
  intro t
  unfold Cmd.final
  rcases checkBlock_run s t with ⟨e, h⟩ | ⟨h, hfit⟩
  · rw [Cmd.bind_of_error _ h]
    exact hr t
  · rw [Cmd.bind_of_ok _ h]
    exact hx hfit t

theorem rzFwdBody_within : rzFwdBody.Keeps fun s t => State.Within s.win.dst s t :=
  Cmd.Keeps.get_bind fun s => Cmd.Keeps.after_checkBlock State.Within.refl
    (fun _ => Cmd.Keeps.check_then State.Within.refl fun _ => onRolz_within (encodeBlock_keeps _)) s

theorem rzInvBody_within : rzInvBody.Keeps fun s t => State.Within s.win.dst s t :=
  Cmd.Keeps.get_bind fun s => Cmd.Keeps.after_checkBlock State.Within.refl
    (fun hfit => onRolz_within (decodeBlock_keeps hfit)) s

/-! ### Every rule -/

/-- The commands that may store to MEM. -/
def storesMem : Instr → Bool
  | .bwBit _ | .bwBits _ _ | .bwClose | .beEncBit _ | .beEncBits _ _ | .beEncDispose | .ansEnc _ _ _ | .ansDec _ _ _
  | .rzFwd | .rzInv => true
  | _ => false

/-- A command that stores nothing leaves MEM. The states are taken apart to read the equations between host sides field by
field. -/
theorem Untouched.mem {s t : State} (h : Untouched i s t) (hi : storesMem i = false) : t.env.mem = s.env.mem := by
  obtain ⟨-, -, h⟩ := h
  obtain ⟨_, _, _, _, _, _, _, _, _, _, ⟨⟩, _⟩ := s
  obtain ⟨_, _, _, _, _, _, _, _, _, _, ⟨⟩, _⟩ := t
  cases i with
  | bwBit | bwBits | bwClose | beEncBit | beEncBits | beEncDispose | ansEnc | ansDec | rzFwd | rzInv => cases hi
  | _ => simp_all [Env.OnlyRead]

theorem storesTo_of_not (hi : storesMem i = false) (s : State) : storesTo i s = fun _ => False := by
  cases i with
  | bwBit | bwBits | bwClose | beEncBit | beEncBits | beEncDispose | ansEnc | ansDec | rzFwd | rzInv => cases hi
  | _ => rfl

/-- A command's stores: MEM changes only where the command may store, which is the same before and after. -/
structure StoreFrame (i : Instr) (s t : State) : Prop where
  window : storesTo i t = storesTo i s
  mem : State.Within (storesTo i s) s t

/-- The commands that store through the writer. -/
theorem SinkFrame.storeFrame {s t : State} (h : SinkFrame s t) (hs : ∀ u, storesTo i u = u.bw.stores) : StoreFrame i s t :=
  ⟨by rw [hs, hs, h.stores_eq], hs s ▸ h.mem⟩

/-- The commands that store to the DST window, which they do not move. -/
theorem StoreFrame.of_dst {s t : State} (h : State.Within s.win.dst s t) (hwin : t.win = s.win)
    (hs : ∀ u, storesTo i u = u.win.dst) : StoreFrame i s t :=
  ⟨by rw [hs, hs, hwin], hs s ▸ h⟩

theorem Untouched.win {s t : State} (h : Untouched i s t) (hi : storesMem i = true) : t.win = s.win := by
  cases i with
  | bwBit | bwBits | bwClose | beEncBit | beEncBits | beEncDispose | ansEnc | ansDec | rzFwd | rzInv =>
    simp only [Untouched] at h
    simp only [h]
  | _ => cases hi

/-- However the rule of a command ends, only bytes where the command may store have changed. -/
theorem ruleOf_stores (i : Instr) : (ruleOf i).Keeps (StoreFrame i) := by
  cases hi : storesMem i with
  | false =>
    have hnone := storesTo_of_not hi
    by_cases hreset : i = .reset
    · subst hreset
      exact fun s => ⟨rfl, State.Within.refl s⟩
    · refine (ruleOf_keeps hreset).mono fun {s t} h => ⟨by rw [hnone, hnone], ?_⟩
      unfold State.Within
      rw [h.untouched.mem hi]
      exact Memory.Within.refl _
  | true =>
    cases i with
    | bwBit bit => exact (bwBitBody_sinkFrame bit).mono fun h => h.storeFrame fun _ => rfl
    | bwBits len v => exact (bwBitsBody_sinkFrame len v).mono fun h => h.storeFrame fun _ => rfl
    | bwClose => exact bwCloseBody_sinkFrame.mono fun h => h.storeFrame fun _ => rfl
    | beEncBit bit => exact (beEncBitBody_sinkFrame bit).mono fun h => h.storeFrame fun _ => rfl
    | beEncBits n v => exact (beEncBitsBody_sinkFrame n v).mono fun h => h.storeFrame fun _ => rfl
    | beEncDispose => exact beEncDisposeBody_sinkFrame.mono fun h => h.storeFrame fun _ => rfl
    | ansEnc order n off => exact (ansEncBody_sinkFrame order n off).mono fun h => h.storeFrame fun _ => rfl
    | ansDec order n off =>
      exact fun s => StoreFrame.of_dst (ansDecBody_within order n off s)
        ((ruleOf_keeps (i := .ansDec order n off) (by simp) s).untouched.win rfl) fun _ => rfl
    | rzFwd =>
      exact fun s => StoreFrame.of_dst (rzFwdBody_within s)
        ((ruleOf_keeps (i := .rzFwd) (by simp) s).untouched.win rfl) fun _ => rfl
    | rzInv =>
      exact fun s => StoreFrame.of_dst (rzInvBody_within s)
        ((ruleOf_keeps (i := .rzInv) (by simp) s).untouched.win rfl) fun _ => rfl
    | _ => cases hi

/-! ### What an error in the middle of a command spoils, and every command -/

theorem State.spoilWriter_within (s : State) : State.Within s.bw.stores s s.spoilWriter := by
  unfold State.spoilWriter
  cases hk : s.bw.kind with
  | port => exact State.Within.refl s
  | window => exact (State.spoilWindow_env s.bw.base s.bw.cap s).2.mono fun a ha => ⟨hk, ha⟩

/-- The bytes an error leaves unspecified are those the command may store to (60_exceptions.md R398). -/
theorem spoilOf_within (i : Instr) (s : State) : State.Within (storesTo i s) s (spoilOf i s) := by
  cases i with
  | bwBit | bwBits | bwClose | ansEnc => exact s.spoilWriter_within
  | beEncDispose => exact (s.withBe (Config.unspecCoder s.draws)).spoilWriter_within
  | beEncBit | beEncBits =>
    have h := s.spoilCoder.spoilWriter_within
    obtain ⟨p, a, hp⟩ := s.spoilPredictor_eq s.be.pslot
    have hcoder : s.spoilCoder.bw = s.bw ∧ s.spoilCoder.env = s.env := by
      unfold State.spoilCoder
      rw [hp]
      exact ⟨rfl, rfl⟩
    unfold State.Within at h
    rw [hcoder.1, hcoder.2] at h
    exact h
  | beDecBit | beDecBits =>
    obtain ⟨p, a, hp⟩ := s.spoilPredictor_eq s.be.pslot
    show State.Within _ s s.spoilDecoder
    rw [State.spoilDecoder, State.spoilCoder, hp]
    exact State.Within.refl s
  | ansDec | rzFwd | rzInv => exact (State.spoilWindow_env s.win.dstBase s.win.dstCap s).2
  | _ => exact State.Within.refl s

/-- Whatever command runs and however it ends, MEM changes only where the command may store. -/
theorem exec_within {s t : State} (h : exec i s = .next t) : State.Within (storesTo i s) s t := by
  by_cases hi : i = .reset
  · subst hi
    cases h
    exact State.Within.refl s
  by_cases hs : s.live
  · rw [exec_eq_command hi hs] at h
    rcases command_cases h with ⟨-, hr⟩ | ⟨-, v, u, hb, hr⟩ | ⟨-, e, u, hb, hr⟩ | ⟨-, f, u, -, hr⟩ <;> cases hr
    · exact State.Within.refl s
    · exact ((ruleOf_stores i).of_ok hb).mem
    · have hu := (ruleOf_stores i).of_error hb
      cases e.mid with
      | true => exact State.Within.trans s u _ hu.mem (hu.window ▸ spoilOf_within i u)
      | false => exact hu.mem
  · rw [Bool.not_eq_false] at hs
    rcases exec_faulted hi hs with hx | ⟨v, hx⟩ <;> rw [hx] at h <;> cases h <;> exact State.Within.refl s

/-- Settles O53: a rule stores, and an error spoils, only where the command may store. -/
theorem commandsStoreOnlyInTheirWindow : Obligations.CommandsStoreOnlyInTheirWindow := by
  intro i s t h a hne
  by_contra ha
  exact hne ((exec_within h).2 a ha)

/-! ### MEM's canonical form -/

theorem runWord_wf {w : CmdWord} {s t : State} (hs : Memory.wf s.env.mem = true) (h : runWord w s = .next t) :
    Memory.wf t.env.mem = true := by
  cases hd : decode w with
  | ok i =>
    rw [runWord_of_ok hd] at h
    exact (exec_within h).1 hs
  | error e =>
    rw [runWord_of_error hd] at h
    unfold runIllegal at h
    split_ifs at h <;> cases h <;> exact hs

/-- What the pin leaves in MEM of a command it abandons is in canonical form. -/
theorem runAbandoned_wf {w : CmdWord} {p : Progress} {s t : State} (hs : Memory.wf s.env.mem = true)
    (h : runAbandoned w p s = .next t) : Memory.wf t.env.mem = true := by
  rcases runAbandoned_cases h with rfl | ⟨i, u, -, -, rfl, rfl⟩
  · exact hs
  · exact Memory.wf_cut p.below hs ((ruleOf_stores i s).mem.1 hs)

/-- Settles O52, by what the host presents: every store of a command, of an error and of the host is to an address of MEM. -/
theorem stepKeepsMemoryCanonical : Obligations.StepKeepsMemoryCanonical := by
  intro s t hs h
  cases hin : s.inbox with
  | nil =>
    rw [step_idle hin] at h
    cases h
    exact hs
  | cons x rest =>
    rw [step_of_inbox hin] at h
    have hs : Memory.wf (s.withInbox rest).env.mem = true := hs
    cases x with
    | command w => exact runWord_wf hs h
    | rstDuring w p => exact runAbandoned_wf hs h
    | memWrite a b =>
      cases h
      exact Memory.wf_write a.toNat b hs a.isLt
    | rstPin | ports =>
      cases h
      exact hs

end Sys2Proof.Machine
end

section
/-!
O60, the pieces: a piece of a rule is safe when it makes no access outside MEM; and what it leaves when it answers a value. First
the rules of that judgement, then the accesses to MEM, the bit reader, the bit writer and the decoding of an ANS run.
-/

namespace Sys2Proof.Machine

variable {σ τ α β : Type}

/-! ### Safe pieces -/

/-- Run from `s`, the piece does not end in a fault, and a value it answers, with the state it leaves, satisfies `Q`. -/
def Cmd.Safe (x : Cmd σ α) (s : σ) (Q : α → σ → Prop) : Prop :=
  match x s with
  | .ok a t => Q a t
  | .error e _ => ∃ r, e = .raise r

variable {Q : α → σ → Prop} {s : σ} {x : Cmd σ α}

theorem Cmd.Safe.of_ok (h : x.Safe s Q) {a : α} {t : σ} (hx : x s = .ok a t) : Q a t := by
  unfold Cmd.Safe at h
  rwa [hx] at h

theorem Cmd.Safe.of_error (h : x.Safe s Q) {e : Abort} {t : σ} (hx : x s = .error e t) : ∃ r, e = .raise r := by
  unfold Cmd.Safe at h
  rwa [hx] at h

theorem Cmd.Safe.intro (hok : ∀ a t, x s = .ok a t → Q a t) (herr : ∀ e t, x s = .error e t → ∃ r, e = .raise r) :
    x.Safe s Q := by
  unfold Cmd.Safe
  cases h : x s with
  | ok a t => exact hok a t h
  | error e t => exact herr e t h

/-- What is known of every value answered may be added, and the rest weakened. -/
theorem Cmd.Safe.imp {Q' : α → σ → Prop} (h : x.Safe s Q) (hq : ∀ a t, x s = .ok a t → Q a t → Q' a t) : x.Safe s Q' :=
  Cmd.Safe.intro (fun a t hx => hq a t hx (h.of_ok hx)) fun _ _ hx => h.of_error hx

/-- A safe piece keeps its frame. -/
theorem Cmd.Safe.keeps {R : σ → σ → Prop} (h : x.Safe s Q) (hk : x.Keeps R) : x.Safe s fun _ t => R s t :=
  h.imp fun _ _ hx _ => hk.of_ok hx

theorem Cmd.Safe.pure {a : α} (h : Q a s) : (Pure.pure a : Cmd σ α).Safe s Q := h

theorem Cmd.Safe.raise (k : ErrKind) (b : Byte) (d : Nat) : (Machine.raise k b d : Cmd σ α).Safe s Q := ⟨_, rfl⟩

theorem Cmd.Safe.raiseMid (k : ErrKind) (b : Byte) (d : Nat) : (Machine.raiseMid k b d : Cmd σ α).Safe s Q := ⟨_, rfl⟩

theorem Cmd.Safe.bind {f : α → Cmd σ β} {Q' : β → σ → Prop} (hx : x.Safe s Q) (hf : ∀ a t, Q a t → (f a).Safe t Q') :
    (x >>= f).Safe s Q' := by
  refine Cmd.Safe.intro (fun b u h => ?_) (fun e u h => ?_)
  · obtain ⟨a, t, h1, h2⟩ := Cmd.bind_eq_ok.mp h
    exact (hf a t (hx.of_ok h1)).of_ok h2
  · rcases Cmd.bind_eq_error.mp h with h1 | ⟨a, t, h1, h2⟩
    · exact hx.of_error h1
    · exact (hf a t (hx.of_ok h1)).of_error h2

theorem Cmd.Safe.get_bind {f : σ → Cmd σ α} (h : (f s).Safe s Q) : (MonadState.get >>= f : Cmd σ α).Safe s Q := h

theorem Cmd.Safe.set_bind {t : σ} {f : PUnit → Cmd σ α} (h : (f ⟨⟩).Safe t Q) : (set t >>= f : Cmd σ α).Safe s Q := h

theorem Cmd.Safe.modify_bind {g : σ → σ} {f : PUnit → Cmd σ α} (h : (f ⟨⟩).Safe (g s) Q) :
    (modify g >>= f : Cmd σ α).Safe s Q := h

theorem Cmd.Safe.modify {g : σ → σ} {Q : PUnit → σ → Prop} (h : Q ⟨⟩ (g s)) : (modify g : Cmd σ PUnit).Safe s Q := h

/-- The rest of a rule after a check may use that the check passed. -/
theorem Cmd.Safe.check_then {c : Bool} {k : ErrKind} {b : Byte} {d : Nat} {f : Unit → Cmd σ α}
    (h : c = false → (f ()).Safe s Q) : (check c k b d >>= f).Safe s Q := by
  cases c with
  | true => exact ⟨_, rfl⟩
  | false => exact h rfl

theorem Cmd.Safe.checkMid_then {c : Bool} {k : ErrKind} {b : Byte} {d : Nat} {f : Unit → Cmd σ α}
    (h : c = false → (f ()).Safe s Q) : (checkMid c k b d >>= f).Safe s Q := by
  cases c with
  | true => exact ⟨_, rfl⟩
  | false => exact h rfl

theorem Cmd.Safe.check {c : Bool} {k : ErrKind} {b : Byte} {d : Nat} {Q : Unit → σ → Prop} (h : c = false → Q () s) :
    (Machine.check c k b d : Cmd σ Unit).Safe s Q := by
  cases c with
  | true => exact ⟨_, rfl⟩
  | false => exact h rfl

theorem Cmd.Safe.checkMid {c : Bool} {k : ErrKind} {b : Byte} {d : Nat} {Q : Unit → σ → Prop} (h : c = false → Q () s) :
    (Machine.checkMid c k b d : Cmd σ Unit).Safe s Q := by
  cases c with
  | true => exact ⟨_, rfl⟩
  | false => exact h rfl

theorem Cmd.Safe.ite {c : Prop} [Decidable c] {y : Cmd σ α} (hx : c → x.Safe s Q) (hy : ¬c → y.Safe s Q) :
    (if c then x else y).Safe s Q := by
  split
  · exact hx ‹_›
  · exact hy ‹_›

theorem Cmd.Safe.midway (h : x.Safe s Q) : (Machine.midway x).Safe s Q := by
  refine Cmd.Safe.intro (fun a t hx => h.of_ok (midway_eq_ok.mp hx)) (fun e t hx => ?_)
  obtain ⟨e0, h0, rfl⟩ := midway_eq_error.mp hx
  obtain ⟨r, rfl⟩ := h.of_error h0
  exact ⟨_, rfl⟩

theorem Cmd.Safe.reverting {f : σ → σ} (h : x.Safe s Q) : (Machine.reverting f x).Safe s Q := by
  refine Cmd.Safe.intro (fun a t hx => h.of_ok (reverting_eq_ok.mp hx)) (fun e t hx => ?_)
  obtain ⟨u, hu, -⟩ := reverting_eq_error.mp hx
  exact h.of_error hu

theorem Cmd.Safe.zoom {part : σ → τ} {put : τ → σ → σ} {x : Cmd τ α} (h : x.Safe (part s) fun a t => Q a (put t s)) :
    (Machine.zoom part put x).Safe s Q := by
  refine Cmd.Safe.intro (fun a u hx => ?_) (fun e u hx => ?_)
  · obtain ⟨t, h1, rfl⟩ := zoom_eq_ok.mp hx
    exact h.of_ok h1
  · obtain ⟨t, h1, -⟩ := zoom_eq_error.mp hx
    exact h.of_error h1

/-! ### The accesses to MEM -/

section

variable {U : Type}

/-- After a piece that leaves the part of the state it is over, only the host's side is another. -/
theorem Cmd.Safe.bind_same {x : Cmd (U × Env) α} {f : α → Cmd (U × Env) β} {u : U} {e : Env} {Q : β → U × Env → Prop}
    (hx : x.Safe (u, e) fun _ t => t.1 = u) (hf : ∀ a e, (f a).Safe (u, e) Q) : (x >>= f).Safe (u, e) Q :=
  hx.bind fun a t ht => by
    obtain ⟨v, e⟩ := t
    subst ht
    exact hf a e

/-- The same for a piece whose value is known something of. -/
theorem Cmd.Safe.bind_same_and {x : Cmd (U × Env) α} {f : α → Cmd (U × Env) β} {u : U} {e : Env} {R : α → Prop}
    {Q : β → U × Env → Prop} (hx : x.Safe (u, e) fun a t => t.1 = u ∧ R a) (hf : ∀ a e, R a → (f a).Safe (u, e) Q) :
    (x >>= f).Safe (u, e) Q :=
  hx.bind fun a t ⟨ht, ha⟩ => by
    obtain ⟨v, e⟩ := t
    subst ht
    exact hf a e ha

/-- An access to an address of MEM is no fault. -/
theorem Env.access_raises {e : Env} {a : Nat} {x : Abort} (ha : a < 2 ^ 32) (h : e.access a = .error x) :
    ∃ r, x = .raise r := by
  unfold Env.access Config.memSize at h
  split_ifs at h with hm
  · omega
  · cases h
    exact ⟨_, rfl⟩

theorem memRead_safe {a : Nat} {u : U} {e : Env} (ha : a < 2 ^ 32) : (memRead a).Safe (u, e) fun _ t => t.1 = u :=
  Cmd.Safe.intro
    (fun _ _ h => by obtain ⟨-, ⟨-, -, rfl⟩ | ⟨-, -, rfl⟩⟩ := memRead_eq_ok.mp h <;> rfl)
    (fun _ _ h => Env.access_raises ha (memRead_eq_error.mp h).1)

theorem memWrite_safe {a : Nat} (v : Byte) {u : U} {e : Env} (ha : a < 2 ^ 32) :
    (memWrite a v).Safe (u, e) fun _ t => t.1 = u :=
  Cmd.Safe.intro (fun _ _ h => by obtain ⟨-, rfl⟩ := memWrite_eq_ok.mp h; rfl)
    (fun _ _ h => Env.access_raises ha (memWrite_eq_error.mp h).1)

theorem memReadBytes_safe : ∀ {n a : Nat} {u : U} {e : Env}, a + n ≤ 2 ^ 32 →
    (memReadBytes a n).Safe (u, e) fun _ t => t.1 = u
  | 0, _, _, _, _ => rfl
  | n + 1, a, _, _, h => (memRead_safe (by omega)).bind_same fun _ _ =>
      (memReadBytes_safe (by omega)).bind_same fun _ _ => rfl

theorem memReadDown_safe {a : Nat} : ∀ {n : Nat} {after : List Byte} {u : U} {e : Env}, a + n ≤ 2 ^ 32 →
    (memReadDown a n after).Safe (u, e) fun _ t => t.1 = u
  | 0, _, _, _, _ => rfl
  | n + 1, _, _, _, h => (memRead_safe (by omega)).bind_same fun _ _ => memReadDown_safe (by omega)

theorem memWriteBytes_safe : ∀ {l : List Byte} {a : Nat} {u : U} {e : Env}, a + l.length ≤ 2 ^ 32 →
    (memWriteBytes a l).Safe (u, e) fun _ t => t.1 = u
  | [], _, _, _, _ => rfl
  | b :: r, a, _, _, h => by
    rw [List.length_cons] at h
    exact (memWrite_safe b (by omega)).bind_same fun _ _ => memWriteBytes_safe (by omega)

theorem memReadBE4_safe {a : Nat} {u : U} {e : Env} (ha : a + 4 ≤ 2 ^ 32) :
    (memReadBE4 a).Safe (u, e) fun _ t => t.1 = u :=
  (memRead_safe (by omega)).bind_same fun _ _ => (memRead_safe (by omega)).bind_same fun _ _ =>
    (memRead_safe (by omega)).bind_same fun _ _ => (memRead_safe (by omega)).bind_same fun _ _ => rfl

end

/-! ### The bit reader -/

/-- The window an open reader has latched lies in the address space. -/
def BitReader.WindowOk (r : BitReader) : Prop := r.isOpen = true → r.kind = .window → fits r.base r.len

section

variable {t : BitReader × Env}

/-- What keeps the frame of the reader keeps its window. -/
theorem ReaderFrame.windowOk {u : BitReader × Env} (h : ReaderFrame t u) (ht : t.1.WindowOk) : u.1.WindowOk := by
  unfold BitReader.WindowOk
  rw [h.isOpen, h.kind, h.base, h.len]
  exact ht

theorem srcGet_safe (h : t.1.kind = .window → fits t.1.base t.1.len) : srcGet.Safe t fun _ u => ReaderFrame t u := by
  refine Cmd.Safe.keeps (Q := fun _ _ => True) ?_ srcGet_keeps
  obtain ⟨r, e⟩ := t
  unfold srcGet
  refine Cmd.Safe.get_bind ?_
  dsimp only
  cases hk : r.kind with
  | port =>
    refine Cmd.Safe.ite (fun _ => trivial) fun _ => ?_
    rcases e.src with _ | ⟨x, rest⟩
    · trivial
    · cases x with
      | byte b => trivial
      | failure => exact ⟨_, rfl⟩
  | window =>
    have hfit : r.base.toNat + r.len.toNat ≤ 2 ^ 32 := h hk
    exact Cmd.Safe.ite (fun _ => (memRead_safe (by omega)).bind fun _ _ _ => Cmd.Safe.modify_bind (Cmd.Safe.pure trivial))
      fun _ => trivial

theorem fetch_safe : ∀ {k : Nat} {t : BitReader × Env}, (t.1.kind = .window → fits t.1.base t.1.len) →
    (fetch k).Safe t fun _ _ => True
  | 0, _, _ => trivial
  | k + 1, _, h => (srcGet_safe h).bind fun x u hu => by
      cases x with
      | none => trivial
      | some b => exact (fetch_safe (by rw [hu.kind, hu.base, hu.len]; exact h)).bind fun _ _ _ => trivial

theorem fill_safe {bufsz need : Nat} (h : 0 < need → t.1.kind = .window → fits t.1.base t.1.len) :
    (fill bufsz need).Safe t fun _ _ => True :=
  Cmd.Safe.get_bind (Cmd.Safe.ite
    (fun hneed => (fetch_safe (h (Nat.zero_lt_of_lt hneed))).bind fun _ _ _ => Cmd.Safe.modify trivial)
    fun _ => Cmd.Safe.pure trivial)

/-- A read of the reader's bits stays in its window. -/
theorem readBits_safe {bufsz len : Nat} (h : t.1.WindowOk) : (readBits bufsz len).Safe t fun _ u => u.1.WindowOk := by
  refine Cmd.Safe.imp (Cmd.Safe.keeps (Q := fun _ _ => True) ?_ (readBits_keeps bufsz len)) fun _ _ _ hu => hu.windowOk h
  refine Cmd.Safe.get_bind (Cmd.Safe.check_then fun hopen => ?_)
  have hfit : 0 < len → t.1.kind = .window → fits t.1.base t.1.len := fun hlen =>
    h (by simpa [Nat.succ_le_of_lt hlen] using hopen)
  exact (fill_safe hfit).bind fun _ _ _ => Cmd.Safe.get_bind (Cmd.Safe.check_then fun _ => trivial)

theorem moreBits_safe {bufsz : Nat} (h : t.1.WindowOk) : (moreBits bufsz).Safe t fun _ u => u.1.WindowOk := by
  refine Cmd.Safe.imp (Cmd.Safe.keeps (Q := fun _ _ => True) ?_ (moreBits_keeps bufsz)) fun _ _ _ hu => hu.windowOk h
  exact Cmd.Safe.get_bind (Cmd.Safe.ite
    (fun hopen => (fill_safe fun _ => h hopen).bind fun _ _ _ => trivial) fun _ => trivial)

end

/-! ### The bit writer -/

/-- The window an open writer has latched lies in the address space. -/
def BitWriter.WindowOk (w : BitWriter) : Prop := w.isOpen = true → w.kind = .window → fits w.base w.cap

section

variable {t : BitWriter × Env}

theorem sinkPut_safe {b : Byte} (h : t.1.kind = .window → fits t.1.base t.1.cap) :
    (sinkPut b).Safe t fun _ u => WriterFrame t u := by
  refine Cmd.Safe.keeps (Q := fun _ _ => True) ?_ (sinkPut_keeps b)
  obtain ⟨w, e⟩ := t
  unfold sinkPut
  refine Cmd.Safe.get_bind ?_
  dsimp only
  cases hk : w.kind with
  | port =>
    rcases e.sinkAns with _ | ⟨x, rest⟩
    · trivial
    · cases x with
      | true => trivial
      | false => exact ⟨_, rfl⟩
  | window =>
    have hfit : w.base.toNat + w.cap.toNat ≤ 2 ^ 32 := h hk
    refine Cmd.Safe.checkMid_then fun hcap => ?_
    rw [decide_eq_false_iff_not] at hcap
    exact (memWrite_safe b (by omega)).bind fun _ _ _ => trivial

theorem deliver_safe : ∀ {l : List Byte} {t : BitWriter × Env}, (t.1.kind = .window → fits t.1.base t.1.cap) →
    (deliver l).Safe t fun _ _ => True
  | [], _, _ => trivial
  | _ :: _, _, h => (sinkPut_safe h).bind fun _ _ hu => deliver_safe (by rw [hu.kind, hu.base, hu.cap]; exact h)

theorem spill_safe {bufsz : Nat} {value : Word} {len : Nat} (h : t.1.kind = .window → fits t.1.base t.1.cap) :
    (spill bufsz value len).Safe t fun _ _ => True := by
  obtain ⟨hk, hb, hc, -, -⟩ := BitWriter.push_bound t.1 value len
  refine Cmd.Safe.modify_bind (Cmd.Safe.get_bind (Cmd.Safe.ite (fun _ => ?_) fun _ => trivial))
  exact (deliver_safe (by rw [hk, hb, hc]; exact h)).bind fun _ _ _ => trivial

/-- A piece that only an open writer answers keeps its window. -/
theorem Cmd.Safe.writer_windowOk {x : Cmd (BitWriter × Env) α} (hx : x.Keeps WriterFrame) (h : t.1.WindowOk)
    (hs : x.Safe t fun _ _ => t.1.isOpen = true) : x.Safe t fun _ u => u.1.WindowOk :=
  hs.imp fun a u hxu hopen _ => by
    have hu := hx.of_ok hxu
    rw [hu.kind, hu.base, hu.cap]
    exact h hopen

/-- A field written stays in the writer's window. -/
theorem writeBits_safe {bufsz : Nat} {value : Word} {len : Nat} (h : t.1.WindowOk) :
    (writeBits bufsz value len).Safe t fun _ u => u.1.WindowOk := by
  refine Cmd.Safe.writer_windowOk (writeBits_keeps bufsz value len) h ?_
  refine Cmd.Safe.get_bind (Cmd.Safe.check_then fun hopen => Cmd.Safe.check_then fun _ => ?_)
  have hopen : t.1.isOpen = true := by simpa using hopen
  exact (spill_safe (h hopen)).imp fun _ _ _ _ => hopen

theorem writeFields_safe {bufsz : Nat} : ∀ {l : List (Word × Nat)} {t : BitWriter × Env}, t.1.WindowOk →
    (writeFields bufsz l).Safe t fun _ u => u.1.WindowOk
  | [], _, h => h
  | _ :: _, _, h => (writeBits_safe h).bind fun _ _ hu => writeFields_safe hu

theorem closeWriter_safe (h : t.1.WindowOk) : closeWriter.Safe t fun _ u => u.1.WindowOk := by
  refine Cmd.Safe.writer_windowOk closeWriter_keeps h ?_
  refine Cmd.Safe.get_bind (Cmd.Safe.check_then fun hopen => Cmd.Safe.modify_bind ?_)
  have hopen : t.1.isOpen = true := by simpa using hopen
  refine (deliver_safe ?_).bind fun _ _ _ => ?_
  · exact h hopen
  · exact hopen

end

/-! ### Decoding an ANS run -/

section

variable {P : σ → Prop} {rb : Nat → Cmd σ Word} (hrb : ∀ {n : Nat} {s : σ}, P s → (rb n).Safe s fun _ => P)
include hrb

theorem readTableEntries_safe {lr : Nat} : ∀ {k : Nat} {s : σ}, P s → (readTableEntries rb lr k).Safe s fun _ => P
  | 0, _, h => h
  | _ + 1, _, h => (hrb h).bind fun _ _ h => Cmd.Safe.ite
      (fun _ => (readTableEntries_safe h).bind fun _ _ h => h)
      (fun _ => (hrb h).bind fun _ _ h => (readTableEntries_safe h).bind fun _ _ h => h)

theorem readTable_safe {lr : Nat} {s : σ} (h : P s) : (readTable rb lr).Safe s fun _ => P :=
  (readTableEntries_safe hrb h).bind fun _ _ h => Cmd.Safe.checkMid_then fun _ => h

theorem readTables_safe {lr : Nat} : ∀ {k : Nat} {s : σ}, P s → (readTables rb lr k).Safe s fun _ => P
  | 0, _, h => h
  | _ + 1, _, h => (hrb h).bind fun _ _ h => Cmd.Safe.ite
      (fun _ => (readTables_safe h).bind fun _ _ h => h)
      (fun _ => (readTable_safe hrb h).bind fun _ _ h => (readTables_safe h).bind fun _ _ h => h)

theorem ansRefill_safe : ∀ {k x : Nat} {s : σ}, P s → (ansRefill rb k x).Safe s fun _ => P
  | 0, _, _, h => h
  | _ + 1, _, _, h => Cmd.Safe.ite (fun _ => (hrb h).bind fun _ _ h => ansRefill_safe h) fun _ => h

theorem ansSymbols_safe {order1 : Bool} {lr : Nat} {tables : List (Option (List Nat))} :
    ∀ {k x prev : Nat} {s : σ}, P s → (ansSymbols rb order1 lr tables k x prev).Safe s fun _ => P
  | 0, _, _, _, h => Cmd.Safe.checkMid_then fun _ => h
  | k + 1, _, prev, _, h => by
    unfold ansSymbols
    cases tables.getD (if order1 then prev else 0) none with
    | none => exact Cmd.Safe.raiseMid _ _ _
    | some f => exact (ansRefill_safe hrb h).bind fun _ _ h => (ansSymbols_safe h).bind fun _ _ h => h

/-- Decoding a run is safe when reading its fields is. -/
theorem ansDecode_safe {order1 : Bool} {n : Nat} {s : σ} (h : P s) : (ansDecode rb order1 n).Safe s fun _ => P := by
  have hend : ∀ {tables : List (Option (List Nat))} {lr : Nat} {s : σ}, P s → (do
      let x ← rb 32
      checkMid (decide (x.toNat < Config.ansL) || decide (256 * Config.ansL ≤ x.toNat)) .invalidData 3
      ansSymbols rb order1 lr tables n x.toNat 0 : Cmd σ (List Byte)).Safe s fun _ => P := fun h =>
    (hrb h).bind fun _ _ h => Cmd.Safe.checkMid_then fun _ => ansSymbols_safe hrb h
  refine Cmd.Safe.ite (fun _ => h) fun _ => (hrb h).bind fun t _ h => Cmd.Safe.midway ?_
  refine Cmd.Safe.checkMid_then fun _ => Cmd.Safe.ite (fun _ => (readTables_safe hrb h).bind fun _ _ h => hend h) fun _ => ?_
  exact (readTable_safe hrb h).bind fun _ _ h => hend h

end

end Sys2Proof.Machine
end

section
/-!
O60, the ROLZ unit: the match finder and both directions of a block make no access outside MEM. Every access is to the chunk, which
lies in its window; what bounds the bytes a match copies is that the rings hold only positions before the one rebuilt.
-/

namespace Sys2Proof.Machine

variable {α : Type} {n q p : Nat} {z : Rolz} {e : Env}

/-! ### The chunk and its rings -/

/-- The chunk has `n` bytes and lies with the four after it in its window, that in the address space; the rings hold positions
before `q`. -/
structure Rolz.ChunkOk (n q : Nat) (z : Rolz) : Prop where
  fits : z.chunkFits
  size : z.csize.toNat = n
  rings : z.ringsBefore q

theorem Rolz.ChunkOk.mono {q' : Nat} (h : z.ChunkOk n q) (hq : q ≤ q') : z.ChunkOk n q' :=
  ⟨h.fits, h.size, fun e he => Nat.lt_of_lt_of_le (h.rings e he) hq⟩

/-- An index of the chunk, and the four after it, are addresses of MEM. -/
theorem Rolz.ChunkOk.address (h : z.ChunkOk n q) : z.cbase.toNat + n + 4 ≤ 2 ^ 32 := by
  obtain ⟨⟨hsize, hbase⟩, rfl, -⟩ := h
  omega

theorem Rolz.ChunkOk.insert (h : z.ChunkOk n q) (k : Nat) {r : BitVec 32} (hr : recordPos r < q) :
    (z.insert k r).ChunkOk n q := by
  refine ⟨h.fits, h.size, fun x hx => ?_⟩
  rcases Rolz.insert_mem hx with rfl | hx
  · exact hr
  · exact h.rings x hx

/-- A record of a position alone holds that position, modulo the 26 bits it has. -/
theorem recordPos_ofNat_le (p : Nat) : recordPos (BitVec.ofNat 32 p) ≤ p := by
  unfold recordPos
  rw [BitVec.toNat_and, BitVec.toNat_ofNat]
  exact Nat.and_le_left.trans (Nat.mod_le _ _)

/-- The hash of a record is above its position. -/
theorem recordPos_hashOf_le (b0 b1 b2 : Byte) (p : Nat) : recordPos (hashOf b0 b1 b2 ||| BitVec.ofNat 32 p) ≤ p := by
  have hclear : ∀ x y m : BitVec 32, (x &&& m ||| y) &&& ~~~m = y &&& ~~~m := by
    intro x y m
    refine BitVec.eq_of_getLsbD_eq fun i hi => ?_
    simp only [BitVec.getLsbD_and, BitVec.getLsbD_or, BitVec.getLsbD_not, hi, decide_true, Bool.true_and]
    cases m.getLsbD i <;> simp
  have hpos : recordPos (hashOf b0 b1 b2 ||| BitVec.ofNat 32 p) = recordPos (BitVec.ofNat 32 p) := by
    unfold recordPos hashOf
    rw [hclear]
  rw [hpos]
  exact recordPos_ofNat_le p

/-- An entry that is not the default one is listed. -/
theorem Store.get_mem {α : Type} {d : Nat → α} {k : Nat} : ∀ {l : List (Nat × α)}, Store.get d l k ≠ d k →
    (k, Store.get d l k) ∈ l
  | [], h => absurd rfl h
  | (j, v) :: r, h => by
    unfold Store.get at h ⊢
    split_ifs at h ⊢ with hj
    · rw [hj]
      exact List.mem_cons_self
    · exact List.mem_cons_of_mem _ (Store.get_mem h)

/-- A record found in the rings holds one of their positions. -/
theorem Rolz.ringsBefore.slot (h : z.ringsBefore q) {i : Nat} (hi : z.slot i ≠ 0) : recordPos (z.slot i) < q :=
  h _ (Store.get_mem (d := zeroEntry) hi)

/-! ### Reading and inserting -/

theorem bufByte_safe (h : z.cbase.toNat + p < 2 ^ 32) : (bufByte p).Safe (z, e) fun _ u => u.1 = z :=
  Cmd.Safe.get_bind (memRead_safe h)

theorem bufBytes_safe {k : Nat} (h : z.cbase.toNat + p + k ≤ 2 ^ 32) : (bufBytes p k).Safe (z, e) fun _ u => u.1 = z :=
  Cmd.Safe.get_bind (memReadBytes_safe h)

theorem keyAt_safe (h : z.cbase.toNat + p < 2 ^ 32) : (keyAt p).Safe (z, e) fun _ u => u.1 = z := by
  refine (bufByte_safe (by omega)).bind_same fun _ _ => ?_
  exact (bufByte_safe (by omega)).bind_same fun _ _ => rfl

/-- `Hash(p)` answers a hash: a record with it keeps its position. -/
theorem hashAt_safe (h : z.cbase.toNat + p + 2 < 2 ^ 32) :
    (hashAt p).Safe (z, e) fun r u => u.1 = z ∧ ∀ x, recordPos (r ||| BitVec.ofNat 32 x) ≤ x := by
  refine (bufByte_safe (by omega)).bind_same fun b0 _ => ?_
  refine (bufByte_safe (by omega)).bind_same fun b1 _ => ?_
  exact (bufByte_safe (by omega)).bind_same fun b2 _ => ⟨rfl, recordPos_hashOf_le b0 b1 b2⟩

theorem insertAt_safe (hz : z.ChunkOk n q) (hp : p < n) (hq : p < q) :
    (insertAt p).Safe (z, e) fun _ u => u.1.ChunkOk n q := by
  have ha := hz.address
  refine (keyAt_safe (by omega)).bind_same fun k _ => ?_
  refine (hashAt_safe (by omega)).bind_same_and fun r _ hr => ?_
  exact hz.insert k (Nat.lt_of_le_of_lt (hr p) hq)

theorem insertDec_safe (hz : z.ChunkOk n q) (hp : p < n) (hq : p < q) :
    (insertDec p).Safe (z, e) fun _ u => u.1.ChunkOk n q := by
  have ha := hz.address
  refine (keyAt_safe (by omega)).bind_same fun k _ => ?_
  exact hz.insert k (Nat.lt_of_le_of_lt (recordPos_ofNat_le p) hq)

/-- Insertions at several positions of the chunk. -/
theorem forPositions_safe {f : Nat → Cmd (Rolz × Env) Unit}
    (hf : ∀ {p : Nat} {z : Rolz} {e : Env}, z.ChunkOk n q → p < n → p < q → (f p).Safe (z, e) fun _ u => u.1.ChunkOk n q) :
    ∀ {k p : Nat} {z : Rolz} {e : Env}, z.ChunkOk n q → p + k ≤ n → p + k ≤ q →
      (forPositions f p k).Safe (z, e) fun _ u => u.1.ChunkOk n q
  | 0, _, _, _, hz, _, _ => hz
  | _ + 1, _, _, _, hz, hn, hq => (hf hz (by omega) (by omega)).bind fun _ ⟨_, _⟩ hu =>
      forPositions_safe hf hu (by omega) (by omega)

/-- A comparison reads no byte outside the window its chunk lies in (20_memory.md R71). -/
theorem matchByte_safe {i : Nat} (hz : z.chunkFits) : (matchByte i).Safe (z, e) fun _ u => u.1 = z := by
  refine Cmd.Safe.get_bind (Cmd.Safe.ite (fun hi => bufByte_safe ?_) fun _ => rfl)
  have hi : i < z.clen.toNat := hi
  have := hz.2
  omega

/-- A comparison ends within its bound. -/
theorem extendMatch_safe {r p maxm : Nat} : ∀ {k m : Nat} {z : Rolz} {e : Env}, z.chunkFits → m ≤ maxm →
    (extendMatch r p maxm k m).Safe (z, e) fun x u => u.1 = z ∧ x ≤ maxm
  | 0, _, _, _, _, hm => ⟨rfl, hm⟩
  | _ + 1, _, _, _, hz, hm => Cmd.Safe.ite
      (fun hlt => (matchByte_safe hz).bind_same fun _ _ => (matchByte_safe hz).bind_same fun _ _ =>
        Cmd.Safe.ite (fun _ => extendMatch_safe hz hlt) fun _ => ⟨rfl, hm⟩)
      (fun _ => ⟨rfl, hm⟩)

/-- A search ends with no candidate or one within its bound. -/
theorem searchRing_safe {key p maxm : Nat} {hash c : BitVec 32} (hmax : 1 ≤ maxm) :
    ∀ {k j : Nat} {best : Best} {z : Rolz} {e : Env}, z.chunkFits → (best.idx ≠ none → best.len ≤ maxm) →
      (searchRing key hash c p maxm k j best).Safe (z, e) fun x u => u.1 = z ∧ (x.idx ≠ none → x.len ≤ maxm)
  | 0, _, _, _, _, _, hb => ⟨rfl, hb⟩
  | k + 1, j, best, z, e, hz, hb => by
    refine Cmd.Safe.get_bind (Cmd.Safe.ite (fun _ => ⟨rfl, hb⟩) fun _ => ?_)
    refine Cmd.Safe.ite (fun _ => searchRing_safe hmax hz hb) fun _ => ?_
    refine (matchByte_safe hz).bind_same fun a _ => ?_
    refine (matchByte_safe hz).bind_same fun b _ => ?_
    refine Cmd.Safe.ite (fun _ => searchRing_safe hmax hz hb) fun _ => ?_
    refine (extendMatch_safe hz hmax).bind_same_and fun m _ hm => ?_
    refine searchRing_safe hmax hz ?_
    split_ifs
    · exact fun _ => hm
    · exact hb

/-- `FindMatch` on a position of the chunk: a match it answers ends in the chunk. -/
theorem findMatch_safe (hz : z.ChunkOk n q) (hp : p < n) (hq : p < q) :
    (findMatch p).Safe (z, e) fun x u => (∀ m, x = some m → p + m.len ≤ n) ∧ u.1.ChunkOk n q := by
  have ha := hz.address
  have hsize := hz.size
  refine (keyAt_safe (by omega)).bind_same fun k _ => ?_
  refine (hashAt_safe (by omega)).bind_same_and fun r _ _ => Cmd.Safe.get_bind ?_
  refine (searchRing_safe (by unfold Config.maxMatch; omega) hz.fits (fun h => absurd rfl h)).bind_same_and fun best _ hb => ?_
  refine (insertAt_safe hz hp hq).bind fun _ u hu => ⟨fun m hm => ?_, hu⟩
  obtain ⟨j, hj, rfl⟩ := Option.map_eq_some_iff.mp hm
  have : best.len ≤ min Config.maxMatch (z.csize.toNat - p) := hb (by rw [hj]; exact Option.some_ne_none j)
  show p + best.len ≤ n
  omega

theorem nextMatch_safe (hz : z.ChunkOk n n) (hp : p < n) :
    (nextMatch p).Safe (z, e) fun x u => (∀ m, x = some m → p + m.len ≤ n) ∧ u.1.ChunkOk n n :=
  Cmd.Safe.ite (fun _ => ⟨fun _ h => absurd h (Option.some_ne_none _).symm, hz⟩) fun _ => findMatch_safe hz hp hp

/-- `Lookup` answers a position the rings hold. -/
theorem lookup_safe {idx : Nat} (hz : z.ChunkOk n q) (hp : p ≤ n) :
    (lookup p idx).Safe (z, e) fun r u => u.1 = z ∧ r < q := by
  have ha := hz.address
  refine (keyAt_safe (by omega)).bind_same fun k _ => ?_
  exact Cmd.Safe.get_bind (Cmd.Safe.checkMid_then fun h => ⟨rfl, hz.rings.slot (by simpa using h)⟩)

/-! ### A block encoded -/

/-- Both windows of a block command lie in the address space. -/
structure Windows.Fit (w : Windows) : Prop where
  src : fits w.srcBase w.srcLen
  dst : fits w.dstBase w.dstCap

variable {w : Windows}

theorem emitByte_safe {o : Nat} {b : Byte} (hw : w.Fit) : (emitByte w o b).Safe (z, e) fun _ u => u.1 = z := by
  have hfit : w.dstBase.toNat + w.dstCap.toNat ≤ 2 ^ 32 := hw.dst
  refine Cmd.Safe.checkMid_then fun h => ?_
  rw [decide_eq_false_iff_not] at h
  exact (memWrite_safe b (by omega)).bind_same fun _ _ => rfl

theorem emitBytes_safe (hw : w.Fit) : ∀ {l : List Byte} {o : Nat} {z : Rolz} {e : Env},
    (emitBytes w o l).Safe (z, e) fun _ u => u.1 = z
  | [], _, _, _ => rfl
  | _ :: _, _, _, _ => (emitByte_safe hw).bind_same fun _ _ =>
      emitBytes_safe hw

theorem parseEnd_safe {first : Nat} (hz : z.ChunkOk n n) (hf : first ≤ n) : (parseEnd n first).Safe (z, e) fun _ _ => True := by
  have ha := hz.address
  exact (bufBytes_safe (by omega)).bind fun _ _ _ => trivial

theorem parseChunk_safe : ∀ {k p first : Nat} {z : Rolz} {e : Env}, z.ChunkOk n n → first ≤ n →
    (parseChunk n k p first).Safe (z, e) fun _ _ => True
  | 0, _, _, _, _, hz, hf => parseEnd_safe hz hf
  | k + 1, p, first, z, e, hz, hf => by
    refine Cmd.Safe.ite (fun _ => parseEnd_safe hz hf) fun hp => ?_
    rw [Nat.not_le] at hp
    refine (nextMatch_safe hz hp).bind fun x ⟨z, e⟩ ⟨hx, hz⟩ => ?_
    cases x with
    | none => exact parseChunk_safe hz hf
    | some m =>
      have hm : p + m.len ≤ n := hx m rfl
      have ha : z.cbase.toNat + n + 4 ≤ 2 ^ 32 := hz.address
      refine (bufBytes_safe (by omega)).bind_same fun _ _ => ?_
      refine (forPositions_safe insertAt_safe hz (by omega) (by omega)).bind fun _ ⟨_, _⟩ hz => ?_
      exact (parseChunk_safe hz hm).bind fun _ _ _ => trivial

/-- A chunk opened in a window that has it and four bytes more. -/
theorem openChunk_safe {base len : BitVec 32} {start size : Nat} (hfit : fits base len) (hin : start + size + 4 ≤ len.toNat)
    {t : Rolz × Env} : (openChunk base len start size).Safe t fun _ u => u.1.ChunkOk size 0 := by
  have hlen := len.isLt
  have hfit : base.toNat + len.toNat ≤ 2 ^ 32 := hfit
  have hsize : (BitVec.ofNat 32 size).toNat = size := by
    rw [BitVec.toNat_ofNat]
    exact Nat.mod_eq_of_lt (by omega)
  refine Cmd.Safe.modify ⟨⟨?_, ?_⟩, hsize, fun _ h => absurd h List.not_mem_nil⟩
  · show (BitVec.ofNat 32 size).toNat + 4 ≤ (BitVec.ofNat 32 (len.toNat - start)).toNat
    rw [hsize, BitVec.toNat_ofNat]
    omega
  · show (BitVec.ofNat 32 (base.toNat + start)).toNat + (BitVec.ofNat 32 (len.toNat - start)).toNat ≤ 2 ^ 32
    rw [BitVec.toNat_ofNat, BitVec.toNat_ofNat]
    omega

theorem encodeChunk1_safe {lr start size o : Nat} (hw : w.Fit) (hin : start + size + 4 ≤ w.srcLen.toNat) {t : Rolz × Env} :
    (encodeChunk1 w lr start size o).Safe t fun _ _ => True :=
  (openChunk_safe hw.src hin).bind fun _ ⟨_, _⟩ hz =>
    (parseChunk_safe (hz.mono (Nat.zero_le size)) (Nat.zero_le size)).bind fun _ ⟨_, _⟩ _ =>
      (emitBytes_safe hw).imp fun _ _ _ _ => trivial

theorem encodeChunks1_safe {lr : Nat} (hw : w.Fit) : ∀ {l : List (Nat × Nat)} {o : Nat} {t : Rolz × Env},
    (∀ c ∈ l, c.1 + c.2 + 4 ≤ w.srcLen.toNat) → (encodeChunks1 w lr l o).Safe t fun _ _ => True
  | [], _, _, _ => trivial
  | c :: _, _, _, h => (encodeChunk1_safe hw (h c List.mem_cons_self)).bind fun _ _ _ =>
      encodeChunks1_safe hw fun c hc => h c (List.mem_cons_of_mem _ hc)

theorem encodeBit2_safe {m : LocalModel} {iv : Interval} {o : Nat} {bit : Bool} (hw : w.Fit) :
    (encodeBit2 w m iv o bit).Safe (z, e) fun _ u => u.1 = z :=
  Cmd.Safe.ite (fun _ => (emitBytes_safe hw).bind_same fun _ _ => Cmd.Safe.pure rfl) fun _ => Cmd.Safe.pure rfl

theorem encodeBits2_safe (hw : w.Fit) : ∀ {l : List Bool} {m : LocalModel} {iv : Interval} {o : Nat} {z : Rolz} {e : Env},
    (encodeBits2 w m iv o l).Safe (z, e) fun _ u => u.1 = z
  | [], _, _, _, _, _ => rfl
  | _ :: _, _, _, _, _, _ => (encodeBit2_safe hw).bind_same fun _ _ =>
      encodeBits2_safe hw

theorem encodeSymbol_safe {c : Enc2} {sym : Nat} (hw : w.Fit) : (encodeSymbol w c sym).Safe (z, e) fun _ u => u.1 = z :=
  (encodeBits2_safe hw).bind_same fun _ _ => Cmd.Safe.pure rfl

theorem encodeIndex_safe {c : Enc2} {prev : Byte} {lpc idx : Nat} (hw : w.Fit) :
    (encodeIndex w c prev lpc idx).Safe (z, e) fun _ u => u.1 = z :=
  (encodeBits2_safe hw).bind_same fun _ _ => Cmd.Safe.pure rfl

theorem encodeChunk2_safe (hw : w.Fit) : ∀ {k p : Nat} {c : Enc2} {z : Rolz} {e : Env}, z.ChunkOk n n →
    (encodeChunk2 w n k p c).Safe (z, e) fun _ _ => True
  | 0, _, _, _, _, _ => trivial
  | k + 1, p, c, z, e, hz => by
    refine Cmd.Safe.ite (fun _ => trivial) fun hp => ?_
    rw [Nat.not_le] at hp
    refine (nextMatch_safe hz hp).bind fun x ⟨z, e⟩ ⟨hx, hz⟩ => ?_
    have ha : z.cbase.toNat + n + 4 ≤ 2 ^ 32 := hz.address
    cases x with
    | none =>
      refine (bufByte_safe (by omega)).bind_same fun _ _ => ?_
      refine (encodeSymbol_safe hw).bind_same fun _ _ => ?_
      refine (bufByte_safe (by omega)).bind_same fun _ _ => ?_
      exact encodeChunk2_safe hw hz
    | some m =>
      have hm : p + m.len ≤ n := hx m rfl
      refine (encodeSymbol_safe hw).bind_same fun _ _ => ?_
      refine (bufByte_safe (by omega)).bind_same fun _ _ => Cmd.Safe.get_bind ?_
      refine (encodeIndex_safe hw).bind_same fun _ _ => ?_
      exact (forPositions_safe insertAt_safe hz (by omega) (by omega)).bind fun _ ⟨_, _⟩ hz => encodeChunk2_safe hw hz

theorem encodeChunks2_safe (hw : w.Fit) : ∀ {l : List (Nat × Nat)} {c : Enc2} {t : Rolz × Env},
    (∀ x ∈ l, x.1 + x.2 + 4 ≤ w.srcLen.toNat) → (encodeChunks2 w l c).Safe t fun _ _ => True
  | [], _, _, _ => trivial
  | x :: _, _, _, h => (openChunk_safe hw.src (h x List.mem_cons_self)).bind fun _ ⟨_, _⟩ hz =>
      (encodeChunk2_safe hw (hz.mono (Nat.zero_le _))).bind fun _ _ _ =>
        encodeChunks2_safe hw fun x hx => h x (List.mem_cons_of_mem _ hx)

/-- A chunk of a block ends four bytes before the end of the block. -/
theorem chunksOf_before_tail {n : Nat} {c : Nat × Nat} (h : c ∈ chunksOf (n - tailOf n)) : c.1 + c.2 + 4 ≤ n := by
  obtain ⟨hend, hstart, -⟩ := chunksOf_mem h
  unfold tailOf Config.tail at hend hstart
  omega

theorem encodePayload_safe {lr o : Nat} (hw : w.Fit) {t : Rolz × Env} :
    (encodePayload w lr (w.srcLen.toNat - tailOf w.srcLen.toNat) o).Safe t fun _ _ => True := by
  refine Cmd.Safe.get_bind (Cmd.Safe.ite (fun _ => encodeChunks1_safe hw fun c hc => chunksOf_before_tail hc) fun _ => ?_)
  refine Cmd.Safe.ite (fun _ => ?_) fun _ => trivial
  refine Cmd.Safe.get_bind ((encodeChunks2_safe hw fun c hc => chunksOf_before_tail hc).bind fun _ ⟨_, _⟩ _ => ?_)
  exact (emitBytes_safe hw).imp fun _ _ _ _ => trivial

theorem emitTail_safe (hw : w.Fit) : ∀ {k src o : Nat} {z : Rolz} {e : Env}, src + k ≤ w.srcLen.toNat →
    (emitTail w src o k).Safe (z, e) fun _ u => u.1 = z
  | 0, _, _, _, _, _ => rfl
  | k + 1, src, o, z, e, h => by
    have hfit : w.srcBase.toNat + w.srcLen.toNat ≤ 2 ^ 32 := hw.src
    refine (memRead_safe (by omega)).bind_same fun _ _ => ?_
    refine (emitByte_safe hw).bind_same fun _ _ => ?_
    exact emitTail_safe hw (by omega)

/-- `RZ_FWD` stays in its windows, and leaves no valid chunk. -/
theorem encodeBlock_safe {lr : Nat} (hw : w.Fit) {t : Rolz × Env} :
    (encodeBlock w lr).Safe t fun _ u => u.1.cvalid = false := by
  refine Cmd.Safe.modify_bind (Cmd.Safe.ite (fun _ => Cmd.Safe.modify_bind rfl) fun _ => ?_)
  refine Cmd.Safe.checkMid_then fun hcap => ?_
  rw [decide_eq_false_iff_not] at hcap
  have hlen : (beBytes4 w.srcLen).length = 4 := rfl
  have hdst : w.dstBase.toNat + w.dstCap.toNat ≤ 2 ^ 32 := hw.dst
  refine (memWriteBytes_safe (by omega)).bind fun _ _ _ => (encodePayload_safe hw).bind fun _ ⟨_, _⟩ _ => ?_
  have htail : tailOf w.srcLen.toNat ≤ w.srcLen.toNat := Nat.min_le_right _ _
  exact (emitTail_safe hw (by omega)).bind fun _ _ _ => Cmd.Safe.modify_bind rfl

end Sys2Proof.Machine
end

section
/-!
O60, the ROLZ unit: a block decoded makes no access outside MEM.
-/

namespace Sys2Proof.Machine

variable {α : Type} {n q p : Nat} {z : Rolz} {e : Env} {w : Windows}

/-! ### The reader a block has of its own -/

/-- Every bit of a block's own reader lies in a byte of MEM. -/
def BitSource.Fits (r : BitSource) : Prop := ∀ i < r.nbits, r.base + i / 8 < 2 ^ 32

theorem sourceBits_safe : ∀ {k acc : Nat} {r : BitSource} {e : Env}, r.Fits → r.pos + k ≤ r.nbits →
    (sourceBits k acc).Safe (r, e) fun _ u => u.1.Fits
  | 0, _, _, _, hr, _ => hr
  | _ + 1, _, r, _, hr, hk => Cmd.Safe.get_bind ((memRead_safe (hr r.pos (by omega))).bind_same fun _ _ =>
      Cmd.Safe.modify_bind (sourceBits_safe hr (by dsimp only; omega)))

theorem readSource_safe {len : Nat} {t : BitSource × Env} (h : t.1.Fits) :
    (readSource len).Safe t fun _ u => u.1.Fits := by
  refine Cmd.Safe.get_bind (Cmd.Safe.checkMid_then fun hlen => ?_)
  rw [decide_eq_false_iff_not, Nat.not_lt] at hlen
  exact (sourceBits_safe h hlen).bind fun _ _ hu => hu

/-- What reads a block's own reader inside the unit's rule leaves the unit. -/
theorem withSource_safe {r : BitSource} {x : Cmd (BitSource × Env) α} (h : x.Safe (r, e) fun _ u => u.1.Fits) :
    (withSource r x).Safe (z, e) fun a u => u.1 = z ∧ a.2.Fits := by
  unfold Cmd.Safe withSource
  dsimp only
  cases hx : x (r, e) with
  | ok a u => exact ⟨rfl, h.of_ok hx⟩
  | error y u => exact h.of_error hx

theorem readStreams_safe {size : Nat} {t : BitSource × Env} (h : t.1.Fits) :
    (readStreams size).Safe t fun _ u => u.1.Fits :=
  have ans : ∀ {o : Bool} {k : Nat} {t : BitSource × Env}, t.1.Fits →
      (ansDecode readSource o k).Safe t fun _ u => u.1.Fits := fun h =>
    ansDecode_safe (P := fun t : BitSource × Env => t.1.Fits) readSource_safe h
  (readSource_safe h).bind fun _ _ h => (readSource_safe h).bind fun _ _ h => (readSource_safe h).bind fun _ _ h =>
    Cmd.Safe.checkMid_then fun _ => (ans h).bind fun _ _ h => (ans h).bind fun _ _ h => (ans h).bind fun _ _ h => h

/-! ### A chunk rebuilt -/

theorem setBuf_safe {b : Byte} (hz : z.ChunkOk n q) (hp : p < n) : (setBuf p b).Safe (z, e) fun _ u => u.1 = z := by
  have ha := hz.address
  exact Cmd.Safe.get_bind (memWrite_safe b (by omega))

/-- A match copied from a position before the one it is copied to. -/
theorem copyBytes_safe (hz : z.ChunkOk n q) : ∀ {k r p : Nat} {e : Env}, r < p → p + k ≤ n →
    (copyBytes r p k).Safe (z, e) fun _ u => u.1 = z
  | 0, _, _, _, _, _ => rfl
  | _ + 1, _, _, _, hr, hp => by
    have ha := hz.address
    exact (bufByte_safe (by omega)).bind_same fun _ _ => (setBuf_safe hz (by omega)).bind_same fun _ _ =>
      copyBytes_safe hz (by omega) (by omega)

/-- A match rebuilt: its source is a position the rings held, and the rings then hold the positions it covers. -/
theorem copyMatch_safe {idx mlen : Nat} (hz : z.ChunkOk n p) (hp : p + mlen ≤ n) :
    (copyMatch p idx mlen).Safe (z, e) fun _ u => u.1.ChunkOk n (p + mlen) :=
  (lookup_safe hz (by omega)).bind_same_and fun _ _ hr => (copyBytes_safe hz hr hp).bind_same fun _ _ =>
    forPositions_safe insertDec_safe (hz.mono (Nat.le_add_right _ _)) hp (Nat.le_refl _)

theorem insertLiteral_safe (hz : z.ChunkOk n p) (hp : p < n) :
    (insertLiteral p).Safe (z, e) fun _ u => u.1.ChunkOk n (p + 1) :=
  have hz := hz.mono (Nat.le_succ p)
  Cmd.Safe.ite (fun _ => insertDec_safe hz hp (Nat.lt_succ_self p)) fun _ => hz

theorem copyLiterals_safe : ∀ {l : List Byte} {p : Nat} {z : Rolz} {e : Env}, z.ChunkOk n p → p + l.length ≤ n →
    (copyLiterals p l).Safe (z, e) fun _ u => u.1.ChunkOk n (p + l.length)
  | [], _, _, _, hz, _ => hz
  | b :: r, p, _, _, hz, hp => by
    rw [List.length_cons] at hp ⊢
    refine (setBuf_safe hz (by omega)).bind_same fun _ _ => (insertLiteral_safe hz (by omega)).bind fun _ ⟨_, _⟩ hz => ?_
    rw [Nat.add_comm r.length, ← Nat.add_assoc]
    exact copyLiterals_safe hz (by omega)

theorem rebuildChunk_safe : ∀ {k p : Nat} {t : Streams} {z : Rolz} {e : Env}, z.ChunkOk n p →
    (rebuildChunk n k p t).Safe (z, e) fun _ _ => True
  | 0, _, _, _, _, _ => Cmd.Safe.raiseMid _ _ _
  | k + 1, p, t, z, e, hz => by
    unfold rebuildChunk
    cases readLengths t.len with
    | none => exact Cmd.Safe.raiseMid _ _ _
    | some x =>
      obtain ⟨l, m, len⟩ := x
      refine Cmd.Safe.checkMid_then fun h => ?_
      simp only [Bool.or_eq_false_iff, decide_eq_false_iff_not, Nat.not_lt] at h
      have hlen : (t.lit.take l).length = l := List.length_take_of_le h.1
      refine (copyLiterals_safe hz (by omega)).bind fun _ ⟨z, e⟩ hz => Cmd.Safe.ite (fun _ => ?_) fun _ => ?_
      · exact Cmd.Safe.checkMid_then fun _ => Cmd.Safe.checkMid fun _ => trivial
      · rw [hlen] at hz
        refine Cmd.Safe.checkMid_then fun h2 => Cmd.Safe.get_bind ?_
        simp only [Bool.or_eq_false_iff, decide_eq_false_iff_not, Nat.not_lt] at h2
        cases t.idx with
        | nil => exact Cmd.Safe.raiseMid _ _ _
        | cons i idx =>
          exact Cmd.Safe.checkMid_then fun _ => (copyMatch_safe hz h2.2).bind fun _ ⟨_, _⟩ hz => rebuildChunk_safe hz

/-- The reader of a payload that ends in the SRC window lies in MEM. -/
theorem BitSource.fits_payload (hw : w.Fit) {sp pend pos : Nat} (hend : pend ≤ w.srcLen.toNat) :
    BitSource.Fits { base := w.srcBase.toNat + sp, nbits := 8 * (pend - sp), pos := pos } := by
  intro i hi
  have hfit : w.srcBase.toNat + w.srcLen.toNat ≤ 2 ^ 32 := hw.src
  simp only at hi ⊢
  omega

theorem decodeChunk1_safe {start size sp pend : Nat} (hw : w.Fit) (hin : start + size + 4 ≤ w.dstCap.toNat)
    (hend : pend ≤ w.srcLen.toNat) {t : Rolz × Env} : (decodeChunk1 w start size sp pend).Safe t fun _ _ => True :=
  (openChunk_safe hw.dst hin).bind fun _ ⟨_, _⟩ hz =>
    (withSource_safe (readStreams_safe (BitSource.fits_payload hw hend))).bind_same_and fun _ _ _ =>
      (rebuildChunk_safe hz).bind fun _ _ _ => Cmd.Safe.pure trivial

theorem decodeChunks1_safe {pend : Nat} (hw : w.Fit) (hend : pend ≤ w.srcLen.toNat) :
    ∀ {l : List (Nat × Nat)} {sp : Nat} {t : Rolz × Env}, (∀ c ∈ l, c.1 + c.2 + 4 ≤ w.dstCap.toNat) →
      (decodeChunks1 w pend l sp).Safe t fun _ _ => True
  | [], _, _, _ => trivial
  | c :: _, _, _, h => (decodeChunk1_safe hw (h c List.mem_cons_self) hend).bind fun _ _ _ =>
      decodeChunks1_safe hw hend fun c hc => h c (List.mem_cons_of_mem _ hc)

theorem decodeBit2_safe {m : LocalModel} {c : Dec2} (hc : c.src.Fits) :
    (decodeBit2 m c).Safe (z, e) fun x u => u.1 = z ∧ x.2.2.src.Fits :=
  Cmd.Safe.ite (fun _ => (withSource_safe (readSource_safe hc)).bind_same_and fun _ _ hr => Cmd.Safe.pure ⟨rfl, hr⟩)
    fun _ => Cmd.Safe.pure ⟨rfl, hc⟩

theorem decodeBits2_safe : ∀ {k acc : Nat} {m : LocalModel} {c : Dec2} {e : Env}, c.src.Fits →
    (decodeBits2 m c k acc).Safe (z, e) fun x u => u.1 = z ∧ x.2.2.src.Fits
  | 0, _, _, _, _, hc => ⟨rfl, hc⟩
  | _ + 1, _, _, _, _, hc => (decodeBit2_safe hc).bind_same_and fun _ _ hc => decodeBits2_safe hc

theorem decodeChunk2_safe : ∀ {k p : Nat} {c : Dec2} {z : Rolz} {e : Env}, z.ChunkOk n p → c.src.Fits →
    (decodeChunk2 n k p c).Safe (z, e) fun x _ => x.src.Fits
  | 0, _, _, _, _, _, hc => hc
  | k + 1, p, c, z, e, hz, hc => by
    refine Cmd.Safe.ite (fun _ => hc) fun hp => (decodeBits2_safe hc).bind_same_and fun x _ hx => ?_
    rw [Nat.not_le] at hp
    refine Cmd.Safe.ite (fun _ => ?_) fun _ => Cmd.Safe.checkMid_then fun h => ?_
    · exact (setBuf_safe hz hp).bind_same fun _ _ => (insertLiteral_safe hz hp).bind fun _ ⟨_, _⟩ hz =>
        decodeChunk2_safe hz hx
    · simp only [Bool.or_eq_false_iff, decide_eq_false_iff_not, Nat.not_lt] at h
      have ha := hz.address
      refine (bufByte_safe (by omega)).bind_same fun _ _ => Cmd.Safe.get_bind ?_
      refine (decodeBits2_safe (c := { x.2.2 with p1 := x.2.1 }) hx).bind_same_and fun y _ hy => ?_
      exact (copyMatch_safe hz h.2).bind fun _ ⟨_, _⟩ hz => decodeChunk2_safe hz hy

theorem decodeChunks2_safe (hw : w.Fit) : ∀ {l : List (Nat × Nat)} {c : Dec2} {t : Rolz × Env}, c.src.Fits →
    (∀ x ∈ l, x.1 + x.2 + 4 ≤ w.dstCap.toNat) → (decodeChunks2 w l c).Safe t fun _ _ => True
  | [], _, _, _, _ => trivial
  | x :: _, _, _, hc, h => (openChunk_safe hw.dst (h x List.mem_cons_self)).bind fun _ ⟨_, _⟩ hz =>
      (decodeChunk2_safe hz hc).bind fun _ _ hc =>
        decodeChunks2_safe hw hc fun x hx => h x (List.mem_cons_of_mem _ hx)

/-! ### The block -/

theorem decodePayload_safe {n sp pend : Nat} (hw : w.Fit) (hn : n ≤ w.dstCap.toNat) (hend : pend ≤ w.srcLen.toNat)
    {t : Rolz × Env} : (decodePayload w (n - tailOf n) sp pend).Safe t fun _ _ => True := by
  have hin : ∀ c ∈ chunksOf (n - tailOf n), c.1 + c.2 + 4 ≤ w.dstCap.toNat := fun c hc =>
    (chunksOf_before_tail hc).trans hn
  refine Cmd.Safe.get_bind (Cmd.Safe.ite (fun _ => decodeChunks1_safe hw hend hin) fun _ => ?_)
  refine Cmd.Safe.ite (fun _ => ?_) fun _ => trivial
  obtain ⟨z, e⟩ := t
  refine Cmd.Safe.get_bind ?_
  refine (withSource_safe (readSource_safe (BitSource.fits_payload hw hend))).bind_same_and fun x _ hr => ?_
  exact (decodeChunks2_safe hw hr hin).bind fun _ _ _ => trivial

theorem copyTail_safe : ∀ {k src dst : Nat} {z : Rolz} {e : Env}, src + k ≤ 2 ^ 32 → dst + k ≤ 2 ^ 32 →
    (copyTail src dst k).Safe (z, e) fun _ u => u.1 = z
  | 0, _, _, _, _, _, _ => rfl
  | _ + 1, _, _, _, _, hs, hd => (memRead_safe (by omega)).bind_same fun _ _ =>
      (memWrite_safe _ (by omega)).bind_same fun _ _ => copyTail_safe (by omega) (by omega)

/-- `RZ_INV` stays in its windows, and leaves no valid chunk. -/
theorem decodeBlock_safe (hw : w.Fit) {t : Rolz × Env} : (decodeBlock w).Safe t fun _ u => u.1.cvalid = false := by
  have hsrc : w.srcBase.toNat + w.srcLen.toNat ≤ 2 ^ 32 := hw.src
  have hdst : w.dstBase.toNat + w.dstCap.toNat ≤ 2 ^ 32 := hw.dst
  refine Cmd.Safe.modify_bind (Cmd.Safe.ite (fun _ => Cmd.Safe.modify_bind rfl) fun _ => ?_)
  refine Cmd.Safe.checkMid_then fun hlen => ?_
  rw [decide_eq_false_iff_not] at hlen
  refine (memReadBE4_safe (by omega)).bind fun n _ _ => Cmd.Safe.checkMid_then fun _ => Cmd.Safe.check_then fun hcap => ?_
  refine Cmd.Safe.checkMid_then fun htail => ?_
  rw [decide_eq_false_iff_not] at hcap htail
  refine (decodePayload_safe hw (by omega) (by omega)).bind fun _ ⟨_, _⟩ _ => Cmd.Safe.checkMid_then fun _ => ?_
  have hle : tailOf n ≤ n := Nat.min_le_right _ _
  exact (copyTail_safe (by omega) (by omega)).bind fun _ _ _ => Cmd.Safe.modify_bind rfl

end Sys2Proof.Machine
end

section
/-!
O60: no rule makes an access outside MEM while the latched windows lie in it, and every rule that answers a value leaves them there.
-/

namespace Sys2Proof.Machine

variable {α β : Type} {i : Instr} {s : State}

/-! ### The windows the units have latched -/

/-- A valid chunk lies in the address space, and the rings hold positions of it. -/
def Rolz.WindowOk (z : Rolz) : Prop :=
  z.cvalid = true → z.chunkFits ∧ z.csize.toNat ≤ 2 ^ 26 ∧ z.ringsBefore z.csize.toNat

theorem Rolz.WindowOk.of_invalid {z : Rolz} (h : z.cvalid = false) : z.WindowOk := fun hv => by
  rw [h] at hv
  cases hv

/-- The windows the units have latched lie in the address space, whether or not KZE is faulted. -/
structure WindowsIn (s : State) : Prop where
  bw : s.bw.WindowOk
  br : s.br.WindowOk
  rz : s.rz.WindowOk

theorem windowsOk_iff (s : State) : WindowsOk s ↔ (s.live → WindowsIn s) :=
  forall_congr' fun _ => ⟨fun ⟨hbw, hbr, hrz⟩ => ⟨hbw, hbr, hrz⟩, fun h => ⟨h.bw, h.br, h.rz⟩⟩

theorem WindowsIn.of_units {t : State} (h : WindowsIn s) (hbw : t.bw = s.bw) (hbr : t.br = s.br) (hrz : t.rz = s.rz) :
    WindowsIn t := ⟨hbw ▸ h.bw, hbr ▸ h.br, hrz ▸ h.rz⟩

/-! ### Pieces over one unit -/

theorem onWriter_safe {x : Cmd (BitWriter × Env) α} (h : WindowsIn s)
    (hx : x.Safe (s.bw, s.env) fun _ u => u.1.WindowOk) : (onWriter x).Safe s fun _ => WindowsIn :=
  Cmd.Safe.zoom (hx.imp fun _ _ _ hu => ⟨hu, h.br, h.rz⟩)

theorem onReader_safe {x : Cmd (BitReader × Env) α} (h : WindowsIn s)
    (hx : x.Safe (s.br, s.env) fun _ u => u.1.WindowOk) : (onReader x).Safe s fun _ => WindowsIn :=
  Cmd.Safe.zoom (hx.imp fun _ _ _ hu => ⟨h.bw, hu, h.rz⟩)

theorem onRolz_safe {x : Cmd (Rolz × Env) α} (h : WindowsIn s)
    (hx : x.Safe (s.rz, s.env) fun _ u => u.1.WindowOk) : (onRolz x).Safe s fun _ => WindowsIn :=
  Cmd.Safe.zoom (hx.imp fun _ _ _ hu => ⟨h.bw, h.br, hu⟩)

/-- A piece over MEM: the units and the CSRs stay. -/
theorem onMem_safe {x : Cmd (Unit × Env) α} (hx : x.Safe ((), s.env) fun _ u => u.1 = ()) :
    (onMem x).Safe s fun _ t => ∃ e, t = s.withEnv e :=
  Cmd.Safe.zoom (hx.imp fun _ u _ _ => ⟨u.2, rfl⟩)

theorem WindowsIn.withEnv (h : WindowsIn s) (e : Env) : WindowsIn (s.withEnv e) := ⟨h.bw, h.br, h.rz⟩

theorem onPreds_predGet_safe (k : Fin 2) : (onPreds (predGet k)).Safe s fun _ t => t = s := by
  unfold Cmd.Safe
  rw [onPreds_predGet]
  split_ifs
  · exact ⟨_, rfl⟩
  · rfl

theorem onPreds_predUpdate_safe (k : Fin 2) (bit : Bool) :
    (onPreds (predUpdate k bit)).Safe s fun _ t => t = { s with pr := t.pr, apm := t.apm, ext := t.ext } := by
  refine Cmd.Safe.keeps (Q := fun _ _ => True) ?_ (onPreds_keeps _)
  unfold Cmd.Safe
  by_cases hr : s.predReady k
  · rw [onPreds_predUpdate_of hr]
    trivial
  · rw [onPreds_predUpdate_not hr]
    exact ⟨_, rfl⟩

/-! ### The coder -/

theorem setInterval_safe (h : WindowsIn s) (iv : Interval) : (setInterval iv).Safe s fun _ => WindowsIn :=
  ⟨h.bw, h.br, h.rz⟩

theorem renormEnc_safe (h : WindowsIn s) : renormEnc.Safe s fun _ => WindowsIn :=
  Cmd.Safe.get_bind (Cmd.Safe.ite
    (fun _ => (onWriter_safe h (writeBits_safe h.bw)).bind fun _ _ h => setInterval_safe h _) fun _ => h)

theorem renormDec_safe (h : WindowsIn s) : renormDec.Safe s fun _ => WindowsIn := by
  refine Cmd.Safe.get_bind (Cmd.Safe.ite (fun _ => (setInterval_safe h _).bind fun _ t h => ?_) fun _ => h)
  exact (onReader_safe h (readBits_safe h.br)).midway.bind fun _ _ h => ⟨h.bw, h.br, h.rz⟩

/-- What every bit coded or decoded begins with: a probability, the interval narrowed, the predictor updated. -/
theorem narrowStep_safe {bit : Prob12 → Bool} {f : Prob12 → Unit → Cmd State β} {Q : β → State → Prop} (h : WindowsIn s)
    (hf : ∀ p t, WindowsIn t → (f p ()).Safe t Q) :
    (onPreds (predGet s.be.pslot) >>= fun p => setInterval (s.be.iv.narrow p (bit p)) >>= fun _ =>
      onPreds (predUpdate s.be.pslot (bit p)) >>= f p).Safe s Q :=
  (onPreds_predGet_safe _).bind fun p t ht => by
    subst ht
    refine (setInterval_safe h _).bind fun _ _ h => (onPreds_predUpdate_safe _ _).bind fun _ t ht => hf p t ?_
    rw [ht]
    exact ⟨h.bw, h.br, h.rz⟩

theorem encodeBit_safe (h : WindowsIn s) (bit : Bool) : (encodeBit bit).Safe s fun _ => WindowsIn :=
  Cmd.Safe.reverting (Cmd.Safe.get_bind (narrowStep_safe (bit := fun _ => bit) h fun _ _ h => renormEnc_safe h))

theorem decodeBit_safe (h : WindowsIn s) : decodeBit.Safe s fun _ => WindowsIn :=
  Cmd.Safe.reverting (Cmd.Safe.get_bind (narrowStep_safe (bit := fun p => s.be.iv.decide p s.be.current) h fun _ _ h =>
    (renormDec_safe h).bind fun _ _ h => h))

theorem encodeBits_safe : ∀ {l : List Bool} {s : State}, WindowsIn s → (encodeBits l).Safe s fun _ => WindowsIn
  | [], _, h => h
  | b :: _, _, h => (encodeBit_safe h b).bind fun _ _ h => encodeBits_safe h

theorem decodeBits_safe : ∀ {n : Nat} {acc : Word} {s : State}, WindowsIn s →
    (decodeBits n acc).Safe s fun _ => WindowsIn
  | 0, _, _, h => h
  | _ + 1, _, _, h => (decodeBit_safe h).bind fun _ _ h => decodeBits_safe h

theorem checkEncoder_safe (h : WindowsIn s) : checkEncoder.Safe s fun _ => WindowsIn :=
  Cmd.Safe.get_bind (Cmd.Safe.check_then fun _ => Cmd.Safe.check fun _ => h)

theorem checkDecoder_safe {P : State → Prop} (h : P s) : checkDecoder.Safe s fun _ => P :=
  Cmd.Safe.get_bind (Cmd.Safe.check fun _ => h)

/-! ### The commands of the streams -/

theorem bwOpenBody_safe (h : WindowsIn s) (kind : BitVec 8) : (bwOpenBody kind).Safe s fun _ => WindowsIn := by
  refine Cmd.Safe.get_bind ?_
  cases streamKind kind with
  | none => exact Cmd.Safe.raise _ _ _
  | some k =>
    cases k with
    | port => exact Cmd.Safe.check_then fun _ => Cmd.Safe.set_bind ⟨fun _ hk => (by cases hk), h.br, h.rz⟩
    | window =>
      refine Cmd.Safe.check_then fun _ => Cmd.Safe.check_then fun hfit => Cmd.Safe.set_bind ⟨fun _ _ => ?_, h.br, h.rz⟩
      exact of_decide_eq_true (Bool.not_eq_false' .. ▸ hfit)

theorem brOpenBody_safe (h : WindowsIn s) (kind : BitVec 8) : (brOpenBody kind).Safe s fun _ => WindowsIn := by
  refine Cmd.Safe.get_bind ?_
  cases streamKind kind with
  | none => exact Cmd.Safe.raise _ _ _
  | some k =>
    cases k with
    | port => exact Cmd.Safe.check_then fun _ => Cmd.Safe.set_bind ⟨h.bw, fun _ hk => (by cases hk), h.rz⟩
    | window =>
      refine Cmd.Safe.check_then fun _ => Cmd.Safe.check_then fun hfit => Cmd.Safe.set_bind ⟨h.bw, fun _ _ => ?_, h.rz⟩
      exact of_decide_eq_true (Bool.not_eq_false' .. ▸ hfit)

theorem bwCloseBody_safe (h : WindowsIn s) : bwCloseBody.Safe s fun _ => WindowsIn :=
  (onWriter_safe h (closeWriter_safe h.bw)).bind fun _ _ h => Cmd.Safe.modify_bind (Cmd.Safe.pure ⟨h.bw, h.br, h.rz⟩)

theorem brCloseBody_safe (h : WindowsIn s) : brCloseBody.Safe s fun _ => WindowsIn := by
  refine Cmd.Safe.get_bind (Cmd.Safe.set_bind (Cmd.Safe.pure ?_))
  split_ifs
  · exact ⟨h.bw, fun hopen => (by cases hopen), h.rz⟩
  · exact h

theorem beDecInitBody_safe (h : WindowsIn s) (slot : BitVec 4) : (beDecInitBody slot).Safe s fun _ => WindowsIn := by
  refine Cmd.Safe.get_bind ?_
  cases predSlot slot with
  | none => exact Cmd.Safe.raise _ _ _
  | some k =>
    exact Cmd.Safe.check_then fun _ => (onReader_safe h (readBits_safe h.br)).bind fun _ _ h =>
      Cmd.Safe.modify_bind (Cmd.Safe.pure ⟨h.bw, h.br, h.rz⟩)

theorem beEncDisposeBody_safe (h : WindowsIn s) : beEncDisposeBody.Safe s fun _ => WindowsIn :=
  (checkEncoder_safe h).bind fun _ _ h => Cmd.Safe.get_bind ((onWriter_safe h (writeBits_safe h.bw)).bind fun _ _ h =>
    Cmd.Safe.modify_bind (Cmd.Safe.pure ⟨h.bw, h.br, h.rz⟩))

/-- `ANS_ENC` reads inside the SRC window, which its checks have found to lie in MEM. -/
theorem ansEncBody_safe (h : WindowsIn s) (order : BitVec 8) (n off : BitVec 32) :
    (ansEncBody order n off).Safe s fun _ => WindowsIn := by
  refine Cmd.Safe.check_then fun _ => Cmd.Safe.get_bind (Cmd.Safe.check_then fun hfit => Cmd.Safe.check_then fun hlen => ?_)
  have hfit : s.win.srcBase.toNat + s.win.srcLen.toNat ≤ 2 ^ 32 := of_decide_eq_true (Bool.not_eq_false' .. ▸ hfit)
  rw [decide_eq_false_iff_not, Nat.not_lt] at hlen
  refine Cmd.Safe.check_then fun _ => Cmd.Safe.check_then fun _ => Cmd.Safe.ite (fun _ => h) fun _ => ?_
  refine (onWriter_safe h (writeBits_safe h.bw)).bind fun _ _ h => ?_
  refine (onMem_safe (memReadBytes_safe (by omega))).bind fun _ _ ⟨e, he⟩ => ?_
  have h := he ▸ h.withEnv e
  refine (onWriter_safe h (writeFields_safe h.bw)).bind fun _ _ h => ?_
  refine (onMem_safe (memReadDown_safe (by omega))).bind fun _ _ ⟨e, he⟩ => Cmd.Safe.get_bind ?_
  have h := he ▸ h.withEnv e
  exact (onWriter_safe h (writeFields_safe h.bw)).bind fun _ _ h => h

/-- `ANS_DEC` stores its bytes inside the DST window, which its checks have found to lie in MEM. -/
theorem ansDecBody_safe (h : WindowsIn s) (order : BitVec 8) (n off : BitVec 32) :
    (ansDecBody order n off).Safe s fun _ => WindowsIn := by
  refine Cmd.Safe.check_then fun _ => Cmd.Safe.get_bind (Cmd.Safe.check_then fun hfit => Cmd.Safe.check_then fun hcap => ?_)
  have hfit : s.win.dstBase.toNat + s.win.dstCap.toNat ≤ 2 ^ 32 := of_decide_eq_true (Bool.not_eq_false' .. ▸ hfit)
  rw [decide_eq_false_iff_not, Nat.not_lt] at hcap
  refine Cmd.Safe.check_then fun _ => Cmd.Safe.check_then fun _ => ?_
  have hdec : (onReader (ansDecode (readBits s.par.bufsz) (decide (order = 1)) n.toNat)).Safe s
      fun d t => d.length = n.toNat ∧ WindowsIn t :=
    (onReader_safe h (ansDecode_safe (P := fun t : BitReader × Env => t.1.WindowOk) readBits_safe h.br)).imp
      fun d t hd ht => by
        obtain ⟨_, hd, -⟩ := zoom_eq_ok.mp hd
        exact ⟨ansDecode_length hd, ht⟩
  refine hdec.bind fun d t ⟨hlen, h⟩ => ?_
  refine (onMem_safe (memWriteBytes_safe (by omega))).midway.bind fun _ _ ⟨e, he⟩ => ?_
  exact he ▸ h.withEnv e

/-! ### The commands of the ROLZ unit -/

theorem rzInitBody_safe (h : WindowsIn s) (backend lpc : BitVec 8) : (rzInitBody backend lpc).Safe s fun _ => WindowsIn :=
  Cmd.Safe.check_then fun _ => Cmd.Safe.check_then fun _ =>
    Cmd.Safe.modify_bind (Cmd.Safe.pure ⟨h.bw, h.br, Rolz.WindowOk.of_invalid rfl⟩)

/-- `RZ_CHUNK` latches a chunk that lies in the SRC window, with empty rings. -/
theorem rzChunkBody_safe (h : WindowsIn s) (newblock : Bool) (start size : BitVec 32) :
    (rzChunkBody newblock start size).Safe s fun _ => WindowsIn := by
  refine Cmd.Safe.get_bind (Cmd.Safe.check_then fun _ => Cmd.Safe.check_then fun hfit => Cmd.Safe.check_then fun hsize =>
    Cmd.Safe.check_then fun hlen => Cmd.Safe.set_bind (Cmd.Safe.pure ⟨h.bw, h.br, fun _ => ⟨⟨?_, ?_⟩, ?_, ?_⟩⟩))
  all_goals
    have hfit : s.win.srcBase.toNat + s.win.srcLen.toNat ≤ 2 ^ 32 := of_decide_eq_true (Bool.not_eq_false' .. ▸ hfit)
    rw [decide_eq_false_iff_not, Nat.not_lt] at hsize hlen
  · show size.toNat + 4 ≤ (s.win.srcLen - start).toNat
    rw [BitVec.toNat_sub_of_le (BitVec.le_def.mpr (by omega))]
    omega
  · show (s.win.srcBase + start).toNat + (s.win.srcLen - start).toNat ≤ 2 ^ 32
    rw [BitVec.toNat_sub_of_le (BitVec.le_def.mpr (by omega)), BitVec.toNat_add]
    omega
  · exact hsize
  · exact fun _ h => absurd h List.not_mem_nil

theorem rzFindBody_safe (h : WindowsIn s) (p : BitVec 32) : (rzFindBody p).Safe s fun _ => WindowsIn := by
  refine Cmd.Safe.get_bind (Cmd.Safe.check_then fun hvalid => Cmd.Safe.check_then fun hp => ?_)
  simp only [Bool.or_eq_false_iff, Bool.not_eq_false', decide_eq_false_iff_not, Nat.not_le] at hvalid hp
  obtain ⟨hfits, hsize, hrings⟩ := h.rz hvalid.2
  refine (onRolz_safe h ((findMatch_safe ⟨hfits, rfl, hrings⟩ hp.2 hp.2).imp fun _ u _ hu => ?_)).bind fun _ _ h => h
  obtain ⟨-, hfits', hsize', hrings'⟩ := hu
  exact fun _ => ⟨hfits', hsize' ▸ hsize, hsize'.symm ▸ hrings'⟩

/-- The checks of a block command: past them both windows lie in MEM. -/
theorem checkBlock_safe : (checkBlock s).Safe s fun _ t => t = s ∧ s.win.Fit := by
  refine Cmd.Safe.check_then fun _ => Cmd.Safe.check_then fun hfit => Cmd.Safe.check fun _ => ⟨rfl, ?_⟩
  simp only [Bool.or_eq_false_iff, Bool.not_eq_false'] at hfit
  exact ⟨of_decide_eq_true hfit.1, of_decide_eq_true hfit.2⟩

theorem rzFwdBody_safe (h : WindowsIn s) : rzFwdBody.Safe s fun _ => WindowsIn :=
  Cmd.Safe.get_bind (checkBlock_safe.bind fun _ _ ⟨ht, hw⟩ => Cmd.Safe.check_then fun _ => by
    subst ht
    exact onRolz_safe h ((encodeBlock_safe hw).imp fun _ _ _ hu => Rolz.WindowOk.of_invalid hu))

theorem rzInvBody_safe (h : WindowsIn s) : rzInvBody.Safe s fun _ => WindowsIn :=
  Cmd.Safe.get_bind (checkBlock_safe.bind fun _ _ ⟨ht, hw⟩ => by
    subst ht
    exact onRolz_safe h ((decodeBlock_safe hw).imp fun _ _ _ hu => Rolz.WindowOk.of_invalid hu))

/-! ### Every rule -/

/-- The commands whose rule uses none of the units that latch a window. -/
def latchesNothing (i : Instr) : Bool := !usesWriter i && !usesReader i && !usesRolz i

theorem prInitBody_safe (slot : BitVec 4) (kind : BitVec 8) (arg : BitVec 32) :
    (prInitBody slot kind arg).Safe s fun _ _ => True := by
  refine Cmd.Safe.get_bind ?_
  cases predSlot slot with
  | none => exact Cmd.Safe.raise _ _ _
  | some k =>
    cases predKind kind with
    | none => exact Cmd.Safe.raise _ _ _
    | some x =>
      refine Cmd.Safe.check_then fun _ => ?_
      cases x with
      | none => exact Cmd.Safe.raise _ _ _
      | fixed => trivial
      | localModel => exact Cmd.Safe.check_then fun _ => trivial
      | refined =>
        exact Cmd.Safe.check_then fun _ => Cmd.Safe.check_then fun _ => Cmd.Safe.check_then fun _ =>
          Cmd.Safe.check_then fun _ => trivial
      | external => exact Cmd.Safe.check_then fun _ => trivial

/-- The rules that use no window make no access to MEM. -/
theorem ruleOf_safe_of_latchesNothing (hi : latchesNothing i = true) : (ruleOf i).Safe s fun _ _ => True := by
  cases i with
  | nop | brRead => trivial
  | csrr idx =>
    refine Cmd.Safe.get_bind ?_
    cases readCsr s idx with
    | none => exact Cmd.Safe.raise _ _ _
    | some v => trivial
  | csrw idx v =>
    refine Cmd.Safe.get_bind ?_
    cases writeCsr s idx v with
    | none => exact Cmd.Safe.raise _ _ _
    | some t => trivial
  | apmInit slot variant rate n =>
    refine Cmd.Safe.get_bind (Cmd.Safe.check_then fun _ => ?_)
    cases apmVariant variant with
    | none => exact Cmd.Safe.raise _ _ _
    | some v => exact Cmd.Safe.check_then fun _ => trivial
  | apmGet slot bit pr ctx =>
    exact Cmd.Safe.get_bind (Cmd.Safe.check_then fun _ => Cmd.Safe.check_then fun _ => Cmd.Safe.check_then fun _ => trivial)
  | prInit slot kind arg => exact prInitBody_safe slot kind arg
  | prGet slot =>
    show (prGetBody slot).Safe s _
    unfold prGetBody
    cases predSlot slot with
    | none => exact Cmd.Safe.raise _ _ _
    | some k => exact (onPreds_predGet_safe k).bind fun _ _ _ => trivial
  | prUpdate slot bit =>
    show (prUpdateBody slot bit).Safe s _
    unfold prUpdateBody
    cases predSlot slot with
    | none => exact Cmd.Safe.raise _ _ _
    | some k => exact (onPreds_predUpdate_safe k bit).bind fun _ _ _ => trivial
  | prSetctx slot byte =>
    refine Cmd.Safe.get_bind ?_
    cases predSlot slot with
    | none => exact Cmd.Safe.raise _ _ _
    | some k => exact Cmd.Safe.check_then fun _ => trivial
  | beEncInit slot =>
    refine Cmd.Safe.get_bind ?_
    cases predSlot slot with
    | none => exact Cmd.Safe.raise _ _ _
    | some k => exact Cmd.Safe.check_then fun _ => Cmd.Safe.check_then fun _ => trivial
  | beDecDispose => exact (checkDecoder_safe (P := fun _ => True) trivial).bind fun _ _ _ => trivial
  | beSetpred slot =>
    refine Cmd.Safe.get_bind (Cmd.Safe.check_then fun _ => ?_)
    cases predSlot slot with
    | none => exact Cmd.Safe.raise _ _ _
    | some k => exact Cmd.Safe.check_then fun _ => trivial
  | rzEmitlen l m => exact Cmd.Safe.check_then fun _ => trivial
  | rzReadlen packed =>
    refine Cmd.Safe.check_then fun _ => ?_
    cases readLengths (unpackBytes packed (packed.extractLsb' 0 8).toNat) with
    | none => exact Cmd.Safe.raise _ _ _
    | some x => trivial
  | _ => cases hi

/-- No rule makes an access outside MEM while the latched windows lie in it, and a rule that answers leaves them there. -/
theorem ruleOf_safe (h : WindowsIn s) : (ruleOf i).Safe s fun _ => WindowsIn := by
  cases hl : latchesNothing i with
  | true =>
    have hreset : i ≠ .reset := by
      rintro rfl
      cases hl
    simp only [latchesNothing, Bool.and_eq_true, Bool.not_eq_true'] at hl
    obtain ⟨⟨hbw, hbr⟩, hrz⟩ := hl
    refine ((ruleOf_safe_of_latchesNothing ?_).keeps (ruleOf_keeps hreset)).imp fun _ t _ ht => ?_
    · simp only [latchesNothing, hbw, hbr, hrz, Bool.not_false, Bool.and_self]
    · exact h.of_units (ht.untouched.bw hbw) (ht.untouched.br hbr) (ht.untouched.rz hrz)
  | false =>
    cases i with
    | reset => exact h
    | bwOpen kind => exact bwOpenBody_safe h kind
    | bwBit bit => exact Cmd.Safe.get_bind ((onWriter_safe h (writeBits_safe h.bw)).bind fun _ _ h => h)
    | bwBits len v =>
      exact Cmd.Safe.check_then fun _ => Cmd.Safe.get_bind ((onWriter_safe h (writeBits_safe h.bw)).bind fun _ _ h => h)
    | bwClose => exact bwCloseBody_safe h
    | brOpen kind => exact brOpenBody_safe h kind
    | brBit => exact Cmd.Safe.get_bind (onReader_safe h (readBits_safe h.br))
    | brBits len => exact Cmd.Safe.check_then fun _ => Cmd.Safe.get_bind (onReader_safe h (readBits_safe h.br))
    | brMore => exact Cmd.Safe.get_bind (onReader_safe h (moreBits_safe h.br))
    | brClose => exact brCloseBody_safe h
    | beEncBit bit => exact (checkEncoder_safe h).bind fun _ _ h => (encodeBit_safe h bit).bind fun _ _ h => h
    | beEncBits n v =>
      exact Cmd.Safe.check_then fun _ => (checkEncoder_safe h).bind fun _ _ h => (encodeBits_safe h).bind fun _ _ h => h
    | beEncDispose => exact beEncDisposeBody_safe h
    | beDecInit slot => exact beDecInitBody_safe h slot
    | beDecBit => exact (checkDecoder_safe h).bind fun _ _ h => (decodeBit_safe h).bind fun _ _ h => h
    | beDecBits n => exact Cmd.Safe.check_then fun _ => (checkDecoder_safe h).bind fun _ _ h => decodeBits_safe h
    | ansEnc order n off => exact ansEncBody_safe h order n off
    | ansDec order n off => exact ansDecBody_safe h order n off
    | rzInit backend lpc => exact rzInitBody_safe h backend lpc
    | rzFwd => exact rzFwdBody_safe h
    | rzInv => exact rzInvBody_safe h
    | rzChunk newblock start size => exact rzChunkBody_safe h newblock start size
    | rzFind p => exact rzFindBody_safe h p
    | _ => cases hl

/-! ### A step -/

/-- A command whose rule is safe answers a next state. -/
theorem command_next {op : Byte} {spoil : State → State} {body : Cmd State Word} {Q : Word → State → Prop}
    (h : body.Safe s Q) : ∃ t, command op spoil body s = .next t := by
  rcases command_cases (op := op) (spoil := spoil) (body := body) (s := s) rfl with
    ⟨-, hr⟩ | ⟨-, v, t, -, hr⟩ | ⟨-, e, t, -, hr⟩ | ⟨-, f, t, hb, -⟩
  · exact ⟨_, hr⟩
  · exact ⟨_, hr⟩
  · exact ⟨_, hr⟩
  · obtain ⟨r, hr⟩ := h.of_error hb
    cases hr

theorem exec_next (h : WindowsOk s) (i : Instr) : ∃ t, exec i s = .next t := by
  by_cases hi : i = .reset
  · subst hi
    exact ⟨_, rfl⟩
  by_cases hs : s.live
  · rw [exec_eq_command hi hs]
    exact command_next (ruleOf_safe ((windowsOk_iff s).mp h hs))
  · rw [Bool.not_eq_false] at hs
    rcases exec_faulted hi hs with hx | ⟨v, hx⟩
    · exact ⟨_, hx⟩
    · exact ⟨_, hx⟩

theorem runWord_next (h : WindowsOk s) (w : CmdWord) : ∃ t, runWord w s = .next t := by
  cases hd : decode w with
  | ok i =>
    rw [runWord_of_ok hd]
    exact exec_next h i
  | error e =>
    rw [runWord_of_error hd]
    unfold runIllegal
    split_ifs <;> exact ⟨_, rfl⟩

theorem runAbandoned_next (h : WindowsOk s) (w : CmdWord) (p : Progress) : ∃ t, runAbandoned w p s = .next t := by
  by_cases hs : s.live
  · cases hd : decode w with
    | error e =>
      unfold runAbandoned
      rw [if_neg (by rw [hs]; exact Bool.false_ne_true), hd]
      exact ⟨_, rfl⟩
    | ok i =>
      have hsafe := ruleOf_safe (i := i) ((windowsOk_iff s).mp h hs)
      cases hx : ruleOf i s with
      | ok v t => exact ⟨_, runAbandoned_of_rule p hs hd (.inl ⟨v, hx⟩)⟩
      | error a t =>
        obtain ⟨r, rfl⟩ := hsafe.of_error hx
        exact ⟨_, runAbandoned_of_rule p hs hd (.inr ⟨r, hx⟩)⟩
  · rw [Bool.not_eq_false] at hs
    exact ⟨_, runAbandoned_faulted w p hs⟩

/-- Every step keeps the latched windows in the address space. -/
theorem step_windowsOk {t : State} (h : WindowsOk s) (hstep : step s = .next t) : WindowsOk t := by
  intro ht
  rcases step_live hstep ht with ⟨hl, he⟩ | ⟨i, rest, v, u, -, hl, hb, rfl⟩ | ⟨u, -, rfl | rfl⟩
  · rw [he]
    exact h hl
  · have hs : WindowsIn (s.withInbox rest) := ((windowsOk_iff s).mp h hl).of_units rfl rfl rfl
    have hu : WindowsIn u := (ruleOf_safe hs).of_ok hb
    exact ⟨hu.bw, hu.br, hu.rz⟩
  · exact WindowsOk.reset u ht
  · exact WindowsOk.reset u ht

/-- While the latched windows lie in the address space every step answers a next state. -/
theorem step_next (h : WindowsOk s) : ∃ t, step s = .next t := by
  cases hin : s.inbox with
  | nil => exact ⟨s, step_idle hin⟩
  | cons x rest =>
    rw [step_of_inbox hin]
    have h : WindowsOk (s.withInbox rest) := h
    cases x with
    | command w => exact runWord_next h w
    | rstDuring w p => exact runAbandoned_next h w p
    | rstPin | memWrite | ports => exact ⟨_, rfl⟩

/-- Settles O60: by the safety of every rule, a step keeps the latched windows in the address space, and so meets no fault. -/
theorem latchedWindowsStayInMemory : Obligations.LatchedWindowsStayInMemory :=
  ⟨fun _ _ => step_windowsOk, fun _ => step_next⟩

end Sys2Proof.Machine
end

section
/-!
O1, O2, O3, O5, O6: a command word is its fields side by side, and each field its operands and its zero bits; decoding and
encoding agree because they agree part by part.
-/

namespace Sys2Proof

variable {α β γ δ : Type} {m n : Nat}

/-! ### Parts of a word -/

/-- Bits read from bits read of a word are bits of the word. -/
theorem extractLsb'_extractLsb'_add (w : BitVec m) {start len k l : Nat} (h : start + len ≤ l) :
    (w.extractLsb' k l).extractLsb' start len = w.extractLsb' (k + start) len := by
  refine BitVec.eq_of_getLsbD_eq fun i hi => ?_
  simp only [BitVec.getLsbD_extractLsb', hi, show start + i < l by omega, decide_true, Bool.true_and, Nat.add_assoc]

/-- How `n` bits of a word carry an operand: written by `put`, read from bit `k` of a word on by `get k`, with the bits of
`mask` zero. On the words with those bits zero the two are inverse. -/
structure FieldCode (α : Type) (n : Nat) where
  put : α → BitVec n
  get : {m : Nat} → Nat → BitVec m → α
  mask : BitVec n
  get_put : ∀ x, get 0 (put x) = x
  put_and_mask : ∀ x, put x &&& mask = 0#n
  put_get : ∀ y : BitVec n, y &&& mask = 0#n → put (get 0 y) = y
  get_extract : ∀ {m : Nat} (k : Nat) (w : BitVec m), get k w = get 0 (w.extractLsb' k n)

namespace FieldCode

/-- Reserved bits. -/
def zeros (n : Nat) : FieldCode Unit n where
  put _ := 0#n
  get _ _ := ()
  mask := BitVec.allOnes n
  get_put _ := rfl
  put_and_mask _ := BitVec.zero_and
  put_get y h := by rw [← h, BitVec.and_allOnes]
  get_extract _ _ := rfl

/-- An operand of `n` bits. -/
def bits (n : Nat) : FieldCode (BitVec n) n where
  put x := x
  get k w := w.extractLsb' k n
  mask := 0#n
  get_put _ := BitVec.extractLsb'_eq_self
  put_and_mask _ := BitVec.and_zero
  put_get _ _ := BitVec.extractLsb'_eq_self
  get_extract _ _ := BitVec.extractLsb'_eq_self.symm

/-- An operand of one bit. -/
def bit : FieldCode Bool 1 where
  put b := BitVec.ofBool b
  get k w := w.getLsbD k
  mask := 0#1
  get_put b := by simp
  put_and_mask _ := BitVec.and_zero
  put_get y _ := by
    ext i hi
    obtain rfl : i = 0 := by omega
    simp
  get_extract k w := by simp

/-- One part above another. -/
def above (f : FieldCode α m) (g : FieldCode β n) : FieldCode (α × β) (m + n) where
  put x := f.put x.1 ++ g.put x.2
  get k w := (f.get (k + n) w, g.get k w)
  mask := f.mask ++ g.mask
  get_put x := by
    rw [f.get_extract, g.get_extract, Nat.zero_add, BitVec.extractLsb'_append_eq_left, BitVec.extractLsb'_append_eq_right,
      f.get_put, g.get_put]
  put_and_mask x := by
    rw [BitVec.and_append, f.put_and_mask, g.put_and_mask]
    simp
  put_get y h := by
    have hy : y.extractLsb' n m ++ y.extractLsb' 0 n = y := BitVec.extractLsb'_append_extractLsb'
    rw [← hy, BitVec.and_append] at h
    have hf : y.extractLsb' n m &&& f.mask = 0#m := by
      rw [← BitVec.extractLsb'_append_eq_left (a := _ &&& f.mask), h, BitVec.extractLsb'_zero]
    have hg : y.extractLsb' 0 n &&& g.mask = 0#n := by
      rw [← BitVec.extractLsb'_append_eq_right (b := _ &&& g.mask), h, BitVec.extractLsb'_zero]
    rw [f.get_extract, g.get_extract, Nat.zero_add, f.put_get _ hf, g.put_get _ hg, hy]
  get_extract k w := by
    rw [f.get_extract (k + n), g.get_extract k, f.get_extract (0 + n), g.get_extract 0 (w.extractLsb' k (m + n)),
      extractLsb'_extractLsb'_add w (by omega), extractLsb'_extractLsb'_add w (by omega), Nat.zero_add, Nat.add_zero]

/-- A part below reserved bits. -/
def padded (m : Nat) (g : FieldCode β n) : FieldCode β (m + n) where
  put x := 0#m ++ g.put x
  get k w := g.get k w
  mask := BitVec.allOnes m ++ g.mask
  get_put x := congrArg Prod.snd (((zeros m).above g).get_put ((), x))
  put_and_mask x := ((zeros m).above g).put_and_mask ((), x)
  put_get := ((zeros m).above g).put_get
  get_extract k w := congrArg Prod.snd (((zeros m).above g).get_extract k w)

/-- A slot number as field `a`. -/
def slot : FieldCode (BitVec 4) 8 := padded 4 (bits 4)

/-- A data bit as field `a`. -/
def lowBit : FieldCode Bool 8 := padded 7 bit

/-- A data bit and a slot number as field `a`. -/
def bitSlot : FieldCode ((Bool × Unit) × BitVec 4) 8 := (bit.above (zeros 3)).above (bits 4)

/-- A byte as field `b`. -/
def lowByte : FieldCode (BitVec 8) 16 := padded 8 (bits 8)

/-- The variant and the rate of `APM_INIT` as field `b`. -/
def variantRate : FieldCode ((BitVec 2 × Unit) × BitVec 4) 16 :=
  ((padded 6 (bits 2)).above (zeros 4)).above (bits 4)

/-- A `u32` as field `v`. -/
def lowHalf : FieldCode (BitVec 32) 64 := padded 32 (bits 32)

/-- A command word: the opcode and the four fields (30_encoding.md R101). -/
def word (a : FieldCode α 8) (b : FieldCode β 16) (c : FieldCode γ 32) (v : FieldCode δ 64) :
    FieldCode ((((BitVec 8 × α) × β) × γ) × δ) 128 :=
  ((((bits 8).above a).above b).above c).above v

/-- What the five parts of a command word are read from. -/
theorem word_get (a : FieldCode α 8) (b : FieldCode β 16) (c : FieldCode γ 32) (v : FieldCode δ 64)
    (w : CmdWord) :
    (word a b c v).get 0 w = ((((fieldOpcode w, a.get 112 w), b.get 96 w), c.get 64 w), v.get 0 w) := rfl

end FieldCode

/-! ### The layouts of the commands -/

open FieldCode

/-- The layout of a command in four fields: the row of its opcode reserves their zero bits and reads the operands from
them, and the encoder writes the operands there. -/
inductive LaidOut : Instr → Prop where
  | fields {α β γ δ : Type} (a : FieldCode α 8) (b : FieldCode β 16) (c : FieldCode γ 32) (v : FieldCode δ 64)
    (mk : α → β → γ → δ → Instr) (xa : α) (xb : β) (xc : γ) (xv : δ)
    (row_eq : opcodeRow (mk xa xb xc xv).opcode.toNat =
      some ⟨(word a b c v).mask, fun w => mk (a.get 112 w) (b.get 96 w) (c.get 64 w) (v.get 0 w)⟩ := by exact rfl)
    (encode_eq : ∀ ya yb yc yv,
      encode (mk ya yb yc yv) = (word a b c v).put (((((mk xa xb xc xv).opcode, ya), yb), yc), yv) := by
        exact fun _ _ _ _ => rfl) :
    LaidOut (mk xa xb xc xv)

/-- A command whose operands are all in field `a`. -/
theorem LaidOut.fieldA (a : FieldCode α 8) (mk : α → Instr) (x : α)
    (row_eq : opcodeRow (mk x).opcode.toNat =
      some ⟨(word a (zeros 16) (zeros 32) (zeros 64)).mask, fun w => mk (a.get 112 w)⟩ := by exact rfl)
    (encode_eq : ∀ y, encode (mk y) = commandWord (mk x).opcode (a.put y) 0 0 0 := by exact fun _ => rfl) :
    LaidOut (mk x) :=
  .fields a (zeros 16) (zeros 32) (zeros 64) (fun y _ _ _ => mk y) x () () () row_eq fun y _ _ _ => encode_eq y

/-- A command without operands. -/
theorem LaidOut.bare {i : Instr}
    (row_eq : opcodeRow i.opcode.toNat = some ⟨0x00FFFFFFFFFFFFFFFFFFFFFFFFFFFFFF#128, fun _ => i⟩ := by exact rfl)
    (encode_eq : encode i = commandWord i.opcode 0 0 0 0 := by exact rfl) : LaidOut i :=
  .fieldA (zeros 8) (fun _ => i) () row_eq fun _ => encode_eq

/-- The opcode map and the encoder lay every command out alike (30_encoding.md R105, R111). -/
theorem laidOut : ∀ i : Instr, LaidOut i
  | .nop | .reset | .bwClose | .brBit | .brMore | .brClose | .brRead | .beEncDispose | .beDecBit | .beDecDispose
  | .rzFwd | .rzInv => .bare
  | .csrr idx => .fieldA (bits 8) .csrr idx
  | .bwOpen kind => .fieldA (bits 8) .bwOpen kind
  | .brOpen kind => .fieldA (bits 8) .brOpen kind
  | .brBits len => .fieldA (bits 8) .brBits len
  | .beDecBits n => .fieldA (bits 8) .beDecBits n
  | .bwBit b => .fieldA lowBit .bwBit b
  | .beEncBit b => .fieldA lowBit .beEncBit b
  | .prGet s => .fieldA slot .prGet s
  | .beEncInit s => .fieldA slot .beEncInit s
  | .beDecInit s => .fieldA slot .beDecInit s
  | .beSetpred s => .fieldA slot .beSetpred s
  | .prUpdate s b => .fieldA bitSlot (fun x => .prUpdate x.2 x.1.1) ((b, ()), s)
  | .csrw idx value => .fields (bits 8) (zeros 16) (zeros 32) (bits 64) (fun a _ _ v => .csrw a v) idx () () value
  | .bwBits len value => .fields (bits 8) (zeros 16) (zeros 32) (bits 64) (fun a _ _ v => .bwBits a v) len () () value
  | .beEncBits n value => .fields (bits 8) (zeros 16) (zeros 32) (bits 64) (fun a _ _ v => .beEncBits a v) n () () value
  | .apmInit s variant rate n =>
    .fields slot variantRate (bits 32) (zeros 64) (fun a b c _ => .apmInit a b.1.1 b.2 c) s ((variant, ()), rate) n ()
  | .apmGet s b pr ctx =>
    .fields bitSlot (padded 4 (bits 12)) (bits 32) (zeros 64) (fun a b c _ => .apmGet a.2 a.1.1 b c) ((b, ()), s) pr ctx ()
  | .prInit s kind arg => .fields slot lowByte (bits 32) (zeros 64) (fun a b c _ => .prInit a b c) s kind arg ()
  | .prSetctx s byte => .fields slot lowByte (zeros 32) (zeros 64) (fun a b _ _ => .prSetctx a b) s byte () ()
  | .ansEnc order n off => .fields (bits 8) (zeros 16) (bits 32) lowHalf (fun a _ c v => .ansEnc a c v) order () n off
  | .ansDec order n off => .fields (bits 8) (zeros 16) (bits 32) lowHalf (fun a _ c v => .ansDec a c v) order () n off
  | .rzInit backend lpc =>
    .fields (bits 8) lowByte (zeros 32) (zeros 64) (fun a b _ _ => .rzInit a b) backend lpc () ()
  | .rzChunk newblock start size =>
    .fields lowBit (zeros 16) (bits 32) lowHalf (fun a _ c v => .rzChunk a c v) newblock () start size
  | .rzFind p => .fields (zeros 8) (zeros 16) (bits 32) (zeros 64) (fun _ _ c _ => .rzFind c) () () p ()
  | .rzEmitlen l m => .fields (zeros 8) (bits 16) (bits 32) (zeros 64) (fun _ b c _ => .rzEmitlen c b) () m l ()
  | .rzReadlen packed => .fields (zeros 8) (zeros 16) (zeros 32) (bits 64) (fun _ _ _ v => .rzReadlen v) () () () packed

/-! ### Decoding -/

variable {i : Instr} {w : CmdWord} {row : OpcodeRow}

/-- The words that decode: the opcode has a row, and the bits it reserves are zero (30_encoding.md R107). -/
theorem decode_ok_iff : decode w = .ok i ↔
    ∃ row, opcodeRow (fieldOpcode w).toNat = some row ∧ w &&& row.reserved = 0#128 ∧ row.build w = i := by
  unfold decode
  cases opcodeRow (fieldOpcode w).toNat with
  | none => simp
  | some row => by_cases h : w &&& row.reserved = 0#128 <;> simp [h]

/-- A row is that of the opcode of the commands it builds. -/
theorem opcode_build {op : BitVec 8} (h : opcodeRow op.toNat = some row) (w : CmdWord) : (row.build w).opcode = op := by
  refine BitVec.eq_of_toNat_eq ?_
  unfold opcodeRow at h
  split at h
  all_goals cases h
  all_goals exact Eq.symm ‹_›

/-- Settles O1: what the layout of a command writes it reads back, and its reserved bits are zero. -/
theorem decodeOfEncode : Obligations.DecodeOfEncode := by
  intro i
  obtain ⟨a, b, c, v, mk, xa, xb, xc, xv, row_eq, encode_eq⟩ := laidOut i
  have hget := (word a b c v).get_put (((((mk xa xb xc xv).opcode, xa), xb), xc), xv)
  have hmask := (word a b c v).put_and_mask (((((mk xa xb xc xv).opcode, xa), xb), xc), xv)
  rw [← encode_eq] at hget hmask
  simp only [word_get, Prod.mk.injEq] at hget
  obtain ⟨⟨⟨⟨hop, ha⟩, hb⟩, hc⟩, hv⟩ := hget
  rw [← hop] at row_eq
  exact decode_ok_iff.mpr ⟨_, row_eq, hmask, congr (congr (congrArg₂ mk ha hb) hc) hv⟩

/-- Settles O2: the word is laid out as the command it decodes to, and the layout writes back what it read. -/
theorem encodeOfDecode : Obligations.EncodeOfDecode := by
  intro w i hd
  obtain ⟨row, hrow, hres, hbuild⟩ := decode_ok_iff.mp hd
  have hop : i.opcode = fieldOpcode w := hbuild ▸ opcode_build hrow w
  obtain ⟨a, b, c, v, mk, xa, xb, xc, xv, row_eq, encode_eq⟩ := laidOut i
  rw [← hop, row_eq] at hrow
  cases hrow
  rw [← hbuild, encode_eq, hop]
  exact (word a b c v).put_get w hres

/-- Settles O3: each word is the encoding of its command. -/
theorem writtenWordsDecode : Obligations.WrittenWordsDecode :=
  ⟨decodeOfEncode .nop, decodeOfEncode (.bwBits 12 0xABC), decodeOfEncode (.apmGet 0 true 2048 3),
    decodeOfEncode (.apmInit 2 2 7 256), decodeOfEncode (.prInit 1 1 8), decodeOfEncode (.ansEnc 1 100 16),
    decodeOfEncode (.rzEmitlen 30 7), decodeOfEncode (.csrw 6 1024)⟩

/-! ### Words that are no command -/

/-- The ranges of undefined opcodes (30_encoding.md R106). -/
theorem opcodeRow_undefined {op : Nat} (h : (0x04 ≤ op ∧ op ≤ 0x0F) ∨ (0x14 ≤ op ∧ op ≤ 0x1F) ∨
    (0x26 ≤ op ∧ op ≤ 0x2F) ∨ (0x32 ≤ op ∧ op ≤ 0x3F) ∨ (0x44 ≤ op ∧ op ≤ 0x4F) ∨ (0x59 ≤ op ∧ op ≤ 0x5F) ∨
    (0x62 ≤ op ∧ op ≤ 0x6F) ∨ 0x77 ≤ op) : opcodeRow op = none := by
  unfold opcodeRow
  split
  on_goal 39 => rfl
  all_goals omega

theorem decode_undefined (h : opcodeRow (fieldOpcode w).toNat = none) : decode w = .error .undefinedOpcode := by
  unfold decode
  rw [h]

/-- Every command has a row of the opcode map. -/
theorem opcodeRow_isSome (i : Instr) : ∃ row, opcodeRow i.opcode.toNat = some row := by
  obtain ⟨_, _, _, _, _, _, _, _, _, row_eq, _⟩ := laidOut i
  exact ⟨_, row_eq⟩

/-- A word with the opcode of a command that is the encoding of none has a reserved bit set. -/
theorem decode_reserved (hi : i.opcode = fieldOpcode w) (hw : ∀ j, encode j ≠ w) : decode w = .error .reservedBits := by
  obtain ⟨row, hrow⟩ := opcodeRow_isSome i
  rw [hi] at hrow
  have hres : ¬w &&& row.reserved = 0#128 := fun hres =>
    hw _ (encodeOfDecode w _ (decode_ok_iff.mpr ⟨row, hrow, hres, rfl⟩))
  unfold decode
  rw [hrow]
  exact if_neg hres

end Sys2Proof

namespace Sys2Proof.Machine

variable {s : State} {w : CmdWord} {rest : List HostInput}

/-- Taking an error that a check raised is a failure (60_exceptions.md R396). -/
theorem takeError_errOf (op : Byte) (kind : ErrKind) (sub : Byte) (detail : Nat) (mid : Bool) :
    takeError op (errOf kind sub detail mid) s = s.failed op kind sub.toNat detail := by
  unfold takeError State.failed
  rw [errInfo_eq]
  rfl

/-- A live KZE presented a word that is no command takes the error of that word, and does nothing else. -/
theorem step_of_decode_error {e : DecodeError} (hin : s.inbox = .command w :: rest) (hs : s.live)
    (hd : decode w = .error e) : step s = .next (takeError (fieldOpcode w) (decodeErr e) (s.withInbox rest)) := by
  have hf : ¬(s.withInbox rest).latch.err = true := by simp [hs]
  rw [step_of_inbox hin]
  show runWord w _ = _
  rw [runWord_of_error hd]
  exact if_neg hf

/-- Settles O5: the opcode map has no row in these ranges. -/
theorem undefinedOpcodeIsUnsupported : Obligations.UndefinedOpcodeIsUnsupported := by
  intro s w rest hin hs hop
  rw [step_of_decode_error hin hs (decode_undefined (opcodeRow_undefined hop))]
  exact congrArg _ (takeError_errOf _ .unsupported 0 0 false)

/-- Settles O6: a word that decoded would be an encoding, so its opcode has a row and a reserved bit is set. -/
theorem reservedBitIsInvalidParameter : Obligations.ReservedBitIsInvalidParameter := by
  intro s w rest hin hs ⟨i, hi⟩ hw
  rw [step_of_decode_error hin hs (decode_reserved hi hw)]
  exact congrArg _ (takeError_errOf _ .invalidParameter 1 0 false)

end Sys2Proof.Machine
end

section
/-!
O12, O16: how a live KZE ends a command, and the opening of a stream, which the writer and the reader do by one rule.
-/

namespace Sys2Proof.Machine

variable {s t : State} {i : Instr}

/-! ### How a live KZE ends a command -/

/-- A rule that answers a value completes its command. -/
theorem exec_completes (hi : i ≠ .reset) (hs : s.live) {v : Word} (h : ruleOf i s = .ok v t) :
    exec i s = .next (t.completed v) :=
  (exec_eq_command hi hs).trans (command_completes hs h)

/-- A rule that a check ends fails its command. -/
theorem exec_fails (hi : i ≠ .reset) (hs : s.live) {k : ErrKind} {sub : Byte} {detail : Nat}
    (h : ruleOf i s = .error (.raise (errOf k sub detail false)) t) :
    exec i s = .next (t.failed i.opcode k sub.toNat detail) :=
  (exec_eq_command hi hs).trans (command_fails hs h)

/-! ### Opening a stream -/

theorem streamKind_none {kind : BitVec 8} (h : 1 < kind.toNat) : streamKind kind = none := by
  have h0 : kind ≠ 0#8 := fun he => absurd h (by rw [he]; decide)
  have h1 : kind ≠ 1#8 := fun he => absurd h (by rw [he]; decide)
  rw [streamKind, if_neg h0, if_neg h1]

theorem streamKind_port {kind : BitVec 8} (h : kind.toNat = 0) : streamKind kind = some .port := by
  rw [BitVec.eq_of_toNat_eq (y := 0#8) h]
  rfl

theorem streamKind_window {kind : BitVec 8} (h : kind.toNat = 1) : streamKind kind = some .window := by
  rw [BitVec.eq_of_toNat_eq (y := 1#8) h]
  rfl

theorem windowFits_iff {base len : BitVec 32} : windowFits base len = true ↔ fits base len := decide_eq_true_iff

/-- What `BW_OPEN` and `BR_OPEN` share (40_bitstream.md R132, R141): the checks in order, then the stream opened on the port
or on the window. -/
def openRule (isOpen : State → Bool) (base len : State → BitVec 32) (port window : State → State) (kind : BitVec 8) :
    Cmd State Word := do
  let s ← get
  match streamKind kind with
  | none => raise .invalidParameter 2
  | some .port => do
    check (isOpen s) .invalidParameter 6
    set (port s)
    pure 0
  | some .window => do
    check (isOpen s) .invalidParameter 6
    check (!windowFits (base s) (len s)) .invalidParameter 4
    set (window s)
    pure 0

/-- Every case of opening a stream. -/
theorem exec_of_openRule {isOpen : State → Bool} {base len : State → BitVec 32} {port window : State → State}
    {kind : BitVec 8} (hi : i ≠ .reset) (hs : s.live) (hrule : ruleOf i = openRule isOpen base len port window kind) :
    (1 < kind.toNat → exec i s = .next (s.failed i.opcode .invalidParameter 2)) ∧
    (kind.toNat ≤ 1 → isOpen s = true → exec i s = .next (s.failed i.opcode .invalidParameter 6)) ∧
    (kind.toNat = 1 → isOpen s = false → ¬fits (base s) (len s) →
      exec i s = .next (s.failed i.opcode .invalidParameter 4)) ∧
    (kind.toNat = 0 → isOpen s = false → exec i s = .next ((port s).completed 0)) ∧
    (kind.toNat = 1 → isOpen s = false → fits (base s) (len s) → exec i s = .next ((window s).completed 0)) := by
  simp only [← windowFits_iff]
  refine ⟨fun hk => exec_fails (sub := 2) hi hs ?_, fun hk ho => exec_fails (sub := 6) hi hs ?_,
    fun hk ho hfit => exec_fails (sub := 4) hi hs ?_, fun hk ho => exec_completes hi hs ?_,
    fun hk ho hfit => exec_completes hi hs ?_⟩ <;> rw [hrule, openRule, Cmd.get_bind]
  · rw [streamKind_none hk]
    rfl
  · rcases Nat.le_one_iff_eq_zero_or_eq_one.mp hk with h0 | h1
    · rw [streamKind_port h0]
      simp only [ho, check_bind, if_true]
    · rw [streamKind_window h1]
      simp only [ho, check_bind, if_true]
  · rw [streamKind_window hk]
    simp only [ho, hfit, check_bind, Bool.not_false, Bool.false_eq_true, if_false, if_true]
  · rw [streamKind_port hk]
    simp only [ho, check_bind, Bool.false_eq_true, if_false, Cmd.set_bind, Cmd.pure_run]
  · rw [streamKind_window hk]
    simp only [ho, hfit, check_bind, Bool.not_true, Bool.false_eq_true, if_false, Cmd.set_bind, Cmd.pure_run]

/-- Settles O12: `BW_OPEN` is the rule of opening a stream, on the writer and the DST window. -/
theorem bwOpenStartsEmptyStream : Obligations.BwOpenStartsEmptyStream := fun _ kind hs =>
  exec_of_openRule (i := .bwOpen kind) (isOpen := fun s => s.bw.isOpen) (base := fun s => s.win.dstBase)
    (len := fun s => s.win.dstCap) (port := fun s => s.withBw (s.bw.opened .port))
    (window := fun s => s.withBw ({ s.bw with base := s.win.dstBase, cap := s.win.dstCap }.opened .window)) nofun hs rfl

/-- Settles O16: `BR_OPEN` is the rule of opening a stream, on the reader and the SRC window. -/
theorem brOpenStartsAtSource : Obligations.BrOpenStartsAtSource := fun _ kind hs =>
  exec_of_openRule (i := .brOpen kind) (isOpen := fun s => s.br.isOpen) (base := fun s => s.win.srcBase)
    (len := fun s => s.win.srcLen) (port := fun s => s.withBr (s.br.opened .port))
    (window := fun s => s.withBr ({ s.br with base := s.win.srcBase, len := s.win.srcLen }.opened .window)) nofun hs rfl

end Sys2Proof.Machine
end

section
/-!
O13, O14, O15: what the commands of the bit writer do, and the checks of the commands that write.
-/

namespace Sys2Proof.Machine

variable {α : Type} {s : State}

/-! ### Bits appended -/

/-- A write that an open writer has room for, in a rule that reads the state first. -/
theorem onWriter_writeBits_of (hpar : s.par.ok = true) (hopen : s.bw.isOpen = true) (hok : WriterOk s.par.bufsz s.bw)
    (he : s.env.neverFails) (value : Word) {len : Nat} (hlen : len ≤ 64) (hroom : s.bw.hasRoom len) :
    ∃ w e, onWriter (writeBits s.par.bufsz value len) s = .ok () { s with bw := w, env := e } ∧
      w.bits = s.bw.bits ++ bitsOf value len ∧ w.isOpen = true ∧ WriterOk s.par.bufsz w ∧ Delivered s.bw s.env w e := by
  obtain ⟨hb, hb8⟩ := Params.bufsz_of_ok hpar
  obtain ⟨l, w, hw, hwok, hwopen, hkind, hbase, hcap, hbits, hsent, hl⟩ :=
    writeBits_of ⟨by omega, hb8⟩ hopen hok he value hlen hroom
  exact ⟨w, s.env.delivered s.bw l, onWriter_of hw, hbits, hwopen, hwok, Delivered.intro hkind hbase hcap hsent hl⟩

/-- Settles O13: both commands are one write of the writer. -/
theorem bwBitsAppendsBits : Obligations.BwBitsAppendsBits := by
  intro s len value bit hs hpar hopen hok he
  refine ⟨fun hlen hroom => ?_, fun hroom => ?_⟩
  · obtain ⟨w, e, hw, hpost⟩ := onWriter_writeBits_of hpar hopen hok he value hlen hroom
    refine ⟨w, e, exec_completes (i := .bwBits len value) nofun hs ?_, hpost⟩
    rw [ruleOf, bwBitsBody, check_bind, if_neg (by simpa using hlen), Cmd.get_bind, Cmd.bind_of_ok _ hw]
    rfl
  · obtain ⟨w, e, hw, hbits, hpost⟩ :=
      onWriter_writeBits_of hpar hopen hok he ((BitVec.ofBool bit).setWidth 64) (by decide) hroom
    refine ⟨w, e, exec_completes (i := .bwBit bit) nofun hs ?_, ?_, hpost⟩
    · rw [ruleOf, bwBitBody, Cmd.get_bind, Cmd.bind_of_ok _ hw]
      rfl
    · rw [hbits]
      cases bit <;> rfl

/-! ### Writes that fail their checks -/

/-- A piece over the writer that a check ends at once. -/
theorem onWriter_of_error {x : Cmd (BitWriter × Env) α} {a : Abort} (h : x (s.bw, s.env) = .error a (s.bw, s.env)) :
    onWriter x s = .error a s := zoom_eq_error.mpr ⟨(s.bw, s.env), h, rfl⟩

theorem onWriter_writeBits_closed (hopen : s.bw.isOpen = false) (value : Word) (len : Nat) :
    onWriter (writeBits s.par.bufsz value len) s = .error (.raise (errOf .ioError 1 0 false)) s := by
  refine onWriter_of_error ?_
  rw [writeBits, Cmd.get_bind]
  simp only [hopen, Bool.not_false, check_bind, if_true]

theorem onWriter_writeBits_full (hopen : s.bw.isOpen = true) (value : Word) {len : Nat} (hroom : ¬s.bw.hasRoom len) :
    onWriter (writeBits s.par.bufsz value len) s =
      .error (.raise (errOf .bufferTooSmall 1 (bytesFor (s.bw.count + len)) false)) s := by
  obtain ⟨hkind, hcap⟩ := Classical.not_imp.mp hroom
  rw [Nat.not_le] at hcap
  refine onWriter_of_error ?_
  rw [writeBits, Cmd.get_bind]
  simp only [hopen, hkind, hcap, Bool.not_true, Bool.false_eq_true, check_bind, decide_true, Bool.and_self, if_true,
    if_false]

theorem onWriter_closeWriter_closed (hopen : s.bw.isOpen = false) :
    onWriter closeWriter s = .error (.raise (errOf .ioError 1 0 false)) s := by
  refine onWriter_of_error ?_
  rw [closeWriter, Cmd.get_bind]
  simp only [hopen, Bool.not_false, check_bind, if_true]

/-- The rules of `BW_BITS` and `BW_BIT` fail as their write fails. -/
theorem bwBitsBody_of_error {len : BitVec 8} {value : Word} {a : Abort} {t : State} (hlen : len.toNat ≤ 64)
    (h : onWriter (writeBits s.par.bufsz value len.toNat) s = .error a t) : bwBitsBody len value s = .error a t := by
  rw [bwBitsBody, check_bind, if_neg (by simpa using hlen), Cmd.get_bind, Cmd.bind_of_error _ h]

theorem bwBitBody_of_error {bit : Bool} {a : Abort} {t : State}
    (h : onWriter (writeBits s.par.bufsz ((BitVec.ofBool bit).setWidth 64) 1) s = .error a t) :
    bwBitBody bit s = .error a t := by
  rw [bwBitBody, Cmd.get_bind, Cmd.bind_of_error _ h]

theorem bwBitsBody_long {len : BitVec 8} (hlen : 64 < len.toNat) (value : Word) :
    bwBitsBody len value s = .error (.raise (errOf .invalidParameter 2 0 false)) s := by
  rw [bwBitsBody, check_bind, if_pos (by simpa using hlen)]

/-- The check of the encoder's commands, in the mode of encoding: the writer is open. -/
theorem checkEncoder_closed (hmode : s.be.mode = .enc) (hopen : s.bw.isOpen = false) :
    checkEncoder s = .error (.raise (errOf .ioError 1 0 false)) s := by
  rw [checkEncoder, Cmd.get_bind]
  simp only [hmode, hopen, ne_eq, not_true_eq_false, decide_false, Bool.not_false, Bool.false_eq_true, check_bind,
    check_run, if_true, if_false]

theorem ansEncBody_closed {order : BitVec 8} {n off : BitVec 32} (horder : order.toNat ≤ 1)
    (hfit : fits s.win.srcBase s.win.srcLen) (hlen : off.toNat + n.toNat ≤ s.win.srcLen.toNat) (hopen : s.bw.isOpen = false) :
    ansEncBody order n off s = .error (.raise (errOf .ioError 1 0 false)) s := by
  rw [ansEncBody, check_bind, if_neg (by simpa using horder), Cmd.get_bind, check_bind,
    if_neg (by rw [windowFits_iff.mpr hfit]; exact Bool.false_ne_true), check_bind, if_neg (by simpa using hlen), check_bind,
    if_pos (by rw [hopen]; rfl)]

/-- Settles O14: the checks of the commands that write, one after the other. -/
theorem writeChecksChangeNothing : Obligations.WriteChecksChangeNothing := by
  intro s len value bit order n off hs
  refine ⟨fun hlen => exec_fails (i := .bwBits len value) (sub := 2) nofun hs (bwBitsBody_long hlen value),
    fun hopen => ⟨?_, fun hlen => ?_, ?_, fun hmode => ?_, fun horder hfit hlen => ?_⟩,
    fun hopen => ⟨fun hlen hroom => ?_, fun hroom => ?_⟩⟩
  · exact exec_fails (i := .bwBit bit) (sub := 1) nofun hs (bwBitBody_of_error (onWriter_writeBits_closed hopen _ _))
  · exact exec_fails (i := .bwBits len value) (sub := 1) nofun hs
      (bwBitsBody_of_error hlen (onWriter_writeBits_closed hopen _ _))
  · exact exec_fails (i := .bwClose) (sub := 1) nofun hs (Cmd.bind_of_error _ (onWriter_closeWriter_closed hopen))
  · have hcheck := checkEncoder_closed hmode hopen
    refine ⟨exec_fails (i := .beEncBit bit) (sub := 1) nofun hs (Cmd.bind_of_error _ hcheck), fun hlen => ?_,
      exec_fails (i := .beEncDispose) (sub := 1) nofun hs (Cmd.bind_of_error _ hcheck)⟩
    refine exec_fails (i := .beEncBits len value) (sub := 1) nofun hs ?_
    rw [ruleOf, beEncBitsBody, check_bind, if_neg (by simpa using hlen), Cmd.bind_of_error _ hcheck]
  · exact exec_fails (i := .ansEnc order n off) (sub := 1) nofun hs (ansEncBody_closed horder hfit hlen hopen)
  · exact exec_fails (i := .bwBits len value) (sub := 1) nofun hs
      (bwBitsBody_of_error hlen (onWriter_writeBits_full hopen value hroom))
  · exact exec_fails (i := .bwBit bit) (sub := 1) nofun hs (bwBitBody_of_error (onWriter_writeBits_full hopen _ hroom))

/-! ### Closing -/

/-- Settles O15: the writer is closed as `closeWriter` says, and nothing is raced on that a closed stream could give back. -/
theorem bwCloseDeliversEverything : Obligations.BwCloseDeliversEverything := by
  intro s hs _ hopen hok he
  obtain ⟨w, hw, hbits, hcount, hsent, hclosed, hkind, hbase, hcap, hlen, hpending⟩ := closeWriter_of hopen hok he
  refine ⟨w, s.env.delivered s.bw s.bw.pending, exec_completes (i := .bwClose) nofun hs ?_, hbits, hcount, hsent, hclosed,
    Delivered.intro hkind hbase hcap hlen hpending⟩
  have hdirtied : (s.env.delivered s.bw s.bw.pending).dirtied = [] := (Env.delivered_neverFails _ _ he).1.2.2
  rw [ruleOf, bwCloseBody, Cmd.bind_of_ok _ (onWriter_of hw), Cmd.modify_bind, Cmd.pure_run, State.release_of _ hdirtied]
  rfl

end Sys2Proof.Machine
end

section
/-!
O17, O18, O19: what the commands of the bit reader do.
-/

namespace Sys2Proof.Machine

variable {s : State} {bufsz : Nat} {r : BitReader} {e : Env}

/-! ### Bits read -/

/-- A read of bits that remain, in a rule that reads the state first. -/
theorem onReader_readBits_of (hpar : s.par.ok = true) (hopen : s.br.isOpen = true) (hok : ReaderOk s.par.bufsz s.br)
    (he : s.env.neverFails) {len : Nat} (hlen : len ≤ 64) (hrem : len ≤ (remainingBits s.br s.env).length) :
    ∃ r e, onReader (readBits s.par.bufsz len) s =
        .ok (BitVec.ofNat 64 (bitsNat ((remainingBits s.br s.env).take len))) { s with br := r, env := e } ∧
      r.count = s.br.count + len ∧ remainingBits r e = (remainingBits s.br s.env).drop len ∧ ReaderOk s.par.bufsz r ∧
      Fetched s.br s.env r e := by
  obtain ⟨hb, -⟩ := Params.bufsz_of_ok hpar
  obtain ⟨r, n, e, hr, htook, hrok, hropen, hkind, hbase, hlen', hcount, hfetched, hrest⟩ :=
    readBits_of hb hlen hopen hok he hrem
  exact ⟨r, e, onReader_of hr, hcount, hrest, hrok, Fetched.intro htook hropen hkind hbase hlen' hfetched⟩

/-- Past its check, `BR_BITS` is one read. -/
theorem brBitsBody_run {len : BitVec 8} (hlen : len.toNat ≤ 64) :
    brBitsBody len s = onReader (readBits s.par.bufsz len.toNat) s := by
  rw [brBitsBody, check_bind, if_neg (by simpa using hlen), Cmd.get_bind]

/-- Settles O17: both commands are one read of the reader. -/
theorem brBitsAnswersNextBits : Obligations.BrBitsAnswersNextBits := by
  intro s len hs hpar hopen hok he
  refine ⟨fun hlen hrem => ?_, fun hrem => ?_⟩
  · obtain ⟨r, e, hr, hpost⟩ := onReader_readBits_of hpar hopen hok he hlen hrem
    exact ⟨r, e, exec_completes (i := .brBits len) nofun hs ((brBitsBody_run hlen).trans hr), hpost⟩
  · obtain ⟨r, e, hr, hpost⟩ := onReader_readBits_of hpar hopen hok he (by decide) hrem
    exact ⟨r, e, exec_completes (i := .brBit) nofun hs hr, hpost⟩

/-! ### Reads past the end -/

theorem onReader_readBits_closed (hopen : s.br.isOpen = false) {len : Nat} (hlen : 1 ≤ len) :
    onReader (readBits s.par.bufsz len) s = .error (.raise (errOf .endOfStream 1 0 false)) s := by
  refine zoom_eq_error.mpr ⟨(s.br, s.env), ?_, rfl⟩
  rw [readBits, Cmd.get_bind]
  simp only [hopen, hlen, Bool.not_false, decide_true, Bool.and_self, check_bind, if_true]

/-- A read of more bits than remain, in a rule that reads the state first. -/
theorem onReader_readBits_short (hpar : s.par.ok = true) (hopen : s.br.isOpen = true) (hok : ReaderOk s.par.bufsz s.br)
    (he : s.env.neverFails) {len : Nat} (hlen : len ≤ 64) (hrem : (remainingBits s.br s.env).length < len) :
    ∃ r e, onReader (readBits s.par.bufsz len) s =
        .error (.raise (errOf .endOfStream 2 0 false)) { s with br := r, env := e } ∧
      r.count = s.br.count ∧ remainingBits r e = remainingBits s.br s.env ∧ Fetched s.br s.env r e := by
  obtain ⟨hb, -⟩ := Params.bufsz_of_ok hpar
  obtain ⟨r, n, e, hr, htook, hropen, hkind, hbase, hlen', hcount, hfetched, hrest⟩ :=
    readBits_short hb hlen hopen hok he hrem
  exact ⟨r, e, zoom_eq_error.mpr ⟨(r, e), hr, rfl⟩, hcount, hrest, Fetched.intro htook hropen hkind hbase hlen' hfetched⟩

/-- A read of no bits takes none, from any reader. -/
theorem BitReader.take_zero (r : BitReader) : r.take 0 = (0, r) := by
  rw [BitReader.take, if_pos (Nat.zero_le _), Nat.pow_zero, Nat.mod_one]
  rfl

/-- A read of no bits answers 0 and changes nothing, also on a closed reader (40_bitstream.md R148; log entry 8). -/
theorem readBits_zero : readBits bufsz 0 (r, e) = .ok 0 (r, e) := by
  have hfill : fill bufsz 0 (r, e) = .ok () (r, e) := by
    rw [fill, Cmd.get_bind]
    simp only [Nat.not_lt_zero, if_false, Cmd.pure_run]
  have hcheck : (!r.isOpen && decide (1 ≤ 0)) = false := Bool.and_false _
  rw [readBits, Cmd.get_bind]
  simp only [hcheck, check_bind, Bool.false_eq_true, if_false]
  rw [Cmd.bind_of_ok _ hfill, Cmd.get_bind]
  simp only [Nat.not_lt_zero, decide_false, check_bind, Bool.false_eq_true, if_false, BitReader.take_zero, Cmd.set_bind,
    Cmd.pure_run]

/-- Settles O18: the check of the length, then the two ways in which a read finds too few bits. -/
theorem readsPastEndConsumeNothing : Obligations.ReadsPastEndConsumeNothing := by
  intro s len hs
  refine ⟨fun hlen => ?_, fun hopen => ⟨?_, fun hpos hlen => ?_⟩, ?_, fun hpar hopen hok he =>
    ⟨fun hlen hrem => ?_, fun hrem => ?_⟩⟩
  · refine exec_fails (i := .brBits len) (sub := 2) nofun hs ?_
    rw [ruleOf, brBitsBody, check_bind, if_pos (by simpa using hlen)]
  · exact exec_fails (i := .brBit) (sub := 1) nofun hs (onReader_readBits_closed hopen (Nat.le_refl 1))
  · exact exec_fails (i := .brBits len) (sub := 1) nofun hs
      ((brBitsBody_run hlen).trans (onReader_readBits_closed hopen hpos))
  · exact exec_completes (i := .brBits 0) nofun hs ((brBitsBody_run (by decide)).trans (onReader_of readBits_zero))
  · obtain ⟨r, e, hr, hpost⟩ := onReader_readBits_short hpar hopen hok he hlen hrem
    exact ⟨r, e, exec_fails (i := .brBits len) (sub := 2) nofun hs ((brBitsBody_run hlen).trans hr), hpost⟩
  · obtain ⟨r, e, hr, hcount, -, hfetched⟩ := onReader_readBits_short (len := 1) hpar hopen hok he (by decide)
      (by rw [hrem]; exact Nat.one_pos)
    exact ⟨r, e, exec_fails (i := .brBit) (sub := 2) nofun hs hr, hcount, hfetched⟩

/-! ### Whether bits remain, and closing -/

theorem moreBits_closed (hopen : r.isOpen = false) : moreBits bufsz (r, e) = .ok 0 (r, e) := by
  rw [moreBits, Cmd.get_bind]
  simp only [hopen, Bool.false_eq_true, if_false, Cmd.pure_run]

/-- What `moreBits` answers on an open reader when nothing fails: after the fill a bit is on hand just when one remains. -/
theorem moreBits_of (hb : 8 ≤ bufsz) (hopen : r.isOpen = true) (hok : ReaderOk bufsz r) (he : e.neverFails) :
    ∃ u e', moreBits bufsz (r, e) = .ok (if remainingBits r e = [] then 0 else 1) (u, e') ∧ u.count = r.count ∧
      remainingBits u e' = remainingBits r e ∧ ReaderOk bufsz u ∧ Fetched r e u e' ∧
      (r.kind = .port → remainingBits r e = [] → e'.srcEnd = true) := by
  obtain ⟨u, n, e', hfill, htook, huok, huopen, hkind, hbase, hlen, hcount, hfetched, hrest, hhand, hend⟩ :=
    fill_of hb (by decide : 1 ≤ 64) hok he
  have hle : u.onHand ≤ (remainingBits r e).length := by
    rw [← hrest, remainingBits_eq, List.length_append, BitReader.hand_length]
    exact Nat.le_add_right _ _
  have hmore : 1 ≤ u.onHand ↔ remainingBits r e ≠ [] := by
    rw [← List.length_pos_iff]
    omega
  refine ⟨u, e', ?_, hcount, hrest, huok, Fetched.intro htook huopen hkind hbase hlen hfetched, fun hport hnone =>
    hend hport (Nat.lt_of_not_le fun h => hmore.mp h hnone)⟩
  rw [moreBits, Cmd.get_bind]
  simp only [hopen, if_true]
  rw [Cmd.bind_of_ok _ hfill, Cmd.get_bind]
  simp only [hmore, ne_eq, ite_not, Cmd.pure_run]

/-- Settles O19: `BR_MORE` fills and looks, `BR_CLOSE` and `BR_READ` answer the count. -/
theorem brMoreCloseAndRead : Obligations.BrMoreCloseAndRead := by
  intro s hs
  refine ⟨fun hopen => ?_, fun hpar hopen hok he => ?_, fun hopen => ?_, fun hopen => ?_, ?_⟩
  · exact exec_completes (i := .brMore) nofun hs (onReader_of (moreBits_closed hopen))
  · obtain ⟨r, e, hr, hpost⟩ := moreBits_of (Params.bufsz_of_ok hpar).1 hopen hok he
    exact ⟨r, e, exec_completes (i := .brMore) nofun hs (onReader_of hr), hpost⟩
  · refine exec_completes (i := .brClose) nofun hs ?_
    rw [ruleOf, brCloseBody, Cmd.get_bind, Cmd.set_bind, if_neg (ne_true_of_eq_false hopen), Cmd.pure_run]
  · refine exec_completes (i := .brClose) nofun hs ?_
    rw [ruleOf, brCloseBody, Cmd.get_bind, Cmd.set_bind, if_pos hopen, Cmd.pure_run]
    rfl
  · exact exec_completes (i := .brRead) nofun hs rfl

end Sys2Proof.Machine
end

section
/-!
O20, O21, O22: the adaptive probability maps: what `APM_INIT` writes, the arithmetic of an update, and what `APM_GET`
answers.
-/

namespace Sys2Proof.Machine

variable {s : State}

/-! ### The arithmetic of an update (41_apm.md R173, R174) -/

/-- The floor of a negative quotient is the negated ceiling: an update under a 0. -/
theorem asr_neg (e k : Nat) : asr (-e) k = -((e + 2 ^ k - 1) / 2 ^ k : Nat) := by
  have hd : 0 < 2 ^ k := Nat.two_pow_pos k
  have hdiv := Nat.div_add_mod (e + 2 ^ k - 1) (2 ^ k)
  have hmod := Nat.mod_lt (e + 2 ^ k - 1) hd
  have hcast : (2 : Int) ^ k = (2 ^ k : Nat) := by push_cast; rfl
  rw [asr, hcast]
  generalize 2 ^ k = d at *
  refine ((Int.ediv_emod_unique (r := d - 1 - ((e + d - 1) % d : Nat)) (Int.natCast_pos.mpr hd)).mpr ⟨?_, ?_, ?_⟩).1
  · rw [Int.mul_neg, ← Int.natCast_mul]
    omega
  · omega
  · omega

/-- The target of a 1 lies one whole step above 65534. -/
theorem asr_add_pow {e : Nat} (he : e ≤ 65534) (k : Nat) :
    asr (65536 + 2 ^ k - 2 - e) k = (1 + (65534 - e) / 2 ^ k : Nat) := by
  have hd : (2 : Int) ^ k ≠ 0 := by positivity
  have hsplit : (65536 + 2 ^ k - 2 - e : Int) = (65534 - e : Nat) + 2 ^ k := by omega
  rw [asr, hsplit, Int.add_ediv_of_dvd_right (dvd_refl _), Int.ediv_self hd]
  push_cast
  exact Int.add_comm _ _

/-- The largest entry misses the target of a 1 by less than one step. -/
theorem asr_top (k : Nat) : asr (65536 + 2 ^ k - 2 - 65535) k = 0 := by
  have hd : (0 : Int) < 2 ^ k := by positivity
  exact Int.ediv_eq_zero_of_lt (by omega) (by omega)

/-- A step down never passes 0. -/
theorem ceilDiv_pow_le (e k : Nat) : (e + 2 ^ k - 1) / 2 ^ k ≤ e := by
  have hd : 0 < 2 ^ k := Nat.two_pow_pos k
  have hmul : e ≤ e * 2 ^ k := Nat.le_mul_of_pos_right e hd
  rw [← Nat.lt_succ_iff, Nat.div_lt_iff_lt_mul hd, Nat.succ_mul]
  omega

/-- The entry stays in 16 bits without a clamp. -/
theorem apmNext_le (rate : Nat) (bit : Bool) {e : Nat} (he : e ≤ 65535) : apmNext rate bit e ≤ 65535 := by
  have hup : (65534 - e) / 2 ^ rate ≤ 65534 - e := Nat.div_le_self _ _
  cases bit with
  | false => exact (Nat.sub_le _ _).trans he
  | true =>
    simp only [apmNext, if_true]
    split_ifs <;> omega

theorem apmNext_entry_le (rate : Nat) (bit : Bool) (e : Prob16) : apmNext rate bit e.toNat ≤ 65535 :=
  apmNext_le rate bit (Nat.le_of_lt_succ e.isLt)

/-- The formula of R173 is the plain arithmetic of R174. -/
theorem apmUpdated_toNat (rate : BitVec 4) (bit : Bool) (e : Prob16) :
    (apmUpdated rate bit e).toNat = apmNext rate.toNat bit e.toNat := by
  have hbound := apmNext_entry_le rate.toNat bit e
  suffices hint : apmUpdated rate bit e = BitVec.ofInt 16 (apmNext rate.toNat bit e.toNat) by
    rw [hint, BitVec.ofInt_natCast, BitVec.toNat_ofNat, Nat.mod_eq_of_lt (Nat.lt_succ_of_le hbound)]
  refine congrArg (BitVec.ofInt 16) ?_
  cases bit with
  | false =>
    have hle := ceilDiv_pow_le e.toNat rate.toNat
    simp only [Bool.false_eq_true, if_false, Int.zero_mul, Int.add_zero, Int.sub_zero, Int.zero_sub, asr_neg, apmNext]
    omega
  | true =>
    simp only [if_true, Int.one_mul, apmNext]
    split_ifs with htop
    · rw [htop]
      exact congrArg (65535 + ·) (asr_top rate.toNat)
    · rw [asr_add_pow (by have := e.isLt; omega)]
      omega

/-! ### The entries of a slot -/

@[simp] theorem ApmSlot.update_variant (a : ApmSlot) (i : Nat) (bit : Bool) : (a.update i bit).variant = a.variant := rfl
@[simp] theorem ApmSlot.update_rate (a : ApmSlot) (i : Nat) (bit : Bool) : (a.update i bit).rate = a.rate := rfl

/-- An update of an entry, read at every index. -/
theorem ApmSlot.update_entry (a : ApmSlot) (i j : Nat) (bit : Bool) :
    ((a.update i bit).entry j).toNat =
      if j = i then apmNext a.rate.toNat bit (a.entry i).toNat else (a.entry j).toNat := by
  have hset : (a.update i bit).entry j = if j = i then apmUpdated a.rate bit (a.entry i) else a.entry j :=
    Store.get_set _ _ _ _ _
  rw [hset, apply_ite BitVec.toNat, apmUpdated_toNat]

/-- An update of an entry and the next one, read at every index: the first leaves the second alone. -/
theorem ApmSlot.update_update_entry (a : ApmSlot) (i j : Nat) (bit : Bool) :
    (((a.update i bit).update (i + 1) bit).entry j).toNat =
      if j = i then apmNext a.rate.toNat bit (a.entry i).toNat
      else if j = i + 1 then apmNext a.rate.toNat bit (a.entry (i + 1)).toNat else (a.entry j).toNat := by
  simp only [update_entry, update_rate, if_neg (Nat.succ_ne_self i)]
  by_cases hj : j = i
  · rw [if_pos hj, if_neg (by omega), if_pos hj]
  · rw [if_neg hj, if_neg hj]

/-- Settles O21: what the update leaves at every index, and the range of R174. -/
theorem apmUpdateStaysInRange : Obligations.ApmUpdateStaysInRange := fun a i j bit =>
  ⟨a.update_entry i j bit, apmNext_entry_le a.rate.toNat bit (a.entry i)⟩

/-! ### A fresh table (41_apm.md R175, R176) -/

/-- Every context's row is the same. -/
theorem apmInitEntry_row (v : ApmVariant) (c : Nat) {j : Nat} (hj : j < Config.apmRows v) :
    apmInitEntry v (Config.apmRows v * c + j) = apmInitRow v j := by
  rw [apmInitEntry, Nat.mul_add_mod, Nat.mod_eq_of_lt hj]

theorem apmInitRow_linear (j : Nat) : (apmInitRow .linear j).toNat = min (j * 1024) 65535 :=
  Nat.mod_eq_of_lt (Nat.lt_succ_of_le (Nat.min_le_right _ _))

theorem ApmSlot.init_entry_linear (rate : BitVec 4) (n c : Nat) {j : Nat} (hj : j < 65) :
    ((ApmSlot.init .linear rate n).entry (65 * c + j)).toNat = min (j * 1024) 65535 :=
  (congrArg BitVec.toNat (apmInitEntry_row .linear c hj)).trans (apmInitRow_linear j)

theorem ApmSlot.init_entry_logistic {v : ApmVariant} (hv : v ≠ .linear) (rate : BitVec 4) (n c : Nat) (j : Fin 33) :
    (ApmSlot.init v rate n).entry (33 * c + j.val) = Config.apmLogisticInit j := by
  cases v with
  | linear => exact absurd rfl hv
  | logistic => exact (apmInitEntry_row .logistic c j.isLt).trans (dif_pos j.isLt)
  | fastLogistic => exact (apmInitEntry_row .fastLogistic c j.isLt).trans (dif_pos j.isLt)

/-! ### `APM_INIT` -/

theorem apmVariant_of_ne {v : BitVec 2} (h : v ≠ 3) :
    apmVariant v = some (if v = 0 then .logistic else if v = 1 then .fastLogistic else .linear) := by
  have hcases : v = 0 ∨ v = 1 ∨ v = 2 := by bv_omega
  rcases hcases with rfl | rfl | rfl <;> rfl

/-- `APM_INIT` raises one and the same error on every illegal operand, whichever it checks first. -/
theorem apmInitBody_illegal {slot : BitVec 4} {variant : BitVec 2} {n : BitVec 32} (rate : BitVec 4)
    (h : s.par.napm ≤ slot.toNat ∨ variant = 3 ∨ n.toNat = 0 ∨ s.par.apmMaxN < n.toNat) :
    apmInitBody slot variant rate n s = .error (.raise (errOf .invalidParameter 2 0 false)) s := by
  rw [apmInitBody, Cmd.get_bind, check_bind]
  split_ifs with hslot
  · rfl
  · by_cases hv : variant = 3
    · rw [hv]
      rfl
    · have hn : n.toNat = 0 ∨ s.par.apmMaxN < n.toNat :=
        (h.resolve_left fun hle => hslot (decide_eq_true hle)).resolve_left hv
      rw [apmVariant_of_ne hv]
      simp only [check_bind, ← Bool.decide_or, decide_eq_true hn, if_true]

/-- `APM_INIT` with legal operands replaces the slot. -/
theorem apmInitBody_legal {slot : BitVec 4} {variant : BitVec 2} {n : BitVec 32} {v : ApmVariant} (rate : BitVec 4)
    (hslot : slot.toNat < s.par.napm) (hv : apmVariant variant = some v) (hpos : 1 ≤ n.toNat)
    (hmax : n.toNat ≤ s.par.apmMaxN) :
    apmInitBody slot variant rate n s = .ok 0 { s with apm := s.apm.set slot.toFin (ApmSlot.init v rate n.toNat) } := by
  rw [apmInitBody, Cmd.get_bind, check_bind, if_neg (by simpa using hslot), hv]
  simp only [check_bind, decide_eq_false (Nat.ne_of_gt hpos), decide_eq_false (Nat.not_lt.mpr hmax), Bool.or_self,
    Bool.false_eq_true, if_false, Cmd.set_bind, Cmd.pure_run]
  rfl

/-- Settles O20: an illegal operand of any kind raises the same error, and legal ones give a fresh slot. -/
theorem apmInitFillsTable : Obligations.ApmInitFillsTable := by
  intro s slot variant rate n hs
  have hillegal (h : s.par.napm ≤ slot.toNat ∨ variant = 3 ∨ n.toNat = 0 ∨ s.par.apmMaxN < n.toNat) :
      exec (.apmInit slot variant rate n) s = .next (s.failed 0x30 .invalidParameter 2) :=
    exec_fails (i := .apmInit slot variant rate n) (sub := 2) nofun hs (apmInitBody_illegal rate h)
  refine ⟨fun hslot => hillegal (.inl hslot), fun hv => hillegal (.inr (.inl hv)), fun hn => hillegal (.inr (.inr hn)),
    fun hslot hv hpos hmax => ?_⟩
  refine ⟨_, exec_completes (i := .apmInit slot variant rate n) nofun hs
    (apmInitBody_legal rate hslot (apmVariant_of_ne hv) hpos hmax), rfl, rfl, rfl, rfl, fun hlin c _ j hj => ?_,
    fun hlin c _ j => ?_⟩
  · rw [hlin]
    exact ApmSlot.init_entry_linear rate n.toNat c hj
  · refine ApmSlot.init_entry_logistic ?_ rate n.toNat c j
    split_ifs
    · nofun
    · nofun
    · bv_omega

/-! ### `APM_GET` (41_apm.md R177 to R181) -/

/-- Where a probability and a context look in the table of a slot. -/
def ApmSlot.index (a : ApmSlot) (pr : Prob12) (ctx : Nat) : Nat :=
  (apmIndex a.variant pr).1 + Config.apmRows a.variant * ctx

/-- The weight that a probability gives the entry behind that index. -/
def ApmSlot.weight (a : ApmSlot) (pr : Prob12) : Nat := (apmIndex a.variant pr).2

theorem ApmSlot.index_eq (a : ApmSlot) (pr : Prob12) (ctx : Nat) :
    a.index pr ctx = if a.variant = .linear then pr.toNat / 64 + 65 * ctx
      else (Config.stretch pr + 2048).toNat / 128 + 33 * ctx := by
  unfold index
  cases a.variant <;> rfl

theorem ApmSlot.weight_eq (a : ApmSlot) (pr : Prob12) :
    a.weight pr = if a.variant = .linear then pr.toNat % 128 else (Config.stretch pr + 2048).toNat % 128 := by
  unfold weight
  cases a.variant <;> rfl

theorem ApmSlot.weight_lt (a : ApmSlot) (pr : Prob12) : a.weight pr < 128 := by
  rw [weight_eq]
  split_ifs <;> exact Nat.mod_lt _ (by decide)

/-- The interpolation of two entries in plain arithmetic, which 12 bits hold (41_apm.md R181). -/
theorem interpolation_le {e0 e1 w : Nat} (h0 : e0 ≤ 65535) (h1 : e1 ≤ 65535) (hw : w < 128) :
    (e1 * w + e0 * (128 - w)) / 2048 ≤ 4095 := by
  have hsum : e1 * w + e0 * (128 - w) ≤ 65535 * 128 :=
    calc e1 * w + e0 * (128 - w) ≤ 65535 * w + 65535 * (128 - w) :=
          Nat.add_le_add (Nat.mul_le_mul_right _ h1) (Nat.mul_le_mul_right _ h0)
      _ = 65535 * 128 := by omega
  omega

theorem ApmSlot.interpolate_toNat (a : ApmSlot) (i : Nat) {w : Nat} (hw : w < 128) :
    (a.interpolate i w).toNat = ((a.entry (i + 1)).toNat * w + (a.entry i).toNat * (128 - w)) / 2048 := by
  have hle := interpolation_le (Nat.le_of_lt_succ (a.entry i).isLt) (Nat.le_of_lt_succ (a.entry (i + 1)).isLt) hw
  exact Nat.mod_eq_of_lt (Nat.lt_succ_of_le hle)

/-- The top 12 bits of an entry. -/
theorem prob16_top_toNat (e : Prob16) : ((e >>> 4).setWidth 12 : Prob12).toNat = e.toNat / 16 := by
  have := e.isLt
  simp only [BitVec.toNat_setWidth, BitVec.toNat_ushiftRight, Nat.shiftRight_eq_div_pow]
  omega

/-- The slot after a `get`: the entry of the index is updated, and the next one too, but for FastLogistic. -/
theorem ApmSlot.get_snd (a : ApmSlot) (bit : Bool) (pr : Prob12) (ctx : Nat) :
    (a.get bit pr ctx).2 = if a.variant = .fastLogistic then a.update (a.index pr ctx) bit
      else (a.update (a.index pr ctx) bit).update (a.index pr ctx + 1) bit := by
  unfold get index
  cases a.variant <;> rfl

/-- The answer of a `get` is read from the slot after it. -/
theorem ApmSlot.get_fst (a : ApmSlot) (bit : Bool) (pr : Prob12) (ctx : Nat) :
    (a.get bit pr ctx).1 =
      if a.variant = .fastLogistic then (((a.get bit pr ctx).2.entry (a.index pr ctx)) >>> 4).setWidth 12
      else (a.get bit pr ctx).2.interpolate (a.index pr ctx) (a.weight pr) := by
  unfold get index weight
  cases a.variant <;> rfl

/-- Every entry of the slot after a `get`. -/
theorem ApmSlot.get_entry (a : ApmSlot) (bit : Bool) (pr : Prob12) (ctx j : Nat) :
    ((a.get bit pr ctx).2.entry j).toNat =
      if j = a.index pr ctx then apmNext a.rate.toNat bit (a.entry (a.index pr ctx)).toNat
      else if j = a.index pr ctx + 1 ∧ a.variant ≠ .fastLogistic then
        apmNext a.rate.toNat bit (a.entry (a.index pr ctx + 1)).toNat
      else (a.entry j).toNat := by
  rw [get_snd]
  by_cases hv : a.variant = .fastLogistic
  · simp only [hv, if_true, update_entry, ne_eq, not_true_eq_false, and_false, if_false]
  · simp only [hv, if_false, update_update_entry, ne_eq, not_false_eq_true, and_true]

/-- The answer of a `get` in plain arithmetic on the entries before it. -/
theorem ApmSlot.get_answer (a : ApmSlot) (bit : Bool) (pr : Prob12) (ctx : Nat) :
    (a.get bit pr ctx).1.toNat =
      if a.variant = .fastLogistic then apmNext a.rate.toNat bit (a.entry (a.index pr ctx)).toNat / 16
      else (apmNext a.rate.toNat bit (a.entry (a.index pr ctx + 1)).toNat * a.weight pr +
        apmNext a.rate.toNat bit (a.entry (a.index pr ctx)).toNat * (128 - a.weight pr)) / 2048 := by
  rw [get_fst]
  by_cases hv : a.variant = .fastLogistic
  · rw [if_pos hv, if_pos hv, prob16_top_toNat, get_entry, if_pos rfl]
  · rw [if_neg hv, if_neg hv, interpolate_toNat _ _ (a.weight_lt pr), get_entry, get_entry, if_pos rfl,
      if_neg (Nat.succ_ne_self _), if_pos ⟨rfl, hv⟩]

/-- Everything the rule of `APM_GET` can do: its checks in order, then one `get` of the slot, of which only the table
changes. -/
theorem apmGetBody_run (slot : BitVec 4) (bit : Bool) (pr : Prob12) (ctx : BitVec 32) :
    apmGetBody slot bit pr ctx s =
      if s.par.napm ≤ slot.toNat then .error (.raise (errOf .invalidParameter 2 0 false)) s
      else if s.apm[slot.toFin].valid = false then .error (.raise (errOf .invalidParameter 3 0 false)) s
      else if s.apm[slot.toFin].n ≤ ctx.toNat then .error (.raise (errOf .invalidParameter 2 0 false)) s
      else .ok (BitVec.ofNat 64 (s.apm[slot.toFin].get bit pr ctx.toNat).1.toNat)
        { s with
          apm := s.apm.set slot.toFin
            { s.apm[slot.toFin] with data := (s.apm[slot.toFin].get bit pr ctx.toNat).2.data } } := by
  simp only [← ApmSlot.get_slot, BitVec.ofNat_toNat]
  simp only [apmGetBody, Cmd.get_bind, check_bind, decide_eq_true_eq, Bool.not_eq_true', Cmd.set_bind, Cmd.pure_run]
  rfl

/-- Settles O22: the checks in order, then one `get` of the slot. -/
theorem apmGetUpdatesThenAnswers : Obligations.ApmGetUpdatesThenAnswers := by
  intro s slot bit pr ctx hs
  simp only [← ApmSlot.index_eq, ← ApmSlot.weight_eq, ← ApmSlot.get_answer]
  have hrun := apmGetBody_run (s := s) slot bit pr ctx
  refine ⟨fun hslot => ?_, fun hslot hv => ?_, fun hslot hv hctx => ?_, fun hslot hv hctx => ?_⟩
  · rw [if_pos hslot] at hrun
    exact exec_fails (i := .apmGet slot bit pr ctx) (sub := 2) nofun hs hrun
  · rw [if_neg (Nat.not_le.mpr hslot), if_pos hv] at hrun
    exact exec_fails (i := .apmGet slot bit pr ctx) (sub := 3) nofun hs hrun
  · rw [if_neg (Nat.not_le.mpr hslot), if_neg (ne_false_of_eq_true hv), if_pos hctx] at hrun
    exact exec_fails (i := .apmGet slot bit pr ctx) (sub := 2) nofun hs hrun
  · rw [if_neg (Nat.not_le.mpr hslot), if_neg (ne_false_of_eq_true hv), if_neg (Nat.not_le.mpr hctx)] at hrun
    refine ⟨_, exec_completes (i := .apmGet slot bit pr ctx) nofun hs hrun, Nat.le_of_lt_succ (BitVec.isLt _),
      fun j => ?_⟩
    rw [← ApmSlot.get_slot]
    exact ApmSlot.get_entry _ _ _ _ _

end Sys2Proof.Machine
end

section
/-!
O23 to O27: the predictors: the arithmetic of the local model, and the rules of `PR_INIT`, `PR_GET`, `PR_UPDATE` and
`PR_SETCTX`, each by everything it can do on a slot of its own.
-/

namespace Sys2Proof.Machine

variable {s : State}

/-! ### The local model (42_predictors.md R203, R208) -/

/-- The entry stays in 16 bits without a clamp. -/
theorem localNext_le (bit : Bool) {p : Nat} (hp : p ≤ 65535) : localNext bit p ≤ 65535 := by
  cases bit <;> simp only [localNext, Bool.false_eq_true, if_false, if_true] <;> omega

theorem localNext_entry_le (bit : Bool) (p : Prob16) : localNext bit p.toNat ≤ 65535 :=
  localNext_le bit (Nat.le_of_lt_succ p.isLt)

/-- The formula of R203 is the plain arithmetic of R208: the floor of the negative quotient under a 1 is the negated
ceiling. -/
theorem localUpdated_toNat (bit : Bool) (p : Prob16) : (localUpdated bit p).toNat = localNext bit p.toNat := by
  have hp := p.isLt
  suffices hint : localUpdated bit p = BitVec.ofInt 16 (localNext bit p.toNat) by
    rw [hint, BitVec.ofInt_natCast, BitVec.toNat_ofNat, Nat.mod_eq_of_lt (Nat.lt_succ_of_le (localNext_entry_le bit p))]
  refine congrArg (BitVec.ofInt 16) ?_
  have hasr (x : Int) : asr x Config.localRate = x / 32 := rfl
  cases bit with
  | false =>
    simp only [hasr, Bool.false_eq_true, if_false, localNext]
    omega
  | true =>
    simp only [hasr, if_true, localNext]
    omega

/-- An update of a local model, read at every index. -/
theorem LocalModel.update_prob (m : LocalModel) (bit : Bool) (j : Nat) :
    ((m.update bit).prob j).toNat =
      if j = m.ctx + m.c1 then localNext bit (m.prob j).toNat else (m.prob j).toNat := by
  have hset : (m.update bit).prob j =
      if j = m.ctx + m.c1 then localUpdated bit (m.prob (m.ctx + m.c1)) else m.prob j := Store.get_set _ _ _ _ _
  rw [hset]
  split_ifs with hj
  · rw [localUpdated_toNat, hj]
  · rfl

/-- Settles O23: what the update leaves at every index, and the range of R208. -/
theorem localModelUpdate : Obligations.LocalModelUpdate := fun m bit =>
  ⟨prob16_top_toNat _, m.update_prob bit, fun j => localNext_entry_le bit (m.prob j), rfl, rfl, rfl⟩

/-! ### The operands -/

theorem predSlot_ofNat : ∀ i : Fin 2, predSlot (BitVec.ofNat 4 i.val) = some i := by decide

theorem predSlot_none {slot : BitVec 4} (h : 1 < slot.toNat) : predSlot slot = none := by
  have h0 : slot ≠ 0#4 := fun he => absurd h (by rw [he]; decide)
  have h1 : slot ≠ 1#4 := fun he => absurd h (by rw [he]; decide)
  rw [predSlot, if_neg h0, if_neg h1]

theorem predKind_none {kind : BitVec 8} (h : 3 < kind.toNat) : predKind kind = none := by
  have hne {c : BitVec 8} (hc : c.toNat ≤ 3) : kind ≠ c := fun he => absurd h (by rw [he]; omega)
  rw [predKind, if_neg (hne (by decide)), if_neg (hne (by decide)), if_neg (hne (by decide)), if_neg (hne (by decide))]

/-- The words whose reserved bits are zero are those their operand writes. -/
theorem and_mask_eq_zero_iff {α : Type} {n : Nat} (f : FieldCode α n) (y : BitVec n) :
    y &&& f.mask = 0#n ↔ y = f.put (f.get 0 y) :=
  ⟨fun h => (f.put_get y h).symm, fun h => by rw [h]; exact f.put_and_mask _⟩

/-- An argument of one number: the bits above it are reserved. -/
theorem and_reserved_high (m n : Nat) (y : BitVec (m + n)) :
    y &&& (BitVec.allOnes m ++ 0#n) = 0#(m + n) ↔ y.toNat < 2 ^ n := by
  have hput : (0#m ++ y.extractLsb' 0 n).toNat = y.toNat % 2 ^ n := by simp [BitVec.toNat_append]
  rw [show BitVec.allOnes m ++ 0#n = (FieldCode.padded m (FieldCode.bits n)).mask from rfl, and_mask_eq_zero_iff,
    ← BitVec.toNat_inj]
  show y.toNat = (0#m ++ y.extractLsb' 0 n).toNat ↔ _
  rw [hput]
  exact ⟨fun h => h ▸ Nat.mod_lt _ (Nat.two_pow_pos n), fun h => (Nat.mod_eq_of_lt h).symm⟩

theorem prArg_fixed (arg : BitVec 32) : arg &&& prArgReserved .fixed = 0#32 ↔ arg.toNat < 4096 :=
  and_reserved_high 20 12 arg

theorem prArg_local (arg : BitVec 32) : arg &&& prArgReserved .localModel = 0#32 ↔ arg.toNat < 16 :=
  and_reserved_high 28 4 arg

/-- The argument of REFINED: an APM slot and a `logSize`, each with reserved bits above it. -/
theorem prArg_refined (arg : BitVec 32) : arg &&& prArgReserved .refined = 0#32 ↔
    arg.toNat = 256 * (arg.extractLsb' 8 4).toNat + (arg.extractLsb' 0 4).toNat := by
  have hk := (arg.extractLsb' 0 4).isLt
  have hput : ((0#20 ++ arg.extractLsb' 8 4) ++ (0#4 ++ arg.extractLsb' 0 4)).toNat =
      256 * (arg.extractLsb' 8 4).toNat + (arg.extractLsb' 0 4).toNat := by
    rw [BitVec.toNat_append, ← Nat.shiftLeft_add_eq_or_of_lt (BitVec.isLt _), Nat.shiftLeft_eq, BitVec.toNat_append,
      BitVec.toNat_append]
    simp only [BitVec.toNat_ofNat, Nat.zero_mod, Nat.zero_shiftLeft, Nat.zero_or]
    omega
  rw [← hput, BitVec.toNat_inj]
  exact and_mask_eq_zero_iff ((FieldCode.padded 20 (FieldCode.bits 4)).above (FieldCode.padded 4 (FieldCode.bits 4))) arg

theorem prArg_external (arg : BitVec 32) : arg &&& prArgReserved .external = 0#32 ↔ arg = 0 :=
  and_mask_eq_zero_iff (FieldCode.zeros 32) arg

/-- `logSize` is the whole argument of LOCAL. -/
theorem prArg_logSize {arg : BitVec 32} (h : arg.toNat < 16) : (arg.extractLsb' 0 4).toNat = arg.toNat := by
  rw [BitVec.extractLsb'_toNat, Nat.shiftRight_zero]
  exact Nat.mod_eq_of_lt h

/-! ### `PR_INIT` -/

variable (i : Fin 2) (arg : BitVec 32)

/-- Everything `PR_INIT` can do with FIXED. -/
theorem prInitBody_fixed : prInitBody (BitVec.ofNat 4 i.val) 0 arg s =
    if 4096 ≤ arg.toNat then raise .invalidParameter 1 0 s
    else .ok 0 { s with pr := s.pr.set i { s.pr[i] with kind := .fixed, value := arg.extractLsb' 0 12 } } := by
  rw [prInitBody, Cmd.get_bind, predSlot_ofNat]
  show (check _ _ _ >>= _) s = _
  simp only [check_bind, decide_eq_true_eq, ne_eq, prArg_fixed, Nat.not_lt]
  rfl

/-- Everything `PR_INIT` can do with LOCAL. -/
theorem prInitBody_local : prInitBody (BitVec.ofNat 4 i.val) 1 arg s =
    if 16 ≤ arg.toNat then raise .invalidParameter 1 0 s
    else if arg.toNat = 0 ∨ 9 < arg.toNat then raise .invalidParameter 2 0 s
    else .ok 0 { s with
      pr := s.pr.set i { s.pr[i] with kind := .localModel, model := LocalModel.init (arg.extractLsb' 0 4).toNat } } := by
  rw [prInitBody, Cmd.get_bind, predSlot_ofNat]
  show (check _ _ _ >>= _) s = _
  simp only [check_bind, decide_eq_true_eq, ne_eq, prArg_local, Nat.not_lt]
  by_cases h16 : 16 ≤ arg.toNat
  · rw [if_pos h16, if_pos h16]
    rfl
  · rw [if_neg h16, if_neg h16]
    simp only [checkLogSize, check_bind, prArg_logSize (Nat.lt_of_not_le h16), Nat.lt_one_iff, Bool.or_eq_true,
      decide_eq_true_eq]
    rfl

/-- Everything `PR_INIT` can do with REFINED, on the APM slot and the `logSize` of its argument. -/
theorem prInitBody_refined {a : BitVec 4} {k : Nat} (ha : arg.extractLsb' 8 4 = a) (hk : (arg.extractLsb' 0 4).toNat = k) :
    prInitBody (BitVec.ofNat 4 i.val) 2 arg s =
      if arg.toNat ≠ 256 * a.toNat + k then raise .invalidParameter 1 0 s
      else if k = 0 ∨ 9 < k then raise .invalidParameter 2 0 s
      else if s.par.napm ≤ a.toNat then raise .invalidParameter 2 0 s
      else if s.apm[a.toFin].valid = false then raise .invalidParameter 3 0 s
      else if s.apm[a.toFin].n < 2 ^ k then raise .invalidParameter 2 0 s
      else .ok 0 { s with
        pr := s.pr.set i { s.pr[i] with
          kind := .refined, model := LocalModel.init k, apmslot := a, latched := 2048 } } := by
  subst ha hk
  rw [prInitBody, Cmd.get_bind, predSlot_ofNat]
  show (check _ _ _ >>= _) s = _
  simp only [checkLogSize, check_bind, decide_eq_true_eq, ne_eq, prArg_refined, Nat.lt_one_iff, Bool.or_eq_true,
    Bool.not_eq_true']
  rfl

/-- Everything `PR_INIT` can do with EXTERNAL. -/
theorem prInitBody_external : prInitBody (BitVec.ofNat 4 i.val) 3 arg s =
    if arg ≠ 0 then raise .invalidParameter 1 0 s
    else if s.pr[1 - i].kind = .external then raise .invalidParameter 6 0 s
    else .ok 0 { s with pr := s.pr.set i { s.pr[i] with kind := .external }, ext := [] } := by
  rw [prInitBody, Cmd.get_bind, predSlot_ofNat]
  show (check _ _ _ >>= _) s = _
  simp only [check_bind, decide_eq_true_eq, ne_eq, prArg_external]
  rfl

theorem prInitBody_slot {slot : BitVec 4} (kind : BitVec 8) (h : 1 < slot.toNat) :
    prInitBody slot kind arg s = raise .invalidParameter 2 0 s := by
  rw [prInitBody, Cmd.get_bind, predSlot_none h]

theorem prInitBody_kind (slot : BitVec 4) {kind : BitVec 8} (h : 3 < kind.toNat) :
    prInitBody slot kind arg s = raise .invalidParameter 2 0 s := by
  rw [prInitBody, Cmd.get_bind, predKind_none h]
  cases predSlot slot <;> rfl

/-- Settles O24: legal operands pass every check of their kind. -/
theorem prInitInitialises : Obligations.PrInitInitialises := by
  intro s i arg hs
  have hdone {kind : BitVec 8} {t : State} (h : prInitBody (BitVec.ofNat 4 i.val) kind arg s = .ok 0 t) :
      exec (.prInit (BitVec.ofNat 4 i.val) kind arg) s = .next (t.completed 0) :=
    exec_completes (i := .prInit _ kind arg) nofun hs h
  refine ⟨fun harg => hdone ?_, fun hlo hhi => hdone ?_, fun harg hlo hhi ha hv hn => hdone ?_,
    fun harg hext => hdone ?_, fun _ => rfl⟩
  · rw [prInitBody_fixed, if_neg (Nat.not_le.mpr harg)]
  · rw [prInitBody_local, if_neg (by omega), if_neg (by omega)]
    rfl
  · rw [prInitBody_refined i arg rfl rfl, if_neg (not_not.mpr harg), if_neg (by omega), if_neg (Nat.not_le.mpr ha),
      if_neg (ne_false_of_eq_true hv), if_neg (Nat.not_lt.mpr hn)]
    rfl
  · rw [prInitBody_external, if_neg (not_not.mpr harg), if_neg hext]

/-- Settles O25: the first check that fails names the sub-cause. -/
theorem prInitRefusesIllegal : Obligations.PrInitRefusesIllegal := by
  intro s i slot kind arg hs
  have hbad {slot : BitVec 4} {kind : BitVec 8} (sub : Byte)
      (h : prInitBody slot kind arg s = raise .invalidParameter sub 0 s) :
      exec (.prInit slot kind arg) s = .next (s.failed 0x40 .invalidParameter sub.toNat) :=
    exec_fails (i := .prInit slot kind arg) nofun hs h
  refine ⟨fun h => hbad 2 (prInitBody_slot arg kind h), fun h => hbad 2 (prInitBody_kind arg slot h),
    fun h => hbad 1 ?_, fun h => hbad 1 ?_, fun h16 h => hbad 2 ?_, fun h => hbad 1 ?_,
    fun harg => ⟨fun h => hbad 2 ?_, fun hlo hhi => ⟨fun ha => hbad 2 ?_, fun ha hv => hbad 3 ?_,
      fun ha hv hn => hbad 2 ?_⟩⟩,
    fun h => hbad 1 ?_, fun harg h => hbad 6 ?_⟩
  · rw [prInitBody_fixed, if_pos h]
  · rw [prInitBody_local, if_pos h]
  · rw [prInitBody_local, if_neg (Nat.not_le.mpr h16), if_pos h]
  · rw [prInitBody_refined i arg rfl rfl, if_pos h]
  · rw [prInitBody_refined i arg rfl rfl, if_neg (not_not.mpr harg), if_pos h]
  · rw [prInitBody_refined i arg rfl rfl, if_neg (not_not.mpr harg), if_neg (by omega), if_pos ha]
  · rw [prInitBody_refined i arg rfl rfl, if_neg (not_not.mpr harg), if_neg (by omega), if_neg (Nat.not_le.mpr ha),
      if_pos hv]
  · rw [prInitBody_refined i arg rfl rfl, if_neg (not_not.mpr harg), if_neg (by omega), if_neg (Nat.not_le.mpr ha),
      if_neg (ne_false_of_eq_true hv), if_pos hn]
  · rw [prInitBody_external, if_pos h]
  · rw [prInitBody_external, if_neg (not_not.mpr harg), if_pos h]

/-! ### `PR_GET` and `PR_UPDATE` (42_predictors.md R205, R206) -/

theorem prGetBody_slot {slot : BitVec 4} (h : 1 < slot.toNat) : prGetBody slot s = raise .invalidParameter 2 0 s := by
  rw [prGetBody, predSlot_none h]

/-- Everything `PR_GET` can do on a slot. -/
theorem prGetBody_run : prGetBody (BitVec.ofNat 4 i.val) s =
    if s.pr[i].kind = .none then raise .invalidParameter 3 0 s else .ok (BitVec.ofNat 64 (s.prob i).toNat) s := by
  rw [prGetBody, predSlot_ofNat, BitVec.ofNat_toNat]
  show (onPreds (predGet i) >>= _) s = _
  rw [Cmd.bind_run, onPreds_predGet]
  by_cases hk : s.pr[i].kind = .none
  · rw [if_pos hk, if_pos hk]
    rfl
  · rw [if_neg hk, if_neg hk]
    rfl

theorem prUpdateBody_slot {slot : BitVec 4} (bit : Bool) (h : 1 < slot.toNat) :
    prUpdateBody slot bit s = raise .invalidParameter 2 0 s := by
  rw [prUpdateBody, predSlot_none h]

/-- `PR_UPDATE` of a slot that can take it. -/
theorem prUpdateBody_of (bit : Bool) (h : s.predReady i) :
    prUpdateBody (BitVec.ofNat 4 i.val) bit s = .ok 0 (s.predUpdated i bit) := by
  rw [prUpdateBody, predSlot_ofNat]
  exact Cmd.bind_of_ok _ (onPreds_predUpdate_of h bit)

/-- `PR_UPDATE` of a slot that cannot take it. -/
theorem prUpdateBody_not (bit : Bool) (h : ¬s.predReady i) :
    prUpdateBody (BitVec.ofNat 4 i.val) bit s = raise .invalidParameter 3 0 s := by
  rw [prUpdateBody, predSlot_ofNat]
  exact Cmd.bind_of_error _ (onPreds_predUpdate_not h bit)

/-- Settles O26: `PR_GET` by the kind of the slot, `PR_UPDATE` by whether the slot can take it. -/
theorem prGetAndUpdate : Obligations.PrGetAndUpdate := by
  intro s i slot bit hs
  have hupdate (h : ¬s.predReady i) :
      exec (.prUpdate (BitVec.ofNat 4 i.val) bit) s = .next (s.failed 0x42 .invalidParameter 3) :=
    exec_fails (i := .prUpdate _ bit) (sub := 3) nofun hs (prUpdateBody_not i bit h)
  have hget := prGetBody_run (s := s) i
  refine ⟨fun h => ⟨?_, ?_⟩, fun hk => ⟨?_, hupdate fun hr => hr.1 hk⟩, fun _ => hupdate, fun hk => ?_, fun hr => ?_⟩
  · exact exec_fails (i := .prGet slot) (sub := 2) nofun hs (prGetBody_slot h)
  · exact exec_fails (i := .prUpdate slot bit) (sub := 2) nofun hs (prUpdateBody_slot bit h)
  · rw [if_pos hk] at hget
    exact exec_fails (i := .prGet _) (sub := 3) nofun hs hget
  · rw [if_neg hk] at hget
    exact exec_completes (i := .prGet _) nofun hs hget
  · exact exec_completes (i := .prUpdate _ bit) nofun hs (prUpdateBody_of i bit hr)

/-! ### `PR_SETCTX` (42_predictors.md R207) -/

/-- A LOCAL or REFINED slot has a byte context. -/
theorem PredSlot.setCtx_of_model {p : PredSlot} (h : p.kind = .localModel ∨ p.kind = .refined) (byte : Byte) :
    p.setCtx byte = { p with model := p.model.setCtx byte } := by
  rcases h with h | h <;> simp only [setCtx, h]

/-- A FIXED or EXTERNAL slot has none. -/
theorem PredSlot.setCtx_of_plain {p : PredSlot} (h : p.kind = .fixed ∨ p.kind = .external) (byte : Byte) :
    p.setCtx byte = p := by
  rcases h with h | h <;> simp only [setCtx, h]

theorem prSetctxBody_slot {slot : BitVec 4} (byte : Byte) (h : 1 < slot.toNat) :
    prSetctxBody slot byte s = raise .invalidParameter 2 0 s := by
  rw [prSetctxBody, Cmd.get_bind, predSlot_none h]

/-- Everything `PR_SETCTX` can do on a slot. -/
theorem prSetctxBody_run (byte : Byte) : prSetctxBody (BitVec.ofNat 4 i.val) byte s =
    if s.pr[i].kind = .none then raise .invalidParameter 3 0 s
    else .ok 0 (s.withPr (s.pr.set i (s.pr[i].setCtx byte))) := by
  rw [prSetctxBody, Cmd.get_bind, predSlot_ofNat]
  show (check _ _ _ >>= _) s = _
  simp only [check_bind, decide_eq_true_eq]
  rfl

/-- Settles O27: the checks in order, then the context of the slot by its kind. -/
theorem prSetctxSetsContext : Obligations.PrSetctxSetsContext := by
  intro s i slot byte hs
  have hrun := prSetctxBody_run (s := s) i byte
  have hset (hk : s.pr[i].kind ≠ .none) : exec (.prSetctx (BitVec.ofNat 4 i.val) byte) s =
      .next ((s.withPr (s.pr.set i (s.pr[i].setCtx byte))).completed 0) := by
    rw [if_neg hk] at hrun
    exact exec_completes (i := .prSetctx _ byte) nofun hs hrun
  refine ⟨fun h => ?_, fun hk => ?_, fun hk => ?_, fun hk => ?_⟩
  · exact exec_fails (i := .prSetctx slot byte) (sub := 2) nofun hs (prSetctxBody_slot byte h)
  · rw [if_pos hk] at hrun
    exact exec_fails (i := .prSetctx _ byte) (sub := 3) nofun hs hrun
  · rw [hset (by rcases hk with h | h <;> rw [h] <;> nofun), PredSlot.setCtx_of_model hk]
    rfl
  · rw [hset (by rcases hk with h | h <;> rw [h] <;> nofun), PredSlot.setCtx_of_plain hk, Fin.getElem_fin,
      Vector.set_getElem_self]
    rfl

end Sys2Proof.Machine
end

section
/-!
O29, O37: the arithmetic of the binary coder. From the end of a run back to its beginning, the code window lies in the interval
of every bit: so the decoder, which only compares the window with the intervals, takes the encoder's decisions.
-/

namespace Sys2Proof.Machine

variable {iv : Interval} {p : Prob12} {bit : Bool}

/-! ### The sub-intervals of a bit -/

theorem Interval.narrow_true_high (h : CoderOk iv) (p : Prob12) :
    (iv.narrow p true).high.toNat = iv.low.toNat + (iv.split p).toNat := by
  have hsplit := Interval.split_lt h p
  have hhigh := iv.high.isLt
  show (iv.low + iv.split p).toNat = _
  rw [BitVec.toNat_add, Nat.mod_eq_of_lt (by omega)]

theorem Interval.narrow_false_low (h : CoderOk iv) (p : Prob12) :
    (iv.narrow p false).low.toNat = iv.low.toNat + (iv.split p).toNat + 1 := by
  have hsplit := Interval.split_lt h p
  have hhigh := iv.high.isLt
  have hone : (1 : Word).toNat = 1 := rfl
  have hsum : (iv.low + iv.split p).toNat = _ := Interval.narrow_true_high h p
  show (iv.low + iv.split p + 1).toNat = _
  rw [BitVec.toNat_add, hsum, hone, Nat.mod_eq_of_lt (by omega)]

/-- Settles O29: `split` in plain arithmetic, and from it both sub-intervals. -/
theorem coderStepKeepsInterval : Obligations.CoderStepKeepsInterval := by
  intro iv p h
  have hsplit := Interval.split_toNat h p
  refine ⟨hsplit, ?_, rfl, ?_, ?_, rfl, fun bit => CoderOk.narrow h p bit⟩ <;> rw [← hsplit]
  · exact Interval.split_lt h p
  · exact Interval.narrow_true_high h p
  · exact Interval.narrow_false_low h p

/-! ### The code window -/

/-- A code value lies in the interval. -/
def Interval.Holds (iv : Interval) (c : Word) : Prop := iv.low.toNat ≤ c.toNat ∧ c.toNat ≤ iv.high.toNat

/-- The 64 code bits that two groups of 32 bits make. -/
def codeWindow (g0 g1 : Word) : Word := (g0 <<< 32) ||| g1

theorem codeWindow_toNat {g0 g1 : Word} (h0 : g0.toNat < 2 ^ 32) (h1 : g1.toNat < 2 ^ 32) :
    (codeWindow g0 g1).toNat = g0.toNat * 2 ^ 32 + g1.toNat := by
  have hshift : (g0 <<< 32).toNat = g0.toNat <<< 32 := by
    rw [BitVec.toNat_shiftLeft, Nat.mod_eq_of_lt]
    rw [Nat.shiftLeft_eq]
    omega
  rw [codeWindow, BitVec.toNat_or, hshift, ← Nat.shiftLeft_add_eq_or_of_lt h1, Nat.shiftLeft_eq]

/-- The window after a refill: its older group is gone. -/
theorem codeWindow_refill (g0 g1 g2 : Word) : (codeWindow g0 g1 <<< 32) ||| g2 = codeWindow g1 g2 := by
  have hout : (g0 <<< 32) <<< 32 = 0#64 := by rw [← BitVec.shiftLeft_add, BitVec.shiftLeft_eq_zero (Nat.le_refl 64)]
  rw [codeWindow, codeWindow, BitVec.shiftLeft_or_distrib, hout, BitVec.zero_or]

theorem ushiftRight_32_toNat (x : Word) : (x >>> 32).toNat = x.toNat / 2 ^ 32 := by
  rw [BitVec.toNat_ushiftRight, Nat.shiftRight_eq_div_pow]

theorem lowHalf_toNat (x : Word) : (x &&& 0xFFFFFFFF#64).toNat = x.toNat % 2 ^ 32 := by
  rw [BitVec.toNat_and]
  exact Nat.and_two_pow_sub_one_eq_mod x.toNat 32

/-- The two halves of a word make the word. -/
theorem codeWindow_halves (x : Word) : codeWindow (x >>> 32) (x &&& 0xFFFFFFFF#64) = x := by
  have hx := x.isLt
  refine BitVec.eq_of_toNat_eq ?_
  rw [codeWindow_toNat (by rw [ushiftRight_32_toNat]; omega) (by rw [lowHalf_toNat]; omega), ushiftRight_32_toNat,
    lowHalf_toNat]
  omega

/-- A code value in the sub-interval of a bit decodes to that bit (43_binary_coder.md R233, R234). -/
theorem Interval.decide_of_holds_narrow (h : CoderOk iv) {c : Word} (hc : (iv.narrow p bit).Holds c) :
    iv.decide p c = bit := by
  have hsum : (iv.low + iv.split p).toNat = _ := Interval.narrow_true_high h p
  obtain ⟨hlow, hhigh⟩ := hc
  rw [Interval.decide]
  cases bit with
  | true => exact decide_eq_true (BitVec.le_def.mpr hhigh)
  | false =>
    rw [Interval.narrow_false_low h] at hlow
    exact decide_eq_false fun hle => by rw [BitVec.le_def, hsum] at hle; omega

theorem Interval.holds_of_narrow (h : CoderOk iv) {c : Word} (hc : (iv.narrow p bit).Holds c) : iv.Holds c := by
  obtain ⟨h1, -, h3⟩ := Interval.narrow_within h p bit
  exact ⟨h1.trans hc.1, hc.2.trans h3⟩

/-- A window that begins with the interval's group lies in it when the window without the group lies in the shifted interval
(43_binary_coder.md R232). -/
theorem Interval.holds_of_shift (h : iv.low.toNat ≤ iv.high.toNat) {g0 g1 : Word} (h0 : g0.toNat < 2 ^ 32)
    (h1 : g1.toNat < 2 ^ 32) (hc : iv.shift.Holds (codeWindow g0 g1)) : iv.Holds (codeWindow iv.group g0) := by
  have hhigh := iv.high.isLt
  have hgroup : iv.group.toNat = iv.high.toNat / 2 ^ 32 := ushiftRight_32_toNat iv.high
  obtain ⟨hclow, hchigh⟩ := hc
  rw [Interval.shift_low, codeWindow_toNat h0 h1] at hclow
  rw [Interval.shift_high, codeWindow_toNat h0 h1] at hchigh
  rw [Interval.Holds, codeWindow_toNat (by omega) h0, hgroup]
  omega

/-! ### A run -/

/-- The words begin with a code window in the interval, and from there decode to the bits of the run, `tail` being left. -/
def DecodesTo (iv : Interval) (run : List (Prob12 × Bool)) (tail words : List Word) : Prop :=
  ∃ g0 g1 rest, words = g0 :: g1 :: rest ∧ g0.toNat < 2 ^ 32 ∧ g1.toNat < 2 ^ 32 ∧ iv.Holds (codeWindow g0 g1) ∧
    decodeRun iv (codeWindow g0 g1) rest (run.map Prod.fst) = some (run.map Prod.snd, tail)

variable {run : List (Prob12 × Bool)} {tail words : List Word}

/-- The end of a run: the two halves of `low`. -/
theorem DecodesTo.nil (h : CoderOk iv) (tail : List Word) :
    DecodesTo iv [] tail ([iv.low >>> 32, iv.low &&& 0xFFFFFFFF#64] ++ tail) := by
  have hlow := iv.low.isLt
  obtain ⟨hlt, -, -⟩ := (CoderOk_iff iv).mp h
  refine ⟨_, _, tail, rfl, by rw [ushiftRight_32_toNat]; omega, by rw [lowHalf_toNat]; omega, ?_, rfl⟩
  rw [codeWindow_halves]
  exact ⟨Nat.le_refl _, Nat.le_of_lt hlt⟩

/-- A bit that emits no group. -/
theorem DecodesTo.cons_open (h : CoderOk iv) (hs : (iv.narrow p bit).settled = false)
    (hd : DecodesTo (iv.narrow p bit) run tail words) : DecodesTo iv ((p, bit) :: run) tail words := by
  obtain ⟨g0, g1, rest, hwords, h0, h1, hc, hdec⟩ := hd
  refine ⟨g0, g1, rest, hwords, h0, h1, Interval.holds_of_narrow h hc, ?_⟩
  simp only [List.map_cons, decodeRun, Interval.decide_of_holds_narrow h hc, hs, hdec, Bool.false_eq_true, if_false,
    Option.map_some]

/-- A bit that emits a group: the decoder shifts the window by it. -/
theorem DecodesTo.cons_settled (h : CoderOk iv) (hs : (iv.narrow p bit).settled = true)
    (hd : DecodesTo (iv.narrow p bit).shift run tail words) :
    DecodesTo iv ((p, bit) :: run) tail ((iv.narrow p bit).group :: words) := by
  obtain ⟨g0, g1, rest, rfl, h0, h1, hc, hdec⟩ := hd
  have hhigh := (iv.narrow p bit).high.isLt
  have hc' := Interval.holds_of_shift (Interval.narrow_within h p bit).2.1 h0 h1 hc
  refine ⟨_, g0, g1 :: rest, rfl, ?_, h0, Interval.holds_of_narrow h hc', ?_⟩
  · rw [Interval.group, ushiftRight_32_toNat]
    omega
  · simp only [List.map_cons, decodeRun, Interval.decide_of_holds_narrow h hc', hs, codeWindow_refill, hdec, if_true,
      Option.map_some]

/-- What a run emits, then the halves of its last `low`, decodes to its bits. -/
theorem decodesTo_codeRun (h : CoderOk iv) (run : List (Prob12 × Bool)) (tail : List Word) :
    DecodesTo iv run tail
      ((codeRun iv run).1 ++ [(codeRun iv run).2.low >>> 32, (codeRun iv run).2.low &&& 0xFFFFFFFF#64] ++ tail) := by
  induction run generalizing iv with
  | nil => exact DecodesTo.nil h tail
  | cons e run ih =>
    obtain ⟨p, bit⟩ := e
    have hnext := CoderOk.narrow h p bit
    cases hs : (iv.narrow p bit).settled with
    | false =>
      simp only [hs, Bool.false_eq_true, if_false] at hnext
      simp only [codeRun, hs, Bool.false_eq_true, if_false]
      exact (ih hnext).cons_open h hs
    | true =>
      simp only [hs, if_true] at hnext
      simp only [codeRun, hs, if_true]
      exact (ih hnext).cons_settled h hs

/-- Settles O37: by induction over the run, with the code window of the rest of the run in the interval it begins with. -/
theorem coderRoundTrip : Obligations.CoderRoundTrip := by
  intro iv run tail h x
  obtain ⟨g0, g1, rest, hwords, -, -, -, hdec⟩ := decodesTo_codeRun h run tail
  exact ⟨g0, g1, rest, hwords, hdec⟩

end Sys2Proof.Machine
end

section
/-!
O28, O32, O33, O36: the commands of the binary coder that bind it to a predictor slot and release it.
-/

namespace Sys2Proof.Machine

variable {s : State}

/-! ### The checks of the coder's commands -/

theorem checkEncoder_mode (hmode : s.be.mode ≠ .enc) :
    checkEncoder s = .error (.raise (errOf .invalidParameter 3 0 false)) s := by
  rw [checkEncoder, Cmd.get_bind, check_bind, if_pos (decide_eq_true hmode)]

theorem checkEncoder_of (hmode : s.be.mode = .enc) (hopen : s.bw.isOpen = true) : checkEncoder s = .ok () s := by
  rw [checkEncoder, Cmd.get_bind, check_bind, if_neg (by simp [hmode]), check_run, if_neg (by simp [hopen])]

theorem checkDecoder_mode (hmode : s.be.mode ≠ .dec) :
    checkDecoder s = .error (.raise (errOf .invalidParameter 3 0 false)) s := by
  rw [checkDecoder, Cmd.get_bind, check_run, if_pos (decide_eq_true hmode)]

theorem checkDecoder_of (hmode : s.be.mode = .dec) : checkDecoder s = .ok () s := by
  rw [checkDecoder, Cmd.get_bind, check_run, if_neg (by simp [hmode])]

/-! ### `BE_ENC_INIT` -/

theorem beEncInitBody_slot {slot : BitVec 4} (h : 1 < slot.toNat) : beEncInitBody slot s = raise .invalidParameter 2 0 s := by
  rw [beEncInitBody, Cmd.get_bind, predSlot_none h]

/-- Everything `BE_ENC_INIT` can do on a slot. -/
theorem beEncInitBody_run (i : Fin 2) : beEncInitBody (BitVec.ofNat 4 i.val) s =
    if s.pr[i].kind = .none ∨ s.bw.isOpen = false then raise .invalidParameter 3 0 s
    else .ok 0 (s.withBe { mode := .enc, pslot := i, iv := Interval.initial, current := 0 }) := by
  rw [beEncInitBody, Cmd.get_bind, predSlot_ofNat]
  show (check _ _ _ >>= _) s = _
  simp only [check_bind, decide_eq_true_eq]
  by_cases hk : s.pr[i].kind = .none
  · rw [if_pos hk, if_pos (.inl hk)]
    rfl
  · rw [if_neg hk]
    cases s.bw.isOpen with
    | false =>
      rw [if_pos (Bool.not_false), if_pos (.inr rfl)]
      rfl
    | true =>
      rw [if_neg nofun, if_neg (not_or.mpr ⟨hk, nofun⟩)]
      rfl

/-- Settles O28: the checks in order, then the coder bound. -/
theorem beEncInitBinds : Obligations.BeEncInitBinds := by
  intro s i slot hs
  have hrun := beEncInitBody_run (s := s) i
  refine ⟨fun h => ?_, fun h => ?_, fun hk hopen => ?_⟩
  · exact exec_fails (i := .beEncInit slot) (sub := 2) nofun hs (beEncInitBody_slot h)
  · rw [if_pos h] at hrun
    exact exec_fails (i := .beEncInit _) (sub := 3) nofun hs hrun
  · rw [if_neg (not_or.mpr ⟨hk, ne_false_of_eq_true hopen⟩)] at hrun
    exact exec_completes (i := .beEncInit _) nofun hs hrun

/-! ### `BE_ENC_DISPOSE` -/

/-- Settles O32: the checks, one write of `low`, and the coder released. -/
theorem beEncDisposeFlushesLow : Obligations.BeEncDisposeFlushesLow := by
  intro s hs
  refine ⟨fun hmode => ?_, fun hmode hopen hpar hok he hroom => ?_⟩
  · exact exec_fails (i := .beEncDispose) (sub := 3) nofun hs (Cmd.bind_of_error _ (checkEncoder_mode hmode))
  · obtain ⟨w, e, hw, hpost⟩ := onWriter_writeBits_of hpar hopen hok he s.be.iv.low (by decide) hroom
    refine ⟨w, e, exec_completes (i := .beEncDispose) nofun hs ?_, hpost⟩
    rw [ruleOf, beEncDisposeBody, Cmd.bind_of_ok _ (checkEncoder_of hmode hopen), Cmd.get_bind, Cmd.bind_of_ok _ hw]
    rfl

/-! ### `BE_DEC_INIT` -/

theorem beDecInitBody_slot {slot : BitVec 4} (h : 1 < slot.toNat) : beDecInitBody slot s = raise .invalidParameter 2 0 s := by
  rw [beDecInitBody, Cmd.get_bind, predSlot_none h]

theorem beDecInitBody_none {i : Fin 2} (hk : s.pr[i].kind = .none) :
    beDecInitBody (BitVec.ofNat 4 i.val) s = raise .invalidParameter 3 0 s := by
  rw [beDecInitBody, Cmd.get_bind, predSlot_ofNat]
  show (check _ _ _ >>= _) s = _
  rw [check_bind, if_pos (decide_eq_true hk)]
  rfl

/-- Past its checks, `BE_DEC_INIT` is a read of 64 bits, with which the decoder begins. -/
theorem beDecInitBody_of {i : Fin 2} (hk : s.pr[i].kind ≠ .none) :
    beDecInitBody (BitVec.ofNat 4 i.val) s =
      (onReader (readBits s.par.bufsz 64) >>= fun x => do
        modify fun t => t.withBe { mode := .dec, pslot := i, iv := Interval.initial, current := x }
        pure 0 : Cmd State Word) s := by
  rw [beDecInitBody, Cmd.get_bind, predSlot_ofNat]
  show (check _ _ _ >>= _) s = _
  rw [check_bind, if_neg (by simpa using hk)]

/-- Settles O33: the checks in order, then one read, which finds its 64 bits or consumes nothing. -/
theorem beDecInitSeedsCurrent : Obligations.BeDecInitSeedsCurrent := by
  intro s i slot hs
  refine ⟨fun h => ?_, fun hk => ?_, fun hk hopen => ?_, fun hk hopen hpar hok he => ⟨fun hshort => ?_, fun hrem => ?_⟩⟩
  · exact exec_fails (i := .beDecInit slot) (sub := 2) nofun hs (beDecInitBody_slot h)
  · exact exec_fails (i := .beDecInit _) (sub := 3) nofun hs (beDecInitBody_none hk)
  · exact exec_fails (i := .beDecInit _) (sub := 1) nofun hs
      ((beDecInitBody_of hk).trans (Cmd.bind_of_error _ (onReader_readBits_closed hopen (by decide))))
  · obtain ⟨r, e, hr, hpost⟩ := onReader_readBits_short hpar hopen hok he (Nat.le_refl 64) hshort
    exact ⟨r, e, exec_fails (i := .beDecInit _) (sub := 2) nofun hs
      ((beDecInitBody_of hk).trans (Cmd.bind_of_error _ hr)), hpost⟩
  · obtain ⟨r, e, hr, hpost⟩ := onReader_readBits_of hpar hopen hok he (Nat.le_refl 64) hrem
    exact ⟨r, e, exec_completes (i := .beDecInit _) nofun hs
      ((beDecInitBody_of hk).trans (Cmd.bind_of_ok _ hr)), hpost⟩

/-! ### `BE_DEC_DISPOSE` and `BE_SETPRED` -/

theorem beSetpredBody_idle (slot : BitVec 4) (hmode : s.be.mode = .idle) :
    beSetpredBody slot s = raise .invalidParameter 3 0 s := by
  rw [beSetpredBody, Cmd.get_bind, check_bind, if_pos (decide_eq_true hmode)]
  rfl

theorem beSetpredBody_slot {slot : BitVec 4} (hmode : s.be.mode ≠ .idle) (h : 1 < slot.toNat) :
    beSetpredBody slot s = raise .invalidParameter 2 0 s := by
  rw [beSetpredBody, Cmd.get_bind, check_bind, if_neg (by simpa using hmode), predSlot_none h]

/-- Everything `BE_SETPRED` can do on a slot, when the coder is not idle. -/
theorem beSetpredBody_run (i : Fin 2) (hmode : s.be.mode ≠ .idle) : beSetpredBody (BitVec.ofNat 4 i.val) s =
    if s.pr[i].kind = .none then raise .invalidParameter 3 0 s else .ok 0 (s.withBe { s.be with pslot := i }) := by
  rw [beSetpredBody, Cmd.get_bind, check_bind, if_neg (by simpa using hmode), predSlot_ofNat]
  show (check _ _ _ >>= _) s = _
  simp only [check_bind, decide_eq_true_eq]
  rfl

/-- Settles O36: the check of the mode and the coder released; the checks in order and the slot bound. -/
theorem beDecDisposeAndSetpred : Obligations.BeDecDisposeAndSetpred := by
  intro s i slot hs
  refine ⟨fun hmode => ?_, fun hmode => ?_, fun hmode => ?_, fun hmode h => ?_, fun hmode hk => ?_, fun hmode hk => ?_⟩
  · exact exec_fails (i := .beDecDispose) (sub := 3) nofun hs (Cmd.bind_of_error _ (checkDecoder_mode hmode))
  · exact exec_completes (i := .beDecDispose) nofun hs (Cmd.bind_of_ok _ (checkDecoder_of hmode))
  · exact exec_fails (i := .beSetpred slot) (sub := 3) nofun hs (beSetpredBody_idle slot hmode)
  · exact exec_fails (i := .beSetpred slot) (sub := 2) nofun hs (beSetpredBody_slot hmode h)
  · have hrun := beSetpredBody_run i hmode
    rw [if_pos hk] at hrun
    exact exec_fails (i := .beSetpred _) (sub := 3) nofun hs hrun
  · have hrun := beSetpredBody_run i hmode
    rw [if_neg hk] at hrun
    exact exec_completes (i := .beSetpred _) nofun hs hrun

end Sys2Proof.Machine
end

section
/-!
O30, O31: the commands of the binary coder that encode bits.
-/

namespace Sys2Proof.Machine

variable {s t u : State} {v : Word} {bit : Bool} {n : BitVec 8}

/-! ### A command that completed, read backwards -/

/-- A command that completes outside the faulted state is its rule answering; only the response port is its own. -/
theorem ruleOf_of_completed {i : Instr} (hi : i ≠ .reset) (hs : s.live) (hu : u.live)
    (h : exec i s = .next (u.completed v)) : ∃ r, ruleOf i s = .ok v (u.withResp r) := by
  rcases exec_live hi hs h with ⟨v', t, hb, ht⟩ | ⟨e, t, -, ht⟩
  · have hv : v = v' := congrArg Response.value (Option.some.inj (congrArg State.resp ht))
    have hcnt : u.cmdCnt = t.cmdCnt := add_right_cancel (congrArg State.cmdCnt ht)
    have hstate : u.withResp t.resp = t :=
      calc u.withResp t.resp = ((u.completed v).withCmdCnt u.cmdCnt).withResp t.resp := rfl
        _ = ((respond v' t).withCmdCnt t.cmdCnt).withResp t.resp := by rw [ht, hcnt]
        _ = t := rfl
    exact ⟨t.resp, by rw [hv, hstate, hb]⟩
  · have herr : u.latch.err = true := congrArg (fun t => t.latch.err) ht
    exact absurd herr (by rw [hu]; exact Bool.false_ne_true)

/-- When the rule leaves the response port to the ending of the command, it ends in the state that completes. -/
theorem ruleOf_of_completed_resp {i : Instr} (hi : i ≠ .reset) (hkeeps : (ruleOf i).Keeps fun s t => t.resp = s.resp)
    (hs : s.live) (hu : u.live) (hresp : u.resp = s.resp) (h : exec i s = .next (u.completed v)) :
    ruleOf i s = .ok v u := by
  obtain ⟨r, hb⟩ := ruleOf_of_completed hi hs hu h
  have hr : r = u.resp := (hkeeps.of_ok hb).trans hresp.symm
  rw [hb, hr]
  rfl

/-! ### What is delivered in turn -/

theorem WriterOk.sent_le {bufsz : Nat} {w : BitWriter} (h : WriterOk bufsz w) : 8 * w.sent ≤ w.bits.length := by
  have hcount := h.count_eq
  have htie := h.tie
  omega

theorem Delivered.refl (w : BitWriter) (e : Env) : Delivered w e w e := by
  have hout : ((pack w.bits).take w.sent).drop w.sent = [] := List.drop_eq_nil_of_le (List.length_take_le _ _)
  refine ⟨Nat.le_refl _, rfl, rfl, rfl, rfl, rfl, rfl, rfl, rfl, rfl, fun _ => ?_, fun _ => ⟨rfl, rfl, fun a => ?_⟩⟩
  · rw [hout]
    exact ⟨rfl, rfl, rfl⟩
  · rw [if_neg (by omega)]

theorem Delivered.neverFails {b w : BitWriter} {e e' : Env} (h : Delivered b e w e') (he : e.neverFails) :
    e'.neverFails := by
  obtain ⟨-, -, -, -, hbus, hraced, hdirtied, hsrc, -, -, hport, hwindow⟩ := h
  obtain ⟨⟨h1, h2, h3⟩, hsink, hsource⟩ := he
  refine ⟨⟨hbus.trans h1, hraced.trans h2, hdirtied.trans h3⟩, fun a ha => ?_, by rwa [hsrc]⟩
  cases hk : b.kind with
  | port =>
    rw [(hport hk).2.2] at ha
    exact hsink a (List.mem_of_mem_drop ha)
  | window =>
    rw [(hwindow hk).2.1] at ha
    exact hsink a ha

/-- The bytes of a longer stream delivered from `a` on are those the shorter stream had delivered, then the others. -/
theorem delivered_split {l1 l2 : List Bool} (h : l1 <+: l2) {a b c : Nat} (hab : a ≤ b) (hbc : b ≤ c)
    (hb : 8 * b ≤ l1.length) :
    ((pack l2).take c).drop a = ((pack l1).take b).drop a ++ ((pack l2).take c).drop b := by
  have hl : 8 * b ≤ l2.length := hb.trans h.length_le
  have htake : (pack l1).take b = ((pack l2).take c).take b := by
    rw [List.take_take, Nat.min_eq_left hbc, pack_take hb, pack_take hl]
    obtain ⟨r, rfl⟩ := h
    rw [List.take_append_of_le_length hb]
  have hlen : a ≤ (((pack l2).take c).take b).length := by
    rw [List.take_take, Nat.min_eq_left hbc, List.length_take, pack_length, bytesFor]
    omega
  rw [htake, ← List.drop_append_of_le_length hlen, List.take_append_drop]

/-- What is delivered first and what is delivered then. -/
theorem Delivered.trans {bufsz : Nat} {b w w' : BitWriter} {e e1 e2 : Env} (h : Delivered b e w e1)
    (h' : Delivered w e1 w' e2) (hw : WriterOk bufsz w) (hbits : w.bits <+: w'.bits) : Delivered b e w' e2 := by
  obtain ⟨a1, a2, a3, a4, a5, a6, a7, a8, a9, a10, aport, awindow⟩ := h
  obtain ⟨b1, b2, b3, b4, b5, b6, b7, b8, b9, b10, bport, bwindow⟩ := h'
  have hsplit := delivered_split hbits a1 b1 hw.sent_le
  have hlen : (((pack w.bits).take w.sent).drop b.sent).length = w.sent - b.sent := by
    have hsent := hw.sent_le
    rw [List.length_drop, List.length_take, pack_length, bytesFor]
    omega
  rw [a2] at bport bwindow
  rw [a3] at bwindow
  refine ⟨a1.trans b1, b2.trans a2, b3.trans a3, b4.trans a4, b5.trans a5, b6.trans a6, b7.trans a7, b8.trans a8,
    b9.trans a9, b10.trans a10, fun hk => ?_, fun hk => ?_⟩
  · obtain ⟨c1, c2, c3⟩ := aport hk
    obtain ⟨d1, d2, d3⟩ := bport hk
    rw [hsplit, List.reverse_append, List.length_append]
    exact ⟨d1.trans c1, by rw [d2, c2, List.append_assoc], by rw [d3, c3, List.drop_drop]⟩
  · obtain ⟨c1, c2, c3⟩ := awindow hk
    obtain ⟨d1, d2, d3⟩ := bwindow hk
    refine ⟨d1.trans c1, d2.trans c2, fun a => ?_⟩
    rw [hsplit, d3, c3]
    by_cases hnew : b.base.toNat + w.sent ≤ a
    · rw [List.getD_append_right _ _ _ _ (by omega), hlen,
        show a - (b.base.toNat + b.sent) - (w.sent - b.sent) = a - (b.base.toNat + w.sent) by omega,
        if_neg (show ¬(b.base.toNat + b.sent ≤ a ∧ a < b.base.toNat + w.sent) by omega)]
      exact if_congr (by omega) rfl rfl
    · rw [if_neg (by omega)]
      by_cases hold : b.base.toNat + b.sent ≤ a
      · rw [if_pos (by omega), if_pos (by omega), List.getD_append _ _ _ _ (by omega)]
      · rw [if_neg (by omega), if_neg (by omega)]

/-! ### A bit encoded -/

/-- A write that an open writer has room for. -/
theorem writeBits_delivered (hpar : s.par.ok = true) (hopen : s.bw.isOpen = true) (hok : WriterOk s.par.bufsz s.bw)
    (he : s.env.neverFails) (value : Word) {len : Nat} (hlen : len ≤ 64) (hroom : s.bw.hasRoom len) :
    ∃ w e, writeBits s.par.bufsz value len (s.bw, s.env) = .ok () (w, e) ∧
      w.bits = s.bw.bits ++ bitsOf value len ∧ w.isOpen = true ∧ WriterOk s.par.bufsz w ∧ Delivered s.bw s.env w e := by
  obtain ⟨w, e, hw, hpost⟩ := onWriter_writeBits_of hpar hopen hok he value hlen hroom
  obtain ⟨⟨w', e'⟩, hx, heq⟩ := zoom_eq_ok.mp hw
  have hw' : w = w' := congrArg State.bw heq
  have he' : e = e' := congrArg State.env heq
  exact ⟨w, e, by rw [hx, hw', he'], hpost⟩

/-- A bit that leaves bits 55..24 of the bounds different. -/
theorem encodeBit_open (h : s.predReady s.be.pslot)
    (hs : (s.be.iv.narrow (s.prob s.be.pslot) bit).settled = false) :
    encodeBit bit s = .ok ()
      ((s.predUpdated s.be.pslot bit).withBe { s.be with iv := s.be.iv.narrow (s.prob s.be.pslot) bit }) :=
  encodeBit_of h (renormEnc_open hs)

/-- A bit that settles the bounds, when the write of its group goes through. -/
theorem encodeBit_settled (h : s.predReady s.be.pslot)
    (hs : (s.be.iv.narrow (s.prob s.be.pslot) bit).settled = true) {w : BitWriter} {e : Env}
    (hw : writeBits s.par.bufsz (s.be.iv.narrow (s.prob s.be.pslot) bit).group 32 (s.bw, s.env) = .ok () (w, e)) :
    encodeBit bit s = .ok () ((((s.predUpdated s.be.pslot bit).withBw w).withEnv e).withBe
      { s.be with iv := (s.be.iv.narrow (s.prob s.be.pslot) bit).shift }) := by
  obtain ⟨-, hbw, -, henv, hpar, -⟩ := s.predUpdated_fields s.be.pslot bit
  refine encodeBit_of h (renormEnc_of ?_ ?_)
  · exact hs
  · rw [State.withBe_par, State.withBe_bw, State.withBe_env, hpar, hbw, henv]
    exact hw

theorem beEncBitBody_of (hmode : s.be.mode = .enc) (hopen : s.bw.isOpen = true) (h : encodeBit bit s = .ok () t) :
    beEncBitBody bit s = .ok 0 t := by
  rw [beEncBitBody, Cmd.bind_of_ok _ (checkEncoder_of hmode hopen), Cmd.bind_of_ok _ h, Cmd.pure_run]

theorem encodeBit_of_beEncBitBody (h : beEncBitBody bit s = .ok v t) : encodeBit bit s = .ok () t := by
  obtain ⟨_, u, hcheck, hrest⟩ := Cmd.bind_eq_ok.mp h
  obtain ⟨_, w, hbit, hend⟩ := Cmd.bind_eq_ok.mp hrest
  cases hend
  rwa [(checkEncoder_keeps (R := fun s t => t = s) fun _ => rfl).of_ok hcheck] at hbit

/-- Settles O30: the check of the mode, then one bit, whose bounds are settled or not. -/
theorem beEncBitCodesOneBit : Obligations.BeEncBitCodesOneBit := by
  intro s bit hs
  refine ⟨fun hmode => ?_, fun hmode hopen hpred => ⟨fun hiv => ?_, fun hiv hpar hok he hroom => ?_⟩⟩
  · exact exec_fails (i := .beEncBit bit) (sub := 3) nofun hs (Cmd.bind_of_error _ (checkEncoder_mode hmode))
  · rw [Ne, ← Interval.settled_iff, Bool.not_eq_true] at hiv
    exact exec_completes (i := .beEncBit bit) nofun hs (beEncBitBody_of hmode hopen (encodeBit_open hpred hiv))
  · obtain ⟨w, e, hw, hbits, hpost⟩ := writeBits_delivered hpar hopen hok he
      (s.be.iv.narrow (s.prob s.be.pslot) bit).group (by decide) hroom
    exact ⟨w, e, exec_completes (i := .beEncBit bit) nofun hs (beEncBitBody_of hmode hopen
      (encodeBit_settled hpred ((Interval.settled_iff _).mpr hiv) hw)), hbits, hpost⟩

/-! ### Bits encoded in turn -/

/-- What encoding `k` bits needs: a usable predictor, and an open writer with room for a group a bit on a host that does not
fail. -/
structure EncoderReady (s : State) (k : Nat) : Prop where
  pred : s.predReady s.be.pslot
  par : s.par.ok = true
  isOpen : s.bw.isOpen = true
  writer : WriterOk s.par.bufsz s.bw
  host : s.env.neverFails
  room : s.bw.hasRoom (32 * k)

/-- What a bit leaves, when it wrote at most a group. -/
theorem EncoderReady.next {k : Nat} (h : EncoderReady s (k + 1)) (hpred : t.predReady t.be.pslot) (hpar : t.par = s.par)
    (hopen : t.bw.isOpen = true) (hok : WriterOk s.par.bufsz t.bw) (hlen : t.bw.bits.length ≤ s.bw.bits.length + 32)
    (hdel : Delivered s.bw s.env t.bw t.env) : EncoderReady t k := by
  refine ⟨hpred, by rw [hpar, h.par], hopen, by rwa [hpar], hdel.neverFails h.host, fun hk => ?_⟩
  obtain ⟨-, hkind, -, hcap, -⟩ := hdel
  have hroom := h.room (hkind ▸ hk)
  have hcount := hok.count_eq
  have hcount' := h.writer.count_eq
  rw [hcap]
  unfold bytesFor at hroom ⊢
  omega

/-- A bit encoded when nothing fails. -/
theorem EncoderReady.exists_encodeBit {k : Nat} (h : EncoderReady s (k + 1)) (bit : Bool) :
    ∃ t, encodeBit bit s = .ok () t ∧ EncoderReady t k ∧ s.bw.bits <+: t.bw.bits ∧ Delivered s.bw s.env t.bw t.env := by
  obtain ⟨-, hbw, -, henv, hpar, -⟩ := s.predUpdated_fields s.be.pslot bit
  have hpred := State.predReady_predUpdated h.pred bit
  cases hs : (s.be.iv.narrow (s.prob s.be.pslot) bit).settled with
  | false =>
    refine ⟨_, encodeBit_open h.pred hs, ?_⟩
    generalize s.predUpdated s.be.pslot bit = u at hbw henv hpar hpred
    have hdel : Delivered s.bw s.env u.bw u.env := by
      rw [hbw, henv]
      exact Delivered.refl _ _
    exact ⟨h.next hpred hpar (hbw ▸ h.isOpen) (hbw ▸ h.writer) (by rw [State.withBe_bw, hbw]; omega) hdel,
      by rw [State.withBe_bw, hbw], hdel⟩
  | true =>
    obtain ⟨w, e, hw, hbits, hopen, hok, hdel⟩ := writeBits_delivered h.par h.isOpen h.writer h.host
      (s.be.iv.narrow (s.prob s.be.pslot) bit).group (len := 32) (by decide)
      fun hk => by have := h.room hk; unfold bytesFor at this ⊢; omega
    refine ⟨_, encodeBit_settled h.pred hs hw, h.next hpred hpar hopen hok ?_ hdel, ?_, hdel⟩
    · show w.bits.length ≤ _
      rw [hbits, List.length_append, bitsOf_length]
    · show _ <+: w.bits
      rw [hbits]
      exact List.prefix_append _ _

/-- Bits encoded when nothing fails. -/
theorem EncoderReady.exists_encodeBits : ∀ {l : List Bool} {s : State}, EncoderReady s l.length →
    ∃ t, encodeBits l s = .ok () t ∧ EncoderReady t 0 ∧ s.bw.bits <+: t.bw.bits ∧ Delivered s.bw s.env t.bw t.env
  | [], s, h => ⟨s, rfl, h, List.prefix_refl _, Delivered.refl _ _⟩
  | b :: _, _, h => by
    obtain ⟨u, hu, hready, hbits, hdel⟩ := h.exists_encodeBit b
    obtain ⟨t, ht, hready', hbits', hdel'⟩ := hready.exists_encodeBits
    exact ⟨t, (Cmd.bind_of_ok _ hu).trans ht, hready', hbits.trans hbits', hdel.trans hdel' hready.writer hbits'⟩

/-! ### `BE_ENC_BITS` -/

theorem beEncBitsBody_long (hn : 64 < n.toNat) (value : Word) :
    beEncBitsBody n value s = .error (.raise (errOf .invalidParameter 2 0 false)) s := by
  rw [beEncBitsBody, check_bind, if_pos (decide_eq_true hn)]

theorem beEncBitsBody_mode (hn : n.toNat ≤ 64) (hmode : s.be.mode ≠ .enc) (value : Word) :
    beEncBitsBody n value s = .error (.raise (errOf .invalidParameter 3 0 false)) s := by
  rw [beEncBitsBody, check_bind, if_neg (by simpa using hn), Cmd.bind_of_error _ (checkEncoder_mode hmode)]

theorem beEncBitsBody_of {value : Word} (hn : n.toNat ≤ 64) (hmode : s.be.mode = .enc) (hopen : s.bw.isOpen = true)
    (h : encodeBits (bitsOf value n.toNat) s = .ok () t) : beEncBitsBody n value s = .ok 0 t := by
  rw [beEncBitsBody, check_bind, if_neg (by simpa using hn), Cmd.bind_of_ok _ (checkEncoder_of hmode hopen),
    Cmd.bind_of_ok _ h, Cmd.pure_run]

theorem encodeBits_of_beEncBitsBody {value : Word} (h : beEncBitsBody n value s = .ok v t) :
    encodeBits (bitsOf value n.toNat) s = .ok () t := by
  rw [beEncBitsBody, check_bind] at h
  split_ifs at h
  obtain ⟨_, u, hcheck, hrest⟩ := Cmd.bind_eq_ok.mp h
  obtain ⟨_, w, hbits, hend⟩ := Cmd.bind_eq_ok.mp hrest
  cases hend
  rwa [(checkEncoder_keeps (R := fun s t => t = s) fun _ => rfl).of_ok hcheck] at hbits

theorem EncoderOnly.resp_eq (h : EncoderOnly s t) : t.resp = s.resp := by
  obtain ⟨b, p, a, x, w, e, d, rfl, -⟩ := h
  rfl

/-- A count of one bit more. -/
theorem toNat_succ (hn : n.toNat < 64) : (n + 1).toNat = n.toNat + 1 := by
  have hone : (1 : BitVec 8).toNat = 1 := rfl
  rw [BitVec.toNat_add, hone]
  omega

/-- Settles O31: the checks, the bits in turn by induction over them, and one bit more read off the recursion. -/
theorem beEncBitsCodesBitsInTurn : Obligations.BeEncBitsCodesBitsInTurn := by
  intro s n value hs
  refine ⟨fun hn => ?_, fun hn hmode => ?_, fun hmode hopen => ?_, fun hn hmode hopen hpred hpar hok he hroom => ?_,
    fun hn hmode hopen u t hbit hu hresp hbits ht => ?_⟩
  · exact exec_fails (i := .beEncBits n value) (sub := 2) nofun hs (beEncBitsBody_long hn value)
  · exact exec_fails (i := .beEncBits n value) (sub := 3) nofun hs (beEncBitsBody_mode hn hmode value)
  · exact exec_completes (i := .beEncBits 0 value) nofun hs (beEncBitsBody_of (by decide) hmode hopen rfl)
  · have hready : EncoderReady s (bitsOf value n.toNat).length :=
      ⟨hpred, hpar, hopen, hok, he, by rwa [bitsOf_length]⟩
    obtain ⟨t, ht, hready', hstream, hdel⟩ := hready.exists_encodeBits
    have hframe := (encodeBits_frame ht).2
    have hpar' : t.par = s.par := by rw [hframe]
    exact ⟨t, exec_completes (i := .beEncBits n value) nofun hs (beEncBitsBody_of hn hmode hopen ht), hframe,
      hready'.isOpen, hstream, hpar' ▸ hready'.writer, hdel⟩
  · have hfirst := encodeBit_of_beEncBitBody (ruleOf_of_completed_resp (i := .beEncBit _) nofun
      ((beEncBitBody_keeps _).mono EncoderOnly.resp_eq) hs hu hresp hbit)
    obtain ⟨r, hrest⟩ := ruleOf_of_completed (i := .beEncBits n value) nofun hu ht hbits
    refine exec_completes (i := .beEncBits (n + 1) value) (t := t.withResp r) nofun hs
      (beEncBitsBody_of (by rw [toNat_succ hn]; exact hn) hmode hopen ?_)
    rw [toNat_succ hn, bitsOf]
    exact (Cmd.bind_of_ok _ hfirst).trans (encodeBits_of_beEncBitsBody hrest)

end Sys2Proof.Machine
end

section
/-!
O34, O35: the commands of the binary coder that decode bits.
-/

namespace Sys2Proof.Machine

variable {s t u : State} {v : Word} {n : BitVec 8}

/-! ### What is taken in turn -/

theorem Fetched.refl (r : BitReader) (e : Env) : Fetched r e r e := Fetched.intro (Env.Took.refl r e) rfl rfl rfl rfl rfl

theorem Fetched.trans {b r r' : BitReader} {e e1 e2 : Env} (h : Fetched b e r e1) (h' : Fetched r e1 r' e2) :
    Fetched b e r' e2 := by
  obtain ⟨a1, a2, a3, a4, a5, atook⟩ := h
  obtain ⟨b1, b2, b3, b4, b5, btook⟩ := h'
  exact Fetched.intro (atook.trans a3 btook) (b2.trans a2) (b3.trans a3) (b4.trans a4) (b5.trans a5) (by omega)

theorem Fetched.neverFails {b r : BitReader} {e e' : Env} (h : Fetched b e r e') (he : e.neverFails) : e'.neverFails :=
  h.2.2.2.2.2.neverFails he

/-! ### A bit decoded -/

/-- A read of bits that remain. -/
theorem readBits_fetched (hpar : s.par.ok = true) (hopen : s.br.isOpen = true) (hok : ReaderOk s.par.bufsz s.br)
    (he : s.env.neverFails) {len : Nat} (hlen : len ≤ 64) (hrem : len ≤ (remainingBits s.br s.env).length) :
    ∃ r e, readBits s.par.bufsz len (s.br, s.env) =
        .ok (BitVec.ofNat 64 (bitsNat ((remainingBits s.br s.env).take len))) (r, e) ∧
      r.count = s.br.count + len ∧ remainingBits r e = (remainingBits s.br s.env).drop len ∧ ReaderOk s.par.bufsz r ∧
      Fetched s.br s.env r e := by
  obtain ⟨r, e, hr, hpost⟩ := onReader_readBits_of hpar hopen hok he hlen hrem
  obtain ⟨⟨r', e'⟩, hx, heq⟩ := zoom_eq_ok.mp hr
  have hr' : r = r' := congrArg State.br heq
  have he' : e = e' := congrArg State.env heq
  exact ⟨r, e, by rw [hx, hr', he'], hpost⟩

/-- The bit the coder decodes next (43_binary_coder.md R234). -/
def State.nextBit (s : State) : Bool := s.be.iv.decide (s.prob s.be.pslot) s.be.current

/-- The interval of the bit the coder decodes next. -/
def State.nextInterval (s : State) : Interval := s.be.iv.narrow (s.prob s.be.pslot) s.nextBit

/-- A bit that leaves bits 55..24 of the bounds different. -/
theorem decodeBit_open (h : s.predReady s.be.pslot) (hs : s.nextInterval.settled = false) :
    decodeBit s = .ok s.nextBit
      ((s.predUpdated s.be.pslot s.nextBit).withBe { s.be with iv := s.nextInterval }) :=
  decodeBit_of h (renormDec_open hs)

/-- A bit that settles the bounds, when the read of the refill goes through. -/
theorem decodeBit_settled (h : s.predReady s.be.pslot) (hs : s.nextInterval.settled = true) {x : Word} {r : BitReader}
    {e : Env} (hr : readBits s.par.bufsz 32 (s.br, s.env) = .ok x (r, e)) :
    decodeBit s = .ok s.nextBit ((((s.predUpdated s.be.pslot s.nextBit).withBr r).withEnv e).withBe
      { s.be with iv := s.nextInterval.shift, current := (s.be.current <<< 32) ||| x }) := by
  obtain ⟨-, -, hbr, henv, hpar, -⟩ := s.predUpdated_fields s.be.pslot s.nextBit
  refine decodeBit_of h (renormDec_of ?_ ?_)
  · exact hs
  · show readBits (s.predUpdated s.be.pslot s.nextBit).par.bufsz 32
      ((s.predUpdated s.be.pslot s.nextBit).br, (s.predUpdated s.be.pslot s.nextBit).env) = _
    rw [hpar, hbr, henv]
    exact hr

theorem ofBool_setWidth (b : Bool) : (BitVec.ofBool b).setWidth 64 = BitVec.ofNat 64 b.toNat := by
  cases b <;> rfl

theorem beDecBitBody_of {b : Bool} (hmode : s.be.mode = .dec) (h : decodeBit s = .ok b t) :
    beDecBitBody s = .ok (BitVec.ofNat 64 b.toNat) t := by
  rw [beDecBitBody, Cmd.bind_of_ok _ (checkDecoder_of hmode), Cmd.bind_of_ok _ h, Cmd.pure_run, ofBool_setWidth]

theorem decodeBit_of_beDecBitBody (h : beDecBitBody s = .ok v t) :
    ∃ b, decodeBit s = .ok b t ∧ v = BitVec.ofNat 64 b.toNat := by
  obtain ⟨_, u, hcheck, hrest⟩ := Cmd.bind_eq_ok.mp h
  obtain ⟨b, w, hbit, hend⟩ := Cmd.bind_eq_ok.mp hrest
  cases hend
  rw [(checkDecoder_keeps (R := fun s t => t = s) fun _ => rfl).of_ok hcheck] at hbit
  exact ⟨b, hbit, ofBool_setWidth b⟩

/-- Settles O34: the check of the mode, then one bit, whose bounds are settled or not. -/
theorem beDecBitDecidesOneBit : Obligations.BeDecBitDecidesOneBit := by
  intro s hs
  refine ⟨fun hmode => ?_, fun hmode hpred => ⟨fun hiv => ?_, fun hiv hopen hpar hok he hrem => ?_⟩⟩
  · exact exec_fails (i := .beDecBit) (sub := 3) nofun hs (Cmd.bind_of_error _ (checkDecoder_mode hmode))
  · rw [Ne, ← Interval.settled_iff, Bool.not_eq_true] at hiv
    exact exec_completes (i := .beDecBit) nofun hs (beDecBitBody_of hmode (decodeBit_open hpred hiv))
  · obtain ⟨r, e, hr, hpost⟩ := readBits_fetched hpar hopen hok he (by decide) hrem
    exact ⟨r, e, exec_completes (i := .beDecBit) nofun hs
      (beDecBitBody_of hmode (decodeBit_settled hpred ((Interval.settled_iff _).mpr hiv) hr)), hpost⟩

/-! ### Bits decoded in turn -/

/-- What decoding `k` bits needs: a usable predictor, and an open reader with 32 bits a bit left on a host that does not
fail. -/
structure DecoderReady (s : State) (k : Nat) : Prop where
  pred : s.predReady s.be.pslot
  par : s.par.ok = true
  isOpen : s.br.isOpen = true
  reader : ReaderOk s.par.bufsz s.br
  host : s.env.neverFails
  left : 32 * k ≤ (remainingBits s.br s.env).length

/-- A bit decoded when nothing fails. -/
theorem DecoderReady.exists_decodeBit {k : Nat} (h : DecoderReady s (k + 1)) :
    ∃ b t, decodeBit s = .ok b t ∧ DecoderReady t k ∧ Fetched s.br s.env t.br t.env := by
  obtain ⟨-, -, hbr, henv, hpar, -⟩ := s.predUpdated_fields s.be.pslot s.nextBit
  have hpred := State.predReady_predUpdated h.pred s.nextBit
  have hleft := h.left
  cases hs : s.nextInterval.settled with
  | false =>
    refine ⟨_, _, decodeBit_open h.pred hs, ?_⟩
    generalize s.predUpdated s.be.pslot s.nextBit = u at hbr henv hpar hpred
    rw [State.withBe_br, State.withBe_env, hbr, henv]
    refine ⟨⟨hpred, ?_, ?_, ?_, ?_, ?_⟩, Fetched.refl _ _⟩
    · rw [State.withBe_par, hpar, h.par]
    · rw [State.withBe_br, hbr, h.isOpen]
    · rw [State.withBe_par, State.withBe_br, hpar, hbr]
      exact h.reader
    · rw [State.withBe_env, henv]
      exact h.host
    · rw [State.withBe_br, State.withBe_env, hbr, henv]
      omega
  | true =>
    obtain ⟨r, e, hr, -, hrest, hok, hfetched⟩ := readBits_fetched h.par h.isOpen h.reader h.host (len := 32) (by decide)
      (by omega)
    refine ⟨_, _, decodeBit_settled h.pred hs hr, ⟨hpred, ?_, ?_, ?_, hfetched.neverFails h.host, ?_⟩, hfetched⟩
    · rw [State.withBe_par, State.withEnv_par, State.withBr_par, hpar, h.par]
    · exact hfetched.2.1.trans h.isOpen
    · rw [State.withBe_par, State.withEnv_par, State.withBr_par, hpar]
      exact hok
    · show _ ≤ (remainingBits r e).length
      rw [hrest, List.length_drop]
      omega

/-- Bits decoded when nothing fails. -/
theorem DecoderReady.exists_decodeBits : ∀ {k : Nat} {acc : Word} {s : State}, DecoderReady s k →
    ∃ v t, decodeBits k acc s = .ok v t ∧ DecoderReady t 0 ∧ Fetched s.br s.env t.br t.env
  | 0, acc, s, h => ⟨acc, s, rfl, h, Fetched.refl _ _⟩
  | _ + 1, _, _, h => by
    obtain ⟨b, u, hu, hready, hfetched⟩ := h.exists_decodeBit
    obtain ⟨v, t, ht, hready', hfetched'⟩ := hready.exists_decodeBits
    exact ⟨v, t, (Cmd.bind_of_ok _ hu).trans ht, hready', hfetched.trans hfetched'⟩

/-- The answer of a run of bits is below the power of two it may reach. -/
theorem decodeBits_lt : ∀ {k : Nat} {acc : Word} {s t : State} {v : Word}, decodeBits k acc s = .ok v t →
    v.toNat < (acc.toNat + 1) * 2 ^ k
  | 0, _, _, _, _, h => by
    cases h
    omega
  | k + 1, acc, _, _, v, h => by
    obtain ⟨b, u, -, hrest⟩ := Cmd.bind_eq_ok.mp h
    have hacc : (2 * acc + (BitVec.ofBool b).setWidth 64).toNat + 1 ≤ 2 * (acc.toNat + 1) := by
      have hb : ((BitVec.ofBool b).setWidth 64).toNat ≤ 1 := by cases b <;> decide
      have htwo : (2 : Word).toNat = 2 := rfl
      rw [BitVec.toNat_add, BitVec.toNat_mul, htwo]
      omega
    calc v.toNat < ((2 * acc + (BitVec.ofBool b).setWidth 64).toNat + 1) * 2 ^ k := decodeBits_lt hrest
      _ ≤ 2 * (acc.toNat + 1) * 2 ^ k := Nat.mul_le_mul_right _ hacc
      _ = (acc.toNat + 1) * 2 ^ (k + 1) := by ring

/-- What stands before a run of bits only moves up by their number. -/
theorem decodeBits_add : ∀ {k : Nat} {acc v : Word} {s t : State} (d : Word), decodeBits k acc s = .ok v t →
    decodeBits k (acc + d) s = .ok (d * BitVec.ofNat 64 (2 ^ k) + v) t
  | 0, acc, v, s, t, d, h => by
    cases h
    rw [Nat.pow_zero, BitVec.mul_one, BitVec.add_comm]
    rfl
  | k + 1, acc, v, s, t, d, h => by
    obtain ⟨b, u, hbit, hrest⟩ := Cmd.bind_eq_ok.mp h
    have hpow : BitVec.ofNat 64 (2 ^ (k + 1)) = BitVec.ofNat 64 (2 ^ k) * 2 := by
      rw [Nat.pow_succ, BitVec.ofNat_mul]
      rfl
    have hacc : 2 * (acc + d) + (BitVec.ofBool b).setWidth 64 = 2 * acc + (BitVec.ofBool b).setWidth 64 + 2 * d := by ring
    have hval : d * BitVec.ofNat 64 (2 ^ (k + 1)) + v = 2 * d * BitVec.ofNat 64 (2 ^ k) + v := by rw [hpow]; ring
    rw [decodeBits, Cmd.bind_of_ok _ hbit, hacc, hval]
    exact decodeBits_add (2 * d) hrest

/-! ### `BE_DEC_BITS` -/

theorem beDecBitsBody_long (hn : 64 < n.toNat) : beDecBitsBody n s = .error (.raise (errOf .invalidParameter 2 0 false)) s := by
  rw [beDecBitsBody, check_bind, if_pos (decide_eq_true hn)]

theorem beDecBitsBody_mode (hn : n.toNat ≤ 64) (hmode : s.be.mode ≠ .dec) :
    beDecBitsBody n s = .error (.raise (errOf .invalidParameter 3 0 false)) s := by
  rw [beDecBitsBody, check_bind, if_neg (by simpa using hn), Cmd.bind_of_error _ (checkDecoder_mode hmode)]

theorem beDecBitsBody_of (hn : n.toNat ≤ 64) (hmode : s.be.mode = .dec) : beDecBitsBody n s = decodeBits n.toNat 0 s := by
  rw [beDecBitsBody, check_bind, if_neg (by simpa using hn), Cmd.bind_of_ok _ (checkDecoder_of hmode)]

theorem decodeBits_of_beDecBitsBody (h : beDecBitsBody n s = .ok v t) : decodeBits n.toNat 0 s = .ok v t := by
  rw [beDecBitsBody, check_bind] at h
  split_ifs at h
  obtain ⟨_, u, hcheck, hrest⟩ := Cmd.bind_eq_ok.mp h
  rwa [(checkDecoder_keeps (R := fun s t => t = s) fun _ => rfl).of_ok hcheck] at hrest

theorem DecoderOnly.resp_eq (h : DecoderOnly s t) : t.resp = s.resp := by
  obtain ⟨b, p, a, x, r, e, rfl, -⟩ := h
  rfl

/-- Settles O35: the checks, the bits in turn by induction over their number, and one bit more read off the recursion. -/
theorem beDecBitsDecodesBitsInTurn : Obligations.BeDecBitsDecodesBitsInTurn := by
  intro s n hs
  refine ⟨fun hn => ?_, fun hn hmode => ?_, fun hmode => ?_, fun hn hmode hpred hpar hopen hok he hleft => ?_,
    fun hn hmode u t b v hbit hu hresp hbits ht => ?_⟩
  · exact exec_fails (i := .beDecBits n) (sub := 2) nofun hs (beDecBitsBody_long hn)
  · exact exec_fails (i := .beDecBits n) (sub := 3) nofun hs (beDecBitsBody_mode hn hmode)
  · exact exec_completes (i := .beDecBits 0) nofun hs (beDecBitsBody_of (by decide) hmode)
  · have hready : DecoderReady s n.toNat := ⟨hpred, hpar, hopen, hok, he, hleft⟩
    obtain ⟨v, t, ht, hready', hfetched⟩ := hready.exists_decodeBits (acc := 0)
    have hframe := ((decodeBits_keeps _ _).of_ok ht).2
    have hpar' : t.par = s.par := by rw [hframe]
    have hlt := decodeBits_lt ht
    exact ⟨t, v, exec_completes (i := .beDecBits n) nofun hs ((beDecBitsBody_of hn hmode).trans ht),
      by simpa using hlt, hframe, hpar' ▸ hready'.reader, hfetched⟩
  · obtain ⟨c, hfirst, rfl⟩ := decodeBit_of_beDecBitBody (ruleOf_of_completed_resp (i := .beDecBit) nofun
      (beDecBitBody_keeps.mono DecoderOnly.resp_eq) hs hu hresp hbit)
    obtain ⟨r, hrest⟩ := ruleOf_of_completed (i := .beDecBits n) nofun hu ht hbits
    refine exec_completes (i := .beDecBits (n + 1)) (t := t.withResp r) nofun hs
      ((beDecBitsBody_of (by rw [toNat_succ hn]; exact hn) hmode).trans ?_)
    rw [toNat_succ hn, decodeBits, Cmd.bind_of_ok _ hfirst, ofBool_setWidth]
    exact decodeBits_add _ (decodeBits_of_beDecBitsBody hrest)

end Sys2Proof.Machine
end

section
/-!
O38: the normalisation of ANS counts gives a table of the range that is nonzero exactly where a symbol occurs.
-/

namespace Sys2Proof.Machine

variable {f g h : List Nat}

/-! ### The greatest entry -/

/-- The scan of `argmax` once it has passed the entries `p`, the greatest of them at `best`. -/
theorem argmaxFrom_spec : ∀ (r p : List Nat) (best : Nat), best < p.length → (∀ v ∈ p, v ≤ p.getD best 0) →
    argmaxFrom p.length best (p.getD best 0) r < (p ++ r).length ∧
      ∀ v ∈ p ++ r, v ≤ (p ++ r).getD (argmaxFrom p.length best (p.getD best 0) r) 0
  | [], p, best, hbest, hmax => by
    rw [List.append_nil]
    exact ⟨hbest, hmax⟩
  | v :: r, p, best, hbest, hmax => by
    have hnew : (p ++ [v]).getD p.length 0 = v := by simp
    have hold : (p ++ [v]).getD best 0 = p.getD best 0 := List.getD_append _ _ _ _ hbest
    have hlen : (p ++ [v]).length = p.length + 1 := by simp
    have hsplit : p ++ v :: r = (p ++ [v]) ++ r := by simp
    rw [argmaxFrom, hsplit]
    by_cases hv : p.getD best 0 < v
    · have ih := argmaxFrom_spec r (p ++ [v]) p.length (by omega) fun u hu => by
        rw [hnew]
        rcases List.mem_append.mp hu with hu | hu
        · exact (hmax u hu).trans hv.le
        · exact (List.mem_singleton.mp hu).le
      rw [if_pos hv]
      rwa [hlen, hnew] at ih
    · have ih := argmaxFrom_spec r (p ++ [v]) best (by omega) fun u hu => by
        rw [hold]
        rcases List.mem_append.mp hu with hu | hu
        · exact hmax u hu
        · exact (List.mem_singleton.mp hu).trans_le (Nat.le_of_not_lt hv)
      rw [if_neg hv]
      rwa [hlen, hold] at ih

/-- `argmax` is the index of an entry that no entry exceeds. -/
theorem argmax_spec (hf : f ≠ []) : argmax f < f.length ∧ ∀ v ∈ f, v ≤ f.getD (argmax f) 0 := by
  obtain ⟨v, r, rfl⟩ := List.exists_cons_of_ne_nil hf
  exact argmaxFrom_spec r [v] 0 Nat.one_pos fun u hu => (List.mem_singleton.mp hu).le

theorem sum_le_length_mul_greatest (hf : f ≠ []) : f.sum ≤ f.length * f.getD (argmax f) 0 :=
  List.sum_le_card_nsmul f _ (argmax_spec hf).2

/-! ### Tables over the same symbols -/

/-- Two tables of the same length that are zero at the same symbols. -/
def SameSupport (f g : List Nat) : Prop := g.length = f.length ∧ ∀ s, g.getD s 0 = 0 ↔ f.getD s 0 = 0

theorem SameSupport.refl (f : List Nat) : SameSupport f f := ⟨rfl, fun _ => Iff.rfl⟩

theorem SameSupport.trans (hfg : SameSupport f g) (hgh : SameSupport g h) : SameSupport f h :=
  ⟨hgh.1.trans hfg.1, fun s => (hgh.2 s).trans (hfg.2 s)⟩

/-- A change of one entry that keeps whether it is zero. -/
theorem SameSupport.modify {i : Nat} {k : Nat → Nat} (hk : k (f.getD i 0) = 0 ↔ f.getD i 0 = 0) :
    SameSupport f (f.modify i k) := by
  refine ⟨List.length_modify .., fun s => ?_⟩
  rw [List.getD_eq_getElem?_getD, List.getD_eq_getElem?_getD, List.getElem?_modify]
  by_cases hs : i = s
  · subst hs
    rw [List.getD_eq_getElem?_getD] at hk
    cases hi : f[i]? with
    | none => rfl
    | some v => simpa [hi] using hk
  · simp [hs]

theorem sum_modify {i : Nat} (hi : i < f.length) (k : Nat → Nat) :
    (f.modify i k).sum + f.getD i 0 = f.sum + k (f.getD i 0) := by
  have hget : f.getD i 0 = f[i] := List.getD_eq_getElem f 0 hi
  have hsum := List.sum_take_add_sum_drop f i
  rw [List.drop_eq_getElem_cons hi, List.sum_cons] at hsum
  rw [List.modify_eq_take_cons_drop hi, List.sum_append, List.sum_cons, hget]
  omega

/-! ### The two loops -/

/-- Units taken off a table of a greater sum than it has symbols: no symbol is lost. -/
theorem lowerGreatest_spec : ∀ {k : Nat} {f : List Nat}, f.length + k ≤ f.sum →
    (lowerGreatest k f).sum + k = f.sum ∧ SameSupport f (lowerGreatest k f)
  | 0, f, _ => ⟨rfl, SameSupport.refl f⟩
  | k + 1, f, hk => by
    have hf : f ≠ [] := by
      rintro rfl
      simp at hk
    have hgreatest : 2 ≤ f.getD (argmax f) 0 := by
      by_contra hlt
      have hle := sum_le_length_mul_greatest hf
      have hone := Nat.mul_le_mul_left f.length (show f.getD (argmax f) 0 ≤ 1 by omega)
      omega
    have hsum := sum_modify (argmax_spec hf).1 (· - 1)
    have hsame : SameSupport f (f.modify (argmax f) (· - 1)) := SameSupport.modify (by omega)
    obtain ⟨hrest, hsame'⟩ := lowerGreatest_spec (k := k) (f := f.modify (argmax f) (· - 1)) (by rw [hsame.1]; omega)
    exact ⟨by rw [lowerGreatest]; omega, hsame.trans hsame'⟩

/-- Units added to a table that is not all zero: no symbol is won. -/
theorem raiseGreatest_spec : ∀ {k : Nat} {f : List Nat}, 0 < f.sum →
    (raiseGreatest k f).sum = f.sum + k ∧ SameSupport f (raiseGreatest k f)
  | 0, f, _ => ⟨rfl, SameSupport.refl f⟩
  | k + 1, f, hpos => by
    have hf : f ≠ [] := by
      rintro rfl
      simp at hpos
    have hgreatest : 0 < f.getD (argmax f) 0 :=
      Nat.pos_of_ne_zero (right_ne_zero_of_mul (hpos.trans_le (sum_le_length_mul_greatest hf)).ne')
    have hsum := sum_modify (argmax_spec hf).1 (· + 1)
    have hsame : SameSupport f (f.modify (argmax f) (· + 1)) := SameSupport.modify (by omega)
    obtain ⟨hrest, hsame'⟩ := raiseGreatest_spec (k := k) (f := f.modify (argmax f) (· + 1)) (by omega)
    exact ⟨by rw [raiseGreatest]; omega, hsame.trans hsame'⟩

/-! ### Normalisation -/

/-- A count scaled to the range (44_ans.md R264), before the loops. -/
def scaledCount (total lr n : Nat) : Nat := if n = 0 then 0 else max 1 (n * 2 ^ lr / total)

theorem scaledCount_eq_zero_iff {total lr n : Nat} : scaledCount total lr n = 0 ↔ n = 0 := by
  unfold scaledCount
  split <;> omega

theorem ansNormalize_eq (count : List Nat) (lr : Nat) :
    ansNormalize count lr =
      let f := count.map (scaledCount count.sum lr)
      if 2 ^ lr < f.sum then lowerGreatest (f.sum - 2 ^ lr) f else raiseGreatest (2 ^ lr - f.sum) f := rfl

theorem SameSupport.map_scaledCount (count : List Nat) (total lr : Nat) :
    SameSupport count (count.map (scaledCount total lr)) := by
  refine ⟨List.length_map _, fun s => ?_⟩
  have hzero : scaledCount total lr 0 = 0 := scaledCount_eq_zero_iff.mpr rfl
  have hget := List.getD_map count 0 (n := s) (scaledCount total lr)
  rw [hzero] at hget
  rw [hget, scaledCount_eq_zero_iff]

theorem SameSupport.sum_ne_zero (hfg : SameSupport f g) (hf : f.sum ≠ 0) : g.sum ≠ 0 := by
  intro hg
  refine hf (List.sum_eq_zero fun v hv => ?_)
  obtain ⟨i, hi, rfl⟩ := List.getElem_of_mem hv
  have hget : g.getD i 0 = 0 := by
    rw [List.getD_eq_getElem g 0 (hfg.1 ▸ hi)]
    exact List.sum_eq_zero_iff.mp hg _ (List.getElem_mem _)
  rw [← List.getD_eq_getElem f 0 hi]
  exact (hfg.2 i).mp hget

/-- The normalised table of counts that are not all zero, when the range has a place for every symbol. -/
theorem ansNormalize_spec {count : List Nat} {lr : Nat} (hsum : count.sum ≠ 0) (hlr : count.length ≤ 2 ^ lr) :
    (ansNormalize count lr).sum = 2 ^ lr ∧ SameSupport count (ansNormalize count lr) := by
  have hsame := SameSupport.map_scaledCount count count.sum lr
  have hpos := Nat.pos_of_ne_zero (hsame.sum_ne_zero hsum)
  rw [ansNormalize_eq]
  generalize count.map (scaledCount count.sum lr) = f at hsame hpos
  dsimp only
  split_ifs with hbig
  · obtain ⟨htotal, hsame'⟩ := lowerGreatest_spec (k := f.sum - 2 ^ lr) (f := f) (by rw [hsame.1]; omega)
    exact ⟨by omega, hsame.trans hsame'⟩
  · obtain ⟨htotal, hsame'⟩ := raiseGreatest_spec (k := 2 ^ lr - f.sum) hpos
    exact ⟨by omega, hsame.trans hsame'⟩

/-- A range of at least 8 bits has a place for every byte. -/
theorem alphabet_le_range {lr : Nat} (hlr : 8 ≤ lr) : 256 ≤ 2 ^ lr := Nat.pow_le_pow_right Nat.two_pos hlr

/-- Settles O38: the loops bring the sum of the scaled counts to the range and keep which symbols occur. -/
theorem ansTablesSumToRange : Obligations.AnsTablesSumToRange := by
  intro count lr hlen hsum hlr _
  obtain ⟨htotal, hsame⟩ := ansNormalize_spec hsum (hlen.trans_le (alphabet_le_range hlr))
  exact ⟨hsame.1.trans hlen, htotal, hsame.2⟩

end Sys2Proof.Machine
end

section
/-!
O39: decoding an ANS run over any reader of fields gives the data back and consumes exactly the run.
-/

namespace Sys2Proof.Machine

variable {σ α β : Type} {I : List Bool → σ → Prop} {rb : Nat → Cmd σ Word} {bits bits' : List Bool} {lr : Nat}
  {f : List Nat} {order1 : Bool} {d : List Byte}

/-! ### Decoding, over any reader -/

/-- From a state with `bits` next, the piece answers `a` and leaves exactly what follows them; `I l s` says that `l` is what
the reader of state `s` has left. -/
def Cmd.Decodes (I : List Bool → σ → Prop) (x : Cmd σ α) (bits : List Bool) (a : α) : Prop :=
  ∀ rest s, I (bits ++ rest) s → ∃ t, x s = .ok a t ∧ I rest t

/-- A read of at most 64 bits that are left answers them, the first the most significant, and consumes exactly them. -/
def ReadsFields (I : List Bool → σ → Prop) (rb : Nat → Cmd σ Word) : Prop :=
  ∀ ⦃len l s⦄, len ≤ 64 → len ≤ l.length → I l s →
    ∃ t, rb len s = .ok (BitVec.ofNat 64 (bitsNat (l.take len))) t ∧ I (l.drop len) t

theorem Cmd.Decodes.pure (a : α) : (Pure.pure a : Cmd σ α).Decodes I [] a := fun _ s h => ⟨s, rfl, h⟩

theorem Cmd.Decodes.bind {x : Cmd σ α} {g : α → Cmd σ β} {a : α} {b : β} (hx : x.Decodes I bits a)
    (hg : (g a).Decodes I bits' b) : (x >>= g).Decodes I (bits ++ bits') b := by
  intro rest s h
  rw [List.append_assoc] at h
  obtain ⟨t, ht, h⟩ := hx _ _ h
  obtain ⟨u, hu, h⟩ := hg _ _ h
  exact ⟨u, (Cmd.bind_of_ok g ht).trans hu, h⟩

theorem Cmd.Decodes.bind_pure {x : Cmd σ α} {a : α} (hx : x.Decodes I bits a) (g : α → β) :
    (x >>= fun a => Pure.pure (g a) : Cmd σ β).Decodes I bits (g a) := by
  have h := hx.bind (g := fun a => Pure.pure (g a)) (Cmd.Decodes.pure (g a))
  rwa [List.append_nil] at h

theorem Cmd.Decodes.pure_then {a : α} {g : α → Cmd σ β} {b : β} (hg : (g a).Decodes I bits b) :
    (Pure.pure a >>= g : Cmd σ β).Decodes I bits b := hg

theorem Cmd.Decodes.midway {x : Cmd σ α} {a : α} (hx : x.Decodes I bits a) : (Machine.midway x).Decodes I bits a := by
  intro rest s h
  obtain ⟨t, ht, h⟩ := hx rest s h
  exact ⟨t, midway_eq_ok.mpr ht, h⟩

/-- A check that passes. -/
theorem Cmd.Decodes.checkMid_then {c : Bool} {k : ErrKind} {b : Byte} {n : Nat} {g : Unit → Cmd σ α} {a : α}
    (hc : c = false) (hg : (g ()).Decodes I bits a) : (checkMid c k b n >>= g).Decodes I bits a := by
  subst hc
  exact hg

/-- A field as it was written. -/
theorem ReadsFields.field (h : ReadsFields I rb) {v : Word} {len : Nat} (hlen : len ≤ 64) (hv : v.toNat < 2 ^ len) :
    (rb len).Decodes I (bitsOf v len) v := by
  intro rest s hs
  obtain ⟨t, ht, hrest⟩ := h hlen (by simp) hs
  rw [List.take_left' (bitsOf_length v len), bitsNat_bitsOf, Nat.mod_eq_of_lt hv, BitVec.ofNat_toNat,
    BitVec.setWidth_eq] at ht
  rw [List.drop_left' (bitsOf_length v len)] at hrest
  exact ⟨t, ht, hrest⟩

theorem fieldBits_cons (e : Word × Nat) (l : List (Word × Nat)) : fieldBits (e :: l) = bitsOf e.1 e.2 ++ fieldBits l := rfl

theorem fieldBits_append (k l : List (Word × Nat)) : fieldBits (k ++ l) = fieldBits k ++ fieldBits l := List.flatMap_append

/-! ### Tables -/

/-- A frequency as its field holds it (44_ans.md R265). -/
theorem freqField_toNat {n : Nat} (hlr : lr ≤ 16) (h0 : n ≠ 0) (hn : n ≤ 2 ^ lr) :
    (BitVec.ofNat 64 (n - 1)).toNat < 2 ^ lr ∧ (BitVec.ofNat 64 (n - 1)).toNat + 1 = n := by
  have hpow : 2 ^ lr ≤ 2 ^ 16 := Nat.pow_le_pow_right Nat.two_pos hlr
  rw [BitVec.toNat_ofNat, Nat.mod_eq_of_lt (by omega)]
  omega

theorem readTableEntries_decodes (h : ReadsFields I rb) (hlr : lr ≤ 16) : ∀ {f : List Nat}, (∀ n ∈ f, n ≤ 2 ^ lr) →
    (readTableEntries rb lr f.length).Decodes I (fieldBits (tableFields lr f)) f
  | [], _ => Cmd.Decodes.pure []
  | n :: f, hf => by
    obtain ⟨hn, hf⟩ := List.forall_mem_cons.mp hf
    have ih := readTableEntries_decodes h hlr hf
    rw [List.length_cons, readTableEntries, tableFields]
    by_cases h0 : n = 0
    · subst h0
      exact (h.field (v := 0) (len := 1) (by decide) (by decide)).bind (ih.bind_pure _)
    · obtain ⟨hlt, hval⟩ := freqField_toNat hlr h0 hn
      have hentry := (h.field (by omega) hlt).bind
        (g := fun v => do let r ← readTableEntries rb lr f.length; Pure.pure ((v.toNat + 1) :: r)) (ih.bind_pure _)
      rw [hval] at hentry
      rw [if_neg h0]
      exact (h.field (v := 1) (len := 1) (by decide) (by decide)).bind hentry

/-- A table of the range `2^lr` over the 256 bytes. -/
def IsTable (lr : Nat) (f : List Nat) : Prop := f.length = 256 ∧ f.sum = 2 ^ lr

theorem readTable_decodes (h : ReadsFields I rb) (hlr : lr ≤ 16) (hf : IsTable lr f) :
    (readTable rb lr).Decodes I (fieldBits (tableFields lr f)) f := by
  obtain ⟨hlen, hsum⟩ := hf
  have hentries := readTableEntries_decodes h hlr fun n hn => hsum ▸ List.le_sum_of_mem hn
  rw [hlen] at hentries
  have hend := hentries.bind (g := fun f => do checkMid (decide (f.sum ≠ 2 ^ lr)) .invalidData 2; Pure.pure f)
    (Cmd.Decodes.checkMid_then (by simpa using hsum) (Cmd.Decodes.pure f))
  rwa [List.append_nil] at hend

theorem readTables_decodes (h : ReadsFields I rb) (hlr : lr ≤ 16) : ∀ {ts : List (Option (List Nat))},
    (∀ f, some f ∈ ts → IsTable lr f) →
    (readTables rb lr ts.length).Decodes I (fieldBits (allTableFields true lr ts)) ts
  | [], _ => Cmd.Decodes.pure []
  | none :: ts, hts => by
    have ih := readTables_decodes h hlr fun f hf => hts f (List.mem_cons_of_mem _ hf)
    exact (h.field (v := 0) (len := 1) (by decide) (by decide)).bind (ih.bind_pure _)
  | some f :: ts, hts => by
    have ih := readTables_decodes h hlr fun f hf => hts f (List.mem_cons_of_mem _ hf)
    have htable := readTable_decodes h hlr (hts f List.mem_cons_self)
    rw [List.length_cons, readTables, allTableFields, if_pos rfl, fieldBits_append, fieldBits_append, List.append_assoc]
    refine (h.field (v := 1) (len := 1) (by decide) (by decide)).bind ?_
    exact htable.bind (ih.bind_pure _)

/-! ### The coder: one decode step undoes one encode step (44_ans.md R277) -/

/-- The states between two symbols: `L <= x < 256*L` (44_ans.md R261). -/
def AnsState (x : Nat) : Prop := 2 ^ 23 ≤ x ∧ x < 2 ^ 31

theorem ansPush_lt {xmax : Nat} : ∀ {k x : Nat} (stack : List Byte), x < xmax * 256 ^ k → (ansPush xmax k x stack).1 < xmax
  | 0, x, _, hx => by simpa [ansPush] using hx
  | k + 1, x, stack, hx => by
    rw [ansPush]
    split_ifs with hle
    · exact ansPush_lt _ (Nat.div_lt_of_lt_mul (by rw [Nat.pow_succ] at hx; linarith))
    · exact Nat.lt_of_not_le hle

theorem ansPush_ge {m : Nat} : ∀ {k x : Nat} (stack : List Byte), m ≤ x → m ≤ (ansPush (256 * m) k x stack).1
  | 0, _, _, hx => hx
  | k + 1, x, stack, hx => by
    rw [ansPush]
    split_ifs with hle
    · exact ansPush_ge _ (by omega)
    · exact hx

/-- A decoder that refills from a state below `L` goes on from the state with the next byte. -/
theorem ansRefill_byte (h : ReadsFields I rb) {x z m : Nat} (hx : x < 2 ^ 31)
    (hrefill : (ansRefill rb m x).Decodes I bits z) :
    (ansRefill rb (m + 1) (x / 256)).Decodes I (bitsOf ((BitVec.ofNat 8 x).setWidth 64) 8 ++ bits) z := by
  have hbyte : ((BitVec.ofNat 8 x).setWidth 64 : Word).toNat = x % 256 := by
    rw [BitVec.toNat_setWidth, BitVec.toNat_ofNat]
    omega
  have hlow : x / 256 < Config.ansL := by
    show x / 256 < 2 ^ 23
    omega
  have hread := h.field (v := (BitVec.ofNat 8 x).setWidth 64) (len := 8) (by decide) (by rw [hbyte]; omega)
  rw [ansRefill, if_pos hlow]
  refine hread.bind ?_
  rw [hbyte, Nat.div_add_mod']
  exact hrefill

theorem ansRefill_full {x m : Nat} (hx : 2 ^ 23 ≤ x) : (ansRefill rb m x).Decodes I [] x := by
  cases m with
  | zero => exact Cmd.Decodes.pure x
  | succ m =>
    rw [ansRefill, if_neg (show ¬x < Config.ansL from Nat.not_lt.mpr hx)]
    exact Cmd.Decodes.pure x

/-- The bytes the encoder pushes are those the decoder's refill takes back, in the order it needs them. -/
theorem ansRefill_of_ansPush (h : ReadsFields I rb) (xmax : Nat) : ∀ (k : Nat) {x : Nat} (stack : List Byte), x < 2 ^ 31 →
    ∃ pushed, pushed.length ≤ k ∧ (ansPush xmax k x stack).2 = pushed ++ stack ∧
      ∀ {m z : Nat} {bits : List Bool}, (ansRefill rb m x).Decodes I bits z →
        (ansRefill rb (m + pushed.length) (ansPush xmax k x stack).1).Decodes I (bytesBits pushed ++ bits) z
  | 0, _, _, _ => ⟨[], Nat.le_refl _, rfl, id⟩
  | k + 1, x, stack, hx => by
    rw [ansPush]
    split_ifs
    · obtain ⟨pushed, hlen, hstack, hrefill⟩ :=
        ansRefill_of_ansPush h xmax k (x := x / 256) (BitVec.ofNat 8 x :: stack) (by omega)
      refine ⟨pushed ++ [BitVec.ofNat 8 x], by simpa using hlen, by rw [hstack]; simp, fun {m z bits} hx' => ?_⟩
      have hbyte := hrefill (ansRefill_byte h hx hx')
      rw [List.length_append, List.length_singleton, bytesBits_append, bytesBits_cons, bytesBits_nil, List.append_nil,
        List.append_assoc, Nat.add_comm pushed.length, ← Nat.add_assoc]
      exact hbyte
    · exact ⟨[], Nat.zero_le _, rfl, id⟩

/-- A slot of a table of the range `2^lr`: a frequency that is not zero, and a cumulative frequency, within it. -/
def IsSlot (lr fs cum : Nat) : Prop := fs ≠ 0 ∧ cum + fs ≤ 2 ^ lr

/-- The state after the encoder's pushes and before its step. -/
def ansPushed (lr fs x : Nat) (stack : List Byte) : Nat × List Byte := ansPush (2 ^ (31 - lr) * fs) 4 x stack

theorem ansStep_eq (lr fs cum x : Nat) (stack : List Byte) :
    ansStep lr fs cum (x, stack) =
      ((ansPushed lr fs x stack).1 / fs * 2 ^ lr + (ansPushed lr fs x stack).1 % fs + cum, (ansPushed lr fs x stack).2) := rfl

theorem ansPushed_bounds {x fs cum : Nat} (hlr : lr ≤ 16) (he : IsSlot lr fs cum) (hx : AnsState x)
    (stack : List Byte) :
    2 ^ (23 - lr) ≤ (ansPushed lr fs x stack).1 / fs ∧ (ansPushed lr fs x stack).1 / fs < 2 ^ (31 - lr) := by
  obtain ⟨hfs, hcum⟩ := he
  obtain ⟨hlow, hhigh⟩ := hx
  have hpos := Nat.pos_of_ne_zero hfs
  have hpow : 2 ^ (31 - lr) = 256 * 2 ^ (23 - lr) := by
    rw [show 31 - lr = 8 + (23 - lr) by omega, Nat.pow_add]
  have hrange : 2 ^ (23 - lr) * 2 ^ lr = 2 ^ 23 := by rw [← Nat.pow_add, Nat.sub_add_cancel (by omega)]
  have hmin : 2 ^ (23 - lr) * fs ≤ x := calc
    2 ^ (23 - lr) * fs ≤ 2 ^ (23 - lr) * 2 ^ lr := Nat.mul_le_mul_left _ (by omega)
    _ ≤ x := hrange.trans_le hlow
  have hxmax : 1 ≤ 2 ^ (31 - lr) * fs := Nat.mul_pos (Nat.two_pow_pos _) hpos
  refine ⟨(Nat.le_div_iff_mul_le hpos).mpr ?_, Nat.div_lt_of_lt_mul ?_⟩
  · rw [ansPushed, hpow, Nat.mul_assoc]
    exact ansPush_ge stack hmin
  · rw [Nat.mul_comm fs]
    exact ansPush_lt stack (by omega)

/-- What the decoder reads off a state: the quotient and the slot. -/
theorem ansStep_div_mod {x fs cum : Nat} (he : IsSlot lr fs cum) (stack : List Byte) :
    (ansStep lr fs cum (x, stack)).1 / 2 ^ lr = (ansPushed lr fs x stack).1 / fs ∧
      (ansStep lr fs cum (x, stack)).1 % 2 ^ lr = (ansPushed lr fs x stack).1 % fs + cum := by
  obtain ⟨hfs, hcum⟩ := he
  have hmod := Nat.mod_lt (ansPushed lr fs x stack).1 (Nat.pos_of_ne_zero hfs)
  rw [ansStep_eq, Nat.add_assoc]
  refine (Nat.div_mod_unique (Nat.two_pow_pos lr)).mpr ⟨?_, by omega⟩
  rw [Nat.mul_comm, Nat.add_comm]

theorem AnsState.ansStep {x fs cum : Nat} (hlr : lr ≤ 16) (he : IsSlot lr fs cum) (hx : AnsState x)
    (stack : List Byte) : AnsState (ansStep lr fs cum (x, stack)).1 := by
  obtain ⟨hlow, hhigh⟩ := ansPushed_bounds hlr he hx stack
  rw [← (ansStep_div_mod he stack).1] at hlow hhigh
  constructor
  · rw [Nat.le_div_iff_mul_le (Nat.two_pow_pos lr), ← Nat.pow_add, Nat.sub_add_cancel (by omega)] at hlow
    exact hlow
  · rw [Nat.div_lt_iff_lt_mul (Nat.two_pow_pos lr), ← Nat.pow_add, Nat.sub_add_cancel (by omega)] at hhigh
    exact hhigh

/-- The symbol of a slot (44_ans.md R269). -/
theorem symOf_of {slot : Nat} : ∀ {f : List Nat} {i s c : Nat}, c + tableCum f i ≤ slot →
    slot < c + tableCum f i + tableFreq f i → symOf slot s c f = (s + i, tableFreq f i, c + tableCum f i)
  | [], i, _, _, hlow, hhigh => by
    simp [tableFreq, tableCum] at hlow hhigh
    omega
  | n :: f, 0, s, c, _, hhigh => by
    rw [symOf, if_pos (by simpa [tableCum, tableFreq] using hhigh)]
    simp [tableCum, tableFreq]
  | n :: f, i + 1, s, c, hlow, hhigh => by
    have hcum : tableCum (n :: f) (i + 1) = n + tableCum f i := by simp [tableCum]
    have hfreq : tableFreq (n :: f) (i + 1) = tableFreq f i := rfl
    rw [hcum] at hlow hhigh ⊢
    rw [hfreq] at hhigh ⊢
    rw [symOf, if_neg (by omega), symOf_of (i := i) (by omega) (by omega)]
    simp only [Nat.add_assoc, Nat.add_comm 1 i]

/-! ### The symbols of the data and their slots -/

/-- The (context, symbol) pairs of data that follow the byte `prev`, as the decoder comes to them (44_ans.md R262). -/
def symbolsFrom (order1 : Bool) : Nat → List Byte → List (Nat × Byte)
  | _, [] => []
  | prev, s :: r => (if order1 then prev else 0, s) :: symbolsFrom order1 s.toNat r

theorem zip_previous : ∀ (c : Nat) (d : List Byte), (c :: d.dropLast.map BitVec.toNat).zip d = symbolsFrom true c d
  | _, [] => rfl
  | _, [_] => rfl
  | c, s :: s' :: r => by
    rw [List.dropLast_cons_cons, List.map_cons, List.zip_cons_cons, zip_previous s.toNat (s' :: r)]
    rfl

theorem zip_zeros : ∀ (c : Nat) (d : List Byte), (d.map fun _ => 0).zip d = symbolsFrom false c d
  | _, [] => rfl
  | c, s :: r => by
    rw [List.map_cons, List.zip_cons_cons, zip_zeros s.toNat r]
    rfl

theorem zip_ansContexts (order1 : Bool) (d : List Byte) : (ansContexts order1 d).zip d = symbolsFrom order1 0 d := by
  cases order1 with
  | true => exact zip_previous 0 d
  | false => exact zip_zeros 0 d

theorem context_lt {e : Nat × Byte} : ∀ {d : List Byte} {prev : Nat}, prev < 256 → e ∈ symbolsFrom order1 prev d →
    e.1 < ansNctx order1
  | s :: r, prev, hprev, he => by
    rcases List.mem_cons.mp he with rfl | he
    · cases order1 with
      | true => exact hprev
      | false => exact Nat.one_pos
    · exact context_lt s.isLt he

theorem countTable_length (l : List Byte) : (countTable l).length = 256 := by simp [countTable]

theorem countTable_getD (l : List Byte) (s : Byte) : (countTable l).getD s.toNat 0 = l.count s := by
  rw [countTable, List.getD_eq_getElem _ 0 (by simpa using s.isLt), List.getElem_map, List.getElem_range,
    BitVec.ofNat_toNat, BitVec.setWidth_eq]

theorem countTable_sum_ne_zero {l : List Byte} {s : Byte} (hs : s ∈ l) : (countTable l).sum ≠ 0 := by
  have hcount := List.count_pos_iff.mpr hs
  have hle : (countTable l).getD s.toNat 0 ≤ (countTable l).sum := by
    have hlen : s.toNat < (countTable l).length := by rw [countTable_length]; exact s.isLt
    rw [List.getD_eq_getElem _ 0 hlen]
    exact List.le_sum_of_mem (List.getElem_mem hlen)
  rw [countTable_getD] at hle
  omega

/-- The table of a context with symbols (44_ans.md R263, R264). -/
theorem ansTable_of_mem {c : Nat} {s : Byte} (hlr : 8 ≤ lr) (hs : s ∈ symbolsIn order1 d c) :
    ∃ f, ansTable order1 lr d c = some f ∧ IsTable lr f ∧ tableFreq f s.toNat ≠ 0 := by
  obtain ⟨hsum, hsame⟩ := ansNormalize_spec (countTable_sum_ne_zero hs)
    ((countTable_length _).trans_le (alphabet_le_range hlr))
  refine ⟨ansNormalize (countTable (symbolsIn order1 d c)) lr, ?_, ⟨hsame.1.trans (countTable_length _), hsum⟩, ?_⟩
  · unfold ansTable
    cases hl : symbolsIn order1 d c with
    | nil => rw [hl] at hs; cases hs
    | cons _ _ => rfl
  · rw [tableFreq, Ne, hsame.2, countTable_getD]
    exact (List.count_pos_iff.mpr hs).ne'

theorem ansTables_length (order1 : Bool) (lr : Nat) (d : List Byte) : (ansTables order1 lr d).length = ansNctx order1 := by
  simp [ansTables]

theorem ansTables_getD {c : Nat} (hc : c < ansNctx order1) (lr : Nat) (d : List Byte) :
    (ansTables order1 lr d).getD c none = ansTable order1 lr d c := by
  rw [List.getD_eq_getElem _ none ((ansTables_length order1 lr d).symm ▸ hc)]
  simp [ansTables]

theorem isTable_of_mem_ansTables (hlr : 8 ≤ lr) (hf : some f ∈ ansTables order1 lr d) : IsTable lr f := by
  obtain ⟨c, -, hc⟩ := List.mem_map.mp hf
  cases hl : symbolsIn order1 d c with
  | nil => simp [ansTable, hl] at hc
  | cons s r =>
    obtain ⟨g, hg, htable, -⟩ := ansTable_of_mem hlr (hl ▸ List.mem_cons_self : s ∈ symbolsIn order1 d c)
    rw [hg] at hc
    exact Option.some.inj hc ▸ htable

/-- Every symbol has a frequency in the table of its context. -/
def Codable (lr : Nat) (tables : List (Option (List Nat))) (e : Nat × Byte) : Prop :=
  ∃ f, tables.getD e.1 none = some f ∧ IsTable lr f ∧ tableFreq f e.2.toNat ≠ 0

theorem codable_ansTables (hlr : 8 ≤ lr) {e : Nat × Byte} (he : e ∈ symbolsFrom order1 0 d) :
    Codable lr (ansTables order1 lr d) e := by
  have hmem : e.2 ∈ symbolsIn order1 d e.1 := by
    rw [symbolsIn, zip_ansContexts]
    exact List.mem_map.mpr ⟨e, List.mem_filter.mpr ⟨he, by simp⟩, rfl⟩
  rw [Codable, ansTables_getD (context_lt (by decide) he)]
  exact ansTable_of_mem hlr hmem

/-- The (frequency, cumulative frequency) of a symbol in its context. -/
def slotOf (tables : List (Option (List Nat))) (e : Nat × Byte) : Nat × Nat :=
  (tableFreq ((tables.getD e.1 none).getD []) e.2.toNat, tableCum ((tables.getD e.1 none).getD []) e.2.toNat)

theorem symbolSlots_eq (order1 : Bool) (tables : List (Option (List Nat))) (d : List Byte) :
    symbolSlots order1 tables d = (symbolsFrom order1 0 d).map (slotOf tables) := by
  rw [← zip_ansContexts]
  rfl

theorem slotOf_eq {tables : List (Option (List Nat))} {e : Nat × Byte} (hf : tables.getD e.1 none = some f) :
    slotOf tables e = (tableFreq f e.2.toNat, tableCum f e.2.toNat) := by
  rw [slotOf, hf]
  rfl

theorem isSlot_of_isTable {s : Byte} (hf : IsTable lr f) (hs : tableFreq f s.toNat ≠ 0) :
    IsSlot lr (tableFreq f s.toNat) (tableCum f s.toNat) := by
  have hlen : s.toNat < f.length := hf.1.symm ▸ s.isLt
  have htake := List.sum_take_succ f s.toNat hlen
  have hsum := List.sum_take_add_sum_drop f (s.toNat + 1)
  have hget : tableFreq f s.toNat = f[s.toNat] := List.getD_eq_getElem f 0 hlen
  have hrange := hf.2
  refine ⟨hs, ?_⟩
  show tableCum f s.toNat + tableFreq f s.toNat ≤ 2 ^ lr
  rw [tableCum, hget]
  omega

/-! ### A run of symbols -/

/-- A symbol coded by its table, not a free one. -/
theorem ansRun_cons {e : Nat × Nat} (he : IsSlot lr e.1 e.2) (draw : Nat) (r : List (Nat × Nat)) :
    ansRun lr draw (e :: r) = ansStep lr e.1 e.2 (ansRun lr draw r) := if_neg he.1

/-- The state before the step, as the decoder recovers it. -/
theorem ansStep_undo {x fs cum : Nat} (he : IsSlot lr fs cum) (stack : List Byte) :
    fs * ((ansStep lr fs cum (x, stack)).1 / 2 ^ lr) + (ansStep lr fs cum (x, stack)).1 % 2 ^ lr - cum =
      (ansPushed lr fs x stack).1 := by
  obtain ⟨hdiv, hmod⟩ := ansStep_div_mod he stack (x := x)
  have hdivmod := Nat.div_add_mod (ansPushed lr fs x stack).1 fs
  rw [hdiv, hmod]
  omega

/-- The symbol the decoder finds at a state is the one the encoder coded. -/
theorem symOf_ansStep {x : Nat} {s : Byte} (he : IsSlot lr (tableFreq f s.toNat) (tableCum f s.toNat)) (stack : List Byte) :
    symOf ((ansStep lr (tableFreq f s.toNat) (tableCum f s.toNat) (x, stack)).1 % 2 ^ lr) 0 0 f =
      (s.toNat, tableFreq f s.toNat, tableCum f s.toNat) := by
  obtain ⟨-, hmod⟩ := ansStep_div_mod he stack (x := x)
  have hlt := Nat.mod_lt (ansPushed lr (tableFreq f s.toNat) x stack).1 (Nat.pos_of_ne_zero he.1)
  have hsym := symOf_of (f := f) (i := s.toNat) (s := 0) (c := 0)
    (slot := (ansPushed lr (tableFreq f s.toNat) x stack).1 % tableFreq f s.toNat + tableCum f s.toNat)
    (by omega) (by simp only [Nat.zero_add]; omega)
  rw [hmod]
  simpa only [Nat.zero_add] using hsym

/-- The decoder's refill gives back the state before the pushes. -/
theorem ansRefill_pushed (h : ReadsFields I rb) {x : Nat} (hx : AnsState x) (fs : Nat) (stack : List Byte) :
    ∃ pushed, (ansPushed lr fs x stack).2 = pushed ++ stack ∧
      (ansRefill rb 4 (ansPushed lr fs x stack).1).Decodes I (bytesBits pushed) x := by
  obtain ⟨pushed, hlen, hstack, hrefill⟩ := ansRefill_of_ansPush h (2 ^ (31 - lr) * fs) 4 stack hx.2
  have hfull := hrefill (m := 4 - pushed.length) (ansRefill_full hx.1)
  rw [Nat.sub_add_cancel hlen, List.append_nil] at hfull
  exact ⟨pushed, hstack, hfull⟩

/-- One more symbol in front of those decoded. -/
theorem ansSymbols_cons (h : ReadsFields I rb) {tables : List (Option (List Nat))} {prev k x : Nat} {s : Byte}
    {stack : List Byte} (hf : tables.getD (if order1 then prev else 0) none = some f)
    (he : IsSlot lr (tableFreq f s.toNat) (tableCum f s.toNat)) (hx : AnsState x)
    (hrest : (ansSymbols rb order1 lr tables k x s.toNat).Decodes I (bytesBits stack) d) :
    (ansSymbols rb order1 lr tables (k + 1) (ansStep lr (tableFreq f s.toNat) (tableCum f s.toNat) (x, stack)).1
      prev).Decodes I (bytesBits (ansStep lr (tableFreq f s.toNat) (tableCum f s.toNat) (x, stack)).2) (s :: d) := by
  have hundo := ansStep_undo he stack (x := x)
  obtain ⟨pushed, hstack, hrefill⟩ := ansRefill_pushed (lr := lr) h hx (tableFreq f s.toNat) stack
  have hbits : bytesBits (ansStep lr (tableFreq f s.toNat) (tableCum f s.toNat) (x, stack)).2 =
      bytesBits pushed ++ bytesBits stack := by
    rw [ansStep_eq, hstack, bytesBits_append]
  have hbyte : BitVec.ofNat 8 s.toNat = s := by rw [BitVec.ofNat_toNat, BitVec.setWidth_eq]
  rw [hbits, ansSymbols]
  simp only [hf, symOf_ansStep he, hundo, hbyte]
  exact hrefill.bind (hrest.bind_pure _)

/-- The state of a run of symbols of the tables, and the symbols the decoder finds from it. -/
theorem ansSymbols_decodes (h : ReadsFields I rb) (hlr : lr ≤ 16) {tables : List (Option (List Nat))} (draw : Nat) :
    ∀ {d : List Byte} {prev : Nat}, (∀ e ∈ symbolsFrom order1 prev d, Codable lr tables e) →
      AnsState (ansRun lr draw ((symbolsFrom order1 prev d).map (slotOf tables))).1 ∧
      (ansSymbols rb order1 lr tables d.length (ansRun lr draw ((symbolsFrom order1 prev d).map (slotOf tables))).1
        prev).Decodes I (bytesBits (ansRun lr draw ((symbolsFrom order1 prev d).map (slotOf tables))).2) d
  | [], _, _ => ⟨⟨Nat.le_refl _, by show 2 ^ 23 < 2 ^ 31; decide⟩,
      Cmd.Decodes.checkMid_then (decide_eq_false (not_not_intro rfl)) (Cmd.Decodes.pure [])⟩
  | s :: r, prev, hcodable => by
    obtain ⟨⟨f, hf, htable, hfreq⟩, hrest⟩ := List.forall_mem_cons.mp hcodable
    have hslot := isSlot_of_isTable htable hfreq
    obtain ⟨hstate, hsymbols⟩ := ansSymbols_decodes h hlr draw hrest
    rw [symbolsFrom, List.map_cons, slotOf_eq hf, ansRun_cons hslot]
    exact ⟨hstate.ansStep hlr hslot _, ansSymbols_cons h hf hslot hstate hsymbols⟩

/-! ### A whole run -/

theorem fieldBits_stack (l : List Byte) : fieldBits (l.map fun b => (b.setWidth 64, 8)) = bytesBits l :=
  List.flatMap_map ..

theorem ansCodeFields_bits (order1 : Bool) (lr draw : Nat) (counted d : List Byte) :
    fieldBits (ansCodeFields order1 lr draw counted d) =
      bitsOf (BitVec.ofNat 64 (ansRun lr draw (symbolSlots order1 (ansTables order1 lr counted) d)).1) 32 ++
        bytesBits (ansRun lr draw (symbolSlots order1 (ansTables order1 lr counted) d)).2 := by
  rw [← fieldBits_stack]
  rfl

/-- The final state and the symbols of a run, after its tables (44_ans.md R268). -/
theorem ansCode_decodes (h : ReadsFields I rb) (h8 : 8 ≤ lr) (h16 : lr ≤ 16) (order1 : Bool) (d : List Byte) :
    (do
      let x ← rb 32
      checkMid (decide (x.toNat < Config.ansL) || decide (256 * Config.ansL ≤ x.toNat)) .invalidData 3
      ansSymbols rb order1 lr (ansTables order1 lr d) d.length x.toNat 0 : Cmd σ (List Byte)).Decodes I
        (fieldBits (ansCodeFields order1 lr 0 d d)) d := by
  obtain ⟨⟨hlow, hhigh⟩, hsymbols⟩ :=
    ansSymbols_decodes (order1 := order1) h h16 0 fun e he => codable_ansTables (d := d) h8 he
  rw [ansCodeFields_bits, symbolSlots_eq]
  generalize ansRun lr 0 ((symbolsFrom order1 0 d).map (slotOf (ansTables order1 lr d))) = st at hlow hhigh hsymbols
  have hvalue : (BitVec.ofNat 64 st.1).toNat = st.1 := by
    rw [BitVec.toNat_ofNat, Nat.mod_eq_of_lt (by omega)]
  refine (h.field (by decide) (by rw [hvalue]; omega)).bind (Cmd.Decodes.checkMid_then ?_ ?_)
  · have hL : Config.ansL = 2 ^ 23 := rfl
    rw [hvalue, hL, decide_eq_false (by omega), decide_eq_false (by omega)]
    rfl
  · rw [hvalue]
    exact hsymbols

theorem ansTables_order0 (lr : Nat) (s : Byte) (r : List Byte) (h8 : 8 ≤ lr) :
    ∃ f, ansTables false lr (s :: r) = [some f] ∧ IsTable lr f := by
  obtain ⟨f, hf, htable, -⟩ := codable_ansTables (order1 := false) (d := s :: r) h8 List.mem_cons_self
  rw [ansTables_getD Nat.one_pos] at hf
  exact ⟨f, congrArg (fun t => [t]) hf, htable⟩

/-- Decoding a run over any reader: the data, and exactly the run. -/
theorem ansDecode_decodes (h : ReadsFields I rb) (h8 : 8 ≤ lr) (h16 : lr ≤ 16) (order1 : Bool) :
    ∀ d : List Byte, (ansDecode rb order1 d.length).Decodes I (fieldBits (ansFields order1 lr d)) d
  | [] => Cmd.Decodes.pure []
  | s :: r => by
    have hheader : (BitVec.ofNat 64 (lr - 8)).toNat = lr - 8 := by
      rw [BitVec.toNat_ofNat, Nat.mod_eq_of_lt (by omega)]
    have hcode := ansCode_decodes h h8 h16 order1 (s :: r)
    rw [ansDecode, if_neg (by simp), ansFields, if_neg (by simp), fieldBits_cons, fieldBits_append]
    refine (h.field (by show 4 ≤ 64; decide) (by show _ < 2 ^ 4; rw [ansHeaderField, hheader]; omega)).bind
      (Cmd.Decodes.midway ?_)
    rw [ansHeaderField, hheader, ansDecodeRest, Nat.sub_add_cancel h8]
    refine Cmd.Decodes.checkMid_then (decide_eq_false (by omega)) ?_
    cases order1 with
    | true =>
      have htables := readTables_decodes h h16 fun f hf => isTable_of_mem_ansTables (order1 := true) (d := s :: r) h8 hf
      rw [ansTables_length] at htables
      exact htables.bind hcode
    | false =>
      obtain ⟨f, hf, htable⟩ := ansTables_order0 lr s r h8
      have hfields : ansTableFields false lr (s :: r) = tableFields lr f := by
        rw [ansTableFields, hf]
        simp [allTableFields]
      rw [hf] at hcode
      rw [hfields]
      exact (readTable_decodes h h16 htable).bind (Cmd.Decodes.pure_then hcode)

/-! ### The plain bit sequence -/

/-- A reader of a plain bit sequence has what the sequence holds. -/
theorem listBits_reads : ReadsFields (fun l s => s = l) listBits := by
  rintro len l s _ hlen rfl
  exact ⟨s.drop len, if_neg (Nat.not_lt.mpr hlen), rfl⟩

/-- Settles O39: each step of the decoder undoes the encoder's step on the same symbol, by induction over the data. -/
theorem ansRoundTrip : Obligations.AnsRoundTrip := by
  intro order1 lr d rest h8 h16
  obtain ⟨t, ht, rfl⟩ := ansDecode_decodes listBits_reads h8 h16 order1 d rest _ rfl
  exact ht

end Sys2Proof.Machine
end

section
/-!
O40: `ANS_ENC` appends the run of the bytes it is given, after its checks.
-/

namespace Sys2Proof.Machine

variable {s t u : State} {bits bits' : List Bool} {order : BitVec 8} {n off : BitVec 32}

/-! ### What the checks of a coder over two windows see -/

/-- A check that passes, then the rest of the rule. -/
theorem check_pass {σ α : Type} {bad : Bool} (h : bad = false) (kind : ErrKind) (sub : Byte) (detail : Nat)
    (f : Unit → Cmd σ α) (u : σ) : (check bad kind sub detail >>= f) u = f () u := by
  rw [check_bind, h, if_neg Bool.false_ne_true]

/-- A check that ends the rule. -/
theorem check_stop {σ α : Type} {bad : Bool} (h : bad = true) (kind : ErrKind) (sub : Byte) (detail : Nat)
    (f : Unit → Cmd σ α) (u : σ) :
    (check bad kind sub detail >>= f) u = .error (.raise (errOf kind sub detail false)) u := by
  rw [check_bind, h, if_pos rfl]

theorem decide_lt_eq_false {a b : Nat} (h : b ≤ a) : decide (a < b) = false := decide_eq_false (Nat.not_lt.mpr h)

theorem windowCheck_pass {base len : BitVec 32} (h : fits base len) : (!windowFits base len) = false := by
  rw [windowFits_iff.mpr h]
  rfl

theorem windowCheck_stop {base len : BitVec 32} (h : ¬fits base len) : (!windowFits base len) = true := by
  rw [Bool.not_eq_true', Bool.eq_false_iff]
  exact fun ht => h (windowFits_iff.mp ht)

theorem not_eq_false_of_eq_true {b : Bool} (h : b = true) : (!b) = false := by
  rw [h]
  rfl

theorem windowsOverlap_iff {base1 len1 base2 len2 : BitVec 32} :
    windowsOverlap base1 len1 base2 len2 = true ↔ overlap base1 len1 base2 len2 := by
  have hzero : ∀ x : BitVec 32, x ≠ 0 ↔ x.toNat ≠ 0 := fun x => not_congr (BitVec.toNat_inj (y := 0)).symm
  simp only [windowsOverlap, Bool.and_eq_true, decide_eq_true_eq, hzero, and_assoc]

/-- The check that a stream's window does not overlap the window of a command. -/
theorem streamOverlaps_eq_false {kind : StreamKind} {base1 len1 base2 len2 : BitVec 32}
    (h : kind = .window → ¬overlap base1 len1 base2 len2) :
    (decide (kind = .window) && windowsOverlap base1 len1 base2 len2) = false := by
  rw [Bool.and_eq_false_imp, decide_eq_true_iff]
  exact fun hk => Bool.eq_false_iff.mpr fun ht => h hk (windowsOverlap_iff.mp ht)

theorem streamOverlaps_eq_true {kind : StreamKind} {base1 len1 base2 len2 : BitVec 32} (hk : kind = .window)
    (h : overlap base1 len1 base2 len2) :
    (decide (kind = .window) && windowsOverlap base1 len1 base2 len2) = true := by
  rw [decide_eq_true hk, windowsOverlap_iff.mpr h]
  rfl

/-- An address of one of two windows that do not overlap is not in the other. -/
theorem not_inWindow_of_not_overlap {base1 len1 base2 len2 : BitVec 32} (h : ¬overlap base1 len1 base2 len2) {a : Nat}
    (ha : inWindow base2 len2 a) : ¬inWindow base1 len1 a := by
  intro ha'
  exact h ⟨by omega, by omega, by omega, by omega⟩

theorem order_eq_one (order : BitVec 8) : decide (order = 1) = decide (order.toNat = 1) :=
  decide_eq_decide.mpr (BitVec.toNat_inj (y := 1)).symm

theorem memBytes_congr {m m' : List Host.Cell} {a k : Nat}
    (h : ∀ c, a ≤ c → c < a + k → Memory.read m' c = Memory.read m c) : memBytes m' a k = memBytes m a k :=
  List.map_congr_left fun i hi => h _ (Nat.le_add_right _ _) (by have := List.mem_range.mp hi; omega)

/-! ### Bits appended in turn -/

/-- What appending `k` bits needs: an open writer with room for them on a host that does not fail. -/
structure CanAppend (s : State) (k : Nat) : Prop where
  par : s.par.ok = true
  isOpen : s.bw.isOpen = true
  writer : WriterOk s.par.bufsz s.bw
  host : s.env.neverFails
  room : s.bw.hasRoom k

/-- From `s` to `t` exactly these bits were appended to the stream of the writer, and delivered as far as it has got. -/
structure Appended (s : State) (bits : List Bool) (t : State) : Prop where
  frame : t = { s with bw := t.bw, env := t.env }
  bits_eq : t.bw.bits = s.bw.bits ++ bits
  isOpen : t.bw.isOpen = true
  writer : WriterOk s.par.bufsz t.bw
  delivered : Delivered s.bw s.env t.bw t.env

theorem Appended.par (h : Appended s bits t) : t.par = s.par := by rw [h.frame]

theorem Appended.count (h : Appended s bits t) (hok : WriterOk s.par.bufsz s.bw) :
    t.bw.count = s.bw.count + bits.length := by
  rw [h.writer.count_eq, h.bits_eq, List.length_append, hok.count_eq]

theorem Appended.nil (h : CanAppend s 0) : Appended s [] s :=
  ⟨rfl, (List.append_nil _).symm, h.isOpen, h.writer, Delivered.refl _ _⟩

theorem Appended.trans (h : Appended s bits t) (h' : Appended t bits' u) : Appended s (bits ++ bits') u where
  frame := by rw [h'.frame, h.frame]
  bits_eq := by rw [h'.bits_eq, h.bits_eq, List.append_assoc]
  isOpen := h'.isOpen
  writer := h.par ▸ h'.writer
  delivered := h.delivered.trans h'.delivered h.writer (h'.bits_eq ▸ List.prefix_append _ _)

/-- What is left of the room. -/
theorem CanAppend.next {k : Nat} (hs : CanAppend s (bits.length + k)) (h : Appended s bits t) : CanAppend t k where
  par := h.par ▸ hs.par
  isOpen := h.isOpen
  writer := h.par ▸ h.writer
  host := h.delivered.neverFails hs.host
  room hk := by
    obtain ⟨-, hkind, -, hcap, -⟩ := h.delivered
    have hroom := hs.room (hkind ▸ hk)
    rwa [h.count hs.writer, hcap, Nat.add_assoc]

theorem CanAppend.mono {k k' : Nat} (hs : CanAppend s k) (hk : k' ≤ k) : CanAppend s k' :=
  { hs with room := fun hw => (Nat.div_le_div_right (by omega)).trans (hs.room hw) }

/-- One field appended. -/
theorem CanAppend.writeBits {len : Nat} (hs : CanAppend s len) (v : Word) (hlen : len ≤ 64) :
    ∃ t, onWriter (writeBits s.par.bufsz v len) s = .ok () t ∧ Appended s (bitsOf v len) t := by
  obtain ⟨w, e, hw, hbits, hopen, hok, hdel⟩ := onWriter_writeBits_of hs.par hs.isOpen hs.writer hs.host v hlen hs.room
  exact ⟨_, hw, rfl, hbits, hopen, hok, hdel⟩

/-- Pieces over the writer one after the other. -/
theorem onWriter_bind_of_ok {α β : Type} {x : Cmd (BitWriter × Env) α} {f : α → Cmd (BitWriter × Env) β} {a : α} {b : β}
    (hx : onWriter x s = .ok a t) (hf : onWriter (f a) t = .ok b u) : onWriter (x >>= f) s = .ok b u := by
  obtain ⟨p, hp, rfl⟩ := zoom_eq_ok.mp hx
  obtain ⟨q, hq, rfl⟩ := zoom_eq_ok.mp hf
  exact zoom_eq_ok.mpr ⟨q, (Cmd.bind_of_ok f hp).trans hq, rfl⟩

/-- Fields appended in turn. -/
theorem CanAppend.writeFields : ∀ {l : List (Word × Nat)} {s : State}, CanAppend s (fieldBits l).length →
    (∀ f ∈ l, f.2 ≤ 64) →
    ∃ t, onWriter (writeFields s.par.bufsz l) s = .ok () t ∧ Appended s (fieldBits l) t
  | [], s, hs, _ => ⟨s, rfl, Appended.nil hs⟩
  | f :: l, s, hs, hl => by
    obtain ⟨hf, hl⟩ := List.forall_mem_cons.mp hl
    rw [fieldBits_cons, List.length_append] at hs
    obtain ⟨t, ht, hfield⟩ := (hs.mono (k' := f.2) (by simp)).writeBits f.1 hf
    obtain ⟨u, hu, hfields⟩ := (hs.next hfield).writeFields hl
    rw [hfield.par] at hu
    exact ⟨u, onWriter_bind_of_ok ht hu, hfield.trans hfields⟩

/-- Bytes outside the window of the writer read as before. -/
theorem Appended.memBytes_eq (h : Appended s bits t) {base len : BitVec 32} {a k : Nat}
    (hover : s.bw.kind = .window → ¬overlap s.bw.base s.bw.cap base len) (hlow : base.toNat ≤ a)
    (hhigh : a + k ≤ base.toNat + len.toNat) : memBytes t.env.mem a k = memBytes s.env.mem a k := by
  obtain ⟨-, hkind, -, hcap, -, -, -, -, -, -, hport, hwindow⟩ := h.delivered
  cases hk : s.bw.kind with
  | port => rw [(hport hk).1]
  | window =>
    have hroom := h.writer.cap_ge (hkind.trans hk)
    have hsent := h.writer.sent_le
    rw [← h.writer.count_eq] at hsent
    refine memBytes_congr fun c hc hc' => ?_
    have hout := not_inWindow_of_not_overlap (hover hk) (a := c) ⟨by omega, by omega⟩
    rw [(hwindow hk).2.2 c, if_neg]
    rw [hcap] at hroom
    unfold bytesFor at hroom
    omega

/-! ### `ANS_ENC` -/

theorem ansEncBody_order (horder : 1 < order.toNat) :
    ansEncBody order n off s = .error (.raise (errOf .invalidParameter 2 0 false)) s := by
  rw [ansEncBody, check_stop (decide_eq_true horder)]

theorem ansEncBody_window (horder : order.toNat ≤ 1) (hfit : ¬fits s.win.srcBase s.win.srcLen) :
    ansEncBody order n off s = .error (.raise (errOf .invalidParameter 4 0 false)) s := by
  rw [ansEncBody, check_pass (decide_lt_eq_false horder), Cmd.get_bind, check_stop (windowCheck_stop hfit)]

theorem ansEncBody_range (horder : order.toNat ≤ 1) (hfit : fits s.win.srcBase s.win.srcLen)
    (hlen : s.win.srcLen.toNat < off.toNat + n.toNat) :
    ansEncBody order n off s = .error (.raise (errOf .invalidParameter 2 0 false)) s := by
  rw [ansEncBody, check_pass (decide_lt_eq_false horder), Cmd.get_bind, check_pass (windowCheck_pass hfit),
    check_stop (decide_eq_true hlen)]

theorem ansEncBody_overlap (horder : order.toNat ≤ 1) (hfit : fits s.win.srcBase s.win.srcLen)
    (hlen : off.toNat + n.toNat ≤ s.win.srcLen.toNat) (hopen : s.bw.isOpen = true) (hk : s.bw.kind = .window)
    (hover : overlap s.bw.base s.bw.cap s.win.srcBase s.win.srcLen) :
    ansEncBody order n off s = .error (.raise (errOf .invalidParameter 5 0 false)) s := by
  rw [ansEncBody, check_pass (decide_lt_eq_false horder), Cmd.get_bind, check_pass (windowCheck_pass hfit),
    check_pass (decide_lt_eq_false hlen), check_pass (not_eq_false_of_eq_true hopen),
    check_stop (streamOverlaps_eq_true hk hover)]

/-- A piece that reads MEM and changes nothing. -/
theorem onMem_of_same {α : Type} {x : Cmd (Unit × Env) α} {a : α} (h : x ((), s.env) = .ok a ((), s.env)) :
    onMem x s = .ok a s := zoom_eq_ok.mpr ⟨((), s.env), h, rfl⟩

/-- The three writes of a run that is not empty: the header, the tables and the code, in turn. -/
theorem ansFields_appended {order1 : Bool} {lr : Nat} {d : List Byte} (hd : d ≠ []) (hlr : lr ≤ 64)
    (hs : CanAppend s (fieldBits (ansFields order1 lr d)).length) :
    ∃ t1 t2 t3 b1 b2, onWriter (writeBits s.par.bufsz (ansHeaderField lr).1 (ansHeaderField lr).2) s = .ok () t1 ∧
      onWriter (writeFields s.par.bufsz (ansTableFields order1 lr d)) t1 = .ok () t2 ∧
      onWriter (writeFields s.par.bufsz (ansCodeFields order1 lr 0 d d)) t2 = .ok () t3 ∧
      Appended s b1 t1 ∧ Appended s b2 t2 ∧ Appended s (fieldBits (ansFields order1 lr d)) t3 := by
  rw [ansFields, if_neg (by simpa using hd), fieldBits_cons, fieldBits_append] at hs ⊢
  rw [List.length_append] at hs
  have hs1 : CanAppend s (ansHeaderField lr).2 := hs.mono (by rw [bitsOf_length]; exact Nat.le_add_right _ _)
  obtain ⟨t1, h1, happ1⟩ := hs1.writeBits (ansHeaderField lr).1 (by decide : 4 ≤ 64)
  have hready1 := hs.next happ1
  rw [List.length_append] at hready1
  obtain ⟨t2, h2, happ2⟩ := (hready1.mono (Nat.le_add_right _ _)).writeFields (allTableFields_len hlr)
  have hready2 := hready1.next happ2
  obtain ⟨t3, h3, happ3⟩ := hready2.writeFields ansCodeFields_len
  rw [happ1.par] at h2
  rw [happ2.par, happ1.par] at h3
  exact ⟨t1, t2, t3, _, _, h1, h2, h3, happ1, happ1.trans happ2, happ1.trans (happ2.trans happ3)⟩

/-- `ANS_ENC` past its checks, with room for the run. -/
theorem ansEncBody_of (horder : order.toNat ≤ 1) (hfit : fits s.win.srcBase s.win.srcLen)
    (hlen : off.toNat + n.toNat ≤ s.win.srcLen.toNat)
    (hover : s.bw.kind = .window → ¬overlap s.bw.base s.bw.cap s.win.srcBase s.win.srcLen) {d : List Byte}
    (hd : memBytes s.env.mem (s.win.srcBase.toNat + off.toNat) n.toNat = d) {run : List Bool}
    (hrun : fieldBits (ansFields (decide (order.toNat = 1)) s.logRange.toNat d) = run) (hs : CanAppend s run.length) :
    ∃ t, ansEncBody order n off s = .ok (BitVec.ofNat 64 run.length) t ∧ Appended s run t := by
  have hdlen : d.length = n.toNat := hd ▸ memBytes_length ..
  rw [ansEncBody, check_pass (decide_lt_eq_false horder), Cmd.get_bind, check_pass (windowCheck_pass hfit),
    check_pass (decide_lt_eq_false hlen), check_pass (not_eq_false_of_eq_true hs.isOpen),
    check_pass (streamOverlaps_eq_false hover), order_eq_one]
  by_cases hn : n = 0
  · subst hn
    obtain rfl : d = [] := List.eq_nil_of_length_eq_zero hdlen
    subst hrun
    exact ⟨s, rfl, Appended.nil hs⟩
  · have hne : d ≠ [] := by
      rintro rfl
      exact hn (BitVec.eq_of_toNat_eq hdlen.symm)
    have hlr : s.logRange.toNat ≤ 64 := by have := s.logRange.isLt; omega
    subst hrun
    obtain ⟨t1, t2, t3, b1, b2, h1, h2, h3, happ1, happ2, happ⟩ := ansFields_appended hne hlr hs
    have hread1 := memReadBytes_of (U := Unit) (t := ((), t1.env)) (happ1.delivered.neverFails hs.host).1 (n := n.toNat)
      (a := s.win.srcBase.toNat + off.toNat) (by omega)
    have hread2 := memReadDown_of (U := Unit) (t := ((), t2.env)) (happ2.delivered.neverFails hs.host).1 (n := n.toNat)
      (a := s.win.srcBase.toNat + off.toNat) [] (by omega)
    rw [happ1.memBytes_eq hover (by omega) (by omega), hd] at hread1
    rw [happ2.memBytes_eq hover (by omega) (by omega), hd, List.append_nil] at hread2
    rw [if_neg hn, Cmd.bind_of_ok _ h1, Cmd.bind_of_ok _ (onMem_of_same hread1), Cmd.bind_of_ok _ h2,
      Cmd.bind_of_ok _ (onMem_of_same hread2), Cmd.get_bind, if_pos rfl, Cmd.bind_of_ok _ h3, Cmd.get_bind, Cmd.pure_run,
      happ.count hs.writer, Nat.add_sub_cancel_left]
    exact ⟨t3, rfl, happ⟩

/-- Settles O40: the checks in order, then the fields of the run in turn, the data read twice and unchanged. -/
theorem ansEncWritesRun : Obligations.AnsEncWritesRun := by
  intro s order n off hs
  refine ⟨fun horder => ?_, fun horder hfit => ?_, fun horder hfit hlen => ?_, fun horder hfit hlen hopen hk hover => ?_,
    fun horder hfit hlen hopen hover hpar hok he hroom => ?_⟩
  · exact exec_fails (i := .ansEnc order n off) (sub := 2) nofun hs (ansEncBody_order horder)
  · exact exec_fails (i := .ansEnc order n off) (sub := 4) nofun hs (ansEncBody_window horder hfit)
  · exact exec_fails (i := .ansEnc order n off) (sub := 2) nofun hs (ansEncBody_range horder hfit hlen)
  · exact exec_fails (i := .ansEnc order n off) (sub := 5) nofun hs (ansEncBody_overlap horder hfit hlen hopen hk hover)
  · obtain ⟨t, ht, happ⟩ := ansEncBody_of horder hfit hlen hover rfl rfl ⟨hpar, hopen, hok, he, hroom⟩
    have hexec := exec_completes (i := .ansEnc order n off) nofun hs ht
    rw [happ.frame] at hexec
    exact ⟨t.bw, t.env, hexec, happ.bits_eq, happ.isOpen, happ.writer, happ.delivered⟩

end Sys2Proof.Machine
end

section
/-!
O41: `ANS_DEC` stores the data of the run it reads, after its checks.
-/

namespace Sys2Proof.Machine

variable {s t : State} {order : BitVec 8} {n off : BitVec 32}

/-! ### The reader of the host as a reader of fields -/

/-- The reader and the host side `u`, reached from the state `s` by reads alone, have the bits `l` left. -/
structure ReaderHas (s : State) (l : List Bool) (u : BitReader × Env) : Prop where
  reader : ReaderOk s.par.bufsz u.1
  rest : remainingBits u.1 u.2 = l
  count : u.1.count + l.length = s.br.count + (remainingBits s.br s.env).length
  fetched : Fetched s.br s.env u.1 u.2

theorem readBits_reads (hpar : s.par.ok = true) (hopen : s.br.isOpen = true) (he : s.env.neverFails) :
    ReadsFields (ReaderHas s) (readBits s.par.bufsz) := by
  rintro len l ⟨r, e⟩ hlen hl ⟨hok, hrest, hcount, hfetched⟩
  dsimp only at hok hrest hcount hfetched
  subst hrest
  obtain ⟨r', e', hr, hcount', hrest', hok', hfetched'⟩ := readBits_fetched (s := (s.withBr r).withEnv e) hpar
    (hfetched.2.1.trans hopen) hok (hfetched.neverFails he) hlen hl
  refine ⟨(r', e'), hr, hok', hrest', ?_, hfetched.trans hfetched'⟩
  show r'.count + _ = _
  rw [hcount', List.length_drop, ← hcount]
  show r.count + len + _ = _
  omega

theorem Fetched.mem_eq {b r : BitReader} {e e' : Env} (h : Fetched b e r e') : e'.mem = e.mem := by
  rw [h.2.2.2.2.2.1]

/-- Bytes stored outside the window of a reader leave what it has left. -/
theorem remainingBits_writeAll {r : BitReader} {e : Env} {bufsz a : Nat} {l : List Byte} {base len : BitVec 32}
    (hok : ReaderOk bufsz r) (hover : r.kind = .window → ¬overlap r.base r.len base len) (hlow : base.toNat ≤ a)
    (hhigh : a + l.length ≤ base.toNat + len.toNat) :
    remainingBits r { e with mem := Memory.writeAll e.mem a l } = remainingBits r e := by
  rw [remainingBits_eq, remainingBits_eq, sourceBytes, sourceBytes]
  cases hk : r.kind with
  | port => rfl
  | window =>
    have hfetched := hok.fetched_le hk
    have hsame := memBytes_congr (m := e.mem) (m' := Memory.writeAll e.mem a l) (a := r.base.toNat + r.fetched)
      (k := r.len.toNat - r.fetched) fun c hc hc' => by
        rw [Memory.read_writeAll, if_neg]
        rintro ⟨hac, hcl⟩
        exact not_inWindow_of_not_overlap (hover hk) (a := c) ⟨by omega, by omega⟩ ⟨by omega, by omega⟩
    dsimp only
    rw [hsame]

/-! ### `ANS_DEC` -/

theorem ansDecBody_order (horder : 1 < order.toNat) :
    ansDecBody order n off s = .error (.raise (errOf .invalidParameter 2 0 false)) s := by
  rw [ansDecBody, check_stop (decide_eq_true horder)]

theorem ansDecBody_window (horder : order.toNat ≤ 1) (hfit : ¬fits s.win.dstBase s.win.dstCap) :
    ansDecBody order n off s = .error (.raise (errOf .invalidParameter 4 0 false)) s := by
  rw [ansDecBody, check_pass (decide_lt_eq_false horder), Cmd.get_bind, check_stop (windowCheck_stop hfit)]

theorem ansDecBody_room (horder : order.toNat ≤ 1) (hfit : fits s.win.dstBase s.win.dstCap)
    (hlen : s.win.dstCap.toNat < off.toNat + n.toNat) :
    ansDecBody order n off s = .error (.raise (errOf .bufferTooSmall 2 (off.toNat + n.toNat) false)) s := by
  rw [ansDecBody, check_pass (decide_lt_eq_false horder), Cmd.get_bind, check_pass (windowCheck_pass hfit),
    check_stop (decide_eq_true hlen)]

theorem ansDecBody_closed (horder : order.toNat ≤ 1) (hfit : fits s.win.dstBase s.win.dstCap)
    (hlen : off.toNat + n.toNat ≤ s.win.dstCap.toNat) (hopen : s.br.isOpen = false) :
    ansDecBody order n off s = .error (.raise (errOf .endOfStream 1 0 false)) s := by
  rw [ansDecBody, check_pass (decide_lt_eq_false horder), Cmd.get_bind, check_pass (windowCheck_pass hfit),
    check_pass (decide_lt_eq_false hlen), check_stop (by rw [hopen]; rfl)]

theorem ansDecBody_overlap (horder : order.toNat ≤ 1) (hfit : fits s.win.dstBase s.win.dstCap)
    (hlen : off.toNat + n.toNat ≤ s.win.dstCap.toNat) (hopen : s.br.isOpen = true) (hk : s.br.kind = .window)
    (hover : overlap s.br.base s.br.len s.win.dstBase s.win.dstCap) :
    ansDecBody order n off s = .error (.raise (errOf .invalidParameter 5 0 false)) s := by
  rw [ansDecBody, check_pass (decide_lt_eq_false horder), Cmd.get_bind, check_pass (windowCheck_pass hfit),
    check_pass (decide_lt_eq_false hlen), check_pass (not_eq_false_of_eq_true hopen),
    check_stop (streamOverlaps_eq_true hk hover)]

/-- `ANS_DEC` past its checks, when the decoder answers data that it has room for: they are stored. -/
theorem ansDecBody_of (horder : order.toNat ≤ 1) (hfit : fits s.win.dstBase s.win.dstCap)
    (hlen : off.toNat + n.toNat ≤ s.win.dstCap.toNat) (hopen : s.br.isOpen = true)
    (hover : s.br.kind = .window → ¬overlap s.br.base s.br.len s.win.dstBase s.win.dstCap) {d : List Byte}
    (hd : d.length = n.toNat) {r : BitReader} {e : Env} (he : e.neverFails)
    (hdecode : ansDecode (readBits s.par.bufsz) (decide (order.toNat = 1)) d.length (s.br, s.env) = .ok d (r, e)) :
    ansDecBody order n off s = .ok (BitVec.ofNat 64 (r.count - s.br.count))
      { s with br := r, env := { e with mem := Memory.writeAll e.mem (s.win.dstBase.toNat + off.toNat) d } } := by
  have hstore := memWriteBytes_of (U := Unit) d (a := s.win.dstBase.toNat + off.toNat) (t := ((), e)) he.1.1 (by omega)
  have hmem : midway (onMem (memWriteBytes (s.win.dstBase.toNat + off.toNat) d)) ((s.withBr r).withEnv e) = .ok () _ :=
    midway_eq_ok.mpr (zoom_of_ok hstore)
  rw [hd, ← order_eq_one] at hdecode
  rw [ansDecBody, check_pass (decide_lt_eq_false horder), Cmd.get_bind, check_pass (windowCheck_pass hfit),
    check_pass (decide_lt_eq_false hlen), check_pass (not_eq_false_of_eq_true hopen),
    check_pass (streamOverlaps_eq_false hover), Cmd.bind_of_ok _ (onReader_of hdecode),
    Cmd.bind_of_ok _ hmem]
  rfl

/-- Settles O41: the checks in order, then the run decoded by the round trip over the host's reader, and its data stored
outside the reader's window. -/
theorem ansDecStoresData : Obligations.AnsDecStoresData := by
  intro s order n off hs
  refine ⟨fun horder => ?_, fun horder hfit => ?_, fun horder hfit => ⟨fun hlen => ?_, fun hlen =>
    ⟨fun hopen => ?_, fun hopen hk hover => ?_, fun hopen hover hpar hok he lr d rest h8 h16 hd hrem => ?_⟩⟩⟩
  · exact exec_fails (i := .ansDec order n off) (sub := 2) nofun hs (ansDecBody_order horder)
  · exact exec_fails (i := .ansDec order n off) (sub := 4) nofun hs (ansDecBody_window horder hfit)
  · exact exec_fails (i := .ansDec order n off) (sub := 2) nofun hs (ansDecBody_room horder hfit hlen)
  · exact exec_fails (i := .ansDec order n off) (sub := 1) nofun hs (ansDecBody_closed horder hfit hlen hopen)
  · exact exec_fails (i := .ansDec order n off) (sub := 5) nofun hs (ansDecBody_overlap horder hfit hlen hopen hk hover)
  · obtain ⟨⟨r, e⟩, hdecode, hhas⟩ := ansDecode_decodes (readBits_reads hpar hopen he) h8 h16 (decide (order.toNat = 1)) d
      rest (s.br, s.env) ⟨hok, hrem, by rw [hrem], Fetched.refl _ _⟩
    obtain ⟨hok', hrest, hcount, hfetched⟩ := hhas
    dsimp only at hok' hrest hcount hfetched
    rw [hrem, List.length_append] at hcount
    have hkind := hfetched.2.2
    have hbody := ansDecBody_of horder hfit hlen hopen hover hd (hfetched.neverFails he) hdecode
    rw [show r.count - s.br.count = (fieldBits (ansFields (decide (order.toNat = 1)) lr d)).length by omega] at hbody
    refine ⟨r, _, exec_completes (i := .ansDec order n off) nofun hs hbody, by omega, ?_, hok', ?_, fun a => ?_⟩
    · rw [remainingBits_writeAll hok' (by rw [hkind.1, hkind.2.1, hkind.2.2.1]; exact hover) (Nat.le_add_right _ _) (by omega)]
      exact hrest
    · rw [← hfetched.mem_eq]
      exact hfetched
    · rw [Memory.read_writeAll, hd, hfetched.mem_eq]

end Sys2Proof.Machine
end

section
/-!
O42, O43: what `RZ_INIT` and `RZ_CHUNK` set, after their checks.
-/

namespace Sys2Proof.Machine

variable {s : State} {backend lpc : BitVec 8} {newblock : Bool} {start size : BitVec 32}

/-! ### `RZ_INIT` -/

/-- The unit `RZ_INIT` leaves: configured, its tables empty, no chunk (45_rolz_matchfinder.md R291). -/
def Rolz.configured (z : Rolz) (backend lpc : BitVec 8) : Rolz :=
  { z with
    backend := backend.setWidth 2, lpc := lpc.setWidth 4, counters := [], matchRing := [], cvalid := false, ready := true }

/-- The two checks of `RZ_INIT` raise the same error, so their order does not show. -/
theorem rzInitBody_illegal (h : backend ≠ 1 ∧ backend ≠ 2 ∨ lpc.toNat < 2 ∨ 8 < lpc.toNat) :
    rzInitBody backend lpc s = .error (.raise (errOf .invalidParameter 2 0 false)) s := by
  by_cases hb : backend ≠ 1 ∧ backend ≠ 2
  · rw [rzInitBody, check_stop (decide_eq_true hb)]
  · have hl : (decide (lpc.toNat < 2) || decide (8 < lpc.toNat)) = true := by
      simpa using h.resolve_left hb
    rw [rzInitBody, check_pass (decide_eq_false hb), check_stop hl]

theorem rzInitBody_of (hb : backend = 1 ∨ backend = 2) (hl : 2 ≤ lpc.toNat) (hl' : lpc.toNat ≤ 8) :
    rzInitBody backend lpc s = .ok 0 (s.withRz (s.rz.configured backend lpc)) := by
  have hb' : ¬(backend ≠ 1 ∧ backend ≠ 2) := fun ⟨h1, h2⟩ => hb.elim h1 h2
  have hlpc : (decide (lpc.toNat < 2) || decide (8 < lpc.toNat)) = false :=
    Bool.or_eq_false_iff.mpr ⟨decide_lt_eq_false hl, decide_lt_eq_false hl'⟩
  rw [rzInitBody, check_pass (decide_eq_false hb'), check_pass hlpc, Cmd.modify_bind, Cmd.pure_run]
  rfl

theorem Rolz.configured_lpc_toNat (z : Rolz) (hl : lpc.toNat ≤ 8) : (z.configured backend lpc).lpc.toNat = lpc.toNat := by
  show (lpc.setWidth 4).toNat = lpc.toNat
  rw [BitVec.toNat_setWidth]
  omega

theorem Rolz.posChecks_of_lpc {z : Rolz} (hz : 0 < z.lpc.toNat) : z.posChecks = 2 ^ z.lpc.toNat := by
  have hne : z.lpc ≠ 0 := fun h => by
    rw [h] at hz
    exact absurd hz (by decide)
  rw [Rolz.posChecks, if_neg hne]

/-- Settles O42: the checks, then the unit as configured. -/
theorem rzInitConfigures : Obligations.RzInitConfigures := by
  intro s backend lpc hs
  refine ⟨fun h => exec_fails (i := .rzInit backend lpc) (sub := 2) nofun hs (rzInitBody_illegal h), fun hb hl hl' =>
    ⟨s.rz.configured backend lpc, exec_completes (i := .rzInit backend lpc) nofun hs (rzInitBody_of hb hl hl'), rfl, ?_⟩⟩
  have hlpc := s.rz.configured_lpc_toNat (backend := backend) hl'
  have hchecks : (s.rz.configured backend lpc).posChecks = 2 ^ lpc.toNat := by
    rw [Rolz.posChecks_of_lpc (by omega), hlpc]
  refine ⟨?_, hlpc, hchecks, ?_, fun _ => rfl, fun _ => rfl, rfl⟩
  · rcases hb with rfl | rfl <;> rfl
  · rw [Rolz.mask, hchecks]

/-! ### `RZ_CHUNK` -/

/-- The unit `RZ_CHUNK` leaves: the chunk in its window, its rings empty (45_rolz_matchfinder.md R299). -/
def Rolz.withChunk (z : Rolz) (win : Windows) (newblock : Bool) (start size : BitVec 32) : Rolz :=
  { z with
    counters := if newblock then [] else z.counters
    matchRing := [], cbase := win.srcBase + start, csize := size, clen := win.srcLen - start, cvalid := true }

theorem rzChunkBody_unready (hr : s.rz.ready = false) :
    rzChunkBody newblock start size s = .error (.raise (errOf .invalidParameter 3 0 false)) s := by
  rw [rzChunkBody, Cmd.get_bind, check_stop (by rw [hr]; rfl)]

theorem rzChunkBody_window (hr : s.rz.ready = true) (hfit : ¬fits s.win.srcBase s.win.srcLen) :
    rzChunkBody newblock start size s = .error (.raise (errOf .invalidParameter 4 0 false)) s := by
  rw [rzChunkBody, Cmd.get_bind, check_pass (not_eq_false_of_eq_true hr), check_stop (windowCheck_stop hfit)]

/-- The two checks of the chunk's size raise the same error, so their order does not show. -/
theorem rzChunkBody_range (hr : s.rz.ready = true) (hfit : fits s.win.srcBase s.win.srcLen)
    (h : 2 ^ 26 < size.toNat ∨ s.win.srcLen.toNat < start.toNat + size.toNat + 4) :
    rzChunkBody newblock start size s = .error (.raise (errOf .invalidParameter 2 0 false)) s := by
  rw [rzChunkBody, Cmd.get_bind, check_pass (not_eq_false_of_eq_true hr), check_pass (windowCheck_pass hfit)]
  by_cases hsize : Config.chunkSize < size.toNat
  · rw [check_stop (decide_eq_true hsize)]
  · rw [check_pass (decide_eq_false hsize), check_stop (decide_eq_true (h.resolve_left hsize))]

theorem rzChunkBody_of (hr : s.rz.ready = true) (hfit : fits s.win.srcBase s.win.srcLen) (hsize : size.toNat ≤ 2 ^ 26)
    (hlen : start.toNat + size.toNat + 4 ≤ s.win.srcLen.toNat) :
    rzChunkBody newblock start size s = .ok 0 (s.withRz (s.rz.withChunk s.win newblock start size)) := by
  have hsize' : decide (Config.chunkSize < size.toNat) = false := decide_lt_eq_false hsize
  rw [rzChunkBody, Cmd.get_bind, check_pass (not_eq_false_of_eq_true hr), check_pass (windowCheck_pass hfit),
    check_pass hsize', check_pass (decide_lt_eq_false hlen), Cmd.set_bind, Cmd.pure_run]
  rfl

theorem Rolz.withChunk_counter (z : Rolz) (win : Windows) (k : Nat) :
    (z.withChunk win newblock start size).counter k = if newblock then 0 else z.counter k := by
  cases newblock <;> rfl

/-- Settles O43: the checks in order, then the chunk; past the checks neither its base nor its reach wraps around. -/
theorem rzChunkSetsChunk : Obligations.RzChunkSetsChunk := by
  intro s newblock start size hs
  refine ⟨fun hr => ?_, fun hr hfit => ?_, fun hr hfit h => ?_, fun hr hfit hsize hlen => ?_⟩
  · exact exec_fails (i := .rzChunk newblock start size) (sub := 3) nofun hs (rzChunkBody_unready hr)
  · exact exec_fails (i := .rzChunk newblock start size) (sub := 4) nofun hs (rzChunkBody_window hr hfit)
  · exact exec_fails (i := .rzChunk newblock start size) (sub := 2) nofun hs (rzChunkBody_range hr hfit h)
  · have hbase : (s.win.srcBase + start).toNat = s.win.srcBase.toNat + start.toNat :=
      BitVec.toNat_add_of_lt (by omega)
    have hreach : (s.win.srcLen - start).toNat = s.win.srcLen.toNat - start.toNat :=
      BitVec.toNat_sub_of_le (BitVec.le_def.mpr (by omega))
    exact ⟨s.rz.withChunk s.win newblock start size,
      exec_completes (i := .rzChunk newblock start size) nofun hs (rzChunkBody_of hr hfit hsize hlen),
      hr, rfl, rfl, rfl, rfl, hbase, hreach, fun _ => rfl, fun k => s.rz.withChunk_counter s.win k⟩

end Sys2Proof.Machine
end

section
/-!
The search of the match finder: the candidate it ends with is the newest of the longest matches among the records it
reaches.
-/

namespace Sys2Proof.Machine

variable {z : Rolz} {e : Env} {p j d : Nat} {best : Best}

/-! ### The length of a comparison -/

/-- The first position where the bytes differ, or the bound, is the length of the common run. -/
theorem Rolz.commonRun_eq {r maxm n : Nat} (hn : n ≤ maxm) (hsame : ∀ i < n, z.buf e (r + i) = z.buf e (p + i))
    (hstop : n = maxm ∨ z.buf e (r + n) ≠ z.buf e (p + n)) : z.commonRun e r p maxm = n := by
  obtain ⟨k, rfl⟩ := Nat.exists_eq_add_of_le hn
  have hprefix : ∀ i ∈ List.range n, (z.buf e (r + i) == z.buf e (p + i)) = true := fun i hi =>
    beq_iff_eq.mpr (hsame i (List.mem_range.mp hi))
  rw [Rolz.commonRun, List.range_add, List.takeWhile_append_of_pos hprefix]
  cases k with
  | zero => simp
  | succ k =>
    have hne : z.buf e (r + n) ≠ z.buf e (p + n) := hstop.resolve_left (by omega)
    simp [List.range_succ_eq_map, hne]

theorem Rolz.commonRun_le (z : Rolz) (e : Env) (r p maxm : Nat) : z.commonRun e r p maxm ≤ maxm := by
  have h := (List.takeWhile_sublist (fun n => z.buf e (r + n) == z.buf e (p + n)) (l := List.range maxm)).length_le
  rwa [List.length_range] at h

theorem matchByte_inside (he : e.quiet) (hz : z.chunkFits) {i : Nat} (hi : i < z.clen.toNat) :
    matchByte i (z, e) = .ok (z.buf e i) (z, e) := by
  obtain ⟨b, d, h, hb⟩ := matchByte_of he hz i
  obtain ⟨rfl, rfl⟩ := hb hi
  exact h

/-- A comparison that stays inside the window goes on for the whole common run. -/
theorem extendMatch_inside (he : e.quiet) (hz : z.chunkFits) {r maxm : Nat} (hr : r + maxm ≤ z.clen.toNat)
    (hp : p + maxm ≤ z.clen.toNat) : ∀ {k n : Nat}, n ≤ maxm → maxm ≤ n + k →
    (∀ i < n, z.buf e (r + i) = z.buf e (p + i)) →
    extendMatch r p maxm k n (z, e) = .ok (z.commonRun e r p maxm) (z, e)
  | 0, n, hn, hk, hsame => by
    rw [Rolz.commonRun_eq hn hsame (.inl (by omega))]
    rfl
  | k + 1, n, hn, hk, hsame => by
    unfold extendMatch
    by_cases hm : n < maxm
    · rw [if_pos hm, Cmd.bind_of_ok _ (matchByte_inside he hz (by omega)),
        Cmd.bind_of_ok _ (matchByte_inside he hz (by omega))]
      by_cases hab : z.buf e (r + n) = z.buf e (p + n)
      · rw [if_pos hab]
        refine extendMatch_inside he hz hr hp hm (by omega) fun i hi => ?_
        rcases Nat.lt_succ_iff_lt_or_eq.mp hi with hi | rfl
        · exact hsame i hi
        · exact hab
      · rw [if_neg hab, Rolz.commonRun_eq hn hsame (.inr hab)]
        rfl
    · rw [if_neg hm, Rolz.commonRun_eq hn hsame (.inl (by omega))]
      rfl

/-! ### One record of the search -/

/-- The most bytes a match for position `p` may have (45_rolz_matchfinder.md R297). -/
abbrev Rolz.maxLen (z : Rolz) (p : Nat) : Nat := min 258 (z.csize.toNat - p)

theorem Rolz.maxLen_pos (hp : p < z.csize.toNat) : 1 ≤ z.maxLen p := by
  unfold Rolz.maxLen
  omega

theorem Rolz.maxLen_le (z : Rolz) (p : Nat) : z.maxLen p ≤ 258 := Nat.min_le_left _ _

theorem Rolz.add_maxLen_le (hp : p < z.csize.toNat) : p + z.maxLen p ≤ z.csize.toNat := by
  unfold Rolz.maxLen
  omega

/-- The comparison with the record at ring distance `j` cannot pass the window the chunk lies in. -/
abbrev Rolz.inside (z : Rolz) (e : Env) (p j : Nat) : Prop := recordPos (z.recordAt e p j) + z.maxLen p ≤ z.clen.toNat

/-- The search for position `p`, with `k` records from ring distance `j` on to look at. -/
abbrev searchFor (z : Rolz) (e : Env) (p k j : Nat) (best : Best) : Cmd (Rolz × Env) Best :=
  searchRing (z.key e p) (z.hash e p) (z.counter (z.key e p)) p (z.maxLen p) k j best

/-- The candidate after a record at ring distance `j` was found to match `n` bytes. -/
def Best.offer (best : Best) (n j : Nat) : Best := if best.len < n then { len := n, idx := some j } else best

theorem searchFor_empty {k : Nat} (h : z.recordAt e p j = 0) :
    searchFor z e p (k + 1) j best (z, e) = .ok best (z, e) := by
  unfold searchFor searchRing
  rw [Cmd.get_bind]
  exact congrFun (if_pos h) _

/-- A record with another hash is skipped. -/
theorem searchFor_otherHash {k : Nat} (hne : z.recordAt e p j ≠ 0)
    (hh : z.recordAt e p j &&& Config.hashMask ≠ z.hash e p) :
    searchFor z e p (k + 1) j best (z, e) = searchFor z e p k (j + 1) best (z, e) := by
  unfold searchFor
  rw [searchRing, Cmd.get_bind]
  exact congrFun ((if_neg hne).trans (if_pos hh)) _

/-- A record with the hash of the position is compared: it is offered with the length of the comparison when the first bytes
are the same, and skipped when they differ. -/
theorem searchFor_sameHash {k : Nat} (hne : z.recordAt e p j ≠ 0)
    (hh : z.recordAt e p j &&& Config.hashMask = z.hash e p) {a b : Byte} {d₁ d₂ : Nat}
    (ha : matchByte (recordPos (z.recordAt e p j)) (z, e) = .ok a (z, { e with drawn := d₁ }))
    (hb : matchByte p (z, { e with drawn := d₁ }) = .ok b (z, { e with drawn := d₂ })) :
    searchFor z e p (k + 1) j best (z, e) =
      (if a ≠ b then searchFor z e p k (j + 1) best
        else extendMatch (recordPos (z.recordAt e p j)) p (z.maxLen p) (Config.maxMatch - 1) 1 >>= fun n =>
          searchFor z e p k (j + 1) (best.offer n j)) (z, { e with drawn := d₂ }) := by
  unfold searchFor
  rw [searchRing, Cmd.get_bind]
  refine (congrFun ((if_neg hne).trans (if_neg (not_not.mpr hh))) _).trans ?_
  exact (Cmd.bind_of_ok _ ha).trans (Cmd.bind_of_ok _ hb)

theorem Best.offer_zero (best : Best) (j : Nat) : best.offer 0 j = best := if_neg (Nat.not_lt_zero _)

theorem Rolz.matchAt_otherHash (hh : z.recordAt e p j &&& Config.hashMask ≠ z.hash e p) : z.matchAt e p j = 0 := if_neg hh

theorem Rolz.matchAt_sameHash (hh : z.recordAt e p j &&& Config.hashMask = z.hash e p) :
    z.matchAt e p j = z.commonRun e (recordPos (z.recordAt e p j)) p (z.maxLen p) := if_pos hh

/-- A record that is there is offered as a candidate, with the length that it matches when the comparison stays inside the
window; a skipped record counts as a match of no byte. -/
theorem searchFor_record (he : e.quiet) (hz : z.chunkFits) (hp : p < z.csize.toNat) {k : Nat}
    (hne : z.recordAt e p j ≠ 0) :
    ∃ n d, searchFor z e p (k + 1) j best (z, e) =
        searchFor z e p k (j + 1) (best.offer n j) (z, { e with drawn := d }) ∧
      n ≤ z.maxLen p ∧ (z.inside e p j → n = z.matchAt e p j ∧ d = e.drawn) := by
  have hmax := Rolz.maxLen_pos hp
  have hend := Rolz.add_maxLen_le hp
  by_cases hh : z.recordAt e p j &&& Config.hashMask = z.hash e p
  · rw [Rolz.matchAt_sameHash hh]
    by_cases hin : z.inside e p j
    · have ha := matchByte_inside he hz (i := recordPos (z.recordAt e p j)) (by omega)
      have hb := matchByte_inside he hz (i := p) (by omega)
      rw [searchFor_sameHash hne hh ha hb]
      by_cases hab : z.buf e (recordPos (z.recordAt e p j)) = z.buf e p
      · have hn := extendMatch_inside he hz hin (p := p) (by omega) (k := Config.maxMatch - 1) hmax (z.maxLen_le p)
          fun i hi => by rw [Nat.lt_one_iff.mp hi]; exact hab
        rw [if_neg (not_not.mpr hab), Cmd.bind_of_ok _ hn]
        exact ⟨_, e.drawn, rfl, z.commonRun_le e _ p _, fun _ => ⟨rfl, rfl⟩⟩
      · rw [if_pos hab]
        refine ⟨0, e.drawn, by rw [Best.offer_zero], Nat.zero_le _, fun _ => ⟨?_, rfl⟩⟩
        exact (Rolz.commonRun_eq (Nat.zero_le _) (fun _ h => absurd h (Nat.not_lt_zero _)) (.inr hab)).symm
    · obtain ⟨a, d₁, ha, -⟩ := matchByte_of he hz (recordPos (z.recordAt e p j))
      obtain ⟨b, d₂, hb, -⟩ := matchByte_of (e := { e with drawn := d₁ }) he hz p
      rw [searchFor_sameHash hne hh ha hb]
      by_cases hab : a = b
      · obtain ⟨n, d₃, hn, -, hle⟩ := extendMatch_of hz (recordPos (z.recordAt e p j)) p (z.maxLen p)
          (Config.maxMatch - 1) 1 (e := { e with drawn := d₂ }) he hmax
        rw [if_neg (not_not.mpr hab), Cmd.bind_of_ok _ hn]
        exact ⟨n, d₃, rfl, hle, fun h => absurd h hin⟩
      · rw [if_pos hab]
        exact ⟨0, d₂, by rw [Best.offer_zero], Nat.zero_le _, fun h => absurd h hin⟩
  · rw [searchFor_otherHash hne hh, Rolz.matchAt_otherHash hh]
    exact ⟨0, e.drawn, by rw [Best.offer_zero], Nat.zero_le _, fun _ => ⟨rfl, rfl⟩⟩

/-! ### The whole search -/

/-- The candidate after the records at ring distances below `j`: no length below 3 is one; it is the newest of the longest,
where a record counts with its match as long as the comparison stays inside the window. -/
structure Rolz.BestBelow (z : Rolz) (e : Env) (p j : Nat) (best : Best) : Prop where
  longest : ∀ i < j, z.inside e p i → z.matchAt e p i ≤ best.len
  minimum : 2 ≤ best.len
  none_len : best.idx = none → best.len = 2
  some_len : ∀ i, best.idx = some i → i < j ∧ 3 ≤ best.len ∧ best.len ≤ z.maxLen p ∧
    (z.inside e p i → z.matchAt e p i = best.len) ∧ ∀ i' < i, z.inside e p i' → z.matchAt e p i' < best.len

theorem Rolz.BestBelow.start (z : Rolz) (e : Env) (p : Nat) :
    z.BestBelow e p 0 { len := Config.minMatch - 1, idx := none } :=
  ⟨fun _ h => absurd h (Nat.not_lt_zero _), le_refl 2, fun _ => rfl, nofun⟩

/-- Which candidate is the best does not depend on the arbitrary bytes read so far. -/
theorem Rolz.bestBelow_drawn : z.BestBelow { e with drawn := d } p j best ↔ z.BestBelow e p j best :=
  ⟨fun ⟨hlongest, hmin, hnone, hsome⟩ => ⟨hlongest, hmin, hnone, hsome⟩,
    fun ⟨hlongest, hmin, hnone, hsome⟩ => ⟨hlongest, hmin, hnone, hsome⟩⟩

/-- One more record offered: it replaces the candidate when it is strictly longer, so that the newer one stays. -/
theorem Rolz.BestBelow.offer (h : z.BestBelow e p j best) {n : Nat} (hn : n ≤ z.maxLen p)
    (hmatch : z.inside e p j → n = z.matchAt e p j) : z.BestBelow e p (j + 1) (best.offer n j) := by
  obtain ⟨hlongest, hmin, hnone, hsome⟩ := h
  unfold Best.offer
  split_ifs with hlt
  · refine ⟨fun i hi hin => ?_, hmin.trans hlt.le, nofun, fun i hi => ?_⟩
    · rcases Nat.lt_succ_iff_lt_or_eq.mp hi with hi | rfl
      · exact (hlongest i hi hin).trans hlt.le
      · exact (hmatch hin).ge
    · obtain rfl := Option.some.inj hi
      exact ⟨Nat.lt_succ_self j, Nat.lt_of_le_of_lt hmin hlt, hn, fun hin => (hmatch hin).symm, fun i' hi' hin =>
        (hlongest i' hi' hin).trans_lt hlt⟩
  · refine ⟨fun i hi hin => ?_, hmin, hnone, fun i hi => ?_⟩
    · rcases Nat.lt_succ_iff_lt_or_eq.mp hi with hi | rfl
      · exact hlongest i hi hin
      · exact (hmatch hin).symm.trans_le (Nat.le_of_not_lt hlt)
    · obtain ⟨hij, hrest⟩ := hsome i hi
      exact ⟨Nat.lt_succ_of_lt hij, hrest⟩

/-- A search that passed the records below `j` and stops there reaches exactly these. -/
theorem Rolz.reaches_iff_lt (hpassed : ∀ i < j, z.recordAt e p i ≠ 0) (hj : j ≤ z.posChecks)
    (hstop : j = z.posChecks ∨ z.recordAt e p j = 0) (i : Nat) : z.reaches e p i ↔ i < j := by
  constructor
  · rintro ⟨hi, hne⟩
    by_contra hge
    rcases hstop with rfl | hzero
    · exact hge hi
    · exact hne j (Nat.le_of_not_lt hge) hzero
  · exact fun hi => ⟨hi.trans_le hj, fun i' hi' => hpassed i' (hi'.trans_lt hi)⟩

/-- The search ends with the best of the records it reaches; it reads no arbitrary byte when every comparison stays inside
the window. -/
theorem searchFor_best (hz : z.chunkFits) (hp : p < z.csize.toNat) : ∀ {k j : Nat} {best : Best} {e : Env}, e.quiet →
    z.BestBelow e p j best → (∀ i < j, z.recordAt e p i ≠ 0) → j + k = z.posChecks →
    ∃ x d m, searchFor z e p k j best (z, e) = .ok x (z, { e with drawn := d }) ∧ z.BestBelow e p m x ∧
      (∀ i, z.reaches e p i ↔ i < m) ∧ ((∀ i, z.reaches e p i → z.inside e p i) → d = e.drawn)
  | 0, j, best, e, _, hbest, hpassed, hk =>
    ⟨best, e.drawn, j, rfl, hbest, Rolz.reaches_iff_lt hpassed (by omega) (.inl hk), fun _ => rfl⟩
  | k + 1, j, best, e, he, hbest, hpassed, hk => by
    by_cases hzero : z.recordAt e p j = 0
    · exact ⟨best, e.drawn, j, searchFor_empty hzero, hbest, Rolz.reaches_iff_lt hpassed (by omega) (.inr hzero),
        fun _ => rfl⟩
    · have hpassed' : ∀ i < j + 1, z.recordAt e p i ≠ 0 := fun i hi => by
        rcases Nat.lt_succ_iff_lt_or_eq.mp hi with hi | rfl
        · exact hpassed i hi
        · exact hzero
      obtain ⟨n, d₁, hrun, hn, hin⟩ := searchFor_record (best := best) he hz hp (k := k) hzero
      have hnext : z.BestBelow e p (j + 1) (best.offer n j) := hbest.offer hn fun h => (hin h).1
      obtain ⟨x, d, m, hrest, hx, hreach, hd⟩ := searchFor_best hz hp (k := k) (e := { e with drawn := d₁ }) he
        (Rolz.bestBelow_drawn.mpr hnext) hpassed' (by omega)
      refine ⟨x, d, m, hrun.trans hrest, Rolz.bestBelow_drawn.mp hx, hreach, fun hall => (hd hall).trans ?_⟩
      exact (hin (hall j ⟨by omega, fun i hi => hpassed' i (Nat.lt_succ_of_le hi)⟩)).2

/-- `FindMatch`: the best of the records the search reaches, and the position inserted. -/
theorem findMatch_best (he : e.quiet) (hz : z.chunkFits) (hp : p < z.csize.toNat) :
    ∃ best d m, findMatch p (z, e) =
        .ok (best.idx.map fun j => { idx := j, len := best.len })
          (z.insert (z.key e p) (z.hash e p ||| BitVec.ofNat 32 p), { e with drawn := d }) ∧
      z.BestBelow e p m best ∧ (∀ i, z.reaches e p i ↔ i < m) ∧
      ((∀ i, z.reaches e p i → z.inside e p i) → d = e.drawn) := by
  have haddr : z.cbase.toNat + z.csize.toNat + 4 ≤ 2 ^ 32 := by omega
  obtain ⟨best, d, m, hrun, hbest⟩ := searchFor_best hz hp he (Rolz.BestBelow.start z e p)
    (fun _ h => absurd h (Nat.not_lt_zero _)) (Nat.zero_add _)
  refine ⟨best, d, m, ?_, hbest⟩
  unfold findMatch
  rw [Cmd.bind_of_ok _ (keyAt_of he (by omega)), Cmd.bind_of_ok _ (hashAt_of he (by omega)), Cmd.get_bind]
  refine (Cmd.bind_of_ok _ hrun).trans ?_
  rw [Cmd.bind_of_ok _ (insertAt_of (e := { e with drawn := d }) he (by omega))]
  rfl

end Sys2Proof.Machine
end

section
/-!
O44: `RZ_FIND` answers the newest of the longest matches among the records its search reaches, and inserts the position.
-/

namespace Sys2Proof.Machine

variable {s : State} {z : Rolz} {e : Env} {p j : Nat} {best : Best}

/-- Behind every position of the rings, no comparison passes the chunk. -/
theorem Rolz.ringsBefore.inside (h : z.ringsBefore p) (hz : z.chunkFits) (hp : p < z.csize.toNat)
    (hj : z.recordAt e p j ≠ 0) : z.inside e p j := by
  have hpos : recordPos (z.recordAt e p j) < p := h.slot hj
  have hend := Rolz.add_maxLen_le hp
  unfold Rolz.inside
  omega

theorem Rolz.posChecks_le (z : Rolz) : z.posChecks ≤ 2 ^ 15 := by
  unfold Rolz.posChecks
  split_ifs
  · exact Nat.zero_le _
  · exact Nat.pow_le_pow_right Nat.two_pos (Nat.le_of_lt_succ z.lpc.isLt)

theorem findResponse_toNat {m : Match} (hlen : m.len ≤ 258) (hidx : m.idx < 2 ^ 15) :
    (findResponse (some m)).toNat = m.len * 256 + m.idx := by
  rw [findResponse, BitVec.toNat_ofNat, Nat.mod_eq_of_lt (by omega)]

/-- A piece of a rule over the ROLZ unit, as a piece of the command. -/
theorem onRolz_of {α : Type} {x : Cmd (Rolz × Env) α} {a : α} {u : Rolz × Env} (h : x (s.rz, s.env) = .ok a u) :
    onRolz x s = .ok a ((s.withRz u.1).withEnv u.2) := zoom_of_ok h

theorem rzFindBody_invalid (h : s.rz.ready = false ∨ s.rz.cvalid = false) {q : BitVec 32} :
    rzFindBody q s = .error (.raise (errOf .invalidParameter 3 0 false)) s := by
  have hbad : (!s.rz.ready || !s.rz.cvalid) = true := by simpa using h
  rw [rzFindBody, Cmd.get_bind, check_stop hbad]

/-- The check that the unit is ready and holds a chunk. -/
theorem readyCheck_pass (hr : s.rz.ready = true) (hc : s.rz.cvalid = true) :
    (!s.rz.ready || !s.rz.cvalid) = false := by
  rw [hr, hc]
  rfl

theorem rzFindBody_range (hr : s.rz.ready = true) (hc : s.rz.cvalid = true) {q : BitVec 32}
    (h : q.toNat < 2 ∨ s.rz.csize.toNat ≤ q.toNat) :
    rzFindBody q s = .error (.raise (errOf .invalidParameter 2 0 false)) s := by
  have hbad : (decide (q.toNat < 2) || decide (s.rz.csize.toNat ≤ q.toNat)) = true := by simpa using h
  rw [rzFindBody, Cmd.get_bind, check_pass (readyCheck_pass hr hc), check_stop hbad]

theorem rzFindBody_of (hr : s.rz.ready = true) (hc : s.rz.cvalid = true) {q : BitVec 32} (hq : 2 ≤ q.toNat)
    (hlt : q.toNat < s.rz.csize.toNat) {x : Option Match} {z' : Rolz} {e' : Env}
    (h : findMatch q.toNat (s.rz, s.env) = .ok x (z', e')) :
    rzFindBody q s = .ok (findResponse x) { s with rz := z', env := e' } := by
  have hgood : (decide (q.toNat < 2) || decide (s.rz.csize.toNat ≤ q.toNat)) = false :=
    Bool.or_eq_false_iff.mpr ⟨decide_lt_eq_false hq, decide_eq_false (Nat.not_le.mpr hlt)⟩
  have hfind : onRolz (findMatch q.toNat) s = .ok x ((s.withRz z').withEnv e') := onRolz_of h
  rw [rzFindBody, Cmd.get_bind, check_pass (readyCheck_pass hr hc), check_pass hgood, Cmd.bind_of_ok _ hfind,
    Cmd.pure_run]
  rfl

/-- What `RZ_FIND` answers says which of the records reached is the newest of the longest matches, if one is a match. -/
theorem Rolz.BestBelow.response {m : Nat} (h : z.BestBelow e p m best) (hreach : ∀ i, z.reaches e p i ↔ i < m) :
    let v := findResponse (best.idx.map fun j => { idx := j, len := best.len })
    (v = 0xFFFFFFFFFFFFFFFF ∧ ∀ j, z.reaches e p j → z.inside e p j → z.matchAt e p j < 3) ∨
      ∃ idx len, v.toNat = len * 256 + idx ∧ z.reaches e p idx ∧ (z.inside e p idx → z.matchAt e p idx = len) ∧ 3 ≤ len ∧
        len ≤ z.maxLen p ∧ (∀ j, z.reaches e p j → z.inside e p j → z.matchAt e p j ≤ len) ∧
        ∀ j, z.reaches e p j → z.inside e p j → j < idx → z.matchAt e p j < len := by
  have hlongest : ∀ j, z.reaches e p j → z.inside e p j → z.matchAt e p j ≤ best.len := fun j hj =>
    h.longest j ((hreach j).mp hj)
  cases hidx : best.idx with
  | none =>
    refine .inl ⟨rfl, fun j hj hin => ?_⟩
    have := hlongest j hj hin
    have := h.none_len hidx
    omega
  | some idx =>
    obtain ⟨hlt, hge, hle, hmatch, hnewest⟩ := h.some_len idx hidx
    have hidx' : z.reaches e p idx := (hreach idx).mpr hlt
    exact .inr ⟨idx, best.len, findResponse_toNat (hle.trans (z.maxLen_le p)) (hidx'.1.trans_le z.posChecks_le), hidx', hmatch, hge,
      hle, hlongest, fun j _ hin hj => hnewest j hj hin⟩

/-- Settles O44: the checks in order, then the best of the records the search reaches, and the insertion. -/
theorem rzFindAnswersBestMatch : Obligations.RzFindAnswersBestMatch := by
  intro s q hs
  refine ⟨fun h => ?_, fun hr hc h => ?_, fun hr hc hq hlt hz he => ?_⟩
  · exact exec_fails (i := .rzFind q) (sub := 3) nofun hs (rzFindBody_invalid h)
  · exact exec_fails (i := .rzFind q) (sub := 2) nofun hs (rzFindBody_range hr hc h)
  · obtain ⟨best, d, m, hfind, hbest, hreach, hd⟩ := findMatch_best he hz hlt
    have hinside (hrings : s.rz.ringsBefore q.toNat) (j : Nat) (hj : s.rz.reaches s.env q.toNat j) :
        s.rz.inside s.env q.toNat j := hrings.inside hz hlt (hj.2 j le_rfl)
    exact ⟨_, _, d, exec_completes (i := .rzFind q) nofun hs (rzFindBody_of hr hc hq hlt hfind),
      fun hrings => ⟨hd (hinside hrings), hinside hrings⟩, hbest.response hreach, rfl,
      fun x => s.rz.insert_counter _ x _, fun x => s.rz.insert_slot _ x _⟩

end Sys2Proof.Machine
end

section
/-!
O45, O46: the length code of back end 1 is inverted by its reader, and the two commands that write and read one code.
-/

namespace Sys2Proof.Machine

variable {s : State} {l : BitVec 32} {m : BitVec 16} {packed : Word}

/-! ### The groups of an excess (46_rolz_backend1.md R325, R330) -/

/-- A group with bit 7 set: more groups follow. -/
theorem readGroups_more {g acc d : Nat} (hd : d < 128) (r : List Byte) :
    readGroups (g + 1) acc (BitVec.ofNat 8 (0x80 + d) :: r) = readGroups g (acc * 128 + d) r := by
  have hval : (BitVec.ofNat 8 (0x80 + d)).toNat = 128 + d := by
    rw [BitVec.toNat_ofNat, Nat.mod_eq_of_lt (by omega)]
  rw [readGroups, hval, if_neg (by omega), Nat.add_mod_left, Nat.mod_eq_of_lt hd]

/-- A group with bit 7 clear is the last one. -/
theorem readGroups_last {g acc d : Nat} (hd : d < 128) (r : List Byte) :
    readGroups (g + 1) acc (BitVec.ofNat 8 d :: r) = some (acc * 128 + d, r) := by
  have hval : (BitVec.ofNat 8 d).toNat = d := by
    rw [BitVec.toNat_ofNat, Nat.mod_eq_of_lt (by omega)]
  rw [readGroups, hval, if_pos hd]

theorem readGroups_excessGroups {e : Nat} (he : e < 2 ^ 28) (rest : List Byte) :
    readGroups 4 0 (excessGroups e ++ rest) = some (e, rest) := by
  have digit : ∀ x : Nat, x % 128 < 128 := fun x => Nat.mod_lt x (by decide)
  unfold excessGroups
  by_cases h7 : 2 ^ 7 ≤ e
  · by_cases h14 : 2 ^ 14 ≤ e
    · by_cases h21 : 2 ^ 21 ≤ e
      · simp only [h7, h14, h21, if_true, List.nil_append, List.cons_append, readGroups_more (digit _),
          readGroups_last (digit _)]
        congr 2
        omega
      · simp only [h7, h14, h21, if_true, if_false, List.nil_append, List.cons_append,
          readGroups_more (digit _), readGroups_last (digit _)]
        congr 2
        omega
    · simp only [h7, h14, show ¬2 ^ 21 ≤ e by omega, if_true, if_false, List.nil_append,
        List.cons_append, readGroups_more (digit _), readGroups_last (digit _)]
      congr 2
      omega
  · simp only [h7, show ¬2 ^ 14 ≤ e by omega, show ¬2 ^ 21 ≤ e by omega, if_false, List.nil_append,
      List.singleton_append, readGroups_last (digit _)]
    congr 2
    omega

theorem excessGroups_length (e : Nat) : 1 ≤ (excessGroups e).length ∧ (excessGroups e).length ≤ 4 := by
  unfold excessGroups
  simp only [List.length_append, List.length_singleton]
  split_ifs <;> simp

/-! ### A whole code -/

theorem readExtra_of_lt {m : Nat} (hm : m < 7) (r : List Byte) : readExtra m r = some (m, r) :=
  if_neg (Nat.ne_of_lt hm)

theorem readExtra_seven {m : Nat} (hm : 7 ≤ m) (hle : m ≤ 262) (r : List Byte) :
    readExtra 7 (BitVec.ofNat 8 (m - 7) :: r) = some (m, r) := by
  have hval : (BitVec.ofNat 8 (m - 7)).toNat = m - 7 := by
    rw [BitVec.toNat_ofNat, Nat.mod_eq_of_lt (by omega)]
  simp only [readExtra, if_true, hval, Nat.add_sub_cancel' hm]

/-- The first byte of a code: `min(L, 31)` above `min(M, 7)`. -/
theorem firstByte_toNat (l m : Nat) :
    (BitVec.ofNat 8 ((if l < 31 then l * 8 else 0xF8) + (if 7 ≤ m then 7 else m))).toNat = min l 31 * 8 + min m 7 := by
  rw [BitVec.toNat_ofNat]
  split_ifs <;> omega

/-- Reading any byte sequence that begins with a code gives what was coded and leaves the rest. -/
theorem readLengths_emitLengths {l m : Nat} (hl : l ≤ 2 ^ 28 + 30) (hm : m ≤ 262) (rest : List Byte) :
    readLengths (emitLengths l m ++ rest) = some (l, m, rest) := by
  have hmod : (min l 31 * 8 + min m 7) % 8 = min m 7 := by omega
  have hdiv : (min l 31 * 8 + min m 7) / 8 = min l 31 := by omega
  have extra : ∀ r, readExtra (min m 7) ((if 7 ≤ m then [BitVec.ofNat 8 (m - 7)] else []) ++ r) = some (m, r) := by
    intro r
    by_cases h7 : 7 ≤ m
    · rw [if_pos h7, Nat.min_eq_right h7]
      exact readExtra_seven h7 hm r
    · rw [if_neg h7, Nat.min_eq_left (by omega)]
      exact readExtra_of_lt (by omega) r
  rw [emitLengths, List.cons_append, List.append_assoc, readLengths, firstByte_toNat, hmod, hdiv, extra]
  by_cases h31 : 31 ≤ l
  · simp only [h31, if_true, Nat.min_eq_right h31, readGroups_excessGroups (show l - 31 < 2 ^ 28 by omega) rest,
      Nat.add_sub_cancel' h31]
  · simp only [h31, if_false, Nat.min_eq_left (show l ≤ 31 by omega), show l ≠ 31 by omega, List.nil_append]

theorem emitLengths_length (l m : Nat) :
    1 ≤ (emitLengths l m).length ∧
      (emitLengths l m).length ≤ 1 + (if 7 ≤ m then 1 else 0) + (if 31 ≤ l then 4 else 0) := by
  have hgroups := excessGroups_length (l - 31)
  unfold emitLengths
  simp only [List.length_cons, List.length_append]
  split_ifs <;> simp <;> omega

/-! ### A code packed in a word (46_rolz_backend1.md R326, R336) -/

theorem packBytes_lt : ∀ l : List Byte, packBytes l < 256 ^ l.length
  | [] => Nat.one_pos
  | b :: r => by
    have hb := b.isLt
    have ih := packBytes_lt r
    rw [packBytes, List.length_cons, Nat.pow_succ]
    omega

/-- Byte `i` of the packed bytes. -/
theorem packBytes_byte : ∀ (l : List Byte) (i : Nat) (hi : i < l.length), BitVec.ofNat 8 (packBytes l / 256 ^ i) = l[i]
  | b :: r, 0, _ => by
    refine BitVec.eq_of_toNat_eq ?_
    have hb := b.isLt
    rw [BitVec.toNat_ofNat, packBytes, List.getElem_cons_zero]
    omega
  | b :: r, i + 1, hi => by
    have hb := b.isLt
    have hnext : packBytes (b :: r) / 256 = packBytes r := by
      rw [packBytes]
      omega
    rw [Nat.pow_succ', ← Nat.div_div_eq_div_mul, hnext, List.getElem_cons_succ]
    exact packBytes_byte r i _

theorem unpackBytes_eq (packed : Word) (k : Nat) :
    unpackBytes packed k = (List.range k).map fun i => BitVec.ofNat 8 (packed.toNat / 2 ^ (8 + 8 * i)) := by
  refine List.map_congr_left fun i _ => BitVec.eq_of_toNat_eq ?_
  rw [BitVec.extractLsb'_toNat, BitVec.toNat_ofNat, Nat.shiftRight_eq_div_pow]

theorem packed_count_toNat (packed : Word) : (packed.extractLsb' 0 8).toNat = packed.toNat % 256 := by
  rw [BitVec.extractLsb'_toNat, Nat.shiftRight_zero]

/-- At most seven bytes and their count fit a word. -/
theorem packed_toNat {out : List Byte} (h : out.length ≤ 7) :
    (BitVec.ofNat 64 (out.length + 256 * packBytes out)).toNat = out.length + 256 * packBytes out := by
  have hlt := packBytes_lt out
  have hpow : 256 ^ out.length ≤ 256 ^ 7 := Nat.pow_le_pow_right (by decide) h
  rw [BitVec.toNat_ofNat, Nat.mod_eq_of_lt (by omega)]

theorem unpackBytes_packed {out : List Byte} (h : out.length ≤ 7) :
    unpackBytes (BitVec.ofNat 64 (out.length + 256 * packBytes out)) out.length = out := by
  refine List.ext_getElem (by simp [unpackBytes]) fun i hi hi' => ?_
  have hshift : (out.length + 256 * packBytes out) / 2 ^ (8 + 8 * i) = packBytes out / 256 ^ i := by
    have hlow : (out.length + 256 * packBytes out) / 256 = packBytes out := by omega
    rw [Nat.pow_add, Nat.pow_mul, ← Nat.div_div_eq_div_mul]
    exact congrArg (· / 256 ^ i) hlow
  rw [← packBytes_byte out i hi']
  simp only [unpackBytes_eq, List.getElem_map, List.getElem_range, packed_toNat h, hshift]

/-! ### The commands -/

theorem rzEmitlenBody_illegal (h : 2 ^ 28 + 30 < l.toNat ∨ 262 < m.toNat) :
    rzEmitlenBody l m s = .error (.raise (errOf .invalidParameter 2 0 false)) s := by
  have hbad : (decide (2 ^ 28 + 30 < l.toNat) || decide (262 < m.toNat)) = true := by simpa using h
  rw [rzEmitlenBody, check_stop hbad]

theorem rzEmitlenBody_of (hl : l.toNat ≤ 2 ^ 28 + 30) (hm : m.toNat ≤ 262) :
    rzEmitlenBody l m s = .ok (BitVec.ofNat 64
      ((emitLengths l.toNat m.toNat).length + 256 * packBytes (emitLengths l.toNat m.toNat))) s := by
  rw [rzEmitlenBody, check_pass (Bool.or_eq_false_iff.mpr ⟨decide_lt_eq_false hl, decide_lt_eq_false hm⟩)]
  rfl

theorem rzReadlenBody_count (h : 7 < packed.toNat % 256) :
    rzReadlenBody packed s = .error (.raise (errOf .invalidParameter 2 0 false)) s := by
  unfold rzReadlenBody
  simp only [packed_count_toNat]
  rw [check_stop (decide_eq_true h)]

theorem rzReadlenBody_corrupt (hk : packed.toNat % 256 ≤ 7)
    (hread : readLengths (unpackBytes packed (packed.toNat % 256)) = none) :
    rzReadlenBody packed s = .error (.raise (errOf .invalidData 20 0 false)) s := by
  unfold rzReadlenBody
  simp only [packed_count_toNat, hread]
  rw [check_pass (decide_lt_eq_false hk)]
  rfl

theorem rzReadlenBody_of (hk : packed.toNat % 256 ≤ 7) {l m : Nat} {rest : List Byte}
    (hread : readLengths (unpackBytes packed (packed.toNat % 256)) = some (l, m, rest)) :
    rzReadlenBody packed s =
      .ok (BitVec.ofNat 64 (l * 2 ^ 32 + m * 2 ^ 16 + (packed.toNat % 256 - rest.length))) s := by
  unfold rzReadlenBody
  simp only [packed_count_toNat, hread]
  rw [check_pass (decide_lt_eq_false hk)]
  rfl

/-- Settles O46: the count, then whatever `ReadLengths` says of the bytes. -/
theorem rzReadlenReadsOneTuple : Obligations.RzReadlenReadsOneTuple := by
  intro s packed hs k bytes
  have hbytes : unpackBytes packed k = bytes := unpackBytes_eq packed k
  refine ⟨fun hk => ?_, fun hk hread => ?_, fun l m rest hk hread => ?_⟩
  · exact exec_fails (i := .rzReadlen packed) (sub := 2) nofun hs (rzReadlenBody_count hk)
  · exact exec_fails (i := .rzReadlen packed) (sub := 20) nofun hs (rzReadlenBody_corrupt hk (hbytes ▸ hread))
  · exact exec_completes (i := .rzReadlen packed) nofun hs (rzReadlenBody_of hk (hbytes ▸ hread))

/-- Settles O45: the reader inverts the code, also after it was packed in a word. -/
theorem lengthCodeRoundTrip : Obligations.LengthCodeRoundTrip := by
  intro s l m hs
  refine ⟨fun h => exec_fails (i := .rzEmitlen l m) (sub := 2) nofun hs (rzEmitlenBody_illegal h), fun hl hm => ?_⟩
  intro out packed
  obtain ⟨hpos, hlen⟩ := emitLengths_length l.toNat m.toNat
  have hsix : out.length ≤ 6 := by
    refine hlen.trans ?_
    split_ifs <;> omega
  have hread : ∀ rest, readLengths (out ++ rest) = some (l.toNat, m.toNat, rest) := readLengths_emitLengths hl hm
  have hcount : packed.toNat % 256 = out.length := by
    rw [packed_toNat (by omega)]
    omega
  have hwhole : readLengths (unpackBytes packed (packed.toNat % 256)) = some (l.toNat, m.toNat, []) := by
    rw [hcount, unpackBytes_packed (by omega), ← hread [], List.append_nil]
  have hbody := rzReadlenBody_of (s := s) (by omega) hwhole
  rw [hcount, List.length_nil, Nat.sub_zero] at hbody
  exact ⟨hpos, hsix, hread, exec_completes (i := .rzEmitlen l m) nofun hs (rzEmitlenBody_of hl hm),
    exec_completes (i := .rzReadlen packed) nofun hs hbody⟩

end Sys2Proof.Machine
end

section
/-!
Bytes of MEM that are stored in turn, and the pieces of `RZ_FWD` by what they emit to the DST window.
-/

namespace Sys2Proof.Machine

variable {α β : Type} {e : Env} {w : Windows} {z z1 z2 : Rolz} {o a c n : Nat} {l out out' : List Byte} {B : Nat → Byte}

/-! ### Bytes stored -/

theorem Memory.writeAll_append (l : List Byte) : ∀ (k : List Byte) (m : List Host.Cell) (a : Nat),
    Memory.writeAll m a (k ++ l) = Memory.writeAll (Memory.writeAll m a k) (a + k.length) l
  | [], _, _ => rfl
  | b :: k, m, a => by
    rw [List.cons_append, Memory.writeAll, Memory.writeAll_append l k, Memory.writeAll, List.length_cons,
      Nat.add_assoc a, Nat.add_comm 1]

/-- The host's side after bytes are stored from an address on. -/
def Env.stored (e : Env) (a : Nat) (l : List Byte) : Env := { e with mem := Memory.writeAll e.mem a l }

theorem Env.stored_append (e : Env) (a : Nat) (k l : List Byte) :
    e.stored a (k ++ l) = (e.stored a k).stored (a + k.length) l := by
  unfold Env.stored
  rw [Memory.writeAll_append]

theorem Env.read_stored (e : Env) (a : Nat) (l : List Byte) (c : Nat) :
    Memory.read (e.stored a l).mem c = if a ≤ c ∧ c < a + l.length then l.getD (c - a) 0 else Memory.read e.mem c :=
  Memory.read_writeAll l e.mem a c

theorem Env.read_stored_out (h : ¬(a ≤ c ∧ c < a + l.length)) :
    Memory.read (e.stored a l).mem c = Memory.read e.mem c := by
  rw [Env.read_stored, if_neg h]

/-- A byte stored. -/
theorem memWrite_stored {U : Type} {u : U} {b : Byte} (he : e.quiet) (ha : a < 2 ^ 32) :
    memWrite a b (u, e) = .ok () (u, e.stored a [b]) := memWrite_of he.1 ha

/-! ### Bytes that are there -/

/-- MEM neither fails nor races, and holds the bytes of `B` from an address on. -/
structure Env.Holds (e : Env) (base n : Nat) (B : Nat → Byte) : Prop where
  quiet : e.quiet
  read : ∀ i < n, Memory.read e.mem (base + i) = B i

theorem Env.Holds.self (he : e.quiet) (base n : Nat) : e.Holds base n fun i => Memory.read e.mem (base + i) :=
  ⟨he, fun _ _ => rfl⟩

/-- What is stored elsewhere leaves them. -/
theorem Env.Holds.stored {base : Nat} (h : e.Holds base n B)
    (hapart : ∀ c, base ≤ c → c < base + n → ¬(a ≤ c ∧ c < a + l.length)) : (e.stored a l).Holds base n B :=
  ⟨h.quiet, fun i hi => by rw [Env.read_stored_out (hapart _ (by omega) (by omega)), h.read i hi]⟩

theorem memBytes_eq_map {m : List Host.Cell} {base : Nat} (h : ∀ i < n, Memory.read m (base + i) = B i) :
    memBytes m base n = (List.range n).map B :=
  List.map_congr_left fun i hi => h i (List.mem_range.mp hi)

theorem Env.Holds.memBytes {base : Nat} (h : e.Holds base n B) :
    Machine.memBytes e.mem base n = (List.range n).map B := memBytes_eq_map h.read

/-! ### The two windows of a block command -/

/-- Both windows lie in the address space and do not overlap: the checks of the block commands. -/
structure Windows.Apart (w : Windows) : Prop extends w.Fit where
  apart : ¬Machine.overlap w.srcBase w.srcLen w.dstBase w.dstCap

/-- An address of the SRC window is none of the DST window. -/
theorem Windows.Apart.not_dst (hw : w.Apart) {c : Nat} (hlow : w.srcBase.toNat ≤ c)
    (hhigh : c < w.srcBase.toNat + w.srcLen.toNat) (hc : w.dstBase.toNat ≤ c) : w.dstBase.toNat + w.dstCap.toNat ≤ c := by
  by_contra hlt
  exact not_inWindow_of_not_overlap hw.apart (a := c) ⟨hc, Nat.lt_of_not_le hlt⟩ ⟨hlow, hhigh⟩

/-- The bytes of the SRC window stay when bytes are stored to the DST window. -/
theorem Env.Holds.stored_dst (hw : w.Apart) (h : e.Holds w.srcBase.toNat w.srcLen.toNat B)
    (hin : o + l.length ≤ w.dstCap.toNat) :
    (e.stored (w.dstBase.toNat + o) l).Holds w.srcBase.toNat w.srcLen.toNat B :=
  h.stored fun c hlow hhigh hc => by
    have := hw.not_dst hlow hhigh (by omega)
    omega

/-! ### What a piece emits -/

/-- Bytes fit the DST window at an offset; no bytes always do. -/
abbrev Windows.Room (w : Windows) (o : Nat) (out : List Byte) : Prop := out = [] ∨ o + out.length ≤ w.dstCap.toNat

theorem Windows.room_append : w.Room o (out ++ out') ↔ w.Room o out ∧ w.Room (o + out.length) out' := by
  unfold Windows.Room
  cases out with
  | nil => simp
  | cons b r =>
    cases out' with
    | nil => simp
    | cons b' r' =>
      simp only [List.append_eq_nil_iff, reduceCtorEq, false_and, List.length_append, List.length_cons, false_or]
      omega

/-- The host's side after bytes are emitted at an offset of the DST window, when they fit it. -/
def Env.put (e : Env) (w : Windows) (o : Nat) (out : List Byte) : Env :=
  if w.Room o out then e.stored (w.dstBase.toNat + o) out else e

theorem Env.put_of_room (h : w.Room o out) : e.put w o out = e.stored (w.dstBase.toNat + o) out := if_pos h

theorem Env.put_append (h : w.Room o (out ++ out')) :
    (e.put w o out).put w (o + out.length) out' = e.put w o (out ++ out') := by
  obtain ⟨h1, h2⟩ := Windows.room_append.mp h
  rw [Env.put_of_room h, Env.put_of_room h1, Env.put_of_room h2, Env.stored_append, Nat.add_assoc]

theorem Env.put_quiet (he : e.quiet) : (e.put w o out).quiet := by
  unfold Env.put
  split_ifs
  · exact he
  · exact he

/-- Emitting leaves the SRC window. -/
theorem Env.Holds.put (hw : w.Apart) (h : e.Holds w.srcBase.toNat w.srcLen.toNat B) (o : Nat) (out : List Byte) :
    (e.put w o out).Holds w.srcBase.toNat w.srcLen.toNat B := by
  unfold Env.put
  split_ifs with hroom
  · rcases hroom with rfl | hin
    · exact h
    · exact h.stored_dst hw hin
  · exact h

/-- From the unit and host side `t`, the piece emits exactly the bytes `out` at offset `o`, answers `a` and leaves the
unit `z'`; when they do not fit the DST window, it answers nothing. -/
def Cmd.Emits (w : Windows) (x : Cmd (Rolz × Env) α) (t : Rolz × Env) (o : Nat) (out : List Byte) (a : α)
    (z' : Rolz) : Prop :=
  (w.Room o out → x t = .ok a (z', t.2.put w o out)) ∧ (¬w.Room o out → ∀ b u, x t ≠ .ok b u)

variable {x : Cmd (Rolz × Env) α} {f : α → Cmd (Rolz × Env) β} {v : α} {b : β}

theorem Cmd.Emits.bind (hx : x.Emits w (z, e) o out v z1)
    (hf : (f v).Emits w (z1, e.put w o out) (o + out.length) out' b z2) :
    (x >>= f).Emits w (z, e) o (out ++ out') b z2 := by
  obtain ⟨hx1, hx2⟩ := hx
  obtain ⟨hf1, hf2⟩ := hf
  refine ⟨fun h => ?_, fun h c u hrun => ?_⟩
  · obtain ⟨h1, h2⟩ := Windows.room_append.mp h
    rw [Cmd.bind_of_ok _ (hx1 h1), hf1 h2, ← Env.put_append h]
  · obtain ⟨v', t, hv, hc⟩ := Cmd.bind_eq_ok.mp hrun
    by_cases h1 : w.Room o out
    · rw [hx1 h1] at hv
      cases hv
      exact hf2 (fun h2 => h (Windows.room_append.mpr ⟨h1, h2⟩)) _ _ hc
    · exact hx2 h1 _ _ hv

/-- A piece that only reads, or changes the unit only, in front. -/
theorem Cmd.Emits.read_bind (hx : x (z, e) = .ok v (z1, e)) (hf : (f v).Emits w (z1, e) o out b z2) :
    (x >>= f).Emits w (z, e) o out b z2 := by
  unfold Cmd.Emits
  rw [Cmd.bind_of_ok f hx]
  exact hf

/-- A piece that emits nothing. -/
theorem Cmd.Emits.of_ok (hx : x (z, e) = .ok v (z1, e)) : x.Emits w (z, e) o [] v z1 :=
  ⟨fun _ => hx, fun h => absurd (.inl rfl) h⟩

theorem Cmd.Emits.bind_pure (hx : x.Emits w (z, e) o out v z1) (g : α → β) :
    (x >>= fun a => Pure.pure (g a) : Cmd (Rolz × Env) β).Emits w (z, e) o out (g v) z1 := by
  have h := hx.bind (f := fun a => Pure.pure (g a)) (Cmd.Emits.of_ok rfl)
  rwa [List.append_nil] at h

theorem emitByte_emits (hw : w.Fit) (he : e.quiet) (o : Nat) (b : Byte) :
    (emitByte w o b).Emits w (z, e) o [b] (o + 1) z := by
  have hfit : w.dstBase.toNat + w.dstCap.toNat ≤ 2 ^ 32 := hw.dst
  refine ⟨fun h => ?_, fun h c u hrun => ?_⟩
  · have hin : o + 1 ≤ w.dstCap.toNat := h.resolve_left (List.cons_ne_nil _ _)
    rw [emitByte, checkMid_bind, if_neg (by simpa using hin), Cmd.bind_of_ok _ (memWrite_stored he (by omega)),
      Env.put_of_room h]
    rfl
  · have hout : w.dstCap.toNat < o + 1 := Nat.lt_of_not_le fun hin => h (.inr hin)
    rw [emitByte, checkMid_bind, if_pos (decide_eq_true hout)] at hrun
    cases hrun

theorem emitBytes_emits (hw : w.Fit) : ∀ (l : List Byte) {e : Env} (_ : e.quiet) (o : Nat),
    (emitBytes w o l).Emits w (z, e) o l (o + l.length) z
  | [], _, _, _ => Cmd.Emits.of_ok rfl
  | b :: r, e, he, o => by
    have hrest := emitBytes_emits hw r (Env.put_quiet (w := w) (o := o) (out := [b]) he) (o + 1)
    rw [List.length_cons, Nat.add_comm r.length, ← Nat.add_assoc]
    exact (emitByte_emits hw he o b).bind (f := fun o1 => emitBytes w o1 r) hrest

end Sys2Proof.Machine
end

section
/-!
The rings of encoder and decoder by what both show: counters and the positions of the records. From the bytes of a chunk alone
they say which matches a decoder can follow.
-/

namespace Sys2Proof.Machine

variable {R : Rings} {D : Nat → Byte} {z : Rolz} {n p q k : Nat} {r : BitVec 32}

/-! ### Records and their positions (45_rolz_matchfinder.md R295) -/

/-- A record of a position of a chunk, whatever its hash, holds that position. -/
theorem recordPos_or (x : BitVec 32) (hp : p < 2 ^ 26) : recordPos (x &&& Config.hashMask ||| BitVec.ofNat 32 p) = p := by
  have hclear : (x &&& Config.hashMask ||| BitVec.ofNat 32 p) &&& ~~~Config.hashMask =
      BitVec.ofNat 32 p &&& ~~~Config.hashMask := by
    refine BitVec.eq_of_getLsbD_eq fun i hi => ?_
    simp only [BitVec.getLsbD_and, BitVec.getLsbD_or, BitVec.getLsbD_not, hi, decide_true, Bool.true_and]
    cases Config.hashMask.getLsbD i <;> simp
  have hmask : (~~~Config.hashMask : BitVec 32).toNat = 2 ^ 26 - 1 := rfl
  rw [recordPos, hclear, BitVec.toNat_and, hmask, Nat.and_two_pow_sub_one_eq_mod, BitVec.toNat_ofNat]
  omega

theorem recordPos_ofNat (hp : p < 2 ^ 26) : recordPos (BitVec.ofNat 32 p) = p := by
  have h := recordPos_or 0#32 hp
  rwa [BitVec.zero_and, BitVec.zero_or] at h

/-! ### What rings show -/

/-- Counters and rings without the hashes, which only an encoder's records have: `record` is the position of a record, 0 for an
empty slot. -/
structure Rings where
  lpc : BitVec 4
  counter : Nat → BitVec 32
  record : Nat → Nat

/-- `rz.posChecks` (10_state.md R59). -/
def Rings.posChecks (R : Rings) : Nat := if R.lpc = 0 then 0 else 2 ^ R.lpc.toNat

/-- The slot of key `k` that a counter value selects (45_rolz_matchfinder.md R290). -/
def Rings.slotOf (R : Rings) (k : Nat) (c : BitVec 32) : Nat := k * R.posChecks + c.toNat % R.posChecks

/-- Position `p` inserted in the ring of key `k` (45_rolz_matchfinder.md R296). -/
def Rings.insert (R : Rings) (k p : Nat) : Rings :=
  { R with
    counter := fun x => if x = k then R.counter k + 1 else R.counter x
    record := fun i => if i = R.slotOf k (R.counter k + 1) then p else R.record i }

theorem Rings.insert_counter (R : Rings) (k p x : Nat) :
    (R.insert k p).counter x = if x = k then R.counter k + 1 else R.counter x := rfl

theorem Rings.insert_record (R : Rings) (k p i : Nat) :
    (R.insert k p).record i = if i = R.slotOf k (R.counter k + 1) then p else R.record i := rfl

/-- The rings as a chunk begins: no record, the counters as they are (46_rolz_backend1.md R322). -/
def Rings.cleared (R : Rings) : Rings := { R with record := fun _ => 0 }

/-- The rings as a block begins. -/
def Rings.fresh (lpc : BitVec 4) : Rings := { lpc := lpc, counter := fun _ => 0, record := fun _ => 0 }

/-- The unit's rings are these, but for the hashes. -/
structure Rolz.Shows (z : Rolz) (R : Rings) : Prop where
  lpc : z.lpc = R.lpc
  counter : ∀ k, z.counter k = R.counter k
  record : ∀ i, recordPos (z.slot i) = R.record i
  empty : ∀ i, z.slot i = 0 ↔ R.record i = 0

theorem Rolz.Shows.posChecks (h : z.Shows R) : z.posChecks = R.posChecks := by
  rw [Rolz.posChecks, Rings.posChecks, h.lpc]

theorem Rolz.Shows.ringIndex (h : z.Shows R) (k : Nat) (c : BitVec 32) : z.ringIndex k c = R.slotOf k c := by
  rw [Rolz.ringIndex, Rings.slotOf, h.posChecks]

/-- An insertion, whatever hash the record has. -/
theorem Rolz.Shows.insert (h : z.Shows R) (k : Nat) (hr : recordPos r = p) (hp : p ≠ 0) :
    (z.insert k r).Shows (R.insert k p) := by
  have hne : r ≠ 0 := by
    rintro rfl
    exact hp hr.symm
  have hindex : z.ringIndex k (z.counter k + 1) = R.slotOf k (R.counter k + 1) := by rw [h.ringIndex, h.counter]
  refine ⟨h.lpc, fun x => ?_, fun i => ?_, fun i => ?_⟩
  · rw [Rolz.insert_counter, Rings.insert_counter, h.counter, h.counter]
  · rw [Rolz.insert_slot, hindex, Rings.insert_record]
    split_ifs
    · exact hr
    · exact h.record i
  · rw [Rolz.insert_slot, hindex, Rings.insert_record]
    split_ifs
    · exact iff_of_false hne hp
    · exact h.empty i

theorem Rolz.slot_of_nil (h : z.matchRing = []) (i : Nat) : z.slot i = 0 := by
  rw [Rolz.slot, h]
  rfl

theorem recordPos_zero : recordPos 0 = 0 := rfl

/-- The unit's counters are these. -/
structure Rolz.Counts (z : Rolz) (R : Rings) : Prop where
  lpc : z.lpc = R.lpc
  counter : ∀ k, z.counter k = R.counter k

theorem Rolz.Shows.counts (h : z.Shows R) : z.Counts R := ⟨h.lpc, h.counter⟩

theorem Rolz.counts_fresh (h : z.counters = []) : z.Counts (Rings.fresh z.lpc) := by
  refine ⟨rfl, fun k => ?_⟩
  rw [Rolz.counter, h]
  rfl

/-- A chunk opened: the counters stay, the rings are empty (46_rolz_backend1.md R322, R332). -/
theorem Rolz.Counts.cleared (h : z.Counts R) (hring : z.matchRing = []) : z.Shows R.cleared := by
  refine ⟨h.lpc, h.counter, fun i => ?_, fun i => iff_of_true (Rolz.slot_of_nil hring i) rfl⟩
  rw [Rolz.slot_of_nil hring, recordPos_zero]
  rfl

/-! ### A chunk by its bytes -/

/-- The key of a position (45_rolz_matchfinder.md R293). -/
def keyOf (D : Nat → Byte) (p : Nat) : Nat := (D (p - 2)).toNat + 256 * (D (p - 1)).toNat

/-- Position `p` inserted, when it has a key. -/
def Rings.visit (R : Rings) (D : Nat → Byte) (p : Nat) : Rings := if p < 2 then R else R.insert (keyOf D p) p

/-- The rings after the positions before `p`, in turn: whatever is parsed, every position is inserted once. -/
def Rings.upTo (R : Rings) (D : Nat → Byte) : Nat → Rings
  | 0 => R
  | p + 1 => (R.upTo D p).visit D p

theorem Rings.upTo_lpc (R : Rings) (D : Nat → Byte) : ∀ p, (R.upTo D p).lpc = R.lpc
  | 0 => rfl
  | p + 1 => by
    have ih := Rings.upTo_lpc R D p
    rw [Rings.upTo, Rings.visit]
    split_ifs
    · exact ih
    · exact ih

/-- The position of the record at ring distance `j` in the ring of the key of `p`, 0 when the slot is empty. -/
def Rings.candidate (R : Rings) (D : Nat → Byte) (p j : Nat) : Nat :=
  R.record (R.slotOf (keyOf D p) (R.counter (keyOf D p) - BitVec.ofNat 32 j))

/-- A match at `p` of a chunk of `n` bytes that a decoder whose rings are these can follow. -/
structure Rings.IsMatch (R : Rings) (D : Nat → Byte) (n p : Nat) (m : Match) : Prop where
  key : 2 ≤ p
  minimum : 3 ≤ m.len
  maximum : m.len ≤ 258
  inside : p + m.len ≤ n
  idx_lt : m.idx < R.posChecks
  present : R.candidate D p m.idx ≠ 0
  before : R.candidate D p m.idx < p
  same : ∀ i < m.len, D (R.candidate D p m.idx + i) = D (p + i)

/-- Decisions of the greedy parse, from position `p` to the end of a chunk of `n` bytes: a literal or a match
(46_rolz_backend1.md R322). -/
def Rings.Parse (R : Rings) (D : Nat → Byte) (n : Nat) : Nat → List (Option Match) → Prop
  | p, [] => p = n
  | p, none :: ts => p < n ∧ R.Parse D n (p + 1) ts
  | p, some m :: ts => (R.upTo D p).IsMatch D n p m ∧ R.Parse D n (p + m.len) ts

theorem Rings.Parse.le : ∀ {ts : List (Option Match)} {p : Nat}, R.Parse D n p ts → p ≤ n
  | [], _, h => Nat.le_of_eq h
  | none :: _, _, h => Nat.le_of_lt h.1
  | some m :: _, p, h => by
    have := h.1.inside
    omega

/-! ### The encoder's parse -/

/-- A comparison that goes on for a common run has the same bytes. -/
theorem Rolz.commonRun_same {e : Env} {a b maxm i : Nat} (hi : i < z.commonRun e a b maxm) :
    z.buf e (a + i) = z.buf e (b + i) := by
  rw [Rolz.commonRun] at hi
  have hget := (List.takeWhile_prefix (l := List.range maxm) fun n => z.buf e (a + n) == z.buf e (b + n)).getElem hi
  have hmem := List.mem_takeWhile_imp (List.getElem_mem hi)
  rw [hget, List.getElem_range] at hmem
  exact beq_iff_eq.mp hmem

variable {w : Windows} {B : Nat → Byte} {start : Nat} {e : Env}

/-- The unit as the encoder comes to position `p` of the chunk of `n` bytes at `start` of the SRC window with the bytes `B`:
the rings it began the chunk with were `R`. -/
structure Rolz.Parsing (z : Rolz) (w : Windows) (B : Nat → Byte) (start n : Nat) (R : Rings) (p : Nat) : Prop where
  chunk : z.ChunkOk n p
  base : z.cbase.toNat = w.srcBase.toNat + start
  inside : start + n + 4 ≤ w.srcLen.toNat
  small : n ≤ 2 ^ 26
  shows : z.Shows (R.upTo (fun i => B (start + i)) p)

theorem Rolz.Parsing.buf (h : z.Parsing w B start n R p) (he : e.Holds w.srcBase.toNat w.srcLen.toNat B) {i : Nat}
    (hi : i < n + 4) : z.buf e i = B (start + i) := by
  have hin := h.inside
  rw [Rolz.buf, h.base, Nat.add_assoc]
  exact he.read _ (by omega)

theorem Rolz.Parsing.key (h : z.Parsing w B start n R p) (he : e.Holds w.srcBase.toNat w.srcLen.toNat B) (hp : p < n) :
    z.key e p = keyOf (fun i => B (start + i)) p := by
  rw [Rolz.key, h.buf he (by omega), h.buf he (by omega)]
  rfl

/-- The unit after a position with a key was inserted. -/
theorem Rolz.Parsing.inserted (h : z.Parsing w B start n R p) (he : e.Holds w.srcBase.toNat w.srcLen.toNat B)
    (hp : 2 ≤ p) (hn : p < n) :
    (z.insert (z.key e p) (z.hash e p ||| BitVec.ofNat 32 p)).Parsing w B start n R (p + 1) := by
  have hsmall := h.small
  have hpos : recordPos (z.hash e p ||| BitVec.ofNat 32 p) = p := recordPos_or _ (by omega)
  refine ⟨(h.chunk.mono (Nat.le_succ p)).insert _ (by omega), h.base, h.inside, h.small, ?_⟩
  rw [Rings.upTo, Rings.visit, if_neg (by omega), h.key he hn]
  exact h.shows.insert _ hpos (by omega)

/-- The first two positions have no key. -/
theorem Rolz.Parsing.skipped (h : z.Parsing w B start n R p) (hp : p < 2) : z.Parsing w B start n R (p + 1) := by
  refine ⟨h.chunk.mono (Nat.le_succ p), h.base, h.inside, h.small, ?_⟩
  rw [Rings.upTo, Rings.visit, if_pos hp]
  exact h.shows

theorem insertAt_parsing (h : z.Parsing w B start n R p) (he : e.Holds w.srcBase.toNat w.srcLen.toNat B) (hp : 2 ≤ p)
    (hn : p < n) : ∃ z', insertAt p (z, e) = .ok () (z', e) ∧ z'.Parsing w B start n R (p + 1) := by
  have haddr := h.chunk.address
  exact ⟨_, insertAt_of he.quiet (by omega), h.inserted he hp hn⟩

theorem forPositions_insertAt_parsing : ∀ {k p : Nat} {z : Rolz}, z.Parsing w B start n R p →
    e.Holds w.srcBase.toNat w.srcLen.toNat B → 2 ≤ p → p + k ≤ n →
    ∃ z', forPositions insertAt p k (z, e) = .ok () (z', e) ∧ z'.Parsing w B start n R (p + k)
  | 0, _, z, h, _, _, _ => ⟨z, rfl, h⟩
  | k + 1, p, z, h, he, hp, hn => by
    obtain ⟨z1, h1, hz1⟩ := insertAt_parsing h he hp (by omega)
    obtain ⟨z2, h2, hz2⟩ := forPositions_insertAt_parsing (k := k) hz1 he (by omega) (by omega)
    rw [Nat.add_assoc, Nat.add_comm 1] at hz2
    exact ⟨z2, by rw [forPositions, Cmd.bind_of_ok _ h1, h2], hz2⟩

/-- A record reached by a search, as the rings show it. -/
theorem Rolz.Parsing.recordAt (h : z.Parsing w B start n R p) (he : e.Holds w.srcBase.toNat w.srcLen.toNat B)
    (hn : p < n) (j : Nat) :
    z.recordAt e p j = z.slot ((R.upTo (fun i => B (start + i)) p).slotOf (keyOf (fun i => B (start + i)) p)
      ((R.upTo (fun i => B (start + i)) p).counter (keyOf (fun i => B (start + i)) p) - BitVec.ofNat 32 j)) := by
  rw [← h.shows.ringIndex, ← h.shows.counter, ← h.key he hn]
  rfl

/-- The best candidate of a search is a match the decoder can follow. -/
theorem Rolz.Parsing.isMatch (h : z.Parsing w B start n R p) (he : e.Holds w.srcBase.toNat w.srcLen.toNat B)
    (hp : 2 ≤ p) (hn : p < n) {best : Best} {m : Nat} (hbest : z.BestBelow e p m best)
    (hreach : ∀ i, z.reaches e p i ↔ i < m) {j : Nat} (hj : best.idx = some j) :
    (R.upTo (fun i => B (start + i)) p).IsMatch (fun i => B (start + i)) n p { idx := j, len := best.len } := by
  obtain ⟨hjm, hmin, hmax, hmatch, -⟩ := hbest.some_len j hj
  obtain ⟨hchecks, hpresent⟩ := (hreach j).mpr hjm
  have hne := hpresent j le_rfl
  have hsize := h.chunk.size
  have hmatch := hmatch (h.chunk.rings.inside h.chunk.fits (by omega) hne)
  have hhash : z.recordAt e p j &&& Config.hashMask = z.hash e p := by
    by_contra hh
    rw [Rolz.matchAt_otherHash hh] at hmatch
    omega
  rw [Rolz.matchAt_sameHash hhash] at hmatch
  have hend := Rolz.add_maxLen_le (z := z) (p := p) (by omega)
  have hbefore : recordPos (z.recordAt e p j) < p := h.chunk.rings.slot hne
  have hcand : (R.upTo (fun i => B (start + i)) p).candidate (fun i => B (start + i)) p j =
      recordPos (z.recordAt e p j) := by
    rw [h.recordAt he hn, h.shows.record]
    rfl
  refine ⟨hp, hmin, hmax.trans (z.maxLen_le p), by simp only; omega, h.shows.posChecks ▸ hchecks, ?_, hcand ▸ hbefore,
    fun i hi => ?_⟩
  · rw [h.recordAt he hn] at hne
    exact fun h0 => hne ((h.shows.empty _).mpr h0)
  · have hsame : z.buf e (recordPos (z.recordAt e p j) + i) = z.buf e (p + i) :=
      Rolz.commonRun_same (hmatch.symm ▸ hi : i < _)
    have hi : i < best.len := hi
    rw [h.buf he (by omega), h.buf he (by omega)] at hsame
    rw [hcand]
    exact hsame

/-- One decision of the parse: it reads only, inserts the position, and a match it finds is one the decoder can follow. -/
theorem nextMatch_parsing (h : z.Parsing w B start n R p) (he : e.Holds w.srcBase.toNat w.srcLen.toNat B) (hn : p < n) :
    ∃ x z', nextMatch p (z, e) = .ok x (z', e) ∧ z'.Parsing w B start n R (p + 1) ∧
      ∀ m, x = some m → (R.upTo (fun i => B (start + i)) p).IsMatch (fun i => B (start + i)) n p m := by
  by_cases hp : p < 2
  · exact ⟨none, z, by rw [nextMatch, if_pos hp]; rfl, h.skipped hp, nofun⟩
  · have hsize := h.chunk.size
    obtain ⟨best, d, m, hrun, hbest, hreach, hd⟩ := findMatch_best he.quiet h.chunk.fits (p := p) (by omega)
    have hd : d = e.drawn := hd fun i hi => h.chunk.rings.inside h.chunk.fits (by omega) (hi.2 i le_rfl)
    subst hd
    refine ⟨_, _, by rw [nextMatch, if_neg hp]; exact hrun, h.inserted he (by omega) hn, fun x hx => ?_⟩
    obtain ⟨j, hj, rfl⟩ := Option.map_eq_some_iff.mp hx
    exact h.isMatch he (by omega) hn hbest hreach hj

end Sys2Proof.Machine
end

section
/-!
Back end 1, encoding: the streams of a chunk by the decisions of its parse, and the bytes a block emits.
-/

namespace Sys2Proof.Machine

variable {w : Windows} {B D : Nat → Byte} {start n p first o lr : Nat} {R : Rings} {z : Rolz} {e : Env}

/-! ### The parse of a chunk -/

/-- `k` bytes of a chunk from position `p` on. -/
def dataFrom (D : Nat → Byte) (p k : Nat) : List Byte := (List.range k).map fun i => D (p + i)

@[simp] theorem dataFrom_length (D : Nat → Byte) (p k : Nat) : (dataFrom D p k).length = k := by simp [dataFrom]

/-- The streams of the decisions from position `p` on, with a literal run pending from `first` on (46_rolz_backend1.md
R322). -/
def streamsOf (D : Nat → Byte) (n : Nat) : Nat → Nat → List (Option Match) → Streams
  | _, first, [] => { lit := dataFrom D first (n - first), len := emitLengths (n - first) 0, idx := [] }
  | p, first, none :: ts => streamsOf D n (p + 1) first ts
  | p, first, some m :: ts =>
    let r := streamsOf D n (p + m.len) (p + m.len) ts
    { lit := dataFrom D first (p - first) ++ r.lit
      len := emitLengths (p - first) (m.len - Config.minMatch) ++ r.len
      idx := BitVec.ofNat 8 m.idx :: r.idx }

/-- The unit as a chunk begins (46_rolz_backend1.md R322). -/
theorem openChunk_parsing (hw : w.Fit) (hz : z.Counts R) (hin : start + n + 4 ≤ w.srcLen.toNat) (hn : n ≤ 2 ^ 26)
    (B : Nat → Byte) (e : Env) :
    ∃ z', openChunk w.srcBase w.srcLen start n (z, e) = .ok () (z', e) ∧ z'.Parsing w B start n R.cleared 0 := by
  have hlen := w.srcLen.isLt
  have hfit : w.srcBase.toNat + w.srcLen.toNat ≤ 2 ^ 32 := hw.src
  have hcounts : Rolz.Counts { z with
      matchRing := [], cbase := BitVec.ofNat 32 (w.srcBase.toNat + start), csize := BitVec.ofNat 32 n
      clen := BitVec.ofNat 32 (w.srcLen.toNat - start) } R := ⟨hz.lpc, hz.counter⟩
  refine ⟨_, rfl, (openChunk_safe (t := (z, e)) hw.src hin).of_ok rfl, ?_, hin, hn, hcounts.cleared rfl⟩
  rw [BitVec.toNat_ofNat, Nat.mod_eq_of_lt (by omega)]

theorem bufBytes_parsing (hz : z.Parsing w B start n R p) (he : e.Holds w.srcBase.toNat w.srcLen.toNat B) {k : Nat}
    (hk : first + k ≤ n) : bufBytes first k (z, e) = .ok (dataFrom (fun i => B (start + i)) first k) (z, e) := by
  have haddr := hz.chunk.address
  have hbytes : memBytes e.mem (z.cbase.toNat + first) k = dataFrom (fun i => B (start + i)) first k :=
    memBytes_eq_map fun i hi => by
      have hbuf := hz.buf he (i := first + i) (by omega)
      rwa [Rolz.buf, ← Nat.add_assoc] at hbuf
  rw [bufBytes, Cmd.get_bind, ← hbytes]
  exact memReadBytes_of he.quiet (by omega)

theorem parseEnd_parsing (hz : z.Parsing w B start n R p) (he : e.Holds w.srcBase.toNat w.srcLen.toNat B)
    (hfirst : first ≤ n) :
    parseEnd n first (z, e) = .ok (streamsOf (fun i => B (start + i)) n n first []) (z, e) := by
  rw [parseEnd, Cmd.bind_of_ok _ (bufBytes_parsing hz he (by omega))]
  rfl

/-- The parse of a chunk reads only; it answers the streams of decisions that a decoder can follow. -/
theorem parseChunk_parsing (he : e.Holds w.srcBase.toNat w.srcLen.toNat B) : ∀ {k p first : Nat} {z : Rolz},
    z.Parsing w B start n R p → n ≤ p + k → p ≤ n → first ≤ p →
    ∃ ts z', parseChunk n k p first (z, e) = .ok (streamsOf (fun i => B (start + i)) n p first ts) (z', e) ∧
      R.Parse (fun i => B (start + i)) n p ts ∧ z'.Parsing w B start n R n
  | 0, p, first, z, hz, hk, hp, hfirst => by
    obtain rfl : p = n := by omega
    exact ⟨[], z, parseEnd_parsing hz he hfirst, rfl, hz⟩
  | k + 1, p, first, z, hz, hk, hp, hfirst => by
    by_cases hend : n ≤ p
    · obtain rfl : p = n := by omega
      exact ⟨[], z, by rw [parseChunk, if_pos hend, parseEnd_parsing hz he hfirst], rfl, hz⟩
    · obtain ⟨x, z1, hnext, hz1, hmatch⟩ := nextMatch_parsing hz he (by omega)
      rw [parseChunk, if_neg hend, Cmd.bind_of_ok _ hnext]
      cases x with
      | none =>
        obtain ⟨ts, z2, hrun, hts, hz2⟩ := parseChunk_parsing he (k := k) hz1 (by omega) (by omega)
          (Nat.le_succ_of_le hfirst)
        exact ⟨none :: ts, z2, hrun, ⟨by omega, hts⟩, hz2⟩
      | some m =>
        have hm := hmatch m rfl
        have hmin := hm.minimum
        have hin := hm.inside
        obtain ⟨z2, hins, hz2⟩ := forPositions_insertAt_parsing (k := m.len - 1) hz1 he
          (by have := hm.key; omega) (by omega)
        rw [show p + 1 + (m.len - 1) = p + m.len by omega] at hz2
        obtain ⟨ts, z3, hrun, hts, hz3⟩ := parseChunk_parsing he (k := k) (first := p + m.len) hz2 (by omega) hin
          (Nat.le_refl _)
        refine ⟨some m :: ts, z3, ?_, ⟨hm, hts⟩, hz3⟩
        dsimp only
        rw [Cmd.bind_of_ok _ (bufBytes_parsing hz1 he (by omega)), Cmd.bind_of_ok _ hins, Cmd.bind_of_ok _ hrun]
        rfl

/-! ### The chunks of a block -/

/-- A chunk of a block with the decisions of its parse. -/
structure Chunk where
  start : Nat
  size : Nat
  decisions : List (Option Match)

/-- The bytes of a chunk. -/
abbrev Chunk.data (c : Chunk) (B : Nat → Byte) : Nat → Byte := fun i => B (c.start + i)

/-- Decisions for the chunks of a block in order, from rings whose counters go on from chunk to chunk
(46_rolz_backend1.md R322). -/
def Rings.Parses (B : Nat → Byte) : Rings → List Chunk → Prop
  | _, [] => True
  | R, c :: cs => R.cleared.Parse (c.data B) c.size 0 c.decisions ∧ Rings.Parses B (R.cleared.upTo (c.data B) c.size) cs

/-- The chunks lie, with four bytes after each, in a window of `len` bytes. -/
def ChunksIn (len : Nat) (l : List (Nat × Nat)) : Prop := ∀ c ∈ l, c.1 + c.2 + 4 ≤ len ∧ c.2 ≤ 2 ^ 26

theorem chunksIn_chunksOf (n : Nat) : ChunksIn n (chunksOf (n - tailOf n)) := fun _ hc =>
  ⟨chunksOf_before_tail hc, (chunksOf_mem hc).2.2⟩

/-- The chunks as a block command has them. -/
def boundsOf (cs : List Chunk) : List (Nat × Nat) := cs.map fun c => (c.start, c.size)

/-- The streams of a chunk. -/
def Chunk.streams (c : Chunk) (B : Nat → Byte) : Streams := streamsOf (c.data B) c.size 0 0 c.decisions

/-- The payload of a block with back end 1 (46_rolz_backend1.md R327). -/
def payload1 (lr : Nat) (B : Nat → Byte) (cs : List Chunk) : List Byte :=
  cs.flatMap fun c => pack (fieldBits (chunkFields lr (c.streams B)))

theorem encodeChunk1_emits (hw : w.Fit) (hz : z.Counts R) (he : e.Holds w.srcBase.toNat w.srcLen.toNat B)
    (hin : start + n + 4 ≤ w.srcLen.toNat) (hn : n ≤ 2 ^ 26) (lr o : Nat) :
    ∃ ts z', R.cleared.Parse (fun i => B (start + i)) n 0 ts ∧ z'.Parsing w B start n R.cleared n ∧
      (encodeChunk1 w lr start n o).Emits w (z, e) o
        (pack (fieldBits (chunkFields lr (streamsOf (fun i => B (start + i)) n 0 0 ts))))
        (o + (pack (fieldBits (chunkFields lr (streamsOf (fun i => B (start + i)) n 0 0 ts)))).length) z' := by
  obtain ⟨z1, hopen, hz1⟩ := openChunk_parsing hw hz hin hn B e
  obtain ⟨ts, z2, hrun, hts, hz2⟩ := parseChunk_parsing he (k := n) (first := 0) hz1 (by omega) (by omega) (by omega)
  exact ⟨ts, z2, hts, hz2, Cmd.Emits.read_bind hopen (Cmd.Emits.read_bind hrun (emitBytes_emits hw _ he.quiet o))⟩

theorem encodeChunks1_emits (hw : w.Apart) (lr : Nat) : ∀ {l : List (Nat × Nat)} {R : Rings} {z : Rolz} {e : Env} (o : Nat),
    z.Counts R → e.Holds w.srcBase.toNat w.srcLen.toNat B → ChunksIn w.srcLen.toNat l →
    ∃ cs z', boundsOf cs = l ∧ R.Parses B cs ∧
      (encodeChunks1 w lr l o).Emits w (z, e) o (payload1 lr B cs) (o + (payload1 lr B cs).length) z'
  | [], _, z, _, _, _, _, _ => ⟨[], z, rfl, trivial, Cmd.Emits.of_ok rfl⟩
  | c :: l, R, z, e, o, hz, he, hl => by
    obtain ⟨⟨hin, hn⟩, hl⟩ := List.forall_mem_cons.mp hl
    obtain ⟨ts, z1, hts, hz1, hfirst⟩ := encodeChunk1_emits hw.toFit hz he hin hn lr o
    obtain ⟨cs, z2, hcs, hparses, hrest⟩ := encodeChunks1_emits hw lr
      (o + (pack (fieldBits (chunkFields lr (streamsOf (fun i => B (c.1 + i)) c.2 0 0 ts)))).length)
      hz1.shows.counts (he.put hw o _) hl
    refine ⟨{ start := c.1, size := c.2, decisions := ts } :: cs, z2, ?_, ⟨hts, hparses⟩, ?_⟩
    · rw [← hcs]
      rfl
    · have hall := hfirst.bind hrest
      rw [Nat.add_assoc, ← List.length_append] at hall
      exact hall

end Sys2Proof.Machine
end

section
/-!
Back end 2, encoding: the run of probabilities and bits that the decisions of the parse make, and the bytes it emits.
-/

namespace Sys2Proof.Machine

variable {w : Windows} {B D : Nat → Byte} {start n p o : Nat} {R : Rings} {z : Rolz} {e : Env} {iv : Interval}
  {m : LocalModel}

/-! ### A model -/

/-- The probabilities a model gives for bits coded in turn, with the bits. -/
def LocalModel.run (m : LocalModel) : List Bool → List (Prob12 × Bool)
  | [] => []
  | b :: r => (m.get, b) :: (m.update b).run r

/-- The model after bits. -/
def LocalModel.after (m : LocalModel) (bits : List Bool) : LocalModel := bits.foldl LocalModel.update m

theorem LocalModel.after_cons (m : LocalModel) (b : Bool) (r : List Bool) : m.after (b :: r) = (m.update b).after r := rfl

theorem LocalModel.run_length : ∀ (bits : List Bool) (m : LocalModel), (m.run bits).length = bits.length
  | [], _ => rfl
  | b :: r, m => congrArg (· + 1) (LocalModel.run_length r (m.update b))

/-! ### A coding run -/

/-- The bytes of renormalisation groups (43_binary_coder.md R232). -/
def groupsBytes (groups : List Word) : List Byte := groups.flatMap fun g => beBytes4 (g.setWidth 32)

theorem groupsBytes_append (g g' : List Word) : groupsBytes (g ++ g') = groupsBytes g ++ groupsBytes g' :=
  List.flatMap_append

/-- A run goes on from the interval of the run before it. -/
theorem codeRun_append (r' : List (Prob12 × Bool)) : ∀ (r : List (Prob12 × Bool)) (iv : Interval),
    codeRun iv (r ++ r') =
      ((codeRun iv r).1 ++ (codeRun (codeRun iv r).2 r').1, (codeRun (codeRun iv r).2 r').2)
  | [], _ => rfl
  | x :: r, iv => by
    rw [List.cons_append, codeRun, codeRun]
    dsimp only
    split_ifs
    · rw [codeRun_append r' r]
      rfl
    · exact codeRun_append r' r _

/-- The bytes a run emits. -/
def runBytes (iv : Interval) (r : List (Prob12 × Bool)) : List Byte := groupsBytes (codeRun iv r).1

theorem runBytes_append (iv : Interval) (r r' : List (Prob12 × Bool)) :
    runBytes iv (r ++ r') = runBytes iv r ++ runBytes (codeRun iv r).2 r' := by
  rw [runBytes, codeRun_append, groupsBytes_append]
  rfl

theorem encodeBits2_emits (hw : w.Fit) : ∀ {bits : List Bool} {m : LocalModel} {iv : Interval} {e : Env}
    (_ : e.quiet) (o : Nat),
    (encodeBits2 w m iv o bits).Emits w (z, e) o (runBytes iv (m.run bits))
      (m.after bits, (codeRun iv (m.run bits)).2, o + (runBytes iv (m.run bits)).length) z
  | [], _, _, _, _, _ => Cmd.Emits.of_ok rfl
  | b :: r, m, iv, e, he, o => by
    rw [encodeBits2, encodeBit2, runBytes, LocalModel.run, codeRun, LocalModel.after_cons]
    dsimp only
    by_cases hs : (iv.narrow m.get b).settled
    · have hgroup := (emitBytes_emits (z := z) hw (groupBytes (iv.narrow m.get b)) he o).bind_pure
        fun o1 => (m.update b, (iv.narrow m.get b).shift, o1)
      have hrest := encodeBits2_emits hw (bits := r) (m := m.update b) (iv := (iv.narrow m.get b).shift)
        (Env.put_quiet (w := w) (o := o) (out := groupBytes (iv.narrow m.get b)) he)
        (o + (groupBytes (iv.narrow m.get b)).length)
      rw [if_pos hs, if_pos hs]
      have hall := hgroup.bind (f := fun x => encodeBits2 w x.1 x.2.1 x.2.2 r) hrest
      rw [Nat.add_assoc, ← List.length_append] at hall
      exact hall
    · rw [if_neg hs, if_neg hs]
      exact Cmd.Emits.read_bind rfl (encodeBits2_emits hw he o)

/-! ### The models of a block -/

/-- What a block's coder adapts: the two models and `lastLit` (47_rolz_backend2.md R351). -/
structure Models where
  p1 : LocalModel
  p2 : LocalModel
  lastLit : Byte

/-- The models as a block begins. -/
def Models.initial (lpc : Nat) : Models := { p1 := LocalModel.init 9, p2 := LocalModel.init lpc, lastLit := 0 }

/-- The model of a symbol, in its context. -/
def Models.symbolModel (ms : Models) : LocalModel := ms.p1.setCtx ms.lastLit

/-- The bits of a 9-bit symbol (47_rolz_backend2.md R352); irreducible, so that no comparison of terms runs a model on them. -/
@[irreducible] def symbolBits (sym : Nat) : List Bool := bitsOf (BitVec.ofNat 64 sym) 9

/-- The models after a symbol. -/
def Models.afterSymbol (ms : Models) (sym : Nat) : Models := { ms with p1 := ms.symbolModel.after (symbolBits sym) }

/-- The bits of a match index; irreducible as `symbolBits`. -/
@[irreducible] def indexBits (lpc idx : Nat) : List Bool := bitsOf (BitVec.ofNat 64 idx) lpc

/-- The models after a match index behind the byte `prev`. -/
def Models.afterIndex (ms : Models) (prev : Byte) (lpc idx : Nat) : Models :=
  { ms with p2 := (ms.p2.setCtx prev).after (indexBits lpc idx) }

/-- The symbol of a literal. -/
def literalSymbol (b : Byte) : Nat := 0x100 + b.toNat

/-- The symbol of a match. -/
def matchSymbol (m : Match) : Nat := m.len - Config.minMatch

/-- The models after the decision at position `p`. -/
def Models.next (ms : Models) (lpc : Nat) (D : Nat → Byte) (p : Nat) : Option Match → Models
  | none => { ms.afterSymbol (literalSymbol (D p)) with lastLit := D p }
  | some m => (ms.afterSymbol (matchSymbol m)).afterIndex (D (p - 1)) lpc m.idx

/-- The probabilities and bits of the decision at position `p` (47_rolz_backend2.md R351, R352). -/
def Models.coded (ms : Models) (lpc : Nat) (D : Nat → Byte) (p : Nat) : Option Match → List (Prob12 × Bool)
  | none => ms.symbolModel.run (symbolBits (literalSymbol (D p)))
  | some m => ms.symbolModel.run (symbolBits (matchSymbol m)) ++ (ms.p2.setCtx (D (p - 1))).run (indexBits lpc m.idx)

/-- The position after the decision at `p`. -/
def stepTo (p : Nat) : Option Match → Nat
  | none => p + 1
  | some m => p + m.len

/-- The run of the decisions from position `p` on. -/
def Models.run (lpc : Nat) (D : Nat → Byte) : Models → Nat → List (Option Match) → List (Prob12 × Bool)
  | _, _, [] => []
  | ms, p, t :: ts => ms.coded lpc D p t ++ Models.run lpc D (ms.next lpc D p t) (stepTo p t) ts

/-- The models after the decisions from position `p` on. -/
def Models.after (lpc : Nat) (D : Nat → Byte) : Models → Nat → List (Option Match) → Models
  | ms, _, [] => ms
  | ms, p, t :: ts => Models.after lpc D (ms.next lpc D p t) (stepTo p t) ts

/-- The encoder with its parts. -/
def encoderOf (iv : Interval) (ms : Models) (out : Nat) : Enc2 :=
  { iv := iv, p1 := ms.p1, p2 := ms.p2, lastLit := ms.lastLit, out := out }

theorem encodeSymbol_emits (hw : w.Fit) (he : e.quiet) (ms : Models) (sym o : Nat) :
    (encodeSymbol w (encoderOf iv ms o) sym).Emits w (z, e) o (runBytes iv (ms.symbolModel.run (symbolBits sym)))
      (encoderOf (codeRun iv (ms.symbolModel.run (symbolBits sym))).2 (ms.afterSymbol sym)
        (o + (runBytes iv (ms.symbolModel.run (symbolBits sym))).length)) z := by
  unfold Models.afterSymbol encodeSymbol symbolBits
  exact (encodeBits2_emits (m := ms.symbolModel) hw he o).bind_pure fun x =>
    ({ iv := x.2.1, p1 := x.1, p2 := ms.p2, lastLit := ms.lastLit, out := x.2.2 } : Enc2)

theorem encodeIndex_emits (hw : w.Fit) (he : e.quiet) (ms : Models) (prev : Byte) (lpc idx o : Nat) :
    (encodeIndex w (encoderOf iv ms o) prev lpc idx).Emits w (z, e) o
      (runBytes iv ((ms.p2.setCtx prev).run (indexBits lpc idx)))
      (encoderOf (codeRun iv ((ms.p2.setCtx prev).run (indexBits lpc idx))).2 (ms.afterIndex prev lpc idx)
        (o + (runBytes iv ((ms.p2.setCtx prev).run (indexBits lpc idx))).length)) z := by
  unfold Models.afterIndex encodeIndex indexBits
  exact (encodeBits2_emits (m := ms.p2.setCtx prev) hw he o).bind_pure fun x =>
    ({ iv := x.2.1, p1 := ms.p1, p2 := x.1, lastLit := ms.lastLit, out := x.2.2 } : Enc2)

theorem bufByte_parsing (hz : z.Parsing w B start n R p) (he : e.Holds w.srcBase.toNat w.srcLen.toNat B) {i : Nat}
    (hi : i < n) : bufByte i (z, e) = .ok (B (start + i)) (z, e) := by
  have haddr := hz.chunk.address
  rw [← hz.buf he (by omega)]
  exact bufByte_of he.quiet (by omega)

theorem Rolz.Parsing.lpc (hz : z.Parsing w B start n R p) : z.lpc = R.lpc := by
  rw [hz.shows.lpc, Rings.upTo_lpc]

/-! ### A round of the loop -/

/-- The coding of the decision at position `p`. -/
def codeDecision (w : Windows) (c : Enc2) (p : Nat) : Option Match → Cmd (Rolz × Env) Enc2
  | none => do
    let b ← bufByte p
    let c1 ← encodeSymbol w c (literalSymbol b)
    let last ← bufByte p
    pure { c1 with lastLit := last }
  | some m => do
    let c1 ← encodeSymbol w c (matchSymbol m)
    let prev ← bufByte (p - 1)
    let (z, _) ← get
    encodeIndex w c1 prev z.lpc.toNat m.idx

/-- The positions a decision covers behind its first. -/
def insertCovered (p : Nat) : Option Match → Cmd (Rolz × Env) Unit
  | none => pure ()
  | some m => forPositions insertAt (p + 1) (m.len - 1)

/-- A round: a decision is made, coded, and its positions inserted. -/
theorem encodeChunk2_round (w : Windows) (k : Nat) (c : Enc2) (hp : p < n) :
    encodeChunk2 w n (k + 1) p c = (do
      let x ← nextMatch p
      let c' ← codeDecision w c p x
      insertCovered p x
      encodeChunk2 w n k (stepTo p x) c') := by
  rw [encodeChunk2, if_neg (Nat.not_le.mpr hp)]
  refine congrArg (nextMatch p >>= ·) (funext fun x => ?_)
  cases x with
  | none =>
    simp only [codeDecision, Cmd.bind_assoc]
    rfl
  | some m =>
    simp only [codeDecision, Cmd.bind_assoc]
    rfl

theorem codeDecision_emits (hw : w.Apart) (hz : z.Parsing w B start n R (p + 1))
    (he : e.Holds w.srcBase.toNat w.srcLen.toNat B) (hp : p < n) (ms : Models) (x : Option Match) :
    (codeDecision w (encoderOf iv ms o) p x).Emits w (z, e) o
      (runBytes iv (ms.coded R.lpc.toNat (fun i => B (start + i)) p x))
      (encoderOf (codeRun iv (ms.coded R.lpc.toNat (fun i => B (start + i)) p x)).2
        (ms.next R.lpc.toNat (fun i => B (start + i)) p x)
        (o + (runBytes iv (ms.coded R.lpc.toNat (fun i => B (start + i)) p x)).length)) z := by
  cases x with
  | none =>
    have hsymbol := encodeSymbol_emits (iv := iv) (z := z) hw.toFit he.quiet ms (literalSymbol (B (start + p))) o
    have hlast := bufByte_parsing hz (he.put hw o
      (runBytes iv (ms.symbolModel.run (symbolBits (literalSymbol (B (start + p))))))) hp
    have hall := hsymbol.bind (f := fun c1 => do
      let last ← bufByte p
      pure { c1 with lastLit := last }) (Cmd.Emits.read_bind hlast (Cmd.Emits.of_ok rfl))
    rw [List.append_nil] at hall
    exact Cmd.Emits.read_bind (bufByte_parsing hz he hp) hall
  | some m =>
    rw [Models.coded, runBytes_append, codeRun_append, List.length_append, ← Nat.add_assoc, ← hz.lpc]
    refine (encodeSymbol_emits hw.toFit he.quiet ms (matchSymbol m) o).bind ?_
    refine Cmd.Emits.read_bind (bufByte_parsing hz (he.put hw o _) (by omega)) (Cmd.Emits.read_bind rfl ?_)
    exact encodeIndex_emits hw.toFit (he.put hw o _).quiet (ms.afterSymbol (matchSymbol m)) (B (start + (p - 1)))
      z.lpc.toNat m.idx _

theorem insertCovered_parsing (hz : z.Parsing w B start n R (p + 1)) (he : e.Holds w.srcBase.toNat w.srcLen.toNat B)
    (hp : p < n) {R' : Rings} {x : Option Match} (hx : ∀ m, x = some m → R'.IsMatch D n p m) :
    ∃ z', insertCovered p x (z, e) = .ok () (z', e) ∧ z'.Parsing w B start n R (stepTo p x) ∧ p < stepTo p x ∧
      stepTo p x ≤ n := by
  cases x with
  | none => exact ⟨z, rfl, hz, Nat.lt_succ_self p, hp⟩
  | some m =>
    obtain ⟨hkey, hmin, -, hin, -⟩ := hx m rfl
    obtain ⟨z', hrun, hz'⟩ := forPositions_insertAt_parsing (k := m.len - 1) hz he (by omega) (by omega)
    rw [show p + 1 + (m.len - 1) = p + m.len by omega] at hz'
    exact ⟨z', hrun, hz', by rw [stepTo]; omega, hin⟩

/-- The loop over a chunk emits the run of decisions that a decoder can follow. -/
theorem encodeChunk2_emits (hw : w.Apart) : ∀ {k p : Nat} {z : Rolz} {e : Env} {iv : Interval} {ms : Models} {o : Nat},
    z.Parsing w B start n R p → e.Holds w.srcBase.toNat w.srcLen.toNat B → n ≤ p + k → p ≤ n →
    ∃ ts z', R.Parse (fun i => B (start + i)) n p ts ∧ z'.Parsing w B start n R n ∧
      (encodeChunk2 w n k p (encoderOf iv ms o)).Emits w (z, e) o
        (runBytes iv (Models.run R.lpc.toNat (fun i => B (start + i)) ms p ts))
        (encoderOf (codeRun iv (Models.run R.lpc.toNat (fun i => B (start + i)) ms p ts)).2
          (Models.after R.lpc.toNat (fun i => B (start + i)) ms p ts)
          (o + (runBytes iv (Models.run R.lpc.toNat (fun i => B (start + i)) ms p ts)).length)) z'
  | 0, p, z, e, iv, ms, o, hz, _, hk, hp => by
    obtain rfl : p = n := by omega
    exact ⟨[], z, rfl, hz, Cmd.Emits.of_ok rfl⟩
  | k + 1, p, z, e, iv, ms, o, hz, he, hk, hp => by
    by_cases hend : n ≤ p
    · obtain rfl : p = n := by omega
      refine ⟨[], z, rfl, hz, ?_⟩
      rw [encodeChunk2, if_pos hend]
      exact Cmd.Emits.of_ok rfl
    · rw [encodeChunk2_round w k _ (Nat.lt_of_not_le hend)]
      obtain ⟨x, z1, hnext, hz1, hmatch⟩ := nextMatch_parsing hz he (Nat.lt_of_not_le hend)
      have hcode := codeDecision_emits (iv := iv) (o := o) hw hz1 he (Nat.lt_of_not_le hend) ms x
      obtain ⟨z2, hins, hz2, hlow, hhigh⟩ := insertCovered_parsing hz1 (he.put hw o _) (Nat.lt_of_not_le hend) hmatch
      obtain ⟨ts, z3, hts, hz3, hrest⟩ := encodeChunk2_emits hw (k := k) (iv := _) (ms := _) (o := _) hz2 (he.put hw o _)
        (by omega) hhigh
      refine ⟨x :: ts, z3, ?_, hz3, ?_⟩
      · cases x with
        | none => exact ⟨Nat.lt_of_not_le hend, hts⟩
        | some m => exact ⟨hmatch m rfl, hts⟩
      · rw [Models.run, runBytes_append, codeRun_append, List.length_append, ← Nat.add_assoc]
        exact Cmd.Emits.read_bind hnext (hcode.bind (Cmd.Emits.read_bind hins hrest))

/-! ### The chunks of a block -/

/-- The run of the chunks of a block in order: one coding run over all of them (47_rolz_backend2.md R350). -/
def runOf (lpc : Nat) (B : Nat → Byte) : Models → List Chunk → List (Prob12 × Bool)
  | _, [] => []
  | ms, c :: cs =>
    Models.run lpc (c.data B) ms 0 c.decisions ++ runOf lpc B (Models.after lpc (c.data B) ms 0 c.decisions) cs

/-- The run of a block. -/
def blockRun (lpc : Nat) (B : Nat → Byte) (cs : List Chunk) : List (Prob12 × Bool) := runOf lpc B (Models.initial lpc) cs

/-- The payload of a block with back end 2: the groups of its run, then the last `low` (47_rolz_backend2.md R351). -/
def payload2 (lpc : Nat) (B : Nat → Byte) (cs : List Chunk) : List Byte :=
  runBytes Interval.initial (blockRun lpc B cs) ++ beBytes (codeRun Interval.initial (blockRun lpc B cs)).2.low

theorem encodeChunks2_emits (hw : w.Apart) : ∀ {l : List (Nat × Nat)} {R : Rings} {z : Rolz} {e : Env} {iv : Interval}
    {ms : Models} {o : Nat}, z.Counts R → e.Holds w.srcBase.toNat w.srcLen.toNat B → ChunksIn w.srcLen.toNat l →
    ∃ cs ms' z', boundsOf cs = l ∧ R.Parses B cs ∧
      (encodeChunks2 w l (encoderOf iv ms o)).Emits w (z, e) o (runBytes iv (runOf R.lpc.toNat B ms cs))
        (encoderOf (codeRun iv (runOf R.lpc.toNat B ms cs)).2 ms' (o + (runBytes iv (runOf R.lpc.toNat B ms cs)).length)) z'
  | [], _, z, _, _, ms, _, _, _, _ => ⟨[], ms, z, rfl, trivial, Cmd.Emits.of_ok rfl⟩
  | x :: l, R, z, e, iv, ms, o, hz, he, hl => by
    obtain ⟨⟨hin, hn⟩, hl⟩ := List.forall_mem_cons.mp hl
    obtain ⟨z1, hopen, hz1⟩ := openChunk_parsing hw.toFit hz hin hn B e
    obtain ⟨ts, z2, hts, hz2, hfirst⟩ := encodeChunk2_emits (k := x.2) (iv := iv) (ms := ms) (o := o) hw hz1 he (by omega)
      (by omega)
    have hlpc : (R.cleared.upTo (fun i => B (x.1 + i)) x.2).lpc = R.lpc := Rings.upTo_lpc _ _ _
    obtain ⟨cs, ms', z3, hcs, hparses, hrest⟩ := encodeChunks2_emits hw (iv := _) (ms := _) (o := _) hz2.shows.counts
      (he.put hw o _) hl
    rw [hlpc] at hrest
    refine ⟨{ start := x.1, size := x.2, decisions := ts } :: cs, ms', z3, ?_, ⟨hts, hparses⟩, ?_⟩
    · rw [← hcs]
      rfl
    · rw [runOf, runBytes_append, codeRun_append, List.length_append, ← Nat.add_assoc]
      exact Cmd.Emits.read_bind hopen (hfirst.bind hrest)

theorem encodeBlock2_emits (hw : w.Apart) (hz : z.Counts R) (he : e.Holds w.srcBase.toNat w.srcLen.toNat B) {srcEnd : Nat}
    (hl : ChunksIn w.srcLen.toNat (chunksOf srcEnd)) (o : Nat) :
    ∃ cs z', boundsOf cs = chunksOf srcEnd ∧ R.Parses B cs ∧
      (encodeBlock2 w srcEnd o).Emits w (z, e) o (payload2 R.lpc.toNat B cs)
        (o + (payload2 R.lpc.toNat B cs).length) z' := by
  obtain ⟨cs, ms', z', hcs, hparses, hrun⟩ := encodeChunks2_emits (iv := Interval.initial)
    (ms := Models.initial R.lpc.toNat) (o := o) hw hz he hl
  refine ⟨cs, z', hcs, hparses, Cmd.Emits.read_bind (Cmd.get_run _) ?_⟩
  dsimp only
  rw [hz.lpc, payload2, List.length_append, ← Nat.add_assoc]
  exact hrun.bind (emitBytes_emits hw.toFit _ (he.put hw o _).quiet _)

end Sys2Proof.Machine
end

section
/-!
`RZ_FWD` as a whole: past its checks it emits the size, the payload of the block's chunks and the tail.
-/

namespace Sys2Proof.Machine

variable {w : Windows} {B : Nat → Byte} {lr o n : Nat} {R : Rings} {z z' : Rolz} {e e' : Env} {s u : State} {v : Word}

/-! ### The chunks of a block -/

theorem chunksOf_zero : chunksOf 0 = [] := rfl

theorem chunksOf_ne_nil {n : Nat} (h : 0 < n) : chunksOf n ≠ [] := by
  have hlen : (chunksOf n).length = (n + Config.chunkSize - 1) / Config.chunkSize := by simp [chunksOf]
  intro hnil
  rw [hnil, List.length_nil, Config.chunkSize] at hlen
  omega

theorem boundsOf_eq_nil {cs : List Chunk} : boundsOf cs = [] ↔ cs = [] := List.map_eq_nil_iff

/-! ### The payload -/

/-- The payload of a block with either back end; no chunk has none (46_rolz_backend1.md R321). -/
def payloadOf (backend : BitVec 2) (lr lpc : Nat) (B : Nat → Byte) (cs : List Chunk) : List Byte :=
  if backend = 1 then payload1 lr B cs else if cs.isEmpty then [] else payload2 lpc B cs

theorem payloadOf_nil (backend : BitVec 2) (lr lpc : Nat) (B : Nat → Byte) : payloadOf backend lr lpc B [] = [] := by
  unfold payloadOf
  split_ifs with hb hn
  · rfl
  · rfl
  · exact absurd rfl hn

theorem encodePayload_emits (hw : w.Apart) (hz : z.Counts R) (he : e.Holds w.srcBase.toNat w.srcLen.toNat B) {srcEnd : Nat}
    (hl : ChunksIn w.srcLen.toNat (chunksOf srcEnd)) (lr o : Nat) :
    ∃ cs z', boundsOf cs = chunksOf srcEnd ∧ R.Parses B cs ∧
      (encodePayload w lr srcEnd o).Emits w (z, e) o (payloadOf z.backend lr R.lpc.toNat B cs)
        (o + (payloadOf z.backend lr R.lpc.toNat B cs).length) z' := by
  by_cases hb : z.backend = 1
  · obtain ⟨cs, z', hcs, hparses, hrun⟩ := encodeChunks1_emits hw lr o hz he hl
    refine ⟨cs, z', hcs, hparses, Cmd.Emits.read_bind (Cmd.get_run _) ?_⟩
    dsimp only
    rw [payloadOf, if_pos hb, if_pos hb]
    exact hrun
  · by_cases hn : 0 < srcEnd
    · obtain ⟨cs, z', hcs, hparses, hrun⟩ := encodeBlock2_emits hw hz he hl o
      have hne : cs.isEmpty = false := by
        rw [List.isEmpty_eq_false_iff]
        exact fun h => chunksOf_ne_nil hn (hcs ▸ boundsOf_eq_nil.mpr h)
      refine ⟨cs, z', hcs, hparses, Cmd.Emits.read_bind (Cmd.get_run _) ?_⟩
      dsimp only
      rw [payloadOf, if_neg hb, if_neg hb, if_pos hn, hne, if_neg Bool.false_ne_true]
      exact hrun
    · obtain rfl : srcEnd = 0 := by omega
      refine ⟨[], z, rfl, trivial, Cmd.Emits.read_bind (Cmd.get_run _) ?_⟩
      dsimp only
      rw [payloadOf_nil, if_neg hb, if_neg hn]
      exact Cmd.Emits.of_ok rfl

/-- A block without a chunk has no payload, and the unit stays as it is. -/
theorem encodePayload_zero (w : Windows) (lr o : Nat) (t : Rolz × Env) : encodePayload w lr 0 o t = .ok o t := by
  rw [encodePayload, Cmd.get_bind]
  dsimp only
  split_ifs
  · rfl
  · omega
  · rfl

/-! ### The block -/

theorem dataFrom_succ (D : Nat → Byte) (p k : Nat) : dataFrom D p (k + 1) = D p :: dataFrom D (p + 1) k := by
  simp only [dataFrom, List.range_succ_eq_map, List.map_cons, List.map_map]
  refine congrArg₂ List.cons rfl (List.map_congr_left fun i _ => ?_)
  show D (p + (i + 1)) = D (p + 1 + i)
  rw [Nat.add_assoc, Nat.add_comm 1 i]

theorem emitTail_emits (hw : w.Apart) : ∀ {k src o : Nat} {e : Env}, e.Holds w.srcBase.toNat w.srcLen.toNat B →
    src + k ≤ w.srcLen.toNat → (emitTail w src o k).Emits w (z, e) o (dataFrom B src k) (o + k) z
  | 0, _, _, _, _, _ => Cmd.Emits.of_ok rfl
  | k + 1, src, o, e, he, hk => by
    have hfit : w.srcBase.toNat + w.srcLen.toNat ≤ 2 ^ 32 := hw.src
    have hread : memRead (w.srcBase.toNat + src) (z, e) = .ok (B src) (z, e) := by
      rw [memRead_of (t := (z, e)) he.quiet (by omega), he.read src (by omega)]
    have hrest := emitTail_emits hw (k := k) (src := src + 1) (o := o + 1) (he.put hw o [B src]) (by omega)
    rw [dataFrom_succ, show o + (k + 1) = o + 1 + k by omega]
    refine Cmd.Emits.read_bind hread ?_
    exact (emitByte_emits hw.toFit he.quiet o (B src)).bind (f := fun o1 => emitTail w (src + 1) o1 k) hrest

theorem beBytes4_length (v : BitVec 32) : (beBytes4 v).length = 4 := rfl

/-- An encoded block: the size, the payload and the tail (46_rolz_backend1.md R320). -/
def encodedBlock (size : BitVec 32) (payload : List Byte) (B : Nat → Byte) : List Byte :=
  beBytes4 size ++ (payload ++ dataFrom B (size.toNat - tailOf size.toNat) (tailOf size.toNat))

theorem encodedBlock_length (size : BitVec 32) (payload : List Byte) (B : Nat → Byte) :
    (encodedBlock size payload B).length = 4 + payload.length + tailOf size.toNat := by
  simp only [encodedBlock, List.length_append, beBytes4_length, dataFrom_length]
  omega

theorem tailOf_le (n : Nat) : tailOf n ≤ n := Nat.min_le_right _ _

/-- The unit as a block command begins. -/
def Rolz.uncounted (z : Rolz) : Rolz := { z with counters := [] }

/-- The unit as a block command ends. -/
def Rolz.ended (z : Rolz) : Rolz := { z with cvalid := false }

theorem encodeBlock_empty (hn : w.srcLen.toNat = 0) (lr : Nat) :
    encodeBlock w lr (z, e) = .ok 0 (z.uncounted.ended, e) := by
  simp only [encodeBlock, hn, if_true]
  rfl

/-- The size stored in front, with the check that it fits. -/
theorem storeSize_emits (hw : w.Fit) (he : e.quiet) (size : BitVec 32) :
    (checkMid (decide (w.dstCap.toNat < 4)) .bufferTooSmall 2 >>= fun _ =>
      memWriteBytes w.dstBase.toNat (beBytes4 size) : Cmd (Rolz × Env) Unit).Emits w (z, e) 0 (beBytes4 size) () z := by
  have hfit : w.dstBase.toNat + w.dstCap.toNat ≤ 2 ^ 32 := hw.dst
  refine ⟨fun h => ?_, fun h b u hrun => ?_⟩
  · have hin : 0 + 4 ≤ w.dstCap.toNat := h.resolve_left (List.cons_ne_nil _ _)
    rw [checkMid_bind, if_neg (by rw [decide_lt_eq_false (by omega)]; exact Bool.false_ne_true),
      memWriteBytes_of (t := (z, e)) _ he.1 (by rw [beBytes4_length]; omega), Env.put_of_room h]
    rfl
  · have hout : w.dstCap.toNat < 4 := Nat.lt_of_not_le fun hin => h (.inr (by rw [beBytes4_length]; omega))
    rw [checkMid_bind, if_pos (decide_eq_true hout)] at hrun
    cases hrun

/-- A block that is not empty, by what its payload emits. -/
theorem encodeBlock_emits_of_payload (hw : w.Apart) (he : e.Holds w.srcBase.toNat w.srcLen.toNat B)
    (hn : w.srcLen.toNat ≠ 0) {payload : List Byte}
    (hpayload : (encodePayload w lr (w.srcLen.toNat - tailOf w.srcLen.toNat) 4).Emits w
      (z.uncounted, e.put w 0 (beBytes4 w.srcLen)) 4 payload (4 + payload.length) z') :
    (encodeBlock w lr).Emits w (z, e) 0 (encodedBlock w.srcLen payload B)
      (BitVec.ofNat 64 (encodedBlock w.srcLen payload B).length) z'.ended := by
  have hin : w.srcLen.toNat - tailOf w.srcLen.toNat + tailOf w.srcLen.toNat ≤ w.srcLen.toNat := by
    have := tailOf_le w.srcLen.toNat
    omega
  have hstart := storeSize_emits (z := z.uncounted) hw.toFit he.quiet w.srcLen
  have htail := emitTail_emits (z := z') (o := 4 + payload.length) hw
    ((he.put hw 0 (beBytes4 w.srcLen)).put hw 4 payload) hin
  have hbegin : (setRolz fun z => { z with counters := [] }) (z, e) = .ok ⟨⟩ (z.uncounted, e) := rfl
  refine Cmd.Emits.read_bind hbegin ?_
  rw [if_neg hn, ← Cmd.bind_assoc, encodedBlock_length, encodedBlock,
    ← List.append_nil (dataFrom B (w.srcLen.toNat - tailOf w.srcLen.toNat) (tailOf w.srcLen.toNat))]
  exact hstart.bind (hpayload.bind (htail.bind (Cmd.Emits.of_ok rfl)))

/-- `RZ_FWD` past its checks, on a block that is not empty: it emits the encoded block of decisions a decoder can follow. -/
theorem encodeBlock_emits (hw : w.Apart) (he : e.Holds w.srcBase.toNat w.srcLen.toNat B) (hn : w.srcLen.toNat ≠ 0)
    (z : Rolz) (lr : Nat) :
    ∃ (cs : List Chunk) (z' : Rolz), boundsOf cs = chunksOf (w.srcLen.toNat - tailOf w.srcLen.toNat) ∧
      (Rings.fresh z.lpc).Parses B cs ∧
      (encodeBlock w lr).Emits w (z, e) 0 (encodedBlock w.srcLen (payloadOf z.backend lr z.lpc.toNat B cs) B)
        (BitVec.ofNat 64 (encodedBlock w.srcLen (payloadOf z.backend lr z.lpc.toNat B cs) B).length) z'.ended := by
  have hz : z.uncounted.Counts (Rings.fresh z.lpc) := Rolz.counts_fresh rfl
  obtain ⟨cs, z', hcs, hparses, hrun⟩ := encodePayload_emits hw hz (he.put hw 0 (beBytes4 w.srcLen))
    (chunksIn_chunksOf w.srcLen.toNat) lr 4
  exact ⟨cs, z', hcs, hparses, encodeBlock_emits_of_payload hw he hn hrun⟩

/-! ### The checks of the block commands -/

theorem checkBlock_unready (h : s.rz.ready = false) :
    checkBlock s u = .error (.raise (errOf .invalidParameter 3 0 false)) u := by
  rw [checkBlock, check_stop (by rw [h]; rfl)]

theorem checkBlock_window (hr : s.rz.ready = true) (h : ¬(fits s.win.srcBase s.win.srcLen ∧ fits s.win.dstBase s.win.dstCap)) :
    checkBlock s u = .error (.raise (errOf .invalidParameter 4 0 false)) u := by
  have hbad : (!windowFits s.win.srcBase s.win.srcLen || !windowFits s.win.dstBase s.win.dstCap) = true := by
    by_cases hsrc : fits s.win.srcBase s.win.srcLen
    · rw [windowCheck_stop fun hdst => h ⟨hsrc, hdst⟩, Bool.or_true]
    · rw [windowCheck_stop hsrc, Bool.true_or]
  rw [checkBlock, check_pass (not_eq_false_of_eq_true hr), check_stop hbad]

theorem windowsCheck_pass (hsrc : fits s.win.srcBase s.win.srcLen) (hdst : fits s.win.dstBase s.win.dstCap) :
    (!windowFits s.win.srcBase s.win.srcLen || !windowFits s.win.dstBase s.win.dstCap) = false := by
  rw [windowCheck_pass hsrc, windowCheck_pass hdst]
  rfl

theorem checkBlock_overlap (hr : s.rz.ready = true) (hsrc : fits s.win.srcBase s.win.srcLen)
    (hdst : fits s.win.dstBase s.win.dstCap) (h : overlap s.win.srcBase s.win.srcLen s.win.dstBase s.win.dstCap) :
    checkBlock s u = .error (.raise (errOf .invalidParameter 5 0 false)) u := by
  have hbad : s.win.overlap = true := windowsOverlap_iff.mpr h
  rw [checkBlock, check_pass (not_eq_false_of_eq_true hr), check_pass (windowsCheck_pass hsrc hdst), hbad]
  rfl

theorem checkBlock_pass (hr : s.rz.ready = true) (hw : s.win.Apart) : checkBlock s u = .ok () u := by
  have hgood : s.win.overlap = false := Bool.eq_false_iff.mpr fun h => hw.apart (windowsOverlap_iff.mp h)
  rw [checkBlock, check_pass (not_eq_false_of_eq_true hr), check_pass (windowsCheck_pass hw.src hw.dst), hgood]
  rfl

/-- What passed the checks is a ready unit with windows that lie apart. -/
theorem checkBlock_eq_ok {t : State} (h : checkBlock s u = .ok () t) : s.rz.ready = true ∧ s.win.Apart ∧ t = u := by
  by_cases hr : s.rz.ready = true
  · by_cases hfit : fits s.win.srcBase s.win.srcLen ∧ fits s.win.dstBase s.win.dstCap
    · by_cases hover : overlap s.win.srcBase s.win.srcLen s.win.dstBase s.win.dstCap
      · rw [checkBlock_overlap hr hfit.1 hfit.2 hover] at h
        cases h
      · have hw : s.win.Apart := ⟨⟨hfit.1, hfit.2⟩, hover⟩
        rw [checkBlock_pass hr hw] at h
        cases h
        exact ⟨hr, hw, rfl⟩
    · rw [checkBlock_window hr hfit] at h
      cases h
  · rw [checkBlock_unready (Bool.eq_false_iff.mpr hr)] at h
    cases h

/-! ### The rule -/

theorem rzFwdBody_of_error {x : Abort} (h : checkBlock s s = .error x s) : rzFwdBody s = .error x s := by
  rw [rzFwdBody, Cmd.get_bind, Cmd.bind_of_error _ h]

theorem rzFwdBody_large (hr : s.rz.ready = true) (hw : s.win.Apart) (hn : 2 ^ 27 < s.win.srcLen.toNat) :
    rzFwdBody s = .error (.raise (errOf .invalidParameter 7 0 false)) s := by
  have hlarge : decide (Config.maxBlock < s.win.srcLen.toNat) = true := decide_eq_true hn
  rw [rzFwdBody, Cmd.get_bind, Cmd.bind_of_ok _ (checkBlock_pass hr hw), check_stop hlarge]

theorem rzFwdBody_of (hr : s.rz.ready = true) (hw : s.win.Apart) (hn : s.win.srcLen.toNat ≤ 2 ^ 27)
    (h : encodeBlock s.win s.logRange.toNat (s.rz, s.env) = .ok v (z', e')) :
    rzFwdBody s = .ok v { s with rz := z', env := e' } := by
  have hsize : decide (Config.maxBlock < s.win.srcLen.toNat) = false := decide_lt_eq_false hn
  rw [rzFwdBody, Cmd.get_bind, Cmd.bind_of_ok _ (checkBlock_pass hr hw), check_pass hsize]
  exact onRolz_of h

/-- `RZ_FWD` that answers passed its checks. -/
theorem rzFwdBody_eq_ok {t : State} (h : rzFwdBody s = .ok v t) :
    s.win.Apart ∧ s.win.srcLen.toNat ≤ 2 ^ 27 ∧
      ∃ z' e', encodeBlock s.win s.logRange.toNat (s.rz, s.env) = .ok v (z', e') ∧ t.env = e' := by
  rw [rzFwdBody, Cmd.get_bind] at h
  obtain ⟨_, s1, hcheck, h⟩ := Cmd.bind_eq_ok.mp h
  obtain ⟨-, hw, rfl⟩ := checkBlock_eq_ok hcheck
  rw [check_bind] at h
  split_ifs at h with hn
  obtain ⟨⟨z', e'⟩, hrun, rfl⟩ := zoom_eq_ok.mp h
  exact ⟨hw, Nat.le_of_not_lt fun hlt => hn (decide_eq_true hlt), z', e', hrun, rfl⟩

end Sys2Proof.Machine
end

section
/-!
Decoding: from decisions it can follow, a decoder writes the bytes of the chunk, whichever stream the decisions come from.
-/

namespace Sys2Proof.Machine

variable {R : Rings} {D : Nat → Byte} {b n q p k idx : Nat} {z z' : Rolz} {e : Env} {m : Match}

/-! ### Bytes of the chunk, stored in turn -/

theorem dataFrom_add (D : Nat → Byte) (p k j : Nat) : dataFrom D p (k + j) = dataFrom D p k ++ dataFrom D (p + k) j := by
  simp only [dataFrom, List.range_add, List.map_append, List.map_map]
  refine congrArg₂ _ rfl (List.map_congr_left fun i _ => ?_)
  show D (p + (k + i)) = D (p + k + i)
  rw [Nat.add_assoc]

theorem dataFrom_getD (D : Nat → Byte) (p : Nat) {k i : Nat} (hi : i < k) : (dataFrom D p k).getD i 0 = D (p + i) := by
  rw [List.getD_eq_getElem _ 0 (by simpa using hi)]
  simp [dataFrom]

/-- The host's side after the bytes `p .. p+k-1` of a chunk are stored to the chunk at address `b`. -/
abbrev Env.filled (e : Env) (D : Nat → Byte) (b p k : Nat) : Env := e.stored (b + p) (dataFrom D p k)

theorem Env.filled_add (e : Env) (D : Nat → Byte) (b p k j : Nat) :
    (e.filled D b p k).filled D b (p + k) j = e.filled D b p (k + j) := by
  unfold Env.filled
  rw [dataFrom_add, Env.stored_append, dataFrom_length, Nat.add_assoc]

theorem Env.Holds.filled (h : e.Holds b p D) (k : Nat) : (e.filled D b p k).Holds b (p + k) D := by
  refine ⟨h.quiet, fun i hi => ?_⟩
  rw [Env.read_stored, dataFrom_length]
  split_ifs with hin
  · rw [dataFrom_getD D p (by omega)]
    congr 1
    omega
  · exact h.read i (by omega)

/-! ### The chunk as it is rebuilt -/

/-- The unit and MEM as the decoder has rebuilt the bytes before `p` of the chunk of `n` bytes `D` at address `b`, and inserted
the positions before `q`; the rings it began the chunk with were `R`. -/
structure Rolz.Rebuilding (z : Rolz) (e : Env) (R : Rings) (D : Nat → Byte) (b n q p : Nat) : Prop where
  base : z.cbase.toNat = b
  room : b + n ≤ 2 ^ 32
  small : n ≤ 2 ^ 26
  shows : z.Shows (R.upTo D q)
  holds : e.Holds b p D

theorem Rolz.Rebuilding.filled (h : z.Rebuilding e R D b n q p) (k : Nat) :
    z.Rebuilding (e.filled D b p k) R D b n q (p + k) := ⟨h.base, h.room, h.small, h.shows, h.holds.filled k⟩

theorem setBuf_rebuilding (h : z.Rebuilding e R D b n q p) (hp : p < n) :
    setBuf p (D p) (z, e) = .ok () (z, e.filled D b p 1) := by
  have hroom := h.room
  have hbase := h.base
  rw [setBuf, Cmd.get_bind]
  dsimp only
  rw [hbase, memWrite_stored h.holds.quiet (by omega)]
  rfl

theorem bufByte_rebuilding (h : z.Rebuilding e R D b n q p) {i : Nat} (hi : i < p) (hn : i < n) :
    bufByte i (z, e) = .ok (D i) (z, e) := by
  have hroom := h.room
  have hbase := h.base
  rw [bufByte_of h.holds.quiet (by omega), Rolz.buf, hbase, h.holds.read i hi]

theorem keyAt_rebuilding (h : z.Rebuilding e R D b n q p) {i : Nat} (hi : 2 ≤ i) (hp : i ≤ p) (hn : i ≤ n) :
    keyAt i (z, e) = .ok (keyOf D i) (z, e) := by
  rw [keyAt, Cmd.bind_of_ok _ (bufByte_rebuilding h (by omega) (by omega)),
    Cmd.bind_of_ok _ (bufByte_rebuilding h (by omega) (by omega))]
  rfl

theorem insertDec_rebuilding (h : z.Rebuilding e R D b n q p) (hq : 2 ≤ q) (hp : q ≤ p) (hn : q < n) :
    ∃ z', insertDec q (z, e) = .ok () (z', e) ∧ z'.Rebuilding e R D b n (q + 1) p := by
  have hsmall := h.small
  refine ⟨z.insert (keyOf D q) (BitVec.ofNat 32 q), ?_, h.base, h.room, h.small, ?_, h.holds⟩
  · rw [insertDec, Cmd.bind_of_ok _ (keyAt_rebuilding h hq hp (by omega))]
    rfl
  · rw [Rings.upTo, Rings.visit, if_neg (by omega)]
    exact h.shows.insert _ (recordPos_ofNat (by omega)) (by omega)

theorem insertLiteral_rebuilding (h : z.Rebuilding e R D b n q p) (hp : q ≤ p) (hn : q < n) :
    ∃ z', insertLiteral q (z, e) = .ok () (z', e) ∧ z'.Rebuilding e R D b n (q + 1) p := by
  by_cases hq : 2 ≤ q
  · rw [insertLiteral, if_pos hq]
    exact insertDec_rebuilding h hq hp hn
  · refine ⟨z, by rw [insertLiteral, if_neg hq]; rfl, h.base, h.room, h.small, ?_, h.holds⟩
    rw [Rings.upTo, Rings.visit, if_pos (by omega)]
    exact h.shows

theorem forPositions_insertDec_rebuilding : ∀ {k q : Nat} {z : Rolz}, z.Rebuilding e R D b n q p → 2 ≤ q → q + k ≤ p →
    q + k ≤ n → ∃ z', forPositions insertDec q k (z, e) = .ok () (z', e) ∧ z'.Rebuilding e R D b n (q + k) p
  | 0, _, z, h, _, _, _ => ⟨z, rfl, h⟩
  | k + 1, q, z, h, hq, hp, hn => by
    obtain ⟨z1, h1, hz1⟩ := insertDec_rebuilding h hq (by omega) (by omega)
    obtain ⟨z2, h2, hz2⟩ := forPositions_insertDec_rebuilding (k := k) hz1 (by omega) (by omega) (by omega)
    rw [Nat.add_assoc, Nat.add_comm 1] at hz2
    exact ⟨z2, by rw [forPositions, Cmd.bind_of_ok _ h1, h2], hz2⟩

/-! ### Literals -/

theorem copyLiterals_rebuilding : ∀ {k p : Nat} {z : Rolz} {e : Env}, z.Rebuilding e R D b n p p → p + k ≤ n →
    ∃ z', copyLiterals p (dataFrom D p k) (z, e) = .ok () (z', e.filled D b p k) ∧
      z'.Rebuilding (e.filled D b p k) R D b n (p + k) (p + k)
  | 0, _, z, _, h, _ => ⟨z, rfl, h⟩
  | k + 1, p, z, e, h, hn => by
    obtain ⟨z1, h1, hz1⟩ := insertLiteral_rebuilding (h.filled 1) (Nat.le_succ p) (by omega)
    obtain ⟨z2, h2, hz2⟩ := copyLiterals_rebuilding (k := k) hz1 (by omega)
    rw [Env.filled_add, Nat.add_comm 1] at h2 hz2
    rw [Nat.add_assoc, Nat.add_comm 1] at hz2
    refine ⟨z2, ?_, hz2⟩
    rw [dataFrom_succ, copyLiterals, Cmd.bind_of_ok _ (setBuf_rebuilding h (by omega)), Cmd.bind_of_ok _ h1, h2]

/-! ### Matches (46_rolz_backend1.md R333) -/

/-- Bytes copied one at a time from where the chunk has the same bytes, also when source and copy overlap. -/
theorem copyBytes_rebuilding : ∀ {k r p : Nat} {e : Env}, z.Rebuilding e R D b n q p → r < p → p + k ≤ n →
    (∀ i < k, D (r + i) = D (p + i)) → copyBytes r p k (z, e) = .ok () (z, e.filled D b p k)
  | 0, _, _, _, _, _, _, _ => rfl
  | k + 1, r, p, e, h, hr, hn, hsame => by
    have hfirst : D r = D p := hsame 0 (Nat.succ_pos k)
    have hrest := copyBytes_rebuilding (k := k) (r := r + 1) (h.filled 1) (by omega) (by omega) fun i hi => by
      rw [Nat.add_assoc, Nat.add_assoc, Nat.add_comm 1]
      exact hsame (i + 1) (by omega)
    rw [Env.filled_add, Nat.add_comm 1] at hrest
    rw [copyBytes, Cmd.bind_of_ok _ (bufByte_rebuilding h hr (by omega)), hfirst,
      Cmd.bind_of_ok _ (setBuf_rebuilding h (by omega)), hrest]

theorem lookup_rebuilding (h : z.Rebuilding e R D b n p p) (hp : 2 ≤ p) (hn : p ≤ n)
    (hpresent : (R.upTo D p).candidate D p idx ≠ 0) :
    lookup p idx (z, e) = .ok ((R.upTo D p).candidate D p idx) (z, e) := by
  have hindex : z.ringIndex (keyOf D p) (z.counter (keyOf D p) - BitVec.ofNat 32 idx) =
      (R.upTo D p).slotOf (keyOf D p) ((R.upTo D p).counter (keyOf D p) - BitVec.ofNat 32 idx) := by
    rw [h.shows.ringIndex, h.shows.counter]
  have hne : z.slot (z.ringIndex (keyOf D p) (z.counter (keyOf D p) - BitVec.ofNat 32 idx)) ≠ 0 := by
    rw [hindex]
    exact fun h0 => hpresent ((h.shows.empty _).mp h0)
  rw [lookup, Cmd.bind_of_ok _ (keyAt_rebuilding h hp (Nat.le_refl p) hn), Cmd.get_bind]
  dsimp only
  rw [checkMid_bind, decide_eq_false hne, if_neg Bool.false_ne_true, Cmd.pure_run, hindex, h.shows.record]
  rfl

theorem copyMatch_rebuilding (h : z.Rebuilding e R D b n p p) (hm : (R.upTo D p).IsMatch D n p m) :
    ∃ z', copyMatch p m.idx m.len (z, e) = .ok () (z', e.filled D b p m.len) ∧
      z'.Rebuilding (e.filled D b p m.len) R D b n (p + m.len) (p + m.len) := by
  obtain ⟨hkey, hmin, hmax, hin, hidx, hpresent, hbefore, hsame⟩ := hm
  obtain ⟨z', hins, hz'⟩ := forPositions_insertDec_rebuilding (k := m.len) (h.filled m.len) hkey (Nat.le_refl _) hin
  refine ⟨z', ?_, hz'⟩
  rw [copyMatch, Cmd.bind_of_ok _ (lookup_rebuilding h hkey (by omega) hpresent),
    Cmd.bind_of_ok _ (copyBytes_rebuilding h hbefore hin hsame), hins]

/-! ### A chunk from its streams (46_rolz_backend1.md R332) -/

/-- A slot number of a ring of at most 256 slots is a byte. -/
theorem idxByte_toNat {checks : Nat} (hidx : idx < checks) (hchecks : checks ≤ 256) : (BitVec.ofNat 8 idx).toNat = idx := by
  rw [BitVec.toNat_ofNat, Nat.mod_eq_of_lt (by omega)]

theorem Rolz.Rebuilding.posChecks (h : z.Rebuilding e R D b n q p) : z.posChecks = R.posChecks := by
  rw [h.shows.posChecks, Rings.posChecks, Rings.posChecks, Rings.upTo_lpc]

theorem checkMid_pass {σ α : Type} {bad : Bool} (h : bad = false) (kind : ErrKind) (sub : Byte) (detail : Nat)
    (f : Unit → Cmd σ α) (u : σ) : (checkMid bad kind sub detail >>= f) u = f () u := by
  rw [checkMid_bind, h, if_neg Bool.false_ne_true]

/-- The terminal tuple: the last literals, and nothing left of any stream. -/
theorem rebuildChunk_end (h : z.Rebuilding e R D b n p p) (hp : p ≤ n) (k q : Nat) :
    ∃ z', rebuildChunk n (k + 1) p (streamsOf D n q p []) (z, e) = .ok () (z', e.filled D b p (n - p)) ∧
      z'.Rebuilding (e.filled D b p (n - p)) R D b n n n := by
  have hsmall := h.small
  obtain ⟨z', hlits, hz'⟩ := copyLiterals_rebuilding (k := n - p) h (by omega)
  rw [Nat.add_sub_cancel' hp] at hz'
  refine ⟨z', ?_, hz'⟩
  have hcode : readLengths (emitLengths (n - p) 0) = some (n - p, 0, []) := by
    have := readLengths_emitLengths (l := n - p) (m := 0) (by omega) (by omega) []
    rwa [List.append_nil] at this
  have htake : (dataFrom D p (n - p)).take (n - p) = dataFrom D p (n - p) := List.take_of_length_le (by simp)
  have hdrop : (dataFrom D p (n - p)).drop (n - p) = [] := List.drop_of_length_le (by simp)
  simp only [rebuildChunk, streamsOf, hcode, htake, hdrop]
  rw [checkMid_pass (by simp; omega), Cmd.bind_of_ok _ hlits, Nat.add_sub_cancel' hp, if_pos rfl]
  rfl

theorem Rings.posChecks_upTo (R : Rings) (D : Nat → Byte) (p : Nat) : (R.upTo D p).posChecks = R.posChecks := by
  rw [Rings.posChecks, Rings.posChecks, Rings.upTo_lpc]

/-- A tuple with a match: its literals, its match, and the streams behind it. -/
theorem rebuildChunk_match (h : z.Rebuilding e R D b n p p) (hq : p ≤ q) (hm : (R.upTo D q).IsMatch D n q m)
    (hchecks : R.posChecks ≤ 256) (k : Nat) (ts : List (Option Match)) :
    ∃ z', z'.Rebuilding (e.filled D b p (q + m.len - p)) R D b n (q + m.len) (q + m.len) ∧
      rebuildChunk n (k + 1) p (streamsOf D n q p (some m :: ts)) (z, e) =
        rebuildChunk n k (q + m.len) (streamsOf D n (q + m.len) (q + m.len) ts) (z', e.filled D b p (q + m.len - p)) := by
  have hsmall := h.small
  obtain ⟨z1, hlits, hz1⟩ := copyLiterals_rebuilding (k := q - p) h (by have := hm.inside; omega)
  rw [Nat.add_sub_cancel' hq] at hz1
  obtain ⟨z2, hcopy, hz2⟩ := copyMatch_rebuilding hz1 hm
  have hidx := idxByte_toNat ((Rings.posChecks_upTo R D q) ▸ hm.idx_lt) hchecks
  obtain ⟨hkey, hmin, hmax, hin, hlt, -⟩ := hm
  rw [Rings.posChecks_upTo, ← hz1.posChecks] at hlt
  refine ⟨z2, ?_, ?_⟩
  · rw [show q + m.len - p = q - p + m.len by omega, ← Env.filled_add, Nat.add_sub_cancel' hq]
    exact hz2
  · have hcode := readLengths_emitLengths (l := q - p) (m := m.len - Config.minMatch) (by omega)
      (by rw [Config.minMatch]; omega) (streamsOf D n (q + m.len) (q + m.len) ts).len
    have htake := List.take_left' (l₂ := (streamsOf D n (q + m.len) (q + m.len) ts).lit) (dataFrom_length D p (q - p))
    have hdrop := List.drop_left' (l₂ := (streamsOf D n (q + m.len) (q + m.len) ts).lit) (dataFrom_length D p (q - p))
    have hlen : m.len - Config.minMatch + Config.minMatch = m.len := Nat.sub_add_cancel hmin
    have hlits' : (decide ((dataFrom D p (q - p) ++ (streamsOf D n (q + m.len) (q + m.len) ts).lit).length < q - p) ||
        decide (n < p + (q - p))) = false := by
      rw [decide_lt_eq_false (by simp), decide_lt_eq_false (by omega)]
      rfl
    have hlegal : (decide (q < 2) || decide (Config.maxMatch < m.len) || decide (n < q + m.len)) = false := by
      rw [decide_lt_eq_false hkey, decide_lt_eq_false (by rw [Config.maxMatch]; exact hmax), decide_lt_eq_false hin]
      rfl
    rw [rebuildChunk, streamsOf]
    simp only [hcode, htake, hdrop]
    rw [checkMid_pass hlits', Cmd.bind_of_ok _ hlits]
    simp only [Nat.add_sub_cancel' hq, hlen]
    rw [if_neg (by omega), checkMid_pass hlegal, Cmd.get_bind]
    dsimp only
    rw [checkMid_pass (by rw [hidx]; exact decide_eq_false (Nat.not_le.mpr hlt)), hidx, Cmd.bind_of_ok _ hcopy]
    rw [show q + m.len - p = q - p + m.len by omega, ← Env.filled_add, Nat.add_sub_cancel' hq]

/-- The streams of decisions give the bytes back. -/
theorem rebuildChunk_of (hchecks : R.posChecks ≤ 256) : ∀ {ts : List (Option Match)} {k p q : Nat} {z : Rolz} {e : Env},
    z.Rebuilding e R D b n p p → R.Parse D n q ts → p ≤ q → n - q < k →
    ∃ z', rebuildChunk n k p (streamsOf D n q p ts) (z, e) = .ok () (z', e.filled D b p (n - p)) ∧
      z'.Rebuilding (e.filled D b p (n - p)) R D b n n n
  | [], k + 1, p, q, z, e, h, hts, hq, _ => rebuildChunk_end h (hq.trans hts.le) k q
  | none :: ts, k, p, q, z, e, h, hts, hq, hk =>
    rebuildChunk_of hchecks (ts := ts) h hts.2 (Nat.le_succ_of_le hq) (by omega)
  | some m :: ts, k + 1, p, q, z, e, h, hts, hq, hk => by
    obtain ⟨hm, hts⟩ := hts
    have hmin := hm.minimum
    have hin := hm.inside
    obtain ⟨z1, hz1, hrun⟩ := rebuildChunk_match h hq hm hchecks k ts
    obtain ⟨z2, hrest, hz2⟩ := rebuildChunk_of hchecks hz1 hts (Nat.le_refl _) (k := k) (by omega)
    have hfill : (e.filled D b p (q + m.len - p)).filled D b (q + m.len) (n - (q + m.len)) = e.filled D b p (n - p) := by
      have := Env.filled_add e D b p (q + m.len - p) (n - (q + m.len))
      rwa [show p + (q + m.len - p) = q + m.len by omega, show q + m.len - p + (n - (q + m.len)) = n - p by omega] at this
    rw [hfill] at hrest hz2
    exact ⟨z2, hrun.trans hrest, hz2⟩

end Sys2Proof.Machine
end

section
/-!
`RZ_INV` as a whole: past its checks it writes what its payload gives back, then the tail. O49: the checks of both commands.
-/

namespace Sys2Proof.Machine

variable {w : Windows} {S B : Nat → Byte} {n k p o a : Nat} {v : BitVec 32} {z z' : Rolz} {e e' : Env} {s u : State} {x : Word}

/-! ### The size in front -/

theorem beBytes4_toNat (v : BitVec 32) :
    2 ^ 24 * (v.extractLsb' 24 8).toNat + 2 ^ 16 * (v.extractLsb' 16 8).toNat + 2 ^ 8 * (v.extractLsb' 8 8).toNat +
      (v.extractLsb' 0 8).toNat = v.toNat := by
  have hv := v.isLt
  simp only [BitVec.extractLsb'_toNat, Nat.shiftRight_eq_div_pow]
  omega

theorem memReadBE4_of (he : e.Holds a n S) (hn : 4 ≤ n) (ha : a + n ≤ 2 ^ 32) (hS : dataFrom S 0 4 = beBytes4 v) :
    memReadBE4 a (z, e) = .ok v.toNat (z, e) := by
  have hread : ∀ i < 4, memRead (a + i) (z, e) = .ok (S i) (z, e) := fun i hi => by
    rw [memRead_of (t := (z, e)) he.quiet (by omega), he.read i (by omega)]
  have hbyte : ∀ i < 4, S i = (beBytes4 v).getD i 0 := fun i hi => by
    rw [← hS, dataFrom_getD S 0 hi, Nat.zero_add]
  rw [memReadBE4, Cmd.bind_of_ok _ (show memRead a (z, e) = _ from hread 0 (by omega)), Cmd.bind_of_ok _ (hread 1 (by omega)),
    Cmd.bind_of_ok _ (hread 2 (by omega)), Cmd.bind_of_ok _ (hread 3 (by omega)), Cmd.pure_run, hbyte 0 (by omega),
    hbyte 1 (by omega), hbyte 2 (by omega), hbyte 3 (by omega), ← beBytes4_toNat v]
  rfl

/-! ### The tail -/

theorem copyTail_of (hw : w.Apart) : ∀ {k p o : Nat} {e : Env}, e.Holds w.srcBase.toNat w.srcLen.toNat S →
    p + k ≤ w.srcLen.toNat → o + k ≤ w.dstCap.toNat →
    copyTail (w.srcBase.toNat + p) (w.dstBase.toNat + o) k (z, e) =
      .ok () (z, e.stored (w.dstBase.toNat + o) (dataFrom S p k))
  | 0, _, _, _, _, _, _ => rfl
  | k + 1, p, o, e, he, hp, ho => by
    have hsrc : w.srcBase.toNat + w.srcLen.toNat ≤ 2 ^ 32 := hw.src
    have hdst : w.dstBase.toNat + w.dstCap.toNat ≤ 2 ^ 32 := hw.dst
    have hread : memRead (w.srcBase.toNat + p) (z, e) = .ok (S p) (z, e) := by
      rw [memRead_of (t := (z, e)) he.quiet (by omega), he.read p (by omega)]
    have hrest := copyTail_of hw (k := k) (p := p + 1) (o := o + 1)
      (he.stored_dst hw (o := o) (l := [S p]) (by rw [List.length_singleton]; omega)) (by omega) (by omega)
    rw [copyTail, Cmd.bind_of_ok _ hread, Cmd.bind_of_ok _ (memWrite_stored he.quiet (by omega)), Nat.add_assoc,
      Nat.add_assoc, hrest, dataFrom_succ, ← List.singleton_append, Env.stored_append]
    rfl

/-! ### The block -/

theorem decodeBlock_empty (hn : w.srcLen.toNat = 0) : decodeBlock w (z, e) = .ok 0 (z.uncounted.ended, e) := by
  simp only [decodeBlock, hn, if_true]
  rfl

/-- The rule up to the check of the capacity. -/
theorem decodeBlock_size (he : e.Holds w.srcBase.toNat w.srcLen.toNat S) (hsrc : fits w.srcBase w.srcLen)
    (hlen : 4 ≤ w.srcLen.toNat) (hS : dataFrom S 0 4 = beBytes4 v) (hmax : v.toNat ≤ 2 ^ 27) :
    decodeBlock w (z, e) = (do
      check (decide (w.dstCap.toNat < v.toNat)) .bufferTooSmall 2
      checkMid (decide (w.srcLen.toNat < 4 + tailOf v.toNat)) .invalidData 18
      let sp ← decodePayload w (v.toNat - tailOf v.toNat) 4 (w.srcLen.toNat - tailOf v.toNat)
      checkMid (decide (sp ≠ w.srcLen.toNat - tailOf v.toNat)) .invalidData 24
      copyTail (w.srcBase.toNat + (w.srcLen.toNat - tailOf v.toNat)) (w.dstBase.toNat + (v.toNat - tailOf v.toNat))
        (tailOf v.toNat)
      endBlock
      pure (BitVec.ofNat 64 v.toNat) : Cmd (Rolz × Env) Word) (z.uncounted, e) := by
  have hbegin : (setRolz fun z => { z with counters := [] }) (z, e) = .ok ⟨⟩ (z.uncounted, e) := rfl
  have hlarge : decide (Config.maxBlock < v.toNat) = false := decide_lt_eq_false hmax
  rw [decodeBlock, Cmd.bind_of_ok _ hbegin, if_neg (by omega), checkMid_pass (decide_lt_eq_false hlen),
    Cmd.bind_of_ok _ (memReadBE4_of he hlen hsrc hS), checkMid_pass hlarge]

/-- A block that does not fit the DST window (60_exceptions.md R390). -/
theorem decodeBlock_large (he : e.Holds w.srcBase.toNat w.srcLen.toNat S) (hsrc : fits w.srcBase w.srcLen)
    (hlen : 4 ≤ w.srcLen.toNat) (hS : dataFrom S 0 4 = beBytes4 v) (hmax : v.toNat ≤ 2 ^ 27)
    (hcap : w.dstCap.toNat < v.toNat) :
    decodeBlock w (z, e) = .error (.raise (errOf .bufferTooSmall 2 0 false)) (z.uncounted, e) := by
  rw [decodeBlock_size he hsrc hlen hS hmax, check_stop (decide_eq_true hcap)]

/-- A block of `v` bytes whose payload of `k` bytes gives back the bytes before the tail. -/
theorem decodeBlock_of (hw : w.Apart) (he : e.Holds w.srcBase.toNat w.srcLen.toNat S) (hS : dataFrom S 0 4 = beBytes4 v)
    (hmax : v.toNat ≤ 2 ^ 27) (hcap : v.toNat ≤ w.dstCap.toNat) (hlen : w.srcLen.toNat = 4 + k + tailOf v.toNat)
    (htail : dataFrom S (4 + k) (tailOf v.toNat) = dataFrom B (v.toNat - tailOf v.toNat) (tailOf v.toNat))
    (hpayload : decodePayload w (v.toNat - tailOf v.toNat) 4 (4 + k) (z.uncounted, e) =
      .ok (4 + k) (z', e.filled B w.dstBase.toNat 0 (v.toNat - tailOf v.toNat))) :
    decodeBlock w (z, e) = .ok (BitVec.ofNat 64 v.toNat) (z'.ended, e.filled B w.dstBase.toNat 0 v.toNat) := by
  have hle := tailOf_le v.toNat
  have he' : (e.filled B w.dstBase.toNat 0 (v.toNat - tailOf v.toNat)).Holds w.srcBase.toNat w.srcLen.toNat S :=
    he.stored_dst hw (by rw [dataFrom_length]; omega)
  have hcopy := copyTail_of (z := z') hw he' (k := tailOf v.toNat) (p := 4 + k) (o := v.toNat - tailOf v.toNat) (by omega)
    (by omega)
  have hfill := Env.filled_add e B w.dstBase.toNat 0 (v.toNat - tailOf v.toNat) (tailOf v.toNat)
  rw [Nat.zero_add, Nat.sub_add_cancel hle] at hfill
  rw [htail] at hcopy
  replace hcopy := hcopy.trans (congrArg (fun e => EStateM.Result.ok () (z', e)) hfill)
  rw [decodeBlock_size he hw.src (by omega) hS hmax, check_pass (decide_lt_eq_false hcap),
    checkMid_pass (decide_lt_eq_false (by omega)), show w.srcLen.toNat - tailOf v.toNat = 4 + k by omega,
    Cmd.bind_of_ok _ hpayload, checkMid_pass (decide_eq_false (not_not_intro rfl)), Cmd.bind_of_ok _ hcopy]
  rfl

/-! ### The rule -/

theorem rzInvBody_of_error {y : Abort} (h : checkBlock s s = .error y s) : rzInvBody s = .error y s := by
  rw [rzInvBody, Cmd.get_bind, Cmd.bind_of_error _ h]

theorem rzInvBody_of (hr : s.rz.ready = true) (hw : s.win.Apart) (h : decodeBlock s.win (s.rz, s.env) = .ok x (z', e')) :
    rzInvBody s = .ok x { s with rz := z', env := e' } := by
  rw [rzInvBody, Cmd.get_bind, Cmd.bind_of_ok _ (checkBlock_pass hr hw)]
  exact onRolz_of h

theorem rzInvBody_stop (hr : s.rz.ready = true) (hw : s.win.Apart) {y : Abort}
    (h : decodeBlock s.win (s.rz, s.env) = .error y (z', s.env)) : rzInvBody s = .error y { s with rz := z' } := by
  rw [rzInvBody, Cmd.get_bind, Cmd.bind_of_ok _ (checkBlock_pass hr hw)]
  exact zoom_of_error (part := fun s : State => (s.rz, s.env)) (put := fun t s => (s.withRz t.1).withEnv t.2) h

/-! ### The checks -/

/-- A check of both commands that fails. -/
theorem block_fails (hs : s.live) {sub : Byte} (h : checkBlock s s = .error (.raise (errOf .invalidParameter sub 0 false)) s) :
    exec .rzFwd s = .next (s.failed 0x71 .invalidParameter sub.toNat) ∧
      exec .rzInv s = .next (s.failed 0x72 .invalidParameter sub.toNat) :=
  ⟨exec_fails (i := .rzFwd) nofun hs (rzFwdBody_of_error h), exec_fails (i := .rzInv) nofun hs (rzInvBody_of_error h)⟩

/-- The first bytes of a window whose bytes of MEM are known. -/
theorem dataFrom_read {l : List Byte} (h : memBytes e.mem a k = l) :
    dataFrom (fun i => Memory.read e.mem (a + i)) 0 k = l := by
  rw [← h, memBytes]
  simp only [dataFrom, Nat.zero_add]

/-- Settles O49: each check in its turn; the capacity of `RZ_INV` is checked past the clearing of the counters. -/
theorem blockChecksChangeNothing : Obligations.BlockChecksChangeNothing := by
  intro s hs
  refine ⟨fun hr => block_fails hs (sub := 3) (checkBlock_unready hr), fun hr =>
    ⟨fun hfit => block_fails hs (sub := 4) (checkBlock_window hr hfit), fun hsrc hdst =>
      ⟨fun hover => block_fails hs (sub := 5) (checkBlock_overlap hr hsrc hdst hover), fun hover hn => ?_,
        fun n hover he hlen hsize hmax hcap => ?_⟩⟩⟩
  · exact exec_fails (i := .rzFwd) (sub := 7) nofun hs (rzFwdBody_large hr ⟨⟨hsrc, hdst⟩, hover⟩ hn)
  · have hv : (BitVec.ofNat 32 n).toNat = n := by
      rw [BitVec.toNat_ofNat, Nat.mod_eq_of_lt (by omega)]
    have hrun := decodeBlock_large (z := s.rz) (.self he s.win.srcBase.toNat s.win.srcLen.toNat) hsrc hlen
      (dataFrom_read hsize) (by rw [hv]; exact hmax) (by rw [hv]; exact hcap)
    exact exec_fails (i := .rzInv) (sub := 2) nofun hs (rzInvBody_stop hr ⟨⟨hsrc, hdst⟩, hover⟩ hrun)

end Sys2Proof.Machine
end

section
/-!
O47: a block of at most 4 bytes is all tail, for both commands and either back end.
-/

namespace Sys2Proof.Machine

variable {w : Windows} {S D : Nat → Byte} {n b p k a : Nat} {size : BitVec 32} {z : Rolz} {e : Env} {s : State}

/-! ### Small blocks -/

theorem tailOf_small (hn : n ≤ 4) : tailOf n = n := Nat.min_eq_right hn

/-- A block without a chunk has no payload to read. -/
theorem decodePayload_zero (w : Windows) (sp pend : Nat) (t : Rolz × Env) : decodePayload w 0 sp pend t = .ok sp t := by
  rw [decodePayload, Cmd.get_bind]
  dsimp only
  split_ifs
  · rfl
  · omega
  · rfl

theorem encodeBlock_small (hw : w.Apart) (he : e.Holds w.srcBase.toNat w.srcLen.toNat S) (h0 : w.srcLen.toNat ≠ 0)
    (hn : w.srcLen.toNat ≤ 4) (hcap : w.srcLen.toNat + 4 ≤ w.dstCap.toNat) (z : Rolz) (lr : Nat) :
    encodeBlock w lr (z, e) = .ok (BitVec.ofNat 64 (w.srcLen.toNat + 4))
      (z.uncounted.ended, e.stored w.dstBase.toNat (beBytes4 w.srcLen ++ dataFrom S 0 w.srcLen.toNat)) := by
  have hpayload : (encodePayload w lr (w.srcLen.toNat - tailOf w.srcLen.toNat) 4).Emits w
      (z.uncounted, e.put w 0 (beBytes4 w.srcLen)) 4 [] (4 + ([] : List Byte).length) z.uncounted := by
    rw [tailOf_small hn, Nat.sub_self]
    exact Cmd.Emits.of_ok (encodePayload_zero _ _ _ _)
  have hblock : encodedBlock w.srcLen [] S = beBytes4 w.srcLen ++ dataFrom S 0 w.srcLen.toNat := by
    rw [encodedBlock, tailOf_small hn, Nat.sub_self, List.nil_append]
  have hlen : (encodedBlock w.srcLen [] S).length = w.srcLen.toNat + 4 := by
    rw [encodedBlock_length, tailOf_small hn, List.length_nil]
    omega
  have hroom : w.Room 0 (encodedBlock w.srcLen [] S) := .inr (by omega)
  have hrun := (encodeBlock_emits_of_payload hw he h0 hpayload).1 hroom
  rw [hlen, Env.put_of_room hroom, hblock] at hrun
  exact hrun

theorem decodeBlock_small (hw : w.Apart) (he : e.Holds w.srcBase.toNat w.srcLen.toNat S) (hS : dataFrom S 0 4 = beBytes4 size)
    (hn : size.toNat ≤ 4) (hlen : w.srcLen.toNat = size.toNat + 4) (hcap : size.toNat ≤ w.dstCap.toNat) :
    decodeBlock w (z, e) = .ok (BitVec.ofNat 64 size.toNat)
      (z.uncounted.ended, e.filled (fun i => S (4 + i)) w.dstBase.toNat 0 size.toNat) := by
  have htail : dataFrom S (4 + 0) (tailOf size.toNat) =
      dataFrom (fun i => S (4 + i)) (size.toNat - tailOf size.toNat) (tailOf size.toNat) := by
    rw [tailOf_small hn, Nat.sub_self]
    simp [dataFrom]
  refine decodeBlock_of (k := 0) hw he hS (by omega) hcap (by rw [tailOf_small hn]; omega) htail ?_
  rw [tailOf_small hn, Nat.sub_self]
  exact decodePayload_zero _ _ _ _

/-! ### MEM after the stores -/

theorem Env.read_filled (e : Env) (D : Nat → Byte) (b p k a : Nat) :
    Memory.read (e.filled D b p k).mem a = if b + p ≤ a ∧ a < b + p + k then D (a - b) else Memory.read e.mem a := by
  rw [Env.read_stored, dataFrom_length]
  split_ifs with h
  · rw [dataFrom_getD D p (by omega)]
    congr 1
    omega
  · rfl

/-- The size of a block of less than 256 bytes. -/
theorem beBytes4_small (hn : n < 256) : beBytes4 (BitVec.ofNat 32 n) = [0, 0, 0, BitVec.ofNat 8 n] := by
  have h0 : ∀ i, 8 ≤ i → (BitVec.ofNat 32 n).extractLsb' i 8 = 0 := fun i hi => by
    have hsmall : n < 2 ^ i := lt_of_lt_of_le hn (Nat.pow_le_pow_right Nat.two_pos hi)
    apply BitVec.eq_of_toNat_eq
    rw [BitVec.extractLsb'_toNat, BitVec.toNat_ofNat, Nat.mod_eq_of_lt (show n < 2 ^ 32 by omega),
      Nat.shiftRight_eq_div_pow, Nat.div_eq_of_lt hsmall]
    rfl
  have hlast : (BitVec.ofNat 32 n).extractLsb' 0 8 = BitVec.ofNat 8 n := by
    apply BitVec.eq_of_toNat_eq
    rw [BitVec.extractLsb'_toNat, BitVec.toNat_ofNat, BitVec.toNat_ofNat,
      Nat.mod_eq_of_lt (show n < 2 ^ 32 by omega), Nat.shiftRight_zero]
  rw [beBytes4, h0 24 (by decide), h0 16 (by decide), h0 8 (by decide), hlast]

/-- What MEM reads after a small encoded block is stored. -/
theorem read_small_block (e : Env) (S : Nat → Byte) (b n a : Nat) (hn : n < 256) :
    Memory.read (e.stored b (beBytes4 (BitVec.ofNat 32 n) ++ dataFrom S 0 n)).mem a =
      if a = b ∨ a = b + 1 ∨ a = b + 2 then 0 else if a = b + 3 then BitVec.ofNat 8 n
      else if b + 4 ≤ a ∧ a < b + 4 + n then S (a - (b + 4)) else Memory.read e.mem a := by
  have hdata := Env.read_filled (e.stored b (beBytes4 (BitVec.ofNat 32 n))) S (b + 4) 0 n a
  have hsize := Env.read_stored e b (beBytes4 (BitVec.ofNat 32 n)) a
  rw [beBytes4_length, beBytes4_small hn] at hsize
  rw [Env.stored_append, beBytes4_length]
  refine hdata.trans ?_
  by_cases hin : b + 4 + 0 ≤ a ∧ a < b + 4 + 0 + n
  · rw [if_pos hin, if_neg (by omega), if_neg (by omega), if_pos (by omega)]
  · rw [if_neg hin, beBytes4_small hn, hsize]
    by_cases hfront : b ≤ a ∧ a < b + 4
    · rw [if_pos hfront]
      obtain h | rfl : (a = b ∨ a = b + 1 ∨ a = b + 2) ∨ a = b + 3 := by omega
      · rw [if_pos h]
        rcases h with rfl | rfl | rfl
        · rw [Nat.sub_self]
          rfl
        · rw [Nat.add_sub_cancel_left]
          rfl
        · rw [Nat.add_sub_cancel_left]
          rfl
      · rw [if_neg (by omega), if_pos rfl, Nat.add_sub_cancel_left]
        rfl
    · rw [if_neg hfront, if_neg (by omega), if_neg (by omega), if_neg (by omega)]

/-- Settles O47: both commands on a block that is all tail, and what MEM reads after. -/
theorem storedBlocksRoundTrip : Obligations.StoredBlocksRoundTrip := by
  intro s n hs hr _ hsrc hdst hover he hn
  have hw : s.win.Apart := ⟨⟨hsrc, hdst⟩, hover⟩
  have hS := Env.Holds.self he s.win.srcBase.toNat s.win.srcLen.toNat
  have hnat : (BitVec.ofNat 32 n).toNat = n := by
    rw [BitVec.toNat_ofNat, Nat.mod_eq_of_lt (by omega)]
  refine ⟨fun h0 => ⟨?_, ?_⟩, fun h1 hlen hcap => ?_, fun hlen hcap h0 h1 h2 h3 => ?_⟩
  · exact exec_completes (i := .rzFwd) nofun hs (rzFwdBody_of hr hw (by omega) (encodeBlock_empty h0 _))
  · exact exec_completes (i := .rzInv) nofun hs (rzInvBody_of hr hw (decodeBlock_empty h0))
  · have hsize : s.win.srcLen = BitVec.ofNat 32 n := BitVec.eq_of_toNat_eq (by rw [hnat, hlen])
    have hrun := encodeBlock_small hw hS (by omega) (by omega) (by omega) s.rz s.logRange.toNat
    rw [hlen, hsize] at hrun
    exact ⟨_, exec_completes (i := .rzFwd) nofun hs (rzFwdBody_of hr hw (by omega) hrun),
      fun a => read_small_block s.env _ s.win.dstBase.toNat n a (by omega)⟩
  · have hsize : dataFrom (fun i => Memory.read s.env.mem (s.win.srcBase.toNat + i)) 0 4 = beBytes4 (BitVec.ofNat 32 n) := by
      rw [beBytes4_small (by omega)]
      show [_, _, _, _] = _
      simp only [Nat.zero_add, Nat.add_zero, h0, h1, h2, h3]
    have hrun := decodeBlock_small (z := s.rz) hw hS hsize (by omega) (by omega) (by omega)
    rw [hnat] at hrun
    refine ⟨_, exec_completes (i := .rzInv) nofun hs (rzInvBody_of hr hw hrun), fun a => ?_⟩
    have hread := Env.read_filled s.env (fun i => Memory.read s.env.mem (s.win.srcBase.toNat + (4 + i)))
      s.win.dstBase.toNat 0 n a
    refine hread.trans ?_
    simp only [Nat.add_zero, Nat.add_assoc]

end Sys2Proof.Machine
end

section
/-!
The readers of `RZ_INV`: over bytes of MEM that hold fields, they read the fields.
-/

namespace Sys2Proof.Machine

variable {α : Type} {l : List Byte} {bits rest : List Bool} {base i : Nat} {r : BitSource} {z : Rolz} {e : Env}

/-! ### Bits of bytes -/

/-- Bit `i` of the bits of bytes is bit `7 - i % 8` of byte `i / 8`. -/
theorem bytesBits_getElem : ∀ {l : List Byte} {i : Nat} (h : i < (bytesBits l).length),
    (bytesBits l)[i] = (l.getD (i / 8) 0).getLsbD (7 - i % 8)
  | [], i, h => absurd h (Nat.not_lt_zero i)
  | b :: l, i, h => by
    simp only [bytesBits_cons, List.getElem_append, bitsOf_length]
    split_ifs with hi
    · rw [bitsOf_getElem, BitVec.getLsbD_setWidth, Nat.div_eq_of_lt hi, Nat.mod_eq_of_lt hi]
      simp [show 8 - 1 - i < 64 by omega]
    · have hlen : i - 8 < (bytesBits l).length := by
        rw [bytesBits_length, List.length_cons] at h
        rw [bytesBits_length]
        omega
      rw [bytesBits_getElem hlen, show i / 8 = (i - 8) / 8 + 1 by omega, show i % 8 = (i - 8) % 8 by omega,
        List.getD_cons_succ]

/-- Packed bits begin with the bits; zeros fill the last byte. -/
theorem bytesBits_pack_of : ∀ {m : Nat} {l : List Bool}, l.length = 8 * m → bytesBits (pack l) = l
  | 0, l, h => by
    obtain rfl : l = [] := List.eq_nil_of_length_eq_zero h
    rfl
  | m + 1, l, h => by
    have hfirst : (l.take 8).length = 8 := by rw [List.length_take]; omega
    have hvalue := bitsNat_lt (l.take 8)
    rw [hfirst] at hvalue
    have hword := bitsOf_bitsNat (l := l.take 8) (by omega)
    have hbyte : (BitVec.ofNat 8 (bitsNat (l.take 8))).setWidth 64 = BitVec.ofNat 64 (bitsNat (l.take 8)) := by
      apply BitVec.eq_of_toNat_eq
      rw [BitVec.toNat_setWidth, BitVec.toNat_ofNat, BitVec.toNat_ofNat, Nat.mod_eq_of_lt hvalue]
    have hpack := pack_byte (BitVec.ofNat 8 (bitsNat (l.take 8)))
    rw [hbyte] at hpack
    rw [hfirst] at hword
    rw [hword] at hpack
    have hrest : (l.drop 8).length = 8 * m := by rw [List.length_drop]; omega
    calc bytesBits (pack l) = bytesBits (pack (l.take 8 ++ l.drop 8)) := by rw [List.take_append_drop]
      _ = l.take 8 ++ l.drop 8 := by
        rw [pack_append _ (by omega), hpack, bytesBits_append, bytesBits_cons, bytesBits_nil, List.append_nil, hbyte, hword,
          bytesBits_pack_of hrest]
      _ = l := List.take_append_drop 8 l

theorem bytesBits_pack (l : List Bool) : ∃ fill, bytesBits (pack l) = l ++ fill := by
  refine ⟨List.replicate ((8 - l.length % 8) % 8) false, ?_⟩
  rw [← pack_padded]
  refine bytesBits_pack_of (m := bytesFor l.length) ?_
  rw [List.length_append, List.length_replicate, bytesFor]
  omega

/-! ### A reader of its own (46_rolz_backend1.md R331) -/

/-- The reader is one of the bytes `l` at address `base`, and has the bits `rest` left. -/
structure BitSource.Has (r : BitSource) (base : Nat) (l : List Byte) (rest : List Bool) : Prop where
  base : r.base = base
  nbits : r.nbits = 8 * l.length
  count : r.pos + rest.length = 8 * l.length
  rest : (bytesBits l).drop r.pos = rest

theorem BitSource.has_all (base : Nat) (l : List Byte) :
    ({ base := base, nbits := 8 * l.length, pos := 0 } : BitSource).Has base l (bytesBits l) :=
  ⟨rfl, rfl, by simp, rfl⟩

/-- One bit consumed. -/
theorem BitSource.Has.next {b : Bool} (h : r.Has base l (b :: rest)) :
    ({ r with pos := r.pos + 1 } : BitSource).Has base l rest := by
  have hcount := h.count
  rw [List.length_cons] at hcount
  refine ⟨h.base, h.nbits, by show r.pos + 1 + _ = _; omega, ?_⟩
  show (bytesBits l).drop (r.pos + 1) = rest
  rw [← List.drop_drop, h.rest]
  rfl

theorem BitSource.Has.bit {b : Bool} (h : r.Has base l (b :: rest)) :
    (l.getD (r.pos / 8) 0).getLsbD (7 - r.pos % 8) = b := by
  have hcount := h.count
  rw [List.length_cons] at hcount
  have hpos : r.pos < (bytesBits l).length := by
    rw [bytesBits_length]
    omega
  have hdrop := h.rest
  rw [List.drop_eq_getElem_cons hpos] at hdrop
  rw [← bytesBits_getElem hpos]
  exact (List.cons.inj hdrop).1

/-- What a reader of fields is, of the reader over bytes that MEM holds. -/
def SourceHas (e : Env) (base : Nat) (l : List Byte) (rest : List Bool) (t : BitSource × Env) : Prop :=
  t.2 = e ∧ t.1.Has base l rest

theorem sourceBits_of (he : e.Holds base l.length fun i => l.getD i 0) (hfit : base + l.length ≤ 2 ^ 32) :
    ∀ {k acc : Nat} {r : BitSource} {rest : List Bool}, r.Has base l rest → k ≤ rest.length →
      ∃ r', sourceBits k acc (r, e) = .ok (acc * 2 ^ k + bitsNat (rest.take k)) (r', e) ∧ r'.Has base l (rest.drop k)
  | 0, acc, r, rest, h, _ => ⟨r, by rw [Nat.pow_zero, Nat.mul_one]; rfl, h⟩
  | k + 1, acc, r, b :: rest, h, hk => by
    have hk : k ≤ rest.length := Nat.le_of_succ_le_succ hk
    have hcount := h.count
    rw [List.length_cons] at hcount
    have hread : memRead (r.base + r.pos / 8) (r, e) = .ok (l.getD (r.pos / 8) 0) (r, e) := by
      rw [h.base, memRead_of (t := (r, e)) he.quiet (by omega), he.read _ (by omega)]
    obtain ⟨r', hrun, hr'⟩ := sourceBits_of he hfit (acc := 2 * acc + b.toNat) h.next hk
    refine ⟨r', ?_, hr'⟩
    rw [sourceBits, Cmd.get_bind]
    dsimp only
    rw [Cmd.bind_of_ok _ hread, h.bit]
    refine hrun.trans ?_
    rw [List.take_succ_cons, bitsNat_cons, List.length_take, Nat.min_eq_left hk]
    congr 1
    ring

/-- The reader over bytes that MEM holds is a reader of fields. -/
theorem readSource_reads (he : e.Holds base l.length fun i => l.getD i 0) (hfit : base + l.length ≤ 2 ^ 32) :
    ReadsFields (SourceHas e base l) readSource := by
  rintro len rest ⟨r, _⟩ _ hlen ⟨rfl, h⟩
  obtain ⟨r', hrun, hr'⟩ := sourceBits_of he hfit (acc := 0) h hlen
  have hcount : r.pos + rest.length = 8 * l.length := h.count
  have hnbits : r.nbits = 8 * l.length := h.nbits
  refine ⟨(r', _), ?_, rfl, hr'⟩
  rw [readSource, Cmd.get_bind]
  dsimp only
  rw [checkMid_pass (decide_lt_eq_false (by omega)), Cmd.bind_of_ok _ hrun, Nat.zero_mul, Nat.zero_add]
  rfl

/-- A piece that reads bits, inside the ROLZ unit's rule. -/
theorem withSource_of {x : Cmd (BitSource × Env) α} {a : α} (hx : x.Decodes (SourceHas e base l) bits a)
    (h : r.Has base l (bits ++ rest)) : ∃ r', withSource r x (z, e) = .ok (a, r') (z, e) ∧ r'.Has base l rest := by
  obtain ⟨⟨r', _⟩, hrun, rfl, hr'⟩ := hx rest (r, e) ⟨rfl, h⟩
  refine ⟨r', ?_, hr'⟩
  rw [withSource]
  dsimp only
  rw [hrun]

end Sys2Proof.Machine
end

section
/-!
Back end 1, decoding: from the payload that decisions make, the chunks of a block are read back and rebuilt.
-/

namespace Sys2Proof.Machine

variable {w : Windows} {S B D : Nat → Byte} {l : List Byte} {base size start n p q sp lr k : Nat} {R : Rings} {z : Rolz}
  {e : Env} {t : Streams}

/-! ### The streams of a chunk (46_rolz_backend1.md R327, R332) -/

/-- Every stream fits the chunk. -/
structure Streams.Fit (t : Streams) (size : Nat) : Prop where
  lit : t.lit.length ≤ size
  len : t.len.length ≤ size
  idx : t.idx.length ≤ size

/-- A tuple is shorter than what it covers. -/
theorem emitLengths_match {l m : Nat} (hm : 3 ≤ m) : (emitLengths l (m - Config.minMatch)).length + 1 ≤ l + m := by
  have h := (emitLengths_length l (m - Config.minMatch)).2
  rw [Config.minMatch] at h ⊢
  split_ifs at h <;> omega

theorem emitLengths_terminal (l : Nat) : (emitLengths l 0).length ≤ max 1 l := by
  have h := (emitLengths_length l 0).2
  split_ifs at h <;> omega

theorem streamsOf_lengths : ∀ {ts : List (Option Match)} {q p : Nat}, R.Parse D n q ts → p ≤ q →
    (streamsOf D n q p ts).lit.length ≤ n - p ∧ (streamsOf D n q p ts).len.length ≤ max 1 (n - p) ∧
      (streamsOf D n q p ts).idx.length ≤ n - p
  | [], q, p, _, _ => ⟨by rw [streamsOf, dataFrom_length], emitLengths_terminal _, Nat.zero_le _⟩
  | none :: ts, q, p, h, hp => streamsOf_lengths (ts := ts) h.2 (Nat.le_succ_of_le hp)
  | some m :: ts, q, p, h, hp => by
    obtain ⟨hm, hts⟩ := h
    have hin := hm.inside
    have hmin := hm.minimum
    have htuple := emitLengths_match (l := q - p) hmin
    obtain ⟨hlit, hlen, hidx⟩ := streamsOf_lengths hts (Nat.le_refl _)
    rw [streamsOf]
    simp only [List.length_append, dataFrom_length, List.length_cons]
    omega

theorem Chunk.streams_fit {c : Chunk} (h : R.Parse (c.data B) c.size 0 c.decisions) (hsize : 0 < c.size) :
    (c.streams B).Fit c.size := by
  obtain ⟨hlit, hlen, hidx⟩ := streamsOf_lengths h (Nat.le_refl 0)
  exact ⟨hlit, hlen.trans (by omega), hidx⟩

theorem readStreams_decodes (h : ReadsFields (SourceHas e base l) readSource) (h8 : 8 ≤ lr) (h16 : lr ≤ 16)
    (ht : t.Fit size) (hsize : size ≤ 2 ^ 26) :
    (readStreams size).Decodes (SourceHas e base l) (fieldBits (chunkFields lr t)) t := by
  have hvalue : ∀ x : List Byte, x.length ≤ size → (BitVec.ofNat 64 x.length).toNat = x.length := fun x hx => by
    rw [BitVec.toNat_ofNat, Nat.mod_eq_of_lt (by omega)]
  have hfield : ∀ x : List Byte, x.length ≤ size →
      (readSource 32).Decodes (SourceHas e base l) (bitsOf (BitVec.ofNat 64 x.length) 32) (BitVec.ofNat 64 x.length) :=
    fun x hx => h.field (by decide) (by rw [hvalue x hx]; omega)
  have hbits : fieldBits (chunkFields lr t) = bitsOf (BitVec.ofNat 64 t.lit.length) 32 ++
      (bitsOf (BitVec.ofNat 64 t.len.length) 32 ++ (bitsOf (BitVec.ofNat 64 t.idx.length) 32 ++
        (fieldBits (ansFields true lr t.lit) ++ (fieldBits (ansFields false lr t.len) ++
          fieldBits (ansFields false lr t.idx))))) := by
    simp only [chunkFields, fieldBits_append, fieldBits_cons, List.append_assoc]
    rfl
  rw [hbits]
  refine (hfield t.lit ht.lit).bind ((hfield t.len ht.len).bind ((hfield t.idx ht.idx).bind
    (Cmd.Decodes.checkMid_then ?_ ?_)))
  · rw [hvalue _ ht.lit, hvalue _ ht.len, hvalue _ ht.idx, decide_lt_eq_false ht.lit, decide_lt_eq_false ht.len,
      decide_lt_eq_false ht.idx]
    rfl
  · rw [hvalue _ ht.lit, hvalue _ ht.len, hvalue _ ht.idx]
    exact (ansDecode_decodes h h8 h16 true t.lit).bind ((ansDecode_decodes h h8 h16 false t.len).bind
      ((ansDecode_decodes h h8 h16 false t.idx).bind_pure fun idx => ({ lit := t.lit, len := t.len, idx := idx } : Streams)))

/-! ### A chunk -/

/-- A chunk of the DST window as it begins (46_rolz_backend1.md R332). -/
theorem openChunk_rebuilding (hw : w.Fit) (hz : z.Counts R) (he : e.quiet) (hn : 0 < n) (hsmall : n ≤ 2 ^ 26)
    (hin : start + n ≤ w.dstCap.toNat) (D : Nat → Byte) :
    ∃ z', openChunk w.dstBase w.dstCap start n (z, e) = .ok () (z', e) ∧ z'.lpc = z.lpc ∧
      z'.Rebuilding e R.cleared D (w.dstBase.toNat + start) n 0 0 := by
  have hdst : w.dstBase.toNat + w.dstCap.toNat ≤ 2 ^ 32 := hw.dst
  have hcounts : Rolz.Counts { z with
      matchRing := [], cbase := BitVec.ofNat 32 (w.dstBase.toNat + start), csize := BitVec.ofNat 32 n
      clen := BitVec.ofNat 32 (w.dstCap.toNat - start) } R := ⟨hz.lpc, hz.counter⟩
  refine ⟨_, rfl, rfl, ?_, by omega, hsmall, hcounts.cleared rfl, he, nofun⟩
  rw [BitVec.toNat_ofNat, Nat.mod_eq_of_lt (by omega)]

theorem dataFrom_chunk (B : Nat → Byte) (start p k : Nat) :
    dataFrom (fun i => B (start + i)) p k = dataFrom B (start + p) k := by
  simp only [dataFrom, Nat.add_assoc]

/-- The bytes of a chunk stored are bytes of the block stored. -/
theorem Env.filled_chunk (e : Env) (B : Nat → Byte) (b start n : Nat) :
    e.filled (fun i => B (start + i)) (b + start) 0 n = e.filled B b start n := by
  unfold Env.filled
  rw [dataFrom_chunk, Nat.add_zero, Nat.add_zero]

/-- The bytes that a window holds, as a reader has them. -/
theorem Env.Holds.source (he : e.Holds base n S) (hin : sp + k ≤ n) (hl : dataFrom S sp k = l) :
    e.Holds (base + sp) l.length fun i => l.getD i 0 := by
  subst hl
  refine ⟨he.quiet, fun i hi => ?_⟩
  rw [dataFrom_length] at hi
  rw [Nat.add_assoc, he.read _ (by omega), dataFrom_getD S sp hi]

theorem decodeChunk1_of (hw : w.Apart) (he : e.Holds w.srcBase.toNat w.srcLen.toNat S) (hz : z.Counts R) {c : Chunk}
    (hc : R.cleared.Parse (c.data B) c.size 0 c.decisions) (hchecks : R.posChecks ≤ 256) (hn : 0 < c.size)
    (hsmall : c.size ≤ 2 ^ 26) (hin : c.start + c.size ≤ w.dstCap.toNat) (h8 : 8 ≤ lr) (h16 : lr ≤ 16) {more : List Byte}
    (hsrc : dataFrom S sp k = pack (fieldBits (chunkFields lr (c.streams B))) ++ more) (hfit : sp + k ≤ w.srcLen.toNat) :
    ∃ z', decodeChunk1 w c.start c.size sp (sp + k) (z, e) =
        .ok (sp + (pack (fieldBits (chunkFields lr (c.streams B)))).length)
          (z', e.filled B w.dstBase.toNat c.start c.size) ∧
      z'.Counts (R.cleared.upTo (c.data B) c.size) := by
  have hwin : w.srcBase.toNat + w.srcLen.toNat ≤ 2 ^ 32 := hw.src
  have hlen := congrArg List.length hsrc
  rw [dataFrom_length] at hlen
  obtain ⟨z1, hopen, -, hz1⟩ := openChunk_rebuilding hw.toFit hz he.quiet hn hsmall hin (c.data B)
  obtain ⟨fill, hfill⟩ := bytesBits_pack (fieldBits (chunkFields lr (c.streams B)))
  have hreads := readSource_reads (he.source hfit hsrc) (by omega)
  have hall := BitSource.has_all (w.srcBase.toNat + sp) (pack (fieldBits (chunkFields lr (c.streams B))) ++ more)
  rw [bytesBits_append, hfill, List.append_assoc, ← hlen] at hall
  obtain ⟨r, hread, hr⟩ := withSource_of (z := z1)
    (readStreams_decodes hreads h8 h16 (Chunk.streams_fit hc hn) hsmall) hall
  obtain ⟨z2, hrun, hz2⟩ := rebuildChunk_of (show R.cleared.posChecks ≤ 256 from hchecks) hz1 hc (Nat.le_refl 0)
    (k := c.size + 1) (by omega)
  have hpos : r.pos = (fieldBits (chunkFields lr (c.streams B))).length := by
    have hcount := hr.count
    have htotal := congrArg List.length hfill
    simp only [List.length_append, bytesBits_length] at hcount htotal
    omega
  rw [Nat.sub_zero, Env.filled_chunk, ← Chunk.streams] at hrun
  refine ⟨z2, ?_, hz2.shows.counts⟩
  rw [decodeChunk1, Cmd.bind_of_ok _ hopen, Nat.add_sub_cancel_left, Cmd.bind_of_ok _ hread]
  dsimp only
  rw [Cmd.bind_of_ok _ hrun, Cmd.pure_run, hpos, pack_length]

/-! ### The chunks of a block -/

/-- The chunks cover the bytes from `p` to `n`, in turn. -/
def Tiles (n : Nat) : Nat → List (Nat × Nat) → Prop
  | p, [] => p = n
  | p, c :: l => c.1 = p ∧ 0 < c.2 ∧ c.2 ≤ 2 ^ 26 ∧ Tiles n (p + c.2) l

theorem Tiles.le : ∀ {l : List (Nat × Nat)} {p : Nat}, Tiles n p l → p ≤ n
  | [], _, h => Nat.le_of_eq h
  | c :: l, p, h => (Nat.le_add_right p c.2).trans (Tiles.le (l := l) h.2.2.2)

theorem tiles_range (n : Nat) : ∀ {k i : Nat}, i + k = (n + Config.chunkSize - 1) / Config.chunkSize →
    Tiles n (min (i * Config.chunkSize) n) ((List.range' i k).map fun i =>
      (i * Config.chunkSize, min Config.chunkSize (n - i * Config.chunkSize)))
  | 0, i, h => by
    show min (i * Config.chunkSize) n = n
    unfold Config.chunkSize at h ⊢
    omega
  | k + 1, i, h => by
    have ih := tiles_range n (k := k) (i := i + 1) (by omega)
    rw [List.range'_succ, List.map_cons]
    unfold Config.chunkSize at h ih ⊢
    refine ⟨by dsimp only; omega, by dsimp only; omega, Nat.min_le_left _ _, ?_⟩
    rwa [show min (i * 2 ^ 26) n + min (2 ^ 26) (n - i * 2 ^ 26) = min ((i + 1) * 2 ^ 26) n by omega]

/-- The chunks of a block cover it. -/
theorem tiles_chunksOf (n : Nat) : Tiles n 0 (chunksOf n) := by
  have h := tiles_range n (k := (n + Config.chunkSize - 1) / Config.chunkSize) (i := 0) (Nat.zero_add _)
  rwa [Nat.zero_mul, Nat.zero_min, ← List.range_eq_range'] at h

theorem tiles_boundsOf_cons {c : Chunk} {cs : List Chunk} : Tiles n p (boundsOf (c :: cs)) ↔
    c.start = p ∧ 0 < c.size ∧ c.size ≤ 2 ^ 26 ∧ Tiles n (p + c.size) (boundsOf cs) := Iff.rfl

theorem decodeChunks1_of (hw : w.Apart) (h8 : 8 ≤ lr) (h16 : lr ≤ 16) (hcap : n ≤ w.dstCap.toNat) :
    ∀ {cs : List Chunk} {R : Rings} {z : Rolz} {e : Env} {p sp k : Nat}, z.Counts R →
      e.Holds w.srcBase.toNat w.srcLen.toNat S → R.Parses B cs → R.posChecks ≤ 256 → Tiles n p (boundsOf cs) →
      dataFrom S sp k = payload1 lr B cs → sp + k ≤ w.srcLen.toNat →
      ∃ z', decodeChunks1 w (sp + k) (boundsOf cs) sp (z, e) = .ok (sp + k) (z', e.filled B w.dstBase.toNat p (n - p))
  | [], R, z, e, p, sp, k, _, _, _, _, htiles, hsrc, _ => by
    obtain rfl : p = n := htiles
    have hk : k = 0 := by simpa [payload1] using congrArg List.length hsrc
    subst hk
    exact ⟨z, by rw [Nat.sub_self]; rfl⟩
  | c :: cs, R, z, e, p, sp, k, hz, he, hparses, hchecks, htiles, hsrc, hfit => by
    obtain ⟨hc, hparses⟩ := hparses
    obtain ⟨rfl, hn, hsmall, htiles⟩ := tiles_boundsOf_cons.mp htiles
    have hle := htiles.le
    obtain ⟨z1, hrun, hz1⟩ := decodeChunk1_of hw he hz hc hchecks hn hsmall (by omega) h8 h16 hsrc hfit
    have hlen := congrArg List.length hsrc
    rw [payload1, List.flatMap_cons] at hsrc hlen
    rw [← payload1] at hsrc hlen
    generalize pack (fieldBits (chunkFields lr (c.streams B))) = out at hrun hsrc hlen
    rw [dataFrom_length, List.length_append] at hlen
    subst hlen
    rw [dataFrom_add] at hsrc
    obtain ⟨z2, hrest⟩ := decodeChunks1_of hw h8 h16 hcap hz1
      (he.stored_dst hw (o := c.start) (l := dataFrom B c.start c.size) (by rw [dataFrom_length]; omega)) hparses
      (by rw [Rings.posChecks_upTo]; exact hchecks) htiles (List.append_inj_right hsrc (dataFrom_length _ _ _)) (by omega)
    have hfill := Env.filled_add e B w.dstBase.toNat c.start c.size (n - (c.start + c.size))
    rw [show c.size + (n - (c.start + c.size)) = n - c.start by omega] at hfill
    refine ⟨z2, (Cmd.bind_of_ok _ hrun).trans ?_⟩
    rw [← hfill, ← Nat.add_assoc]
    exact hrest

end Sys2Proof.Machine
end

section
/-!
Back end 2, decoding: from the payload that decisions make, the decoder follows the run of the encoder bit by bit.
-/

namespace Sys2Proof.Machine

variable {w : Windows} {S B D : Nat → Byte} {l : List Byte} {b base start n p q sp k lpc : Nat} {R : Rings} {z : Rolz}
  {e : Env} {c : Dec2} {ms : Models} {m : LocalModel} {run : List (Prob12 × Bool)}

/-! ### The bits of groups -/

/-- The bits of renormalisation groups, 32 of each. -/
def groupsBits (groups : List Word) : List Bool := groups.flatMap fun g => bitsOf g 32

theorem groupsBits_cons (g : Word) (groups : List Word) : groupsBits (g :: groups) = bitsOf g 32 ++ groupsBits groups := rfl

/-- The bytes of a group are the packing of its bits. -/
theorem pack_group (g : Word) : pack (bitsOf g 32) = beBytes4 (g.setWidth 32) := by
  have byte : ∀ k, k + 8 ≤ 32 → bitsOf (g >>> k) 8 = bitsOf (((g.setWidth 32).extractLsb' k 8).setWidth 64) 8 := fun k hk =>
    bitsOf_congr fun i hi => by
      simp only [BitVec.getLsbD_ushiftRight, BitVec.getLsbD_setWidth, BitVec.getLsbD_extractLsb']
      simp [hi, show i < 64 by omega, show k + i < 32 by omega]
  have chunk : ∀ n, n + 8 ≤ 32 →
      pack (bitsOf g (8 + n)) = (g.setWidth 32).extractLsb' n 8 :: pack (bitsOf g n) := fun n hn => by
    rw [bitsOf_add, pack_append _ (by simp), byte n hn, pack_byte]
    rfl
  show pack (bitsOf g (8 + (8 + (8 + (8 + 0))))) = _
  rw [chunk _ (by decide), chunk _ (by decide), chunk _ (by decide), chunk _ (by decide)]
  rfl

theorem bytesBits_group (g : Word) : bytesBits (beBytes4 (g.setWidth 32)) = bitsOf g 32 := by
  rw [← pack_group, bytesBits_pack_of (m := 4) (bitsOf_length _ _)]

theorem bytesBits_groupsBytes : ∀ groups : List Word, bytesBits (groupsBytes groups) = groupsBits groups
  | [] => rfl
  | g :: groups => by
    rw [groupsBytes, List.flatMap_cons, ← groupsBytes, bytesBits_append, bytesBits_group, bytesBits_groupsBytes groups]
    rfl

/-- The bytes of the last `low` are two groups. -/
theorem bytesBits_word (x : Word) : bytesBits (beBytes x) = groupsBits [x >>> 32, x &&& 0xFFFFFFFF#64] := by
  have hlow : bitsOf x 32 = bitsOf (x &&& 0xFFFFFFFF#64) 32 := bitsOf_congr fun i hi => by
    have hmask : (0xFFFFFFFF#64).getLsbD i = true := by
      rw [show (0xFFFFFFFF#64) = (BitVec.allOnes 32).setWidth 64 from rfl, BitVec.getLsbD_setWidth, BitVec.getLsbD_allOnes]
      simp [hi, show i < 64 by omega]
    rw [BitVec.getLsbD_and, hmask, Bool.and_true]
  have hsplit : bitsOf x 64 = bitsOf (x >>> 32) 32 ++ bitsOf x 32 := bitsOf_add x 32 32
  rw [← pack_word, bytesBits_pack_of (m := 8) (bitsOf_length _ _)]
  refine hsplit.trans ?_
  rw [hlow]
  simp [groupsBits]

/-- Groups of 32 bits. -/
def GroupsFit (groups : List Word) : Prop := ∀ g ∈ groups, g.toNat < 2 ^ 32

theorem groupsFit_codeRun : ∀ (run : List (Prob12 × Bool)) (iv : Interval), GroupsFit (codeRun iv run).1
  | [], _ => nofun
  | x :: run, iv => by
    have hhigh := (iv.narrow x.1 x.2).high.isLt
    rw [codeRun]
    dsimp only
    split_ifs
    · refine List.forall_mem_cons.mpr ⟨?_, groupsFit_codeRun run _⟩
      rw [Interval.group, ushiftRight_32_toNat]
      omega
    · exact groupsFit_codeRun run _

theorem groupsFit_halves (x : Word) : GroupsFit [x >>> 32, x &&& 0xFFFFFFFF#64] := by
  have hx := x.isLt
  refine List.forall_mem_cons.mpr ⟨?_, List.forall_mem_singleton.mpr ?_⟩
  · rw [ushiftRight_32_toNat]
    omega
  · rw [lowHalf_toNat]
    omega

/-- Two groups as the first 64 bits of a decoder. -/
theorem bitsOf_codeWindow {g0 g1 : Word} (h0 : g0.toNat < 2 ^ 32) (h1 : g1.toNat < 2 ^ 32) :
    bitsOf (codeWindow g0 g1) 64 = bitsOf g0 32 ++ bitsOf g1 32 := by
  have hvalue := codeWindow_toNat h0 h1
  have hfirst : codeWindow g0 g1 >>> 32 = g0 := by
    apply BitVec.eq_of_toNat_eq
    rw [ushiftRight_32_toNat, hvalue]
    omega
  have hsecond : bitsOf (codeWindow g0 g1) 32 = bitsOf g1 32 := bitsOf_congr fun i hi => by
    rw [BitVec.getLsbD, BitVec.getLsbD, hvalue, Nat.mul_comm, Nat.testBit_two_pow_mul_add _ h1, if_pos hi]
  rw [show (64 : Nat) = 32 + 32 from rfl, bitsOf_add, hfirst, hsecond]

/-! ### A payload in the SRC window -/

/-- The bytes `l` stand in the SRC window at offset `sp`. -/
structure Windows.Source (w : Windows) (S : Nat → Byte) (sp : Nat) (l : List Byte) : Prop where
  bytes : dataFrom S sp l.length = l
  inside : sp + l.length ≤ w.srcLen.toNat

theorem Windows.Source.reads (h : w.Source S sp l) (hw : w.Apart) (he : e.Holds w.srcBase.toNat w.srcLen.toNat S) :
    ReadsFields (SourceHas e (w.srcBase.toNat + sp) l) readSource := by
  have hwin : w.srcBase.toNat + w.srcLen.toNat ≤ 2 ^ 32 := hw.src
  have hin := h.inside
  exact readSource_reads (he.source hin h.bytes) (by omega)

/-! ### The decoder before a run -/

/-- The models of the decoder. -/
def Dec2.models (c : Dec2) : Models := { p1 := c.p1, p2 := c.p2, lastLit := c.lastLit }

/-- What the decoder has left of the bytes `l` decodes to the bits of the run, and nothing is left then. -/
def Dec2.Before (c : Dec2) (base : Nat) (l : List Byte) (run : List (Prob12 × Bool)) : Prop :=
  ∃ groups, GroupsFit groups ∧ c.src.Has base l (groupsBits groups) ∧
    decodeRun c.iv c.current groups (run.map Prod.fst) = some (run.map Prod.snd, [])

/-- A decoded bit. -/
theorem decodeBit2_of (hreads : ReadsFields (SourceHas e base l) readSource) {bit : Bool}
    (h : c.Before base l ((m.get, bit) :: run)) :
    ∃ c', decodeBit2 m c (z, e) = .ok (bit, m.update bit, c') (z, e) ∧ c'.Before base l run ∧ c'.models = c.models := by
  obtain ⟨groups, hfit, hsrc, hdec⟩ := h
  simp only [List.map_cons, decodeRun] at hdec
  rw [decodeBit2]
  dsimp only
  cases hs : (c.iv.narrow m.get (c.iv.decide m.get c.current)).settled with
  | false =>
    rw [hs, if_neg Bool.false_ne_true] at hdec
    obtain ⟨⟨bits, left⟩, hdec, heq⟩ := Option.map_eq_some_iff.mp hdec
    obtain ⟨hbits, rfl⟩ := Prod.mk.inj heq
    obtain ⟨rfl, rfl⟩ := List.cons.inj hbits
    rw [if_neg Bool.false_ne_true]
    exact ⟨_, rfl, ⟨groups, hfit, hsrc, hdec⟩, by simp only [Dec2.models]⟩
  | true =>
    rw [hs, if_pos rfl] at hdec
    cases groups with
    | nil => cases hdec
    | cons g groups =>
      obtain ⟨⟨bits, left⟩, hdec, heq⟩ := Option.map_eq_some_iff.mp hdec
      obtain ⟨hbits, rfl⟩ := Prod.mk.inj heq
      obtain ⟨rfl, rfl⟩ := List.cons.inj hbits
      obtain ⟨hg, hfit⟩ := List.forall_mem_cons.mp hfit
      obtain ⟨r, hread, hr⟩ := withSource_of (z := z) (hreads.field (by decide) hg) hsrc
      rw [if_pos rfl, Cmd.bind_of_ok _ hread]
      exact ⟨_, rfl, ⟨groups, hfit, hr, hdec⟩, by simp only [Dec2.models]⟩

theorem decodeBits2_of (hreads : ReadsFields (SourceHas e base l) readSource) : ∀ {bits : List Bool} {m : LocalModel}
    {c : Dec2} {acc : Nat}, c.Before base l (m.run bits ++ run) →
    ∃ c', decodeBits2 m c bits.length acc (z, e) = .ok (acc * 2 ^ bits.length + bitsNat bits, m.after bits, c') (z, e) ∧
      c'.Before base l run ∧ c'.models = c.models
  | [], m, c, acc, h => ⟨c, by rw [List.length_nil, Nat.pow_zero, Nat.mul_one]; rfl, h, rfl⟩
  | bit :: bits, m, c, acc, h => by
    rw [LocalModel.run, List.cons_append] at h
    obtain ⟨c1, h1, hc1, hm1⟩ := decodeBit2_of (z := z) hreads h
    obtain ⟨c2, h2, hc2, hm2⟩ := decodeBits2_of hreads (bits := bits) (m := m.update bit) (c := c1)
      (acc := 2 * acc + bit.toNat) hc1
    refine ⟨c2, ?_, hc2, hm2.trans hm1⟩
    rw [List.length_cons, decodeBits2, Cmd.bind_of_ok _ h1]
    refine h2.trans ?_
    rw [LocalModel.after_cons, bitsNat_cons]
    congr 2
    ring

/-! ### Symbols and indices -/

theorem symbolBits_length (sym : Nat) : (symbolBits sym).length = 9 := by
  unfold symbolBits
  exact bitsOf_length _ _

theorem bitsNat_symbolBits {sym : Nat} (h : sym < 512) : bitsNat (symbolBits sym) = sym := by
  unfold symbolBits
  rw [bitsNat_bitsOf, BitVec.toNat_ofNat, Nat.mod_eq_of_lt (show sym < 2 ^ 64 by omega), Nat.mod_eq_of_lt (by omega)]

theorem indexBits_length (lpc idx : Nat) : (indexBits lpc idx).length = lpc := by
  unfold indexBits
  exact bitsOf_length _ _

theorem bitsNat_indexBits {lpc idx : Nat} (hlpc : lpc ≤ 64) (h : idx < 2 ^ lpc) : bitsNat (indexBits lpc idx) = idx := by
  have hpow : 2 ^ lpc ≤ 2 ^ 64 := Nat.pow_le_pow_right Nat.two_pos hlpc
  unfold indexBits
  rw [bitsNat_bitsOf, BitVec.toNat_ofNat, Nat.mod_eq_of_lt (show idx < 2 ^ 64 by omega), Nat.mod_eq_of_lt h]

theorem decodeSymbol_of (hreads : ReadsFields (SourceHas e base l) readSource) {sym : Nat} (hsym : sym < 512)
    (h : c.Before base l (c.models.symbolModel.run (symbolBits sym) ++ run)) :
    ∃ m1 c0, decodeBits2 (c.p1.setCtx c.lastLit) c 9 0 (z, e) = .ok (sym, m1, c0) (z, e) ∧
      ({ c0 with p1 := m1 } : Dec2).Before base l run ∧ ({ c0 with p1 := m1 } : Dec2).models = c.models.afterSymbol sym := by
  obtain ⟨c0, hrun, hc0, hm0⟩ := decodeBits2_of (z := z) (acc := 0) hreads h
  rw [symbolBits_length, Nat.zero_mul, Nat.zero_add, bitsNat_symbolBits hsym] at hrun
  refine ⟨_, c0, hrun, hc0, ?_⟩
  obtain ⟨-, hp2, hlast⟩ := Models.mk.inj hm0
  rw [Dec2.models, Models.afterSymbol]
  dsimp only
  rw [hp2, hlast]
  rfl

theorem decodeIndex_of (hreads : ReadsFields (SourceHas e base l) readSource) {prev : Byte} {idx : Nat} (hlpc : lpc ≤ 64)
    (hidx : idx < 2 ^ lpc) (h : c.Before base l ((c.models.p2.setCtx prev).run (indexBits lpc idx) ++ run)) :
    ∃ m2 c0, decodeBits2 (c.p2.setCtx prev) c lpc 0 (z, e) = .ok (idx, m2, c0) (z, e) ∧
      ({ c0 with p2 := m2 } : Dec2).Before base l run ∧
      ({ c0 with p2 := m2 } : Dec2).models = c.models.afterIndex prev lpc idx := by
  obtain ⟨c0, hrun, hc0, hm0⟩ := decodeBits2_of (z := z) (acc := 0) hreads h
  rw [indexBits_length, Nat.zero_mul, Nat.zero_add, bitsNat_indexBits hlpc hidx] at hrun
  refine ⟨_, c0, hrun, hc0, ?_⟩
  obtain ⟨hp1, -, hlast⟩ := Models.mk.inj hm0
  rw [Dec2.models, Models.afterIndex]
  dsimp only
  rw [hp1, hlast]
  rfl

end Sys2Proof.Machine
end

section
/-!
Back end 2, decoding: the loop over a chunk and the chunks of a block.
-/

namespace Sys2Proof.Machine

variable {w : Windows} {S B D : Nat → Byte} {l : List Byte} {b base start n p sp k lpc : Nat} {R : Rings} {z : Rolz}
  {e : Env} {c : Dec2} {ms : Models} {m : Match} {run : List (Prob12 × Bool)}
  {cs : List Chunk}

/-! ### A round of the loop (47_rolz_backend2.md R354) -/

theorem literalSymbol_lt (x : Byte) : literalSymbol x < 512 := by
  have hx := x.isLt
  rw [literalSymbol]
  omega

theorem ofNat_literalSymbol (x : Byte) : BitVec.ofNat 8 (literalSymbol x) = x := by
  have hx := x.isLt
  apply BitVec.eq_of_toNat_eq
  rw [BitVec.toNat_ofNat, literalSymbol]
  omega

theorem decodeChunk2_literal (hreads : ReadsFields (SourceHas e base l) readSource) (h : z.Rebuilding e R D b n p p)
    (hp : p < n) (hc : c.Before base l (c.models.coded lpc D p none ++ run)) (k : Nat) :
    ∃ z' c', z'.Rebuilding (e.filled D b p 1) R D b n (p + 1) (p + 1) ∧ c'.Before base l run ∧
      c'.models = c.models.next lpc D p none ∧
      decodeChunk2 n (k + 1) p c (z, e) = decodeChunk2 n k (p + 1) c' (z', e.filled D b p 1) := by
  obtain ⟨m1, c0, hsym, hc0, hm0⟩ := decodeSymbol_of (z := z) hreads (literalSymbol_lt (D p)) hc
  obtain ⟨z1, hins, hz1⟩ := insertLiteral_rebuilding (h.filled 1) (Nat.le_succ p) hp
  refine ⟨z1, { c0 with p1 := m1, lastLit := D p }, hz1, hc0, ?_, ?_⟩
  · rw [Models.next, ← hm0]
    rfl
  · rw [decodeChunk2, if_neg (Nat.not_le.mpr hp), Cmd.bind_of_ok _ hsym]
    dsimp only
    rw [if_pos (by rw [literalSymbol]; omega), ofNat_literalSymbol, Cmd.bind_of_ok _ (setBuf_rebuilding h hp),
      Cmd.bind_of_ok _ hins]

theorem idx_lt_two_pow {idx : Nat} (h : idx < R.posChecks) : idx < 2 ^ R.lpc.toNat := by
  rw [Rings.posChecks] at h
  split_ifs at h
  · omega
  · exact h

theorem decodeChunk2_match (hreads : ReadsFields (SourceHas e base l) readSource) (h : z.Rebuilding e R D b n p p)
    (hm : (R.upTo D p).IsMatch D n p m) (hc : c.Before base l (c.models.coded R.lpc.toNat D p (some m) ++ run)) (k : Nat) :
    ∃ z' c', z'.Rebuilding (e.filled D b p m.len) R D b n (p + m.len) (p + m.len) ∧ c'.Before base l run ∧
      c'.models = c.models.next R.lpc.toNat D p (some m) ∧
      decodeChunk2 n (k + 1) p c (z, e) = decodeChunk2 n k (p + m.len) c' (z', e.filled D b p m.len) := by
  obtain ⟨z1, hcopy, hz1⟩ := copyMatch_rebuilding h hm
  obtain ⟨hkey, hmin, hmax, hin, hidx, -⟩ := hm
  rw [Rings.posChecks_upTo] at hidx
  have hsymbol : matchSymbol m + Config.minMatch = m.len := Nat.sub_add_cancel hmin
  have hsmall : matchSymbol m < 0x100 := by
    rw [Config.minMatch] at hsymbol
    omega
  have hlpc : z.lpc = R.lpc := by rw [h.shows.lpc, Rings.upTo_lpc]
  have hlpcs := R.lpc.isLt
  rw [Models.coded, List.append_assoc] at hc
  obtain ⟨m1, c1, hsym, hc1, hm1⟩ := decodeSymbol_of (z := z) hreads (by omega) hc
  rw [show c.models.p2 = (c.models.afterSymbol (matchSymbol m)).p2 from rfl, ← hm1] at hc1
  obtain ⟨m2, c2, hindex, hc2, hm2⟩ := decodeIndex_of (z := z) hreads (by omega) (idx_lt_two_pow hidx) hc1
  rw [hm1] at hm2
  refine ⟨z1, { c2 with p2 := m2 }, hz1, hc2, hm2, ?_⟩
  have hlegal : (decide (p < 2) || decide (n < p + m.len)) = false := by
    rw [decide_lt_eq_false hkey, decide_lt_eq_false hin]
    rfl
  rw [decodeChunk2, if_neg (by omega), Cmd.bind_of_ok _ hsym]
  dsimp only
  rw [if_neg (by omega), hsymbol, checkMid_pass hlegal, Cmd.bind_of_ok _ (bufByte_rebuilding h (by omega) (by omega)),
    Cmd.get_bind]
  dsimp only
  rw [hlpc, Cmd.bind_of_ok _ hindex]
  dsimp only
  rw [Cmd.bind_of_ok _ hcopy]

/-- A round follows the next decision. -/
theorem decodeChunk2_round (hreads : ReadsFields (SourceHas e base l) readSource) (h : z.Rebuilding e R D b n p p)
    {x : Option Match} {ts : List (Option Match)} (hts : R.Parse D n p (x :: ts))
    (hc : c.Before base l (c.models.coded R.lpc.toNat D p x ++ run)) (k : Nat) :
    p < stepTo p x ∧ R.Parse D n (stepTo p x) ts ∧
    ∃ z' c', z'.Rebuilding (e.filled D b p (stepTo p x - p)) R D b n (stepTo p x) (stepTo p x) ∧ c'.Before base l run ∧
      c'.models = c.models.next R.lpc.toNat D p x ∧
      decodeChunk2 n (k + 1) p c (z, e) = decodeChunk2 n k (stepTo p x) c' (z', e.filled D b p (stepTo p x - p)) := by
  cases x with
  | none =>
    obtain ⟨hp, hts⟩ := hts
    rw [stepTo, Nat.add_sub_cancel_left]
    exact ⟨Nat.lt_succ_self p, hts, decodeChunk2_literal hreads h hp hc k⟩
  | some m =>
    obtain ⟨hm, hts⟩ := hts
    have hmin := hm.minimum
    rw [stepTo, Nat.add_sub_cancel_left]
    exact ⟨by omega, hts, decodeChunk2_match hreads h hm hc k⟩

/-! ### A chunk -/

/-- What is stored to the DST window leaves the SRC window. -/
theorem Env.Holds.filled_dst (hw : w.Apart) (he : e.Holds w.srcBase.toNat w.srcLen.toNat S)
    (hin : start + p + k ≤ w.dstCap.toNat) (D : Nat → Byte) : (e.filled D (w.dstBase.toNat + start) p k).Holds w.srcBase.toNat w.srcLen.toNat S := by
  unfold Env.filled
  rw [Nat.add_assoc]
  exact he.stored_dst hw (by rw [dataFrom_length]; exact hin)

/-- The loop over a chunk of the DST window follows the decisions. -/
theorem decodeChunk2_of (hw : w.Apart) (hs : w.Source S sp l) (hin : start + n ≤ w.dstCap.toNat) :
    ∀ {ts : List (Option Match)} {k p : Nat} {z : Rolz} {e : Env} {c : Dec2},
      e.Holds w.srcBase.toNat w.srcLen.toNat S → z.Rebuilding e R D (w.dstBase.toNat + start) n p p → R.Parse D n p ts →
      n ≤ p + k → c.Before (w.srcBase.toNat + sp) l (Models.run R.lpc.toNat D c.models p ts ++ run) →
      ∃ z' c', decodeChunk2 n k p c (z, e) = .ok c' (z', e.filled D (w.dstBase.toNat + start) p (n - p)) ∧
        z'.Rebuilding (e.filled D (w.dstBase.toNat + start) p (n - p)) R D (w.dstBase.toNat + start) n n n ∧
        c'.Before (w.srcBase.toNat + sp) l run ∧ c'.models = Models.after R.lpc.toNat D c.models p ts
  | [], k, p, z, e, c, _, h, hts, _, hc => by
    obtain rfl : p = n := hts
    rw [Nat.sub_self]
    refine ⟨z, c, ?_, h, hc, rfl⟩
    cases k with
    | zero => rfl
    | succ k =>
      rw [decodeChunk2, if_pos (Nat.le_refl p)]
      rfl
  | x :: ts, k, p, z, e, c, he, h, hts, hk, hc => by
    rw [Models.run, List.append_assoc] at hc
    obtain ⟨hstep, hrest, z1, c1, hz1, hc1, hm1, hrun⟩ := decodeChunk2_round (hs.reads hw he) h hts hc (k - 1)
    have hend := hrest.le
    rw [← hm1] at hc1
    obtain ⟨z2, c2, hrun2, hz2, hc2, hm2⟩ := decodeChunk2_of hw hs hin (k := k - 1) (he.filled_dst hw (by omega) D) hz1 hrest
      (by omega) hc1
    have hfill := Env.filled_add e D (w.dstBase.toNat + start) p (stepTo p x - p) (n - stepTo p x)
    rw [show p + (stepTo p x - p) = stepTo p x by omega, show stepTo p x - p + (n - stepTo p x) = n - p by omega] at hfill
    rw [hfill] at hrun2 hz2
    rw [hm1] at hm2
    rw [Nat.sub_add_cancel (show 1 ≤ k by omega)] at hrun
    exact ⟨z2, c2, hrun.trans hrun2, hz2, hc2, hm2⟩

/-! ### The chunks of a block -/

theorem decodeChunks2_of (hw : w.Apart) (hs : w.Source S sp l) (hcap : n ≤ w.dstCap.toNat) :
    ∀ {cs : List Chunk} {R : Rings} {z : Rolz} {e : Env} {c : Dec2} {p : Nat}, z.Counts R →
      e.Holds w.srcBase.toNat w.srcLen.toNat S → R.Parses B cs → Tiles n p (boundsOf cs) →
      c.Before (w.srcBase.toNat + sp) l (runOf R.lpc.toNat B c.models cs) →
      ∃ z' c', decodeChunks2 w (boundsOf cs) c (z, e) = .ok c' (z', e.filled B w.dstBase.toNat p (n - p)) ∧
        c'.Before (w.srcBase.toNat + sp) l []
  | [], R, z, e, c, p, _, _, _, htiles, hc => by
    obtain rfl : p = n := htiles
    exact ⟨z, c, by rw [Nat.sub_self]; rfl, hc⟩
  | x :: cs, R, z, e, c, p, hz, he, hparses, htiles, hc => by
    obtain ⟨hx, hparses⟩ := hparses
    obtain ⟨rfl, hn, hsmall, htiles⟩ := tiles_boundsOf_cons.mp htiles
    have hle := htiles.le
    obtain ⟨z1, hopen, -, hz1⟩ := openChunk_rebuilding (start := x.start) hw.toFit hz he.quiet hn hsmall (by omega) (x.data B)
    rw [runOf] at hc
    obtain ⟨z2, c2, hrun, hz2, hc2, hm2⟩ := decodeChunk2_of hw hs (R := R.cleared) (start := x.start) (by omega) he hz1 hx
      (k := x.size) (by omega) hc
    have hlpc : (R.cleared.upTo (x.data B) x.size).lpc = R.lpc := Rings.upTo_lpc _ _ _
    rw [show R.cleared.lpc = R.lpc from rfl] at hm2
    rw [Nat.sub_zero, Env.filled_chunk] at hrun
    rw [← hm2, ← hlpc] at hc2
    obtain ⟨z3, c3, hrun3, hc3⟩ := decodeChunks2_of hw hs hcap hz2.shows.counts
      (he.stored_dst hw (o := x.start) (l := dataFrom B x.start x.size) (by rw [dataFrom_length]; omega)) hparses htiles hc2
    have hfill := Env.filled_add e B w.dstBase.toNat x.start x.size (n - (x.start + x.size))
    rw [show x.size + (n - (x.start + x.size)) = n - x.start by omega] at hfill
    refine ⟨z3, c3, (Cmd.bind_of_ok _ hopen).trans ((Cmd.bind_of_ok _ hrun).trans ?_), hc3⟩
    rw [← hfill]
    exact hrun3

/-- The words of a payload: the groups of its run, then the halves of the last `low`. -/
def codeWords (iv : Interval) (run : List (Prob12 × Bool)) : List Word :=
  (codeRun iv run).1 ++ [(codeRun iv run).2.low >>> 32, (codeRun iv run).2.low &&& 0xFFFFFFFF#64]

theorem groupsFit_codeWords (iv : Interval) (run : List (Prob12 × Bool)) : GroupsFit (codeWords iv run) := fun g hg =>
  (List.mem_append.mp hg).elim (groupsFit_codeRun run iv g) (groupsFit_halves _ g)

theorem bytesBits_payload2 (lpc : Nat) (B : Nat → Byte) (cs : List Chunk) :
    bytesBits (payload2 lpc B cs) = groupsBits (codeWords Interval.initial (blockRun lpc B cs)) := by
  rw [payload2, bytesBits_append, runBytes, bytesBits_groupsBytes, bytesBits_word, codeWords, groupsBits, groupsBits,
    groupsBits, List.flatMap_append]

/-- The decoder of a payload as it begins (47_rolz_backend2.md R354): the first 64 bits under the interval, the rest
to come. -/
theorem firstWord_of (hreads : ReadsFields (SourceHas e base (payload2 lpc B cs)) readSource) {r : BitSource}
    (hr : r.Has base (payload2 lpc B cs) (bytesBits (payload2 lpc B cs))) :
    ∃ x r', withSource r (readSource 64) (z, e) = .ok (x, r') (z, e) ∧ ∀ p1 p2 lastLit,
      ({ iv := Interval.initial, current := x, p1 := p1, p2 := p2, lastLit := lastLit, src := r' } : Dec2).Before base
        (payload2 lpc B cs) (blockRun lpc B cs) := by
  obtain ⟨g0, g1, rest, hwords, h0, h1, -, hdec⟩ := decodesTo_codeRun CoderOk.initial (blockRun lpc B cs) []
  rw [List.append_nil, ← codeWords] at hwords
  have hfit := groupsFit_codeWords Interval.initial (blockRun lpc B cs)
  rw [hwords] at hfit
  rw [bytesBits_payload2, hwords, groupsBits_cons, groupsBits_cons, ← List.append_assoc, ← bitsOf_codeWindow h0 h1] at hr
  have hcode := (codeWindow g0 g1).isLt
  obtain ⟨r', hread, hr'⟩ := withSource_of (z := z) (hreads.field (by decide) hcode) hr
  exact ⟨_, r', hread, fun _ _ _ =>
    ⟨rest, fun g hg => hfit g (List.mem_cons_of_mem _ (List.mem_cons_of_mem _ hg)), hr', hdec⟩⟩

/-- A decoder with no run left has read its payload whole. -/
theorem Dec2.Before.pos (h : c.Before base l []) : c.src.pos = 8 * l.length := by
  obtain ⟨groups, -, hsrc, hdec⟩ := h
  obtain ⟨-, rfl⟩ := Prod.mk.inj (Option.some.inj hdec)
  exact hsrc.count

theorem decodeBlock2_of (hw : w.Apart) (hz : z.Counts R) (he : e.Holds w.srcBase.toNat w.srcLen.toNat S) {cs : List Chunk}
    {srcEnd : Nat} (hcs : boundsOf cs = chunksOf srcEnd) (hparses : R.Parses B cs) (hcap : srcEnd ≤ w.dstCap.toNat)
    (hs : w.Source S sp (payload2 R.lpc.toNat B cs)) :
    ∃ z', decodeBlock2 w srcEnd sp (sp + (payload2 R.lpc.toNat B cs).length) (z, e) =
      .ok (sp + (payload2 R.lpc.toNat B cs).length) (z', e.filled B w.dstBase.toNat 0 srcEnd) := by
  obtain ⟨x, r, hread, hbefore⟩ := firstWord_of (z := z) (hs.reads hw he) (BitSource.has_all _ _)
  obtain ⟨z', c', hrun, hc'⟩ := decodeChunks2_of hw hs hcap hz he hparses (hcs ▸ tiles_chunksOf srcEnd)
    (hbefore (LocalModel.init 9) (LocalModel.init R.lpc.toNat) 0)
  refine ⟨z', ?_⟩
  rw [decodeBlock2, Cmd.get_bind]
  dsimp only
  rw [Nat.add_sub_cancel_left, Cmd.bind_of_ok _ hread]
  dsimp only
  rw [hz.lpc, ← hcs, Cmd.bind_of_ok _ hrun, Cmd.pure_run, hc'.pos, bytesFor]
  congr 1
  omega

end Sys2Proof.Machine
end

section
/-!
O50: `RZ_INV` restores every block that `RZ_FWD` encoded.
-/

namespace Sys2Proof.Machine

variable {w : Windows} {S B : Nat → Byte} {n sp lr a : Nat} {R : Rings} {z : Rolz} {e : Env} {cs : List Chunk}
  {size : BitVec 32} {payload l : List Byte}

/-- The payload of either back end read back. -/
theorem decodePayload_of (hw : w.Apart) (hz : z.Counts R) (he : e.Holds w.srcBase.toNat w.srcLen.toNat S) {srcEnd : Nat}
    (hcs : boundsOf cs = chunksOf srcEnd) (hparses : R.Parses B cs) (hchecks : R.posChecks ≤ 256) (h8 : 8 ≤ lr)
    (h16 : lr ≤ 16) (hcap : srcEnd ≤ w.dstCap.toNat) (hs : w.Source S sp (payloadOf z.backend lr R.lpc.toNat B cs)) :
    ∃ z', decodePayload w srcEnd sp (sp + (payloadOf z.backend lr R.lpc.toNat B cs).length) (z, e) =
      .ok (sp + (payloadOf z.backend lr R.lpc.toNat B cs).length) (z', e.filled B w.dstBase.toNat 0 srcEnd) := by
  by_cases hn : 0 < srcEnd
  · have hne : cs.isEmpty = false := by
      rw [List.isEmpty_eq_false_iff]
      exact fun h => chunksOf_ne_nil hn (hcs ▸ boundsOf_eq_nil.mpr h)
    by_cases hb : z.backend = 1
    · rw [payloadOf, if_pos hb] at hs ⊢
      obtain ⟨z', hrun⟩ := decodeChunks1_of hw h8 h16 hcap hz he hparses hchecks (hcs ▸ tiles_chunksOf srcEnd) hs.bytes
        hs.inside
      refine ⟨z', ?_⟩
      rw [decodePayload, Cmd.get_bind]
      dsimp only
      rw [if_pos hb, ← hcs]
      exact hrun
    · rw [payloadOf, if_neg hb, hne, if_neg Bool.false_ne_true] at hs ⊢
      obtain ⟨z', hrun⟩ := decodeBlock2_of hw hz he hcs hparses hcap hs
      refine ⟨z', ?_⟩
      rw [decodePayload, Cmd.get_bind]
      dsimp only
      rw [if_neg hb, if_pos hn]
      exact hrun
  · obtain rfl : srcEnd = 0 := by omega
    obtain rfl : cs = [] := boundsOf_eq_nil.mp (hcs.trans chunksOf_zero)
    rw [payloadOf_nil]
    exact ⟨z, decodePayload_zero _ _ _ _⟩

/-- The bytes stored are there. -/
theorem memBytes_stored (e : Env) (a : Nat) (l : List Byte) : memBytes (e.stored a l).mem a l.length = l := by
  refine List.ext_getElem (memBytes_length ..) fun i _ hi => ?_
  simp only [memBytes, List.getElem_map, List.getElem_range]
  rw [Env.read_stored, if_pos (by omega), Nat.add_sub_cancel_left, List.getD_eq_getElem _ 0 hi]

/-- The parts of an encoded block in a window that holds it (46_rolz_backend1.md R320). -/
theorem encodedBlock_parts (h : dataFrom S 0 (encodedBlock size payload B).length = encodedBlock size payload B) :
    dataFrom S 0 4 = beBytes4 size ∧ dataFrom S 4 payload.length = payload ∧
      dataFrom S (4 + payload.length) (tailOf size.toNat) =
        dataFrom B (size.toNat - tailOf size.toNat) (tailOf size.toNat) := by
  rw [encodedBlock_length, Nat.add_assoc, dataFrom_add, dataFrom_add, encodedBlock, Nat.zero_add] at h
  obtain ⟨hsize, hrest⟩ := List.append_inj h (dataFrom_length _ _ _)
  exact ⟨hsize, List.append_inj hrest (dataFrom_length _ _ _)⟩

/-- `RZ_INV` past its checks on an encoded block, with the configuration it was encoded with. -/
theorem decodeBlock_encoded (hw : w.Apart) (he : e.Holds w.srcBase.toNat w.srcLen.toNat S)
    (hcs : boundsOf cs = chunksOf (size.toNat - tailOf size.toNat)) (hparses : (Rings.fresh z.lpc).Parses B cs)
    (hlpc : z.lpc.toNat ≤ 8) (h8 : 8 ≤ lr) (h16 : lr ≤ 16) (hmax : size.toNat ≤ 2 ^ 27)
    (hcap : size.toNat ≤ w.dstCap.toNat)
    (hlen : w.srcLen.toNat = (encodedBlock size (payloadOf z.backend lr z.lpc.toNat B cs) B).length)
    (hS : dataFrom S 0 w.srcLen.toNat = encodedBlock size (payloadOf z.backend lr z.lpc.toNat B cs) B) :
    ∃ z', decodeBlock w (z, e) = .ok (BitVec.ofNat 64 size.toNat) (z', e.filled B w.dstBase.toNat 0 size.toNat) := by
  rw [hlen] at hS
  obtain ⟨hsize, hpayload, htail⟩ := encodedBlock_parts hS
  rw [encodedBlock_length] at hlen
  have hchecks : (Rings.fresh z.lpc).posChecks ≤ 256 := by
    rw [Rings.posChecks]
    split_ifs
    · exact Nat.zero_le _
    · exact Nat.pow_le_pow_right Nat.two_pos hlpc
  obtain ⟨z', hrun⟩ := decodePayload_of (z := z.uncounted) (sp := 4) hw (Rolz.counts_fresh rfl) he hcs hparses hchecks h8 h16
    ((Nat.sub_le _ _).trans hcap) ⟨hpayload, by show 4 + (payloadOf z.backend lr z.lpc.toNat B cs).length ≤ _; omega⟩
  exact ⟨z'.ended, decodeBlock_of hw he hsize hmax hcap hlen htail hrun⟩

/-- A block that fits a window has a length of 32 bits. -/
theorem blockLength_toNat {o : Nat} (h : w.Room o l) : (BitVec.ofNat 64 l.length).toNat = l.length := by
  have hcap := w.dstCap.isLt
  rw [BitVec.toNat_ofNat, Nat.mod_eq_of_lt]
  rcases h with rfl | h
  · exact Nat.two_pow_pos 64
  · omega

/-- Settles O50: the encoder's decisions are ones the decoder can follow, so that the emitted block decodes to the block. -/
theorem rzRoundTrip : Obligations.RzRoundTrip := by
  intro s t u len hs _ _ hl8 hr8 hr16 he hexec ht hu hr hbackend hlpc heu hsrc hdst hover hlen hcap hmem
  have hwu : u.win.Apart := ⟨⟨hsrc, hdst⟩, hover⟩
  obtain ⟨r, hrule⟩ := ruleOf_of_completed (i := .rzFwd) nofun hs ht hexec
  obtain ⟨hw, hmax, z', e', hrun, htenv⟩ := rzFwdBody_eq_ok hrule
  by_cases h0 : s.win.srcLen.toNat = 0
  · rw [encodeBlock_empty h0] at hrun
    cases hrun
    rw [h0]
    exact ⟨_, exec_completes (i := .rzInv) nofun hu (rzInvBody_of hr hwu (decodeBlock_empty hlen)), rfl, rfl⟩
  · obtain ⟨cs, z1, hcs, hparses, hroom, hnone⟩ := encodeBlock_emits hw
      (Env.Holds.self he s.win.srcBase.toNat s.win.srcLen.toNat) h0 s.rz s.logRange.toNat
    have hfits := not_not.mp fun h => hnone h _ _ hrun
    rw [hroom hfits, Env.put_of_room hfits] at hrun
    obtain ⟨rfl, hstate⟩ := EStateM.Result.ok.inj hrun
    obtain ⟨-, rfl⟩ := Prod.mk.inj hstate
    have hcode : (BitVec.ofNat 64 (encodedBlock s.win.srcLen
        (payloadOf s.rz.backend s.logRange.toNat s.rz.lpc.toNat (fun i => Memory.read s.env.mem (s.win.srcBase.toNat + i)) cs)
        (fun i => Memory.read s.env.mem (s.win.srcBase.toNat + i))).length).toNat = _ := blockLength_toNat hfits
    have hte : t.env = _ := htenv
    rw [hcode] at hlen hmem
    rw [hte, Nat.add_zero, memBytes_stored, ← hlen] at hmem
    have hS := dataFrom_read hmem
    rw [← hbackend, ← hlpc] at hlen hS
    rw [← hlpc] at hparses hl8
    obtain ⟨z2, hrun2⟩ := decodeBlock_encoded hwu (Env.Holds.self heu u.win.srcBase.toNat u.win.srcLen.toNat) hcs hparses
      hl8 hr8 hr16 hmax hcap hlen hS
    have hholds := Env.Holds.filled (e := u.env) (b := u.win.dstBase.toNat) (p := 0)
      (D := fun i => Memory.read s.env.mem (s.win.srcBase.toNat + i)) ⟨heu, nofun⟩ s.win.srcLen.toNat
    rw [Nat.zero_add] at hholds
    exact ⟨_, exec_completes (i := .rzInv) nofun hu (rzInvBody_of hr hwu hrun2), rfl, hholds.memBytes⟩

end Sys2Proof.Machine
end

section
/-!
How long the payload of a block can get, by its bytes: bounds for both back ends.
-/

namespace Sys2Proof.Machine

variable {B D : Nat → Byte} {n p q lr : Nat} {R : Rings} {ms : Models} {order1 : Bool} {d : List Byte} {f : List Nat}

/-! ### An ANS run (44_ans.md R265, R266, R270) -/

theorem ansPush_length {xmax : Nat} : ∀ (k x : Nat) (stack : List Byte), (ansPush xmax k x stack).2.length ≤ stack.length + k
  | 0, _, _ => Nat.le_refl _
  | k + 1, x, stack => by
    rw [ansPush]
    split_ifs
    · have ih := ansPush_length (xmax := xmax) k (x / 256) (BitVec.ofNat 8 x :: stack)
      rw [List.length_cons] at ih
      omega
    · exact Nat.le_add_right _ _

/-- Symbols of the tables push at most four bytes each. -/
theorem ansRun_length {tables : List (Option (List Nat))} (draw : Nat) : ∀ {d : List Byte} {prev : Nat},
    (∀ e ∈ symbolsFrom order1 prev d, Codable lr tables e) →
      (ansRun lr draw ((symbolsFrom order1 prev d).map (slotOf tables))).2.length ≤ 4 * d.length
  | [], _, _ => Nat.zero_le _
  | s :: r, prev, hcodable => by
    obtain ⟨⟨f, hf, htable, hfreq⟩, hrest⟩ := List.forall_mem_cons.mp hcodable
    have ih := ansRun_length (prev := s.toNat) draw hrest
    have hpush := ansPush_length (xmax := 2 ^ (31 - lr) * tableFreq f s.toNat) 4
      (ansRun lr draw ((symbolsFrom order1 s.toNat r).map (slotOf tables))).1
      (ansRun lr draw ((symbolsFrom order1 s.toNat r).map (slotOf tables))).2
    rw [symbolsFrom, List.map_cons, slotOf_eq hf, ansRun_cons (isSlot_of_isTable htable hfreq), List.length_cons]
    exact hpush.trans (by omega)

theorem tableFields_length (lr : Nat) : ∀ f : List Nat, (fieldBits (tableFields lr f)).length ≤ (1 + lr) * f.length
  | [] => Nat.zero_le _
  | n :: r => by
    have ih := tableFields_length lr r
    rw [tableFields]
    split_ifs
    · simp only [fieldBits_cons, List.length_append, bitsOf_length, List.length_cons, Nat.mul_succ]
      omega
    · simp only [fieldBits_cons, List.length_append, bitsOf_length, List.length_cons, Nat.mul_succ]
      omega

theorem usedField_length (order1 : Bool) (v : Word) :
    (fieldBits (if order1 then [(v, 1)] else [])).length ≤ 1 := by
  cases order1
  · exact Nat.zero_le _
  · exact Nat.le_of_eq (by simp [fieldBits])

theorem allTableFields_length : ∀ {ts : List (Option (List Nat))}, (∀ f, some f ∈ ts → IsTable lr f) →
    (fieldBits (allTableFields order1 lr ts)).length ≤ (1 + (1 + lr) * 256) * ts.length
  | [], _ => Nat.zero_le _
  | none :: r, h => by
    have ih := allTableFields_length (ts := r) fun f hf => h f (List.mem_cons_of_mem _ hf)
    have hused := usedField_length order1 0
    rw [allTableFields, fieldBits_append, List.length_append, List.length_cons, Nat.mul_succ]
    omega
  | some f :: r, h => by
    have ih := allTableFields_length (ts := r) fun f hf => h f (List.mem_cons_of_mem _ hf)
    have hused := usedField_length order1 1
    have htable := tableFields_length lr f
    rw [(h f List.mem_cons_self).1] at htable
    rw [allTableFields, fieldBits_append, fieldBits_append, List.length_append, List.length_append, List.length_cons,
      Nat.mul_succ]
    omega

/-- The bits of a run: a header, a final state and tables of fixed size, and four bytes a symbol. -/
theorem ansFields_length (h8 : 8 ≤ lr) (h16 : lr ≤ 16) (order1 : Bool) (d : List Byte) :
    (fieldBits (ansFields order1 lr d)).length ≤ 36 + 4353 * ansNctx order1 + 32 * d.length := by
  rw [ansFields]
  split_ifs
  · exact Nat.zero_le _
  · have htables := allTableFields_length (order1 := order1) (ts := ansTables order1 lr d)
      fun f hf => isTable_of_mem_ansTables h8 hf
    have hwidth : (1 + (1 + lr) * 256) * ansNctx order1 ≤ 4353 * ansNctx order1 := Nat.mul_le_mul_right _ (by omega)
    have hrun := ansRun_length (order1 := order1) 0 (d := d) (prev := 0) fun e he => codable_ansTables h8 he
    rw [ansTables_length] at htables
    rw [fieldBits_cons, fieldBits_append, ansCodeFields_bits, symbolSlots_eq, ansHeaderField, ansTableFields]
    simp only [List.length_append, bitsOf_length, bytesBits_length]
    omega

/-! ### Back end 1 (46_rolz_backend1.md R327) -/

/-- A chunk takes at most 12 bytes a byte, and its fixed part. -/
theorem chunkFields_length (h8 : 8 ≤ lr) (h16 : lr ≤ 16) {t : Streams} (ht : t.Fit n) :
    (pack (fieldBits (chunkFields lr t))).length ≤ 12 * n + 140500 := by
  have hlit := ansFields_length h8 h16 true t.lit
  have hlen := ansFields_length h8 h16 false t.len
  have hidx := ansFields_length h8 h16 false t.idx
  rw [show ansNctx true = 256 from rfl] at hlit
  rw [show ansNctx false = 1 from rfl] at hlen hidx
  obtain ⟨hl, hn, hi⟩ := ht
  have hbits : (fieldBits (chunkFields lr t)).length = 96 + (fieldBits (ansFields true lr t.lit)).length +
      (fieldBits (ansFields false lr t.len)).length + (fieldBits (ansFields false lr t.idx)).length := by
    simp only [chunkFields, fieldBits_append, fieldBits_cons, List.length_append, bitsOf_length]
    rfl
  rw [pack_length, bytesFor, hbits]
  omega

theorem payload1_length (h8 : 8 ≤ lr) (h16 : lr ≤ 16) : ∀ {cs : List Chunk} {R : Rings} {p : Nat}, R.Parses B cs →
    Tiles n p (boundsOf cs) → (payload1 lr B cs).length ≤ 12 * (n - p) + 140500 * cs.length
  | [], _, _, _, _ => Nat.zero_le _
  | c :: cs, R, p, hparses, htiles => by
    obtain ⟨hc, hparses⟩ := hparses
    obtain ⟨rfl, hn, -, htiles⟩ := tiles_boundsOf_cons.mp htiles
    have hle := htiles.le
    have hchunk := chunkFields_length h8 h16 (Chunk.streams_fit hc hn)
    have ih := payload1_length h8 h16 hparses htiles
    rw [payload1, List.flatMap_cons, List.length_append, List.length_cons, ← payload1]
    omega

/-! ### Back end 2 (47_rolz_backend2.md R351, R352) -/

/-- A bit emits at most one group. -/
theorem codeRun_length : ∀ (run : List (Prob12 × Bool)) (iv : Interval), (codeRun iv run).1.length ≤ run.length
  | [], _ => Nat.le_refl _
  | x :: run, iv => by
    rw [codeRun]
    dsimp only
    split_ifs
    · exact Nat.succ_le_succ (codeRun_length run _)
    · exact Nat.le_succ_of_le (codeRun_length run _)

theorem groupsBytes_length : ∀ groups : List Word, (groupsBytes groups).length = 4 * groups.length
  | [] => rfl
  | g :: groups => by
    rw [groupsBytes, List.flatMap_cons, List.length_append, ← groupsBytes, groupsBytes_length groups, List.length_cons,
      beBytes4_length]
    omega

/-- A literal takes 9 bits; a match, of three bytes or more, at most 24. -/
theorem Models.run_length : ∀ {ts : List (Option Match)} {p : Nat} {ms : Models}, R.Parse D n p ts →
    (Models.run R.lpc.toNat D ms p ts).length ≤ 9 * (n - p)
  | [], _, _, _ => Nat.zero_le _
  | none :: ts, p, ms, h => by
    obtain ⟨hp, hts⟩ := h
    have ih := Models.run_length (ms := ms.next R.lpc.toNat D p none) hts
    rw [Models.run, List.length_append, Models.coded, LocalModel.run_length, symbolBits_length, stepTo]
    omega
  | some m :: ts, p, ms, h => by
    obtain ⟨hm, hts⟩ := h
    have hmin := hm.minimum
    have hin := hm.inside
    have hlpc := R.lpc.isLt
    have ih := Models.run_length (ms := ms.next R.lpc.toNat D p (some m)) hts
    rw [Models.run, List.length_append, Models.coded, List.length_append, LocalModel.run_length, LocalModel.run_length,
      symbolBits_length, indexBits_length, stepTo]
    omega

theorem runOf_length : ∀ {cs : List Chunk} {R : Rings} {ms : Models} {p : Nat}, R.Parses B cs → Tiles n p (boundsOf cs) →
    (runOf R.lpc.toNat B ms cs).length ≤ 9 * (n - p)
  | [], _, _, _, _, _ => Nat.zero_le _
  | c :: cs, R, ms, p, hparses, htiles => by
    obtain ⟨hc, hparses⟩ := hparses
    obtain ⟨rfl, hn, -, htiles⟩ := tiles_boundsOf_cons.mp htiles
    have hle := htiles.le
    have hchunk := Models.run_length (ms := ms) hc
    have ih := runOf_length (ms := Models.after R.lpc.toNat (c.data B) ms 0 c.decisions) hparses htiles
    rw [Rings.upTo_lpc, show R.cleared.lpc = R.lpc from rfl] at ih
    rw [show R.cleared.lpc = R.lpc from rfl] at hchunk
    rw [runOf, List.length_append]
    omega

theorem payload2_length {cs : List Chunk} (hparses : R.Parses B cs) (htiles : Tiles n 0 (boundsOf cs)) :
    (payload2 R.lpc.toNat B cs).length ≤ 36 * n + 8 := by
  have hrun : (blockRun R.lpc.toNat B cs).length ≤ 9 * (n - 0) := runOf_length hparses htiles
  have hgroups := codeRun_length (blockRun R.lpc.toNat B cs) Interval.initial
  have hlow : (beBytes (codeRun Interval.initial (blockRun R.lpc.toNat B cs)).2.low).length = 8 := rfl
  rw [payload2, List.length_append, runBytes, groupsBytes_length, hlow]
  omega

end Sys2Proof.Machine
end

section
/-!
O48: a DST window with the bounds of the payload has room for the encoded block.
-/

namespace Sys2Proof.Machine

variable {w : Windows} {B : Nat → Byte} {lr a : Nat} {R : Rings} {z : Rolz} {e : Env} {cs : List Chunk} {size : BitVec 32}
  {payload : List Byte}

theorem chunksOf_length {n : Nat} (hn : n ≤ 2 ^ 27) : (chunksOf n).length ≤ 2 := by
  have hlen : (chunksOf n).length = (n + Config.chunkSize - 1) / Config.chunkSize := by simp [chunksOf]
  rw [hlen, Config.chunkSize]
  omega

/-- The payload of either back end is no longer than the bounds on the window leave room for. -/
theorem payloadOf_length {n : Nat} {backend : BitVec 2} (hcs : boundsOf cs = chunksOf n) (hparses : R.Parses B cs)
    (hn : n ≤ 2 ^ 27) (hb : backend = 1 ∨ backend = 2) (hlr : backend = 1 → 8 ≤ lr ∧ lr ≤ 16) :
    (backend = 1 → (payloadOf backend lr R.lpc.toNat B cs).length ≤ 12 * n + 281000) ∧
      (backend = 2 → (payloadOf backend lr R.lpc.toNat B cs).length ≤ 36 * n + 8) := by
  have htiles : Tiles n 0 (boundsOf cs) := hcs ▸ tiles_chunksOf n
  rcases hb with rfl | rfl
  · refine ⟨fun _ => ?_, nofun⟩
    obtain ⟨h8, h16⟩ := hlr rfl
    have hcount : cs.length ≤ 2 := by
      rw [show cs.length = (boundsOf cs).length from (List.length_map ..).symm, hcs]
      exact chunksOf_length hn
    have hlen := payload1_length h8 h16 hparses htiles
    rw [payloadOf, if_pos rfl]
    omega
  · refine ⟨nofun, fun _ => ?_⟩
    rw [payloadOf, if_neg (by decide)]
    split_ifs
    · exact Nat.zero_le _
    · exact payload2_length hparses htiles

/-- What a window reads from which an encoded block was stored: the size in front and the tail behind (46_rolz_backend1.md
R320). -/
theorem memBytes_encodedBlock (e : Env) (a : Nat) (size : BitVec 32) (payload : List Byte) (B : Nat → Byte) :
    memBytes (e.stored a (encodedBlock size payload B)).mem a 4 = beBytes4 size ∧
      memBytes (e.stored a (encodedBlock size payload B)).mem
        (a + (encodedBlock size payload B).length - tailOf size.toNat) (tailOf size.toNat) =
        dataFrom B (size.toNat - tailOf size.toNat) (tailOf size.toNat) := by
  obtain ⟨hsize, -, htail⟩ := encodedBlock_parts (dataFrom_read (memBytes_stored e a (encodedBlock size payload B)))
  refine ⟨by rw [← hsize]; simp only [memBytes, dataFrom, Nat.zero_add], ?_⟩
  rw [← htail, encodedBlock_length, show a + (4 + payload.length + tailOf size.toNat) - tailOf size.toNat =
    a + (4 + payload.length) by omega]
  simp only [memBytes, dataFrom, Nat.add_assoc]

/-- `RZ_FWD` past its checks completes when the window has room for what either back end can emit. -/
theorem encodeBlock_completes (hw : w.Apart) (he : e.Holds w.srcBase.toNat w.srcLen.toNat B) (h0 : w.srcLen.toNat ≠ 0)
    (hmax : w.srcLen.toNat ≤ 2 ^ 27) (hb : z.backend = 1 ∨ z.backend = 2) (hlr : z.backend = 1 → 8 ≤ lr ∧ lr ≤ 16)
    (hcap1 : z.backend = 1 → 16 * w.srcLen.toNat + 2 ^ 20 ≤ w.dstCap.toNat)
    (hcap2 : z.backend = 2 → 36 * w.srcLen.toNat + 16 ≤ w.dstCap.toNat) :
    ∃ (payload : List Byte) (z' : Rolz), (encodedBlock w.srcLen payload B).length ≤ w.dstCap.toNat ∧
      encodeBlock w lr (z, e) = .ok (BitVec.ofNat 64 (encodedBlock w.srcLen payload B).length)
        (z'.ended, e.stored w.dstBase.toNat (encodedBlock w.srcLen payload B)) := by
  obtain ⟨cs, z', hcs, hparses, hroom, -⟩ := encodeBlock_emits hw he h0 z lr
  have hpayload := payloadOf_length hcs hparses ((Nat.sub_le _ _).trans hmax) hb hlr
  have hlen := encodedBlock_length w.srcLen (payloadOf z.backend lr z.lpc.toNat B cs) B
  rw [show (Rings.fresh z.lpc).lpc = z.lpc from rfl] at hpayload
  have htail : tailOf w.srcLen.toNat = min 4 w.srcLen.toNat := rfl
  have hfits : (encodedBlock w.srcLen (payloadOf z.backend lr z.lpc.toNat B cs) B).length ≤ w.dstCap.toNat := by
    rcases hb with hb | hb
    · have hlen1 := hpayload.1 hb
      have hcap1 := hcap1 hb
      omega
    · have hlen2 := hpayload.2 hb
      have hcap2 := hcap2 hb
      omega
  have hin : w.Room 0 (encodedBlock w.srcLen (payloadOf z.backend lr z.lpc.toNat B cs) B) := .inr (by omega)
  have hrun := hroom hin
  rw [Env.put_of_room hin] at hrun
  exact ⟨_, z', hfits, hrun⟩

/-- Settles O48: with room for the encoded block, the run that emits it completes. -/
theorem rzFwdEncodesBlock : Obligations.RzFwdEncodesBlock := by
  intro s hs hr hb hsrc hdst hover hmax he hlr hcap1 hcap2
  have hw : s.win.Apart := ⟨⟨hsrc, hdst⟩, hover⟩
  by_cases h0 : s.win.srcLen.toNat = 0
  · exact ⟨s.rz.uncounted.ended, s.env.mem, 0,
      exec_completes (i := .rzFwd) nofun hs (rzFwdBody_of hr hw hmax (encodeBlock_empty h0 _)), hr, rfl, rfl, rfl,
      fun _ => rfl, fun h => absurd h0 h, Nat.zero_le _, fun h => absurd h0 h, fun _ _ => rfl⟩
  · have hholds := Env.Holds.self he s.win.srcBase.toNat s.win.srcLen.toNat
    obtain ⟨payload, z, hfits, hrun⟩ := encodeBlock_completes hw hholds h0 hmax hb hlr hcap1 hcap2
    obtain ⟨hready, hbackend, hlpc, -⟩ := (encodeBlock_keeps s.logRange.toNat).of_ok hrun
    obtain ⟨hfront, hback⟩ := memBytes_encodedBlock s.env s.win.dstBase.toNat s.win.srcLen payload
      fun i => Memory.read s.env.mem (s.win.srcBase.toNat + i)
    have hlen := encodedBlock_length s.win.srcLen payload fun i => Memory.read s.env.mem (s.win.srcBase.toNat + i)
    have htail : tailOf s.win.srcLen.toNat = min 4 s.win.srcLen.toNat := rfl
    have hdata : dataFrom (fun i => Memory.read s.env.mem (s.win.srcBase.toNat + i))
        (s.win.srcLen.toNat - tailOf s.win.srcLen.toNat) (tailOf s.win.srcLen.toNat) =
        memBytes s.env.mem (s.win.srcBase.toNat + s.win.srcLen.toNat - min 4 s.win.srcLen.toNat)
          (min 4 s.win.srcLen.toNat) := by
      rw [htail, Nat.add_sub_assoc (Nat.min_le_right _ _)]
      simp only [memBytes, dataFrom, Nat.add_assoc]
    refine ⟨z.ended, _, (encodedBlock s.win.srcLen payload fun i => Memory.read s.env.mem (s.win.srcBase.toNat + i)).length,
      exec_completes (i := .rzFwd) nofun hs (rzFwdBody_of hr hw hmax hrun), hready.trans hr, hbackend, hlpc, rfl,
      fun h => absurd h h0, fun _ => by omega, hfits, fun _ => ⟨hfront, hback.trans hdata⟩, fun a ha => ?_⟩
    exact Env.read_stored_out (e := s.env) (a := s.win.dstBase.toNat) (l := encodedBlock s.win.srcLen payload fun i =>
      Memory.read s.env.mem (s.win.srcBase.toNat + i)) (by omega)

end Sys2Proof.Machine
end

section
/-!
O9, O11: `NOP`, and the CSRs `CSRW` writes.
-/

namespace Sys2Proof.Machine

variable {s t : State} {idx : BitVec 8} {v : Word}

/-! ### `NOP` -/

/-- `NOP` does not look at the latch (48_system_commands.md R370). -/
theorem exec_nop (s : State) : exec .nop s = .next (s.completed 0) := rfl

/-- Settles O9: `NOP` completes whatever the latch holds, and its opcode and all its operand fields are zero. -/
theorem nopCompletes : Obligations.NopCompletes :=
  ⟨exec_nop, by decide⟩

/-! ### What `CSRW` writes -/

/-- A value below 2^32 written to each of the window CSRs. -/
theorem writeCsr_window (s : State) (hv : v.toNat < 2 ^ 32) :
    writeCsr s 0x05 v = some (s.withWin { s.win with srcBase := v.setWidth 32 }) ∧
      writeCsr s 0x06 v = some (s.withWin { s.win with srcLen := v.setWidth 32 }) ∧
      writeCsr s 0x07 v = some (s.withWin { s.win with dstBase := v.setWidth 32 }) ∧
      writeCsr s 0x08 v = some (s.withWin { s.win with dstCap := v.setWidth 32 }) := by
  unfold writeCsr
  rw [decide_eq_true hv]
  exact ⟨rfl, rfl, rfl, rfl⟩

theorem writeCsr_logRange (s : State) (h8 : 8 ≤ v.toNat) (h16 : v.toNat ≤ 16) :
    writeCsr s 0x0B v = some (s.withLogRange (v.setWidth 5)) :=
  if_pos ⟨h8, h16⟩

/-- Every other index, and every other value, is illegal. -/
theorem writeCsr_illegal (s : State) (hwin : ¬(5 ≤ idx.toNat ∧ idx.toNat ≤ 8 ∧ v.toNat < 2 ^ 32))
    (hlr : ¬(idx.toNat = 0x0B ∧ 8 ≤ v.toNat ∧ v.toNat ≤ 16)) : writeCsr s idx v = none := by
  unfold writeCsr
  simp only [decide_eq_true_eq]
  split
  case h_5 hi => exact if_neg fun hv => hlr ⟨hi, hv⟩
  case h_6 => rfl
  all_goals exact if_neg fun hv => hwin (by omega)

/-! ### `CSRW` -/

/-- `CSRW` of a legal value completes on the state written. -/
theorem exec_csrw_of_some (hs : s.live) (h : writeCsr s idx v = some t) : exec (.csrw idx v) s = .next (t.completed 0) := by
  refine exec_completes (i := .csrw idx v) nofun hs ?_
  show csrwBody idx v s = _
  rw [csrwBody, Cmd.get_bind, h]
  rfl

/-- `CSRW` of an illegal value fails on the state as it was. -/
theorem exec_csrw_of_none (hs : s.live) (h : writeCsr s idx v = none) :
    exec (.csrw idx v) s = .next (s.failed 0x03 .invalidParameter 8) := by
  refine exec_fails (i := .csrw idx v) (sub := 8) nofun hs ?_
  show csrwBody idx v s = _
  rw [csrwBody, Cmd.get_bind, h]
  rfl

/-- Settles O11: `CSRW` completes where `writeCsr` answers a state, and fails where it answers none. -/
theorem csrwWritesWritableCsrs : Obligations.CsrwWritesWritableCsrs := by
  intro s v hs
  refine ⟨fun hv => ?_, fun h8 h16 => ?_, fun idx hwin hlr => exec_csrw_of_none hs (writeCsr_illegal s hwin hlr)⟩
  · obtain ⟨hsrcBase, hsrcLen, hdstBase, hdstCap⟩ := writeCsr_window s hv
    simp only [BitVec.ofNat_toNat]
    exact ⟨exec_csrw_of_some hs hsrcBase, exec_csrw_of_some hs hsrcLen, exec_csrw_of_some hs hdstBase,
      exec_csrw_of_some hs hdstCap⟩
  · rw [BitVec.ofNat_toNat]
    exact exec_csrw_of_some hs (writeCsr_logRange s h8 h16)

end Sys2Proof.Machine
end

section
/-!
O7: what a faulted KZE does with a command word.
-/

namespace Sys2Proof.Machine

variable {s : State} {w : CmdWord} {i : Instr}

/-! ### The command a word with opcode 0 or 1 decodes to -/

/-- A word carries the opcode of the command it decodes to. -/
theorem opcode_of_decode (h : decode w = .ok i) : i.opcode = fieldOpcode w := by
  obtain ⟨row, hrow, -, hbuild⟩ := decode_ok_iff.mp h
  exact hbuild ▸ opcode_build hrow w

/-- The row of the opcode 0 builds nothing but `NOP` (30_encoding.md R105). -/
theorem eq_nop_of_decode (h : decode w = .ok i) (hop : fieldOpcode w = 0x00) : i = .nop := by
  obtain ⟨row, hrow, -, hbuild⟩ := decode_ok_iff.mp h
  rw [hop] at hrow
  cases hrow
  exact hbuild.symm

/-- The row of the opcode 1 builds nothing but `RESET` (30_encoding.md R105). -/
theorem eq_reset_of_decode (h : decode w = .ok i) (hop : fieldOpcode w = 0x01) : i = .reset := by
  obtain ⟨row, hrow, -, hbuild⟩ := decode_ok_iff.mp h
  rw [hop] at hrow
  cases hrow
  exact hbuild.symm

/-! ### The CSRs a faulted KZE answers -/

/-- The map has no hole up to 0x0F (10_state.md R26). -/
theorem exists_readCsr (s : State) {idx : BitVec 8} (h : idx.toNat ≤ 0x0F) : ∃ v, readCsr s idx = some v := by
  unfold readCsr
  generalize idx.toNat = k at *
  interval_cases k <;> exact ⟨_, rfl⟩

/-- What the host presents is in no CSR. -/
theorem readCsr_withInbox (s : State) (rest : List HostInput) (idx : BitVec 8) :
    readCsr (s.withInbox rest) idx = readCsr s idx := rfl

/-! ### A command word in the faulted state -/

/-- A faulted KZE tells words that are no command apart by the opcode alone (60_exceptions.md R397). -/
theorem runIllegal_faulted (op : Byte) (e : DecodeError) (h : s.latch.err = true) :
    runIllegal op e s = if op = 0x00 then .next (s.completed 0) else if op = 0x01 then exec .reset s else .next s.refused :=
  if_pos h

/-- The opcode 0 is `NOP`, whatever the reserved bits. -/
theorem runWord_faulted_nop (h : s.latch.err = true) (hop : fieldOpcode w = 0x00) :
    runWord w s = .next (s.completed 0) := by
  cases hd : decode w with
  | ok i => rw [runWord_of_ok hd, eq_nop_of_decode hd hop, exec_nop]
  | error e => rw [runWord_of_error hd, runIllegal_faulted _ e h, if_pos hop]

/-- The opcode 1 is `RESET`, whatever the reserved bits. -/
theorem runWord_faulted_reset (h : s.latch.err = true) (hop : fieldOpcode w = 0x01) : runWord w s = exec .reset s := by
  cases hd : decode w with
  | ok i => rw [runWord_of_ok hd, eq_reset_of_decode hd hop]
  | error e =>
    have h0 : fieldOpcode w ≠ 0x00 := by
      rw [hop]
      decide
    rw [runWord_of_error hd, runIllegal_faulted _ e h, if_neg h0, if_pos hop]

/-- A faulted KZE refuses every command but `NOP`, `RESET` and `CSRR` of a CSR of the map. -/
theorem exec_faulted_refuses (h : s.latch.err = true) (h0 : i ≠ .nop) (h1 : i ≠ .reset)
    (hcsrr : ∀ idx : BitVec 8, idx.toNat ≤ 0x0F → i ≠ .csrr idx) : exec i s = .next s.refused := by
  by_cases hr : ∃ idx, i = .csrr idx
  · obtain ⟨idx, rfl⟩ := hr
    have hidx : 0x0F < idx.toNat := not_le.mp fun hle => hcsrr idx hle rfl
    rw [exec_csrr_of_none (readCsr_of_reserved hidx), if_pos h]
  · rw [exec_command s h0 h1 fun idx hi => hr ⟨idx, hi⟩]
    exact command_faulted _ _ _ h

/-- A faulted KZE refuses every other word, a command's or not. -/
theorem runWord_faulted_refuses (h : s.latch.err = true) (h0 : fieldOpcode w ≠ 0x00) (h1 : fieldOpcode w ≠ 0x01)
    (hcsrr : ∀ idx : BitVec 8, idx.toNat ≤ 0x0F → w ≠ encode (.csrr idx)) : runWord w s = .next s.refused := by
  cases hd : decode w with
  | ok i =>
    have hop := opcode_of_decode hd
    have hw : encode i = w := encodeOfDecode w i hd
    rw [runWord_of_ok hd]
    refine exec_faulted_refuses h ?_ ?_ fun idx hidx hi => hcsrr idx hidx ?_
    · rintro rfl
      exact h0 hop.symm
    · rintro rfl
      exact h1 hop.symm
    · rw [← hw, hi]
  | error e => rw [runWord_of_error hd, runIllegal_faulted _ e h, if_neg h0, if_neg h1]

/-- Settles O7: the step runs the word presented, by its opcode, as an encoding of `CSRR`, or as a refusal. -/
theorem faultedStateAcceptsThreeCommands : Obligations.FaultedStateAcceptsThreeCommands := by
  intro s w rest hin hf
  have hstep : step s = runWord w (s.withInbox rest) := step_of_inbox hin
  have hf' : (s.withInbox rest).latch.err = true := hf
  rw [hstep]
  refine ⟨runWord_faulted_nop hf', runWord_faulted_reset hf', fun idx hidx hw => ?_, runWord_faulted_refuses hf'⟩
  obtain ⟨v, hv⟩ := exists_readCsr s hidx
  refine ⟨v, hv, ?_⟩
  rw [hw, runWord_of_ok (decodeOfEncode (.csrr idx))]
  exact exec_csrr_of_some ((readCsr_withInbox s rest idx).trans hv)

end Sys2Proof.Machine
end
